-- ==== Sys2Proof/Word.lean ====
section
/-! DEFINITION. The machine's words: bytes, binary64 and binary32 bit patterns, 32-bit record fields. -/

namespace Sys2Proof

/-- One byte of memory (20_memory.md R70). -/
abbrev Byte := BitVec 8

/-- An IEEE 754 binary64 value, held as its bit pattern, so that NaN payloads and the sign of zero are kept
(00_scope.md R7, R13; 20_memory.md R78). -/
abbrev F64 := BitVec 64

/-- An IEEE 754 binary32 bit pattern. Only L.S and S.S meet one (43_fp_arith.md R240). -/
abbrev F32 := BitVec 32

/-- A signed 32-bit record field, `offset` or `immediate` (00_scope.md R7, 30_encoding.md R126). -/
abbrev I32 := BitVec 32

end Sys2Proof
end

