-- ==== Sys2Proof/Syntax.lean ====
section
/-! DEFINITION. The instructions and the host's records (30_encoding.md R120–R124). -/

namespace Sys2Proof

/-- The twenty op codes (00_scope.md R2, 30_encoding.md R123). -/
inductive OpCode where
  | daddi | dsubi
  | lw | ld | ls | ldd
  | sw | sd | ss | sdd
  | addS | addD | subS | subD | mulS | mulD | divS | divD
  | beq | bne
deriving DecidableEq, Repr

/-- The two register classes (10_state.md R30). -/
inductive RegClass where
  | int | fp
deriving DecidableEq, Repr

/-- One of the 64 architectural registers: `r n` is Rn, `f n` is Fn (10_state.md R30). -/
inductive Reg where
  | r (i : Fin 32)
  | f (i : Fin 32)
deriving DecidableEq, Repr

/-- A register field of a host's record before it is checked: a class and any index (30_encoding.md R121, D44:
"Records carry class and index, not text"). -/
structure RegField where
  cls : RegClass
  idx : Nat
deriving DecidableEq, Repr

/-- The normalized input record (30_encoding.md R121), before it is checked: any 6-bit op, any field present or
absent. `base` is the spec's `base_reg`. -/
structure Record where
  id : BitVec 32
  op : BitVec 6
  dest : Option RegField
  src1 : Option RegField
  src2 : Option RegField
  base : Option RegField
  offset : I32
  immediate : I32
deriving DecidableEq, Repr

/-- The five record formats (30_encoding.md R122). -/
inductive Format where
  | fr | ii | ldf | stf | br
deriving DecidableEq, Repr

/-- The station kinds, in pool order (10_state.md R40, R45). -/
inductive Kind where
  | fpAdd | fpMul | fpDiv | intAdd | load | store | branch
deriving DecidableEq, Repr

/-- The instructions, one constructor per row of the opcode table. Register operands are indexes into the class that
30_encoding.md R124 gives the field; immediates and offsets are i32 (R126). `ls`, `ldd`, `ss`, `sdd` are L.S, L.D,
S.S and S.D; `ld` and `sd` are LD and SD. -/
inductive Instr where
  | daddi (rt rs : Fin 32) (imm : I32)
  | dsubi (rt rs : Fin 32) (imm : I32)
  | lw (rt rb : Fin 32) (off : I32)
  | ld (rt rb : Fin 32) (off : I32)
  | ls (ft rb : Fin 32) (off : I32)
  | ldd (ft rb : Fin 32) (off : I32)
  | sw (rt rb : Fin 32) (off : I32)
  | sd (rt rb : Fin 32) (off : I32)
  | ss (ft rb : Fin 32) (off : I32)
  | sdd (ft rb : Fin 32) (off : I32)
  | addS (fd fs ft : Fin 32)
  | addD (fd fs ft : Fin 32)
  | subS (fd fs ft : Fin 32)
  | subD (fd fs ft : Fin 32)
  | mulS (fd fs ft : Fin 32)
  | mulD (fd fs ft : Fin 32)
  | divS (fd fs ft : Fin 32)
  | divD (fd fs ft : Fin 32)
  | beq (rs rt : Fin 32) (target : I32)
  | bne (rs rt : Fin 32) (target : I32)
deriving DecidableEq, Repr

/-- The op code of an instruction. -/
def Instr.op : Instr → OpCode
  | .daddi .. => .daddi
  | .dsubi .. => .dsubi
  | .lw .. => .lw
  | .ld .. => .ld
  | .ls .. => .ls
  | .ldd .. => .ldd
  | .sw .. => .sw
  | .sd .. => .sd
  | .ss .. => .ss
  | .sdd .. => .sdd
  | .addS .. => .addS
  | .addD .. => .addD
  | .subS .. => .subS
  | .subD .. => .subD
  | .mulS .. => .mulS
  | .mulD .. => .mulD
  | .divS .. => .divS
  | .divD .. => .divD
  | .beq .. => .beq
  | .bne .. => .bne

/-- The six named checks of a record, in their order (30_encoding.md R127). -/
inductive WfCheck where
  | wfOp | wfRegName | wfFields | wfClass | wfTarget | wfId
deriving DecidableEq, Repr

end Sys2Proof
end

