-- ==== Sys2Proof/Decode.lean ====
section
/-! DEFINITION. The encoding tables of 30_encoding.md, the checks a record must pass, decoding and encoding of
records, and the packed form of a record that carries it as bits (log 1). -/

namespace Sys2Proof

/-! ## The op table (30_encoding.md R122–R124) -/

/-- The numeric code of an op (30_encoding.md R123). -/
def OpCode.code : OpCode → BitVec 6
  | .daddi => 0x01#6
  | .dsubi => 0x02#6
  | .lw => 0x10#6
  | .ld => 0x11#6
  | .ls => 0x12#6
  | .ldd => 0x13#6
  | .sw => 0x18#6
  | .sd => 0x19#6
  | .ss => 0x1A#6
  | .sdd => 0x1B#6
  | .addS => 0x20#6
  | .addD => 0x21#6
  | .subS => 0x22#6
  | .subD => 0x23#6
  | .mulS => 0x24#6
  | .mulD => 0x25#6
  | .divS => 0x26#6
  | .divD => 0x27#6
  | .beq => 0x30#6
  | .bne => 0x31#6

/-- All twenty op codes, in the table's order. -/
def OpCode.all : List OpCode :=
  [.daddi, .dsubi, .lw, .ld, .ls, .ldd, .sw, .sd, .ss, .sdd] ++
  [.addS, .addD, .subS, .subD, .mulS, .mulD, .divS, .divD, .beq, .bne]

/-- The op a code names; every other value of `op[5:0]` is illegal (30_encoding.md R123, R128). -/
def OpCode.ofCode (c : BitVec 6) : Option OpCode := OpCode.all.find? fun o => o.code == c

/-- The record format of an op (30_encoding.md R122, R124). -/
def OpCode.format : OpCode → Format
  | .daddi => .ii
  | .dsubi => .ii
  | .lw => .ldf
  | .ld => .ldf
  | .ls => .ldf
  | .ldd => .ldf
  | .sw => .stf
  | .sd => .stf
  | .ss => .stf
  | .sdd => .stf
  | .addS => .fr
  | .addD => .fr
  | .subS => .fr
  | .subD => .fr
  | .mulS => .fr
  | .mulD => .fr
  | .divS => .fr
  | .divD => .fr
  | .beq => .br
  | .bne => .br

/-- The class of an op's data register, the one of `dest`, or of `src1` for a store: F for the FP ops and the .S and
.D memory ops, R for the others (30_encoding.md R124). -/
def OpCode.dataClass : OpCode → RegClass
  | .daddi => .int
  | .dsubi => .int
  | .lw => .int
  | .ld => .int
  | .ls => .fp
  | .ldd => .fp
  | .sw => .int
  | .sd => .int
  | .ss => .fp
  | .sdd => .fp
  | .addS => .fp
  | .addD => .fp
  | .subS => .fp
  | .subD => .fp
  | .mulS => .fp
  | .mulD => .fp
  | .divS => .fp
  | .divD => .fp
  | .beq => .int
  | .bne => .int

/-- The class `dest` must have; `none` where the format has no destination (30_encoding.md R122, R124). -/
def OpCode.destClass (o : OpCode) : Option RegClass :=
  match o.format with
  | .fr | .ii | .ldf => some o.dataClass
  | .stf | .br => none

/-- The class `src1` must have; `none` where the format has no such field. -/
def OpCode.src1Class (o : OpCode) : Option RegClass :=
  match o.format with
  | .fr | .ii | .stf | .br => some o.dataClass
  | .ldf => none

/-- The class `src2` must have; `none` where the format has no such field. -/
def OpCode.src2Class (o : OpCode) : Option RegClass :=
  match o.format with
  | .fr | .br => some o.dataClass
  | .ii | .ldf | .stf => none

/-- The class `base_reg` must have; `none` where the format has no such field. -/
def OpCode.baseClass (o : OpCode) : Option RegClass :=
  match o.format with
  | .ldf | .stf => some .int
  | .fr | .ii | .br => none

/-! ## The checks of a record (30_encoding.md R127) -/

/-- A present register field names a register of 10_state.md R30. -/
def RegField.named (f : Option RegField) : Bool := f.all fun x => x.idx ≤ 31

/-- A field is present exactly where its format marks it P, and absent where it is marked —. -/
def RegField.placed (want : Option RegClass) (f : Option RegField) : Bool := f.isSome == want.isSome

/-- A present field has the class its op asks for. -/
def RegField.classed (want : Option RegClass) (f : Option RegField) : Bool :=
  f.all fun x => want.all fun c => x.cls == c

/-- WF_REGNAME. -/
def Record.regNamesOk (r : Record) : Bool :=
  RegField.named r.dest && RegField.named r.src1 && RegField.named r.src2 && RegField.named r.base

/-- WF_FIELDS. -/
def Record.fieldsOk (o : OpCode) (r : Record) : Bool :=
  RegField.placed o.destClass r.dest && RegField.placed o.src1Class r.src1 &&
  RegField.placed o.src2Class r.src2 && RegField.placed o.baseClass r.base

/-- WF_CLASS. -/
def Record.classesOk (o : OpCode) (r : Record) : Bool :=
  RegField.classed o.destClass r.dest && RegField.classed o.src1Class r.src1 &&
  RegField.classed o.src2Class r.src2 && RegField.classed o.baseClass r.base

/-- WF_TARGET, for a program of `n` records: a branch's target is a record index 0 … n. -/
def Record.targetOk (o : OpCode) (n : Nat) (r : Record) : Bool :=
  match o.format with
  | .br => decide (0 ≤ r.immediate.toInt) && decide (r.immediate.toInt ≤ (n : Int))
  | .fr | .ii | .ldf | .stf => true

/-- WF_ID, for the record at index `i`. -/
def Record.idOk (i : Nat) (r : Record) : Bool := r.id.toNat == i

/-! ## Decoding a record -/

/-- The index a checked register field carries (the value for an absent field is never used). -/
def RegField.index : Option RegField → Fin 32
  | some f => Fin.ofNat 32 f.idx
  | none => 0

/-- The instruction of a record whose op is `o`, field by field (30_encoding.md R122, R125, R126). -/
def Record.build (o : OpCode) (r : Record) : Instr :=
  let d := RegField.index r.dest
  let s1 := RegField.index r.src1
  let s2 := RegField.index r.src2
  let b := RegField.index r.base
  match o with
  | .daddi => .daddi d s1 r.immediate
  | .dsubi => .dsubi d s1 r.immediate
  | .lw => .lw d b r.offset
  | .ld => .ld d b r.offset
  | .ls => .ls d b r.offset
  | .ldd => .ldd d b r.offset
  | .sw => .sw s1 b r.offset
  | .sd => .sd s1 b r.offset
  | .ss => .ss s1 b r.offset
  | .sdd => .sdd s1 b r.offset
  | .addS => .addS d s1 s2
  | .addD => .addD d s1 s2
  | .subS => .subS d s1 s2
  | .subD => .subD d s1 s2
  | .mulS => .mulS d s1 s2
  | .mulD => .mulD d s1 s2
  | .divS => .divS d s1 s2
  | .divD => .divD d s1 s2
  | .beq => .beq s1 s2 r.immediate
  | .bne => .bne s1 s2 r.immediate

/-- Decode one record: the checks of R127 that a record alone can fail, in their order, each refused by its name. -/
def decodeRecord (r : Record) : Except WfCheck Instr :=
  match OpCode.ofCode r.op with
  | none => .error .wfOp
  | some o =>
    if r.regNamesOk then
      if r.fieldsOk o then
        if r.classesOk o then .ok (r.build o) else .error .wfClass
      else .error .wfFields
    else .error .wfRegName

/-- All six checks of R127, in their order, for the record at index `i` of a program of `n` records. -/
def checkRecord (n i : Nat) (r : Record) : Except WfCheck Instr :=
  match decodeRecord r with
  | .error e => .error e
  | .ok ins =>
    if r.targetOk ins.op n then
      if r.idOk i then .ok ins else .error .wfId
    else .error .wfTarget

/-! ## The packed form (log 1)

DESIGN CHOICE. The core is handed records, not words (00_scope.md R5), and 30_encoding.md R123 leaves the packed form
to the model. Thirteen bytes, bit 0 the least significant bit of the first byte: byte 0 holds `op[5:0]` with bits 7:6
zero; bytes 1 to 4 hold the index of `dest`, `src1`, `src2` and `base_reg`; bytes 5 to 8 the offset and bytes 9 to 12
the immediate, least significant byte first. The op fixes which fields are present and their classes; a byte of an
absent field must be zero. `id` is not packed: it is the place the record is loaded at. -/

/-- Why bytes are no instruction. -/
inductive DecodeError where
  /-- fewer than thirteen bytes -/
  | truncated
  /-- bits 7:6 of the first byte are not zero -/
  | padding
  /-- the unpacked record fails this check of 30_encoding.md R127 -/
  | record (check : WfCheck)
deriving DecidableEq, Repr

/-- Four bytes, least significant first, as a 32-bit field. -/
def i32OfBytes (b0 b1 b2 b3 : Byte) : I32 := b3 ++ b2 ++ b1 ++ b0

/-- The register field a byte stands for: present with the class the op asks for, or absent; a non-zero byte where the
format has no field is kept, so that WF_FIELDS refuses it. -/
def unpackField (want : Option RegClass) (b : Byte) : Option RegField :=
  match want with
  | some c => some ⟨c, b.toNat⟩
  | none => if b = 0 then none else some ⟨.int, b.toNat⟩

/-- The record a packed word stands for, loaded at index `id`. -/
def unpackRecord (id : Nat) : List Byte → Except DecodeError Record
  | b0 :: d :: s1 :: s2 :: b :: o0 :: o1 :: o2 :: o3 :: i0 :: i1 :: i2 :: i3 :: _ =>
    if b0.toNat < 64 then
      let op : BitVec 6 := b0.setWidth 6
      let want (f : OpCode → Option RegClass) : Option RegClass := (OpCode.ofCode op).bind f
      .ok { id := BitVec.ofNat 32 id, op := op
            dest := unpackField (want OpCode.destClass) d
            src1 := unpackField (want OpCode.src1Class) s1
            src2 := unpackField (want OpCode.src2Class) s2
            base := unpackField (want OpCode.baseClass) b
            offset := i32OfBytes o0 o1 o2 o3
            immediate := i32OfBytes i0 i1 i2 i3 }
    else .error .padding
  | _ => .error .truncated

/-- Decode a packed word: total on any bytes. -/
def decodeBytes (bs : List Byte) : Except DecodeError Instr :=
  match unpackRecord 0 bs with
  | .error e => .error e
  | .ok r =>
    match decodeRecord r with
    | .error c => .error (.record c)
    | .ok i => .ok i

/-! ## Encoding -/

/-- A present field of the record `encodeRecord` makes. -/
def RegField.ofIndex (want : Option RegClass) (i : Fin 32) : Option RegField :=
  want.map fun c => ⟨c, i.val⟩

/-- A record of op `o` with these register indexes; the op's format says which of them the record has. -/
def Record.make (id : Nat) (o : OpCode) (d s1 s2 b : Fin 32) (off imm : I32) : Record where
  id := BitVec.ofNat 32 id
  op := o.code
  dest := RegField.ofIndex o.destClass d
  src1 := RegField.ofIndex o.src1Class s1
  src2 := RegField.ofIndex o.src2Class s2
  base := RegField.ofIndex o.baseClass b
  offset := off
  immediate := imm

/-- The record of an instruction at index `id` (30_encoding.md R122); ignored fields are 0. -/
def encodeRecord (id : Nat) : Instr → Record
  | .daddi rt rs imm => Record.make id .daddi rt rs 0 0 0 imm
  | .dsubi rt rs imm => Record.make id .dsubi rt rs 0 0 0 imm
  | .lw rt rb off => Record.make id .lw rt 0 0 rb off 0
  | .ld rt rb off => Record.make id .ld rt 0 0 rb off 0
  | .ls ft rb off => Record.make id .ls ft 0 0 rb off 0
  | .ldd ft rb off => Record.make id .ldd ft 0 0 rb off 0
  | .sw rt rb off => Record.make id .sw 0 rt 0 rb off 0
  | .sd rt rb off => Record.make id .sd 0 rt 0 rb off 0
  | .ss ft rb off => Record.make id .ss 0 ft 0 rb off 0
  | .sdd ft rb off => Record.make id .sdd 0 ft 0 rb off 0
  | .addS fd fs ft => Record.make id .addS fd fs ft 0 0 0
  | .addD fd fs ft => Record.make id .addD fd fs ft 0 0 0
  | .subS fd fs ft => Record.make id .subS fd fs ft 0 0 0
  | .subD fd fs ft => Record.make id .subD fd fs ft 0 0 0
  | .mulS fd fs ft => Record.make id .mulS fd fs ft 0 0 0
  | .mulD fd fs ft => Record.make id .mulD fd fs ft 0 0 0
  | .divS fd fs ft => Record.make id .divS fd fs ft 0 0 0
  | .divD fd fs ft => Record.make id .divD fd fs ft 0 0 0
  | .beq rs rt t => Record.make id .beq 0 rs rt 0 0 t
  | .bne rs rt t => Record.make id .bne 0 rs rt 0 0 t

/-- The four bytes of a 32-bit field, least significant first. -/
def bytesOfI32 (v : I32) : List Byte :=
  [v.setWidth 8, (v >>> 8).setWidth 8, (v >>> 16).setWidth 8, (v >>> 24).setWidth 8]

/-- The byte of a register field: its index, or zero for an absent field. -/
def packField (f : Option RegField) : Byte :=
  match f with
  | some x => BitVec.ofNat 8 x.idx
  | none => 0

/-- The packed word of a record. -/
def packRecord (r : Record) : List Byte :=
  [r.op.setWidth 8, packField r.dest, packField r.src1, packField r.src2, packField r.base] ++
  bytesOfI32 r.offset ++ bytesOfI32 r.immediate

/-- The packed word of an instruction. -/
def encode (i : Instr) : List Byte := packRecord (encodeRecord 0 i)

/-! ## Words as the opcode table numbers them -/

/-- How many bytes a packed record has. -/
def packedBytes : Nat := 13

/-- The low `n` bytes of a number, least significant first. -/
def bytesOfNat : Nat → Nat → List Byte
  | 0, _ => []
  | n + 1, w => BitVec.ofNat 8 w :: bytesOfNat n (w / 256)

/-- The packed word whose low `nbits` bits are those of `w` and whose other bits are zero. -/
def tableBytes (nbits w : Nat) : List Byte := bytesOfNat packedBytes (w % 2 ^ nbits)

/-- The instruction the decoder reads from a word numbered as spec/opcode_table.json numbers it. -/
def decodeTableWord (nbits w : Nat) : Option Instr :=
  match decodeBytes (tableBytes nbits w) with
  | .ok i => some i
  | .error _ => none

end Sys2Proof
end

