-- ==== Sys2Proof/Config.lean ====
section
/-! DEFINITION. What is fixed for one run: the host's configuration (00_scope.md R8), and the free values of the
spec (93_implementation_defined.md I12, I13, I15), which are constants without a body. -/

namespace Sys2Proof

/-- `lat(op)` of each of the twelve compute ops; `none` is "not configured" (00_scope.md R8, 40_cycle_engine.md
R154: only the ops that occur in the program need one). -/
structure Latencies where
  daddi : Option Nat
  dsubi : Option Nat
  addS : Option Nat
  addD : Option Nat
  subS : Option Nat
  subD : Option Nat
  mulS : Option Nat
  mulD : Option Nat
  divS : Option Nat
  divD : Option Nat
  beq : Option Nat
  bne : Option Nat
deriving DecidableEq, Repr

/-- The configuration parameters of 00_scope.md R8, after the reset checked them. No instruction reads or writes one
(R11). `nIntMul` is accepted and inert (10_state.md R49). -/
structure Config where
  nFpAdd : Nat
  nFpMul : Nat
  nFpDiv : Nat
  nIntAdd : Nat
  nLoad : Nat
  nStore : Nat
  nBranch : Nat
  nIntMul : Option Nat
  lsbMax : Nat
  cacheSize : Nat
  blockSize : Nat
  hitLatency : Nat
  missPenalty : Nat
  loadBaseLatency : Nat
  storeBaseLatency : Nat
  lat : Latencies
  maxCycles : Option Nat
deriving DecidableEq, Repr

/-- Configuration S, the §8 configuration with the vectors' .S latencies (70_reset_and_hazards.md R345,
95_test_vectors.md). DESIGN CHOICE (log 2): the spec gives no default configuration; `State.reset` stands on this
one, and no statement rests on its numbers. -/
def Config.scenario : Config where
  nFpAdd := 4
  nFpMul := 2
  nFpDiv := 2
  nIntAdd := 2
  nLoad := 2
  nStore := 2
  nBranch := 1
  nIntMul := none
  lsbMax := 8
  cacheSize := 256
  blockSize := 16
  hitLatency := 1
  missPenalty := 10
  loadBaseLatency := 2
  storeBaseLatency := 2
  lat := {
    daddi := some 1, dsubi := some 1
    addS := some 2, addD := some 2, subS := some 2, subD := some 2
    mulS := some 10, mulD := some 10, divS := some 40, divD := some 40
    beq := some 1, bne := some 1 }
  maxCycles := none

/-- The free part of a binary64 NaN: its sign and its fraction less one, so that every value of this type is a NaN
and every NaN is a value of it. -/
structure NaN64 where
  sign : Bool
  fracPred : Fin 4503599627370495
deriving DecidableEq, Repr, Inhabited

/-- The free part of a binary32 NaN. -/
structure NaN32 where
  sign : Bool
  fracPred : Fin 8388607
deriving DecidableEq, Repr, Inhabited

/-- Which NaN an FP operation returns (93_implementation_defined.md I15, "any value among binary64 NaNs"): free, for
each dynamic instance, op code and pair of operands. Log 5. -/
opaque Config.freeNaN64 : Nat → Nat → F64 → F64 → NaN64

/-- Which binary32 NaN S.S stores for a binary64 NaN (I12, "any value among binary32 NaNs"): free, for each dynamic
instance and data value. Log 6. -/
opaque Config.freeNaN32 : Nat → F64 → NaN32

/-- The payload (fraction less one) of the binary64 NaN that L.S makes of a binary32 NaN (I13, "any value among
binary64 NaNs with the same sign"): free, for each dynamic instance and loaded word. Log 6. -/
opaque Config.freePayload : Nat → F32 → Fin 4503599627370495

end Sys2Proof
end

