-- ==== Sys2Proof/Machine/Float.lean ====
section
/-! DEFINITION. IEEE 754 binary64 and binary32 as the spec uses them (00_scope.md R13, 43_fp_arith.md R240–R245,
20_memory.md R78, R79; the layouts are G1 and G2, log 11): exact integer arithmetic, one rounding at the end.

Every finite binary64 is a whole multiple of 2^−1074 and every finite binary32 a whole multiple of 2^−149. A finite
value is read as that integer (`scaled`), operations are done on integers, and `roundMag` rounds the exact quotient
of two naturals once, to nearest, ties to even. -/

namespace Sys2Proof.Machine

/-- A power of two, cut so that no single exponent is large (it equals `2 ^ n`: `pow2_eq`). -/
def pow2 (n : Nat) : Nat := (2 ^ 64) ^ (n / 64) * 2 ^ (n % 64)

/-- The largest magnitude code of a format with `p` fraction bits whose largest exponent code is `e`: infinity. -/
def infCode (p e : Nat) : Nat := e * 2 ^ p

/-- Round the exact quotient `num / den`, in units of the format's smallest subnormal, to nearest, ties to even, and
answer the magnitude code (exponent and fraction bits) of a format with `p` fraction bits and infinity `inf`. The code
of a value with significand `m` shifted by `k` is `k * 2^p + m`, for subnormals too; a code at or past infinity is
infinity (R241, R242). -/
def roundMag (p inf num den : Nat) : Nat :=
  let k := Nat.log2 (num / den) - p
  let d := den * pow2 k
  let q := num / d
  let r := num % d
  let m := if d < 2 * r || (2 * r == d && q % 2 == 1) then q + 1 else q
  min (k * 2 ^ p + m) inf

/-! ## binary64 -/

/-- The units in 1.0: 2^1074. -/
def unit64 : Nat := pow2 1074

/-- The sign bit. -/
def F64.sign (v : F64) : Bool := v.msb

/-- The exponent code. -/
def F64.expo (v : F64) : Nat := v.toNat / 2 ^ 52 % 2048

/-- The fraction bits. -/
def F64.frac (v : F64) : Nat := v.toNat % 2 ^ 52

def F64.isFinite (v : F64) : Bool := decide (F64.expo v < 2047)

def F64.isNaN (v : F64) : Bool := F64.expo v == 2047 && F64.frac v != 0

def F64.isInf (v : F64) : Bool := F64.expo v == 2047 && F64.frac v == 0

def F64.isZero (v : F64) : Bool := F64.expo v == 0 && F64.frac v == 0

/-- The magnitude of a finite value, in units of 2^−1074. -/
def F64.scaledMag (v : F64) : Nat :=
  if F64.expo v = 0 then F64.frac v else (2 ^ 52 + F64.frac v) * pow2 (F64.expo v - 1)

/-- A finite value, in units of 2^−1074. -/
def F64.scaled (v : F64) : Int := if F64.sign v then -(F64.scaledMag v : Int) else (F64.scaledMag v : Int)

/-- A binary64 from its sign and its magnitude code. -/
def F64.ofCode (sign : Bool) (code : Nat) : F64 := BitVec.ofNat 64 ((if sign then 2 ^ 63 else 0) + code)

/-- The magnitude code of infinity. -/
def F64.inf : Nat := infCode 52 2047

def F64.infinity (sign : Bool) : F64 := F64.ofCode sign F64.inf

def F64.zero (sign : Bool) : F64 := F64.ofCode sign 0

/-- The NaN with this sign and fraction. -/
def F64.ofNaN (n : NaN64) : F64 := F64.ofCode n.sign (F64.inf + (n.fracPred.val + 1))

/-- The binary64 nearest `num / den` units of 2^−1074. -/
def F64.round (sign : Bool) (num den : Nat) : F64 := F64.ofCode sign (roundMag 52 F64.inf num den)

/-- Change the sign bit. -/
def F64.neg (v : F64) : F64 := v ^^^ 0x8000000000000000#64

/-- `+f` (00_scope.md R13); `nan` is the NaN an invalid operation or a NaN operand gives (R242, I15). -/
def F64.add (nan : NaN64) (x y : F64) : F64 :=
  if F64.isNaN x || F64.isNaN y then F64.ofNaN nan
  else if F64.isInf x then
    if F64.isInf y && F64.sign x != F64.sign y then F64.ofNaN nan else x
  else if F64.isInf y then y
  else
    let z := F64.scaled x + F64.scaled y
    if z = 0 then F64.zero (F64.sign x && F64.sign y)
    else F64.round (decide (z < 0)) z.natAbs 1

/-- `-f`: the sum with the second operand's sign changed. -/
def F64.sub (nan : NaN64) (x y : F64) : F64 := F64.add nan x (F64.neg y)

/-- `*f`. -/
def F64.mul (nan : NaN64) (x y : F64) : F64 :=
  let s := F64.sign x != F64.sign y
  if F64.isNaN x || F64.isNaN y then F64.ofNaN nan
  else if F64.isInf x || F64.isInf y then
    if F64.isZero x || F64.isZero y then F64.ofNaN nan else F64.infinity s
  else F64.round s (F64.scaledMag x * F64.scaledMag y) unit64

/-- `/f`, the IEEE 754 operation; the instructions' rule for a zero divisor is `divOrZero`. -/
def F64.div (nan : NaN64) (x y : F64) : F64 :=
  let s := F64.sign x != F64.sign y
  if F64.isNaN x || F64.isNaN y then F64.ofNaN nan
  else if F64.isInf x then
    if F64.isInf y then F64.ofNaN nan else F64.infinity s
  else if F64.isInf y then F64.zero s
  else if F64.isZero y then
    if F64.isZero x then F64.ofNaN nan else F64.infinity s
  else F64.round s (F64.scaledMag x * unit64) (F64.scaledMag y)

/-- The quotient of DIV.S and DIV.D: +0.0 for every dividend when the divisor is a zero (43_fp_arith.md R243). -/
def divOrZero (nan : NaN64) (x y : F64) : F64 :=
  if F64.isZero y then F64.zero false else F64.div nan x y

/-- `==f`: false with a NaN, +0 equals −0 (00_scope.md R13). -/
def F64.eq (x y : F64) : Bool :=
  !F64.isNaN x && !F64.isNaN y && (x == y || (F64.isZero x && F64.isZero y))

/-- `f64(i)`: the binary64 nearest an integer (00_scope.md R13). -/
def F64.ofInt (i : Int) : F64 := F64.round (decide (i < 0)) (i.natAbs * unit64) 1

/-- The integer a value is equal to, if it is integer-valued (00_scope.md R13). -/
def F64.toInt? (v : F64) : Option Int :=
  if F64.isFinite v && F64.scaledMag v % unit64 == 0 then
    let m : Int := (F64.scaledMag v / unit64 : Nat)
    some (if F64.sign v then -m else m)
  else none

/-! ## binary32 -/

/-- The units of 2^−1074 in 2^−149. -/
def unit32 : Nat := pow2 925

def F32.sign (v : F32) : Bool := v.msb

def F32.expo (v : F32) : Nat := v.toNat / 2 ^ 23 % 256

def F32.frac (v : F32) : Nat := v.toNat % 2 ^ 23

def F32.isNaN (v : F32) : Bool := F32.expo v == 255 && F32.frac v != 0

def F32.isInf (v : F32) : Bool := F32.expo v == 255 && F32.frac v == 0

/-- The magnitude of a finite binary32, in units of 2^−149. -/
def F32.scaledMag (v : F32) : Nat :=
  if F32.expo v = 0 then F32.frac v else (2 ^ 23 + F32.frac v) * pow2 (F32.expo v - 1)

def F32.ofCode (sign : Bool) (code : Nat) : F32 := BitVec.ofNat 32 ((if sign then 2 ^ 31 else 0) + code)

/-- The magnitude code of the binary32 infinity. -/
def F32.inf : Nat := infCode 23 255

def F32.ofNaN (n : NaN32) : F32 := F32.ofCode n.sign (F32.inf + (n.fracPred.val + 1))

/-- `bits32(round32(v))`: a finite value rounded to nearest, ties to even, an infinity kept, a NaN replaced by the
binary32 NaN `nan` (20_memory.md R78, I12). -/
def round32 (nan : NaN32) (v : F64) : F32 :=
  if F64.isNaN v then F32.ofNaN nan
  else if F64.isInf v then F32.ofCode (F64.sign v) F32.inf
  else F32.ofCode (F64.sign v) (roundMag 23 F32.inf (F64.scaledMag v) unit32)

/-- `widen`: exact for numbers and infinities; a NaN keeps its sign and takes the payload given
(20_memory.md R79, 42_loadstore.md R215, I13). -/
def widen (payload : Fin 4503599627370495) (b : F32) : F64 :=
  if F32.isNaN b then F64.ofNaN ⟨F32.sign b, payload⟩
  else if F32.isInf b then F64.infinity (F32.sign b)
  else F64.round (F32.sign b) (F32.scaledMag b * unit32) 1

end Sys2Proof.Machine
end

