-- ==== Sys2Proof/Machine/Flags.lean ====
section
/-! DEFINITION. The machine has no flags and no condition codes (10_state.md R57, 43_fp_arith.md R244). What stands in
their place is the comparison a branch makes of two register values when it resolves (44_branch.md R272). -/

namespace Sys2Proof.Machine

/-- BEQ is taken iff its registers' values are IEEE-equal (R275). -/
def takenBeq (u w : F64) : Bool := F64.eq u w

/-- BNE is taken iff they are not (R276). -/
def takenBne (u w : F64) : Bool := !F64.eq u w

end Sys2Proof.Machine
end

