-- ==== Sys2Proof/Machine/State.lean ====
section
/-! DEFINITION. Everything the spec gives the machine, as plain data, and the state after reset
(10_state.md, 20_memory.md, 70_reset_and_hazards.md R334). -/

namespace Sys2Proof.Machine

/-- A station name: kind and index from 1 (10_state.md R39, "A model may represent a tag as the pair"). -/
structure Tag where
  kind : Kind
  idx : Nat
deriving DecidableEq, Repr

/-- One register: its value and the tag of the station that will produce its next value (10_state.md R31). The RAT is
the map of all non-`none` `qi` and is not stored again (R37). -/
structure RegCell where
  value : F64
  qi : Option Tag
deriving DecidableEq, Repr

/-- A reservation station (10_state.md R41). `kind` is the first half of `name`. `op` is `none` exactly when the spec
leaves it unspecified, in a free station (R42, I5; log 4). -/
structure Station where
  name : Tag
  busy : Bool
  op : Option OpCode
  vj : Option F64
  vk : Option F64
  qj : Option Tag
  qk : Option Tag
  a : Option I32
  instruction : Option Nat
  issueCycle : Int
  execStarted : Bool
  remainingCycles : Nat
  dest : Option Reg
  effCycle : Int
deriving DecidableEq, Repr

/-- The constant `kind` of a station (10_state.md R41). -/
def Station.kind (S : Station) : Kind := S.name.kind

/-- A free station: every field at its cleared value (10_state.md R42). -/
def Station.free (T : Tag) : Station where
  name := T
  busy := false
  op := none
  vj := none
  vk := none
  qj := none
  qk := none
  a := none
  instruction := none
  issueCycle := -1
  execStarted := false
  remainingCycles := 0
  dest := none
  effCycle := -1

/-- A dynamic instance (10_state.md R54), with the `taken` mark of branch resolution (44_branch.md R272), which is none before
the resolution and for an instance that is no branch (DESIGN CHOICE, log 24). -/
structure DynInst where
  pc : Nat
  op : OpCode
  station : Tag
  issue : Option Nat
  execStart : Option Nat
  execEnd : Option Nat
  write : Option Nat
  taken : Option Bool
deriving DecidableEq, Repr

/-- A CDB broadcast request (10_state.md R55). -/
structure Request where
  station : Tag
  value : F64
  dest : Option Reg
  op : OpCode
  readyCycle : Nat
deriving DecidableEq, Repr

/-- A cache line (20_memory.md R83). -/
structure CacheLine where
  valid : Bool
  dirty : Bool
  tag : Nat
  data : List Byte
deriving DecidableEq, Repr

/-- A load/store buffer entry (20_memory.md R94). `value` is the encoded store bytes. -/
structure LsbEntry where
  seq : Nat
  op : OpCode
  address : Nat
  size : Nat
  value : Option (List Byte)
  remainingCycles : Nat
  isLoad : Bool
  dest : Option Reg
  station : Tag
  inst : Nat
  started : Bool
deriving DecidableEq, Repr

/-- ByteMemory (20_memory.md R70): the bytes that are not zero, by strictly rising address. -/
abbrev Memory := List Host.Cell

/-- The fatal errors of a run, each with its info (60_exceptions.md R314). They are recorded in `State.fault` by the
cycle that raises them, with the state R312 describes, and `step` answers `.fault` from then on (log 8). -/
inductive Fault where
  /-- Raised by `readValue` at branch resolution when the register is pending (R301); no reachable state raises it
  (44_branch.md R277). Safe: the machine stops where the spec says it stops. -/
  | registerBusy (r : Reg)
  /-- Raised by the handover of a load or store whose range leaves memory (R305), and by ByteMemory for a block that
  leaves it (20_memory.md R72, unreachable). Safe: as the spec says. -/
  | badAddress (ea : Int)
  /-- Raised by the handover of a load or store whose address is no multiple of 4 (R308). Safe: as the spec says. -/
  | misaligned (ea : Int)
  /-- Raised by the handover of an SW or SD whose data does not fit the store (R309). Safe: as the spec says. -/
  | unrepresentable (v : F64)
deriving DecidableEq, Repr

/-- The error code of a fatal error (60_exceptions.md R314). -/
def Fault.code : Fault → Nat
  | .registerBusy _ => 2
  | .badAddress _ => 5
  | .misaligned _ => 9
  | .unrepresentable _ => 10

/-- Why the model has no next state. None is raised in a state that a reset and steps reach, but `seqOverflow` after
2^32 − 1 handovers. -/
inductive Refusal where
  /-- An instruction without a meaning in this model; no arm of `exec` answers it. -/
  | notModelled (mnemonic : String)
  /-- The 2^32-th handover of a run, "outside the model" (20_memory.md R96, I14: "A model may stop the run"), raised by
  the handover. Safe: the model stops where the spec lets it stop (log 7). -/
  | seqOverflow
  /-- The record to issue, or the branch record to resolve, fails a check of 30_encoding.md R127. The reset refuses
  such a program before cycle 1 (I10), so no run meets it. Safe: the model stops (log 10). -/
  | illFormedRecord (index : Nat) (check : WfCheck)
  /-- A tag that names no station, or a station, LSB entry or instance without the field a rule reads there. Excluded
  by the invariants of 10_state.md R43 and 40_cycle_engine.md R180. Safe: the model stops (log 9). -/
  | brokenTag (t : Tag)
  /-- An instance number the log does not hold, at branch resolution. Excluded by 10_state.md R54. Safe: the model stops
  (log 9). -/
  | noInstance (i : Nat)
  /-- A base register value that is no integer, which 10_state.md R33 excludes, so that R102's sum has no meaning.
  Safe: the model stops (log 9). -/
  | nonIntegerBase (v : F64)
  /-- A line index with no cache line, which 20_memory.md R82 excludes. Safe: the model stops (log 9). -/
  | noCacheLine (index : Nat)
deriving DecidableEq, Repr

/-- The whole machine. `cfg` and `prog` are the host's and fixed for the run (00_scope.md R8, 30_encoding.md R120);
the rest is 10_state.md R31–R56 and 20_memory.md R70–R101. -/
structure State where
  cfg : Config
  prog : List Record
  intRegs : Vector RegCell 32
  fpRegs : Vector RegCell 32
  stations : List Station
  cursor : Nat
  cycle : Nat
  branchPending : Bool
  instances : List DynInst
  cdbQueue : List Request
  fault : Option Fault
  mem : Memory
  lines : List CacheLine
  hits : Nat
  misses : Nat
  lsb : List LsbEntry
  nextSeq : Nat
deriving DecidableEq, Repr

/-- How a phase of a cycle ends early: a fatal error, with the state it leaves (60_exceptions.md R312), or a refusal
of the model. -/
inductive Stop where
  | fatal (s : State)
  | refuse (r : Refusal)
deriving DecidableEq, Repr

/-- A phase, or part of one: the next state, or an early end of the cycle. -/
abbrev Cyc := Except Stop State

/-- How many stations the configuration gives a kind (00_scope.md R8). -/
def stationCount (c : Config) : Kind → Nat
  | .fpAdd => c.nFpAdd
  | .fpMul => c.nFpMul
  | .fpDiv => c.nFpDiv
  | .intAdd => c.nIntAdd
  | .load => c.nLoad
  | .store => c.nStore
  | .branch => c.nBranch

/-- The kinds in pool order (10_state.md R45). -/
def kindsInOrder : List Kind := [.fpAdd, .fpMul, .fpDiv, .intAdd, .load, .store, .branch]

/-- The bank of a kind, all free, named from 1 (10_state.md R39, R45, R50). -/
def freeBank (c : Config) (k : Kind) : List Station :=
  (List.range (stationCount c k)).map fun i => Station.free ⟨k, i + 1⟩

/-- Every station of every bank free, in pool order (10_state.md R48, R50). -/
def freePool (c : Config) : List Station := kindsInOrder.flatMap (freeBank c)

/-- An invalid line (20_memory.md R83). -/
def CacheLine.invalid (blockSize : Nat) : CacheLine where
  valid := false
  dirty := false
  tag := 0
  data := List.replicate blockSize 0

/-- Every piece of state at its reset value (70_reset_and_hazards.md R334), for a configuration, with no register
preload, an empty memory image and the program `p`. -/
def State.fresh (c : Config) (p : List Record) : State where
  cfg := c
  prog := p
  intRegs := Vector.replicate 32 ⟨0, none⟩
  fpRegs := Vector.replicate 32 ⟨0, none⟩
  stations := freePool c
  cursor := 0
  cycle := 0
  branchPending := false
  instances := []
  cdbQueue := []
  fault := none
  mem := []
  lines := List.replicate (c.cacheSize / c.blockSize) (CacheLine.invalid c.blockSize)
  hits := 0
  misses := 0
  lsb := []
  nextSeq := 0

/-- The machine right after reset, with nothing placed: Configuration S, no preload, no image, the empty program
(log 2, log 3). `hostReset` is the reset of any host input. -/
def State.reset : State := State.fresh Config.scenario []

end Sys2Proof.Machine
end

