-- ==== Sys2Proof/Machine/Ops.lean ====
section
/-! DEFINITION. The shared operations: how a cycle goes on or ends early, registers, stations, the instance log, and
ByteMemory. -/

namespace Sys2Proof.Machine

/-! ## Ending a cycle -/

/-- The one way an error is taken (60_exceptions.md R312): the effects so far stand, `fault` is set, nothing later in
the cycle runs. There is no handler, no saved pc and no return (R316). -/
def raise (f : Fault) (s : State) : Stop := .fatal { s with fault := some f }

/-- Run `f` over a list in order, stopping at the first early end. -/
def forEach {α : Type} (f : α → State → Cyc) : List α → State → Cyc
  | [], s => .ok s
  | x :: xs, s =>
    match f x s with
    | .ok s' => forEach f xs s'
    | .error e => .error e

/-! ## Registers (10_state.md R30–R37) -/

/-- The cell of a register. No register is hardwired (R32). -/
def State.reg (s : State) : Reg → RegCell
  | .r i => s.intRegs[i]
  | .f i => s.fpRegs[i]

/-- Replace the cell of a register. -/
def State.setReg (r : Reg) (c : RegCell) (s : State) : State :=
  match r with
  | .r i => { s with intRegs := s.intRegs.set i c }
  | .f i => { s with fpRegs := s.fpRegs.set i c }

/-- `set_qi(r, T)`: rename, whatever the earlier tag (R35). -/
def setQi (r : Reg) (T : Tag) (s : State) : State := s.setReg r { s.reg r with qi := some T }

/-- `read_value(r)`: the value of a ready register, else `RegisterBusy` (R36, 60_exceptions.md R301). -/
def readValue (r : Reg) (s : State) : Except Stop F64 :=
  match (s.reg r).qi with
  | none => .ok (s.reg r).value
  | some _ => .error (raise (.registerBusy r) s)

/-! ## Stations (10_state.md R39–R47) -/

/-- The kind an op draws its station from (30_encoding.md R124). -/
def opKind : OpCode → Kind
  | .daddi => .intAdd
  | .dsubi => .intAdd
  | .lw => .load
  | .ld => .load
  | .ls => .load
  | .ldd => .load
  | .sw => .store
  | .sd => .store
  | .ss => .store
  | .sdd => .store
  | .addS => .fpAdd
  | .addD => .fpAdd
  | .subS => .fpAdd
  | .subD => .fpAdd
  | .mulS => .fpMul
  | .mulD => .fpMul
  | .divS => .fpDiv
  | .divD => .fpDiv
  | .beq => .branch
  | .bne => .branch

/-- LOAD and STORE are the memory kinds, the others the compute kinds (10_state.md R40). -/
def kindIsMem : Kind → Bool
  | .load => true
  | .store => true
  | .fpAdd => false
  | .fpMul => false
  | .fpDiv => false
  | .intAdd => false
  | .branch => false

/-- The station of a tag. -/
def State.station? (s : State) (T : Tag) : Option Station := s.stations.find? fun S => S.name == T

/-- Change the station of a tag, its name apart. -/
def updStation (T : Tag) (f : Station → Station) (s : State) : State :=
  { s with stations := s.stations.map fun S => if S.name = T then f S else S }

/-- `allocate(kind)`: the first free station of the kind, lowest index first (R46). -/
def allocate (k : Kind) (s : State) : Option Tag :=
  (s.stations.find? fun S => S.kind == k && !S.busy).map Station.name

/-- `release(T)` (R47). -/
def release (T : Tag) (s : State) : State := updStation T (fun _ => Station.free T) s

/-- Readiness (R44): loads need only the base. -/
def Station.ready (S : Station) : Bool :=
  S.busy && !S.execStarted && S.qj.isNone && (S.kind == .load || S.qk.isNone)

/-! ## The instance log (10_state.md R54) and the CDB queue (R55) -/

/-- Change the record of one dynamic instance. -/
def stamp (i : Nat) (f : DynInst → DynInst) (s : State) : State :=
  { s with instances := s.instances.modify i f }

/-- Append a broadcast request, ready in the next cycle (40_cycle_engine.md R143). -/
def enqueue (T : Tag) (v : F64) (d : Option Reg) (o : OpCode) (s : State) : State :=
  { s with cdbQueue := s.cdbQueue ++ [⟨T, v, d, o, s.cycle + 1⟩] }

/-! ## ByteMemory (20_memory.md R70–R73) -/

/-- `MEM_SIZE` (00_scope.md R7). -/
def memSize : Nat := 2 ^ 20

/-- The byte at an address; an address not listed holds 0 (R71). -/
def Memory.read : Memory → Nat → Byte
  | [], _ => 0
  | (a, b) :: m, x => if a = x then b else Memory.read m x

/-- Write a byte, keeping the list sorted and without zero bytes. -/
def Memory.write : Memory → Nat → Byte → Memory
  | [], x, v => if v = 0 then [] else [(x, v)]
  | (a, b) :: m, x, v =>
    if x < a then (if v = 0 then (a, b) :: m else (x, v) :: (a, b) :: m)
    else if x = a then (if v = 0 then m else (x, v) :: m)
    else (a, b) :: Memory.write m x v

/-- The canonical form: addresses strictly rising and inside memory, no byte zero. -/
abbrev Memory.wf (m : Memory) : Prop :=
  m.Pairwise (fun c d => c.1 < d.1) ∧ ∀ c ∈ m, c.2 ≠ 0 ∧ c.1 < memSize

/-- `n` bytes from an address. -/
def Memory.readBytes (m : Memory) (a n : Nat) : List Byte := (List.range n).map fun i => m.read (a + i)

/-- Write bytes from an address on. -/
def Memory.writeBytes : Memory → Nat → List Byte → Memory
  | m, _, [] => m
  | m, a, b :: bs => Memory.writeBytes (m.write a b) (a + 1) bs

/-- `ReadBlock(base, n)`: `BadAddress` outside memory (R72). -/
def readBlock (a n : Nat) (s : State) : Except Stop (List Byte) :=
  if a + n ≤ memSize then .ok (s.mem.readBytes a n) else .error (raise (.badAddress a) s)

/-- `WriteBlock(base, bytes)`: `BadAddress` outside memory (R72). -/
def writeBlock (a : Nat) (bs : List Byte) (s : State) : Cyc :=
  if a + bs.length ≤ memSize then .ok { s with mem := s.mem.writeBytes a bs }
  else .error (raise (.badAddress a) s)

/-- `be_uint`: bytes, most significant first, as a number (R73). -/
def beUint : List Byte → Nat
  | [] => 0
  | b :: bs => b.toNat * 256 ^ bs.length + beUint bs

/-- `be_bytes_n`: the `n` low bytes of a number, most significant first (R73). -/
def beBytes : Nat → Nat → List Byte
  | 0, _ => []
  | n + 1, u => BitVec.ofNat 8 (u / 256 ^ n) :: beBytes n u

end Sys2Proof.Machine
end

