-- ==== Sys2Proof/Machine/Cache.lean ====
section
/-! DEFINITION. The direct-mapped write-back write-allocate cache (20_memory.md R82–R93). -/

namespace Sys2Proof.Machine

/-- `num_lines` (00_scope.md R9). -/
def numLines (c : Config) : Nat := c.cacheSize / c.blockSize

/-- Address fields (R84). -/
def offsetOf (c : Config) (a : Nat) : Nat := a % c.blockSize

def indexOf (c : Config) (a : Nat) : Nat := a / c.blockSize % numLines c

def tagOf (c : Config) (a : Nat) : Nat := a / c.blockSize / numLines c

/-- The line holds the block of `a`. -/
def CacheLine.holds (c : Config) (a : Nat) (L : CacheLine) : Bool := L.valid && L.tag == tagOf c a

/-- `is_hit(a)`, a pure query (R85). -/
def State.isHit (s : State) (a : Nat) : Bool :=
  match s.lines[indexOf s.cfg a]? with
  | some L => L.holds s.cfg a
  | none => false

/-- The write-back of a victim: its bytes go to its block's start, `(tag·num_lines + index)·block_size` (R83, R87). -/
def writeBack (i : Nat) (L : CacheLine) (s : State) : Cyc :=
  if L.valid && L.dirty then writeBlock ((L.tag * numLines s.cfg + i) * s.cfg.blockSize) L.data s
  else .ok s

/-- Fetch the block of `a` into its line, valid and clean (R87). -/
def fetchLine (a : Nat) (s : State) : Cyc :=
  match readBlock (a / s.cfg.blockSize * s.cfg.blockSize) s.cfg.blockSize s with
  | .error e => .error e
  | .ok bs =>
    let L : CacheLine := { valid := true, dirty := false, tag := tagOf s.cfg a, data := bs }
    .ok { s with lines := s.lines.set (indexOf s.cfg a) L }

/-- `LineFor(a)`: make line `indexOf a` hold the block of `a`, and count the access (R87, R90). -/
def lineFor (a : Nat) (s : State) : Cyc :=
  match s.lines[indexOf s.cfg a]? with
  | none => .error (.refuse (.noCacheLine (indexOf s.cfg a)))
  | some L =>
    if L.holds s.cfg a then .ok { s with hits := s.hits + 1 }
    else
      match writeBack (indexOf s.cfg a) L { s with misses := s.misses + 1 } with
      | .error e => .error e
      | .ok s' => fetchLine a s'

/-- The bytes of the line at index `i`. -/
def State.lineData (s : State) (i : Nat) : List Byte :=
  match s.lines[i]? with
  | some L => L.data
  | none => []

/-- `CacheReadWord(a)` (R88). -/
def cacheReadWord (a : Nat) (s : State) : Except Stop (List Byte × State) :=
  match lineFor a s with
  | .error e => .error e
  | .ok s' => .ok (((s'.lineData (indexOf s'.cfg a)).drop (offsetOf s'.cfg a)).take 4, s')

/-- Replace the bytes of `d` from `o` on by `bs`. -/
def splice (d : List Byte) (o : Nat) (bs : List Byte) : List Byte :=
  d.take o ++ bs ++ d.drop (o + bs.length)

/-- `CacheWriteWord(a, b4)`: write-allocate, and the line turns dirty (R89). -/
def cacheWriteWord (a : Nat) (bs : List Byte) (s : State) : Cyc :=
  match lineFor a s with
  | .error e => .error e
  | .ok s' =>
    let i := indexOf s'.cfg a
    .ok { s' with lines := s'.lines.modify i fun L =>
            { L with data := splice L.data (offsetOf s'.cfg a) bs, dirty := true } }

/-- One byte of the coherent view (R93): the line when it holds the byte's block, ByteMemory otherwise. -/
def State.coherentByte (s : State) (a : Nat) : Byte :=
  if s.isHit a then (s.lineData (indexOf s.cfg a)).getD (offsetOf s.cfg a) 0 else s.mem.read a

/-- `MemRead(a, n)` (R93). It changes nothing. -/
def State.memRead (s : State) (a n : Nat) : List Byte := (List.range n).map fun i => s.coherentByte (a + i)

end Sys2Proof.Machine
end

