-- ==== Sys2Proof/Machine/Operands.lean ====
section
/-! DEFINITION. Operands: capture and slot wiring at issue (40_cycle_engine.md R165–R168), the effective address, the
access size (20_memory.md R75), and the latency of a compute op (R154). -/

namespace Sys2Proof.Machine

/-- What a slot captures from its register: the value of a ready one, else the tag it waits for (R166). -/
def capture (r : Reg) (s : State) : Option F64 × Option Tag :=
  match (s.reg r).qi with
  | none => (some (s.reg r).value, none)
  | some U => (none, some U)

/-- What slot k captures: nothing when the format does not use it (R166). -/
def captureOpt (r : Option Reg) (s : State) : Option F64 × Option Tag :=
  match r with
  | some r => capture r s
  | none => (none, none)

/-- The station of a newly issued record (R165, R166), for the dynamic instance `i` in the cycle of `s`. -/
def filledStation (T : Tag) (o : OpCode) (dest : Option Reg) (j : Reg) (k : Option Reg) (a : Option I32) (i : Nat)
    (s : State) : Station where
  name := T
  busy := true
  op := some o
  vj := (capture j s).1
  vk := (captureOpt k s).1
  qj := (capture j s).2
  qk := (captureOpt k s).2
  a := a
  instruction := some i
  issueCycle := s.cycle
  execStarted := false
  remainingCycles := 0
  dest := dest
  effCycle := s.cycle

/-- The new dynamic instance of the record at the cursor (R165, 10_state.md R54). R165 lists it without `taken`, which only
a resolution writes (44_branch.md R272): that it holds none until then is a DESIGN CHOICE (log 24). -/
def newInstance (o : OpCode) (T : Tag) (s : State) : DynInst where
  pc := s.cursor
  op := o
  station := T
  issue := some s.cycle
  execStart := none
  execEnd := none
  write := none
  taken := none

/-- Fill station T and append the instance (R165, R166). -/
def fill (T : Tag) (o : OpCode) (dest : Option Reg) (j : Reg) (k : Option Reg) (a : Option I32) (s : State) : State :=
  { updStation T (fun _ => filledStation T o dest j k a s.instances.length s) s with
    instances := s.instances ++ [newInstance o T s] }

/-- Rename the destination, if the record has one (R168). -/
def rename (dest : Option Reg) (T : Tag) (s : State) : State :=
  match dest with
  | some d => setQi d T s
  | none => s

/-- The size of a memory op's access (20_memory.md R75); other ops access nothing. -/
def opSize : OpCode → Nat
  | .lw => 4
  | .ls => 4
  | .sw => 4
  | .ss => 4
  | .ld => 8
  | .ldd => 8
  | .sd => 8
  | .sdd => 8
  | .daddi => 0
  | .dsubi => 0
  | .addS => 0
  | .addD => 0
  | .subS => 0
  | .subD => 0
  | .mulS => 0
  | .mulD => 0
  | .divS => 0
  | .divD => 0
  | .beq => 0
  | .bne => 0

/-- The effective address: exact over the integers (42_loadstore.md R210). -/
def effectiveAddress (base : Int) (off : I32) : Int := base + off.toInt

/-- `lat(op)` of a compute op (00_scope.md R8); memory ops have none. -/
def latOf (c : Config) : OpCode → Option Nat
  | .daddi => c.lat.daddi
  | .dsubi => c.lat.dsubi
  | .addS => c.lat.addS
  | .addD => c.lat.addD
  | .subS => c.lat.subS
  | .subD => c.lat.subD
  | .mulS => c.lat.mulS
  | .mulD => c.lat.mulD
  | .divS => c.lat.divS
  | .divD => c.lat.divD
  | .beq => c.lat.beq
  | .bne => c.lat.bne
  | .lw => none
  | .ld => none
  | .ls => none
  | .ldd => none
  | .sw => none
  | .sd => none
  | .ss => none
  | .sdd => none

end Sys2Proof.Machine
end

