-- ==== Sys2Proof/Machine/Codec.lean ====
section
/-! DEFINITION. The value codec: what each store writes and each load reads (20_memory.md R78–R80, 42_loadstore.md
R213–R220). A codec takes the dynamic instance, which only the free NaNs read (log 6). -/

namespace Sys2Proof.Machine

/-- `sext_n`: a number of `n` bits as a signed integer (00_scope.md R12). -/
def signExtend (n u : Nat) : Int := if u < 2 ^ (n - 1) then (u : Int) else (u : Int) - (2 ^ n : Nat)

/-- The integer a value stores as, when it is integer-valued and in the signed range of `n` bits (R80). -/
def storeInt (n : Nat) (v : F64) : Option Int :=
  match F64.toInt? v with
  | some i => if -(2 ^ (n - 1) : Nat) ≤ i ∧ i < (2 ^ (n - 1) : Nat) then some i else none
  | none => none

/-- The two's-complement pattern of `n` bytes of an integer (R78). -/
def intBytes (n : Nat) (i : Int) : List Byte := beBytes n (i % (256 ^ n : Nat)).toNat

/-- SW: int32, or `Unrepresentable` (R217). -/
def encodeSw (_inst : Nat) (v : F64) : Option (List Byte) := (storeInt 32 v).map (intBytes 4)

/-- SD: int64, or `Unrepresentable` (R218). -/
def encodeSd (_inst : Nat) (v : F64) : Option (List Byte) := (storeInt 64 v).map (intBytes 8)

/-- S.S: the value rounded to binary32 (R219). -/
def encodeSs (inst : Nat) (v : F64) : Option (List Byte) :=
  some (beBytes 4 (round32 (Config.freeNaN32 inst v) v).toNat)

/-- S.D: the bit pattern (R220). -/
def encodeSdd (_inst : Nat) (v : F64) : Option (List Byte) := some (beBytes 8 v.toNat)

/-- LW: int32 (R213). -/
def decodeLw (_inst : Nat) (b : List Byte) : F64 := F64.ofInt (signExtend 32 (beUint b))

/-- LD: int64, rounded to nearest even (R214). -/
def decodeLd (_inst : Nat) (b : List Byte) : F64 := F64.ofInt (signExtend 64 (beUint b))

/-- L.S: binary32, widened (R215). -/
def decodeLs (inst : Nat) (b : List Byte) : F64 :=
  let w : F32 := BitVec.ofNat 32 (beUint b)
  widen (Config.freePayload inst w) w

/-- L.D: the bit pattern (R216). -/
def decodeLdd (_inst : Nat) (b : List Byte) : F64 := BitVec.ofNat 64 (beUint b)

/-- The codec of a store op; no other op has one. -/
def storeCodec : OpCode → Option (Nat → F64 → Option (List Byte))
  | .sw => some encodeSw
  | .sd => some encodeSd
  | .ss => some encodeSs
  | .sdd => some encodeSdd
  | .daddi => none
  | .dsubi => none
  | .lw => none
  | .ld => none
  | .ls => none
  | .ldd => none
  | .addS => none
  | .addD => none
  | .subS => none
  | .subD => none
  | .mulS => none
  | .mulD => none
  | .divS => none
  | .divD => none
  | .beq => none
  | .bne => none

/-- The codec of a load op; no other op has one. -/
def loadCodec : OpCode → Option (Nat → List Byte → F64)
  | .lw => some decodeLw
  | .ld => some decodeLd
  | .ls => some decodeLs
  | .ldd => some decodeLdd
  | .daddi => none
  | .dsubi => none
  | .sw => none
  | .sd => none
  | .ss => none
  | .sdd => none
  | .addS => none
  | .addD => none
  | .subS => none
  | .subD => none
  | .mulS => none
  | .mulD => none
  | .divS => none
  | .divD => none
  | .beq => none
  | .bne => none

end Sys2Proof.Machine
end

