-- ==== Sys2Proof/Machine/Lsb.lean ====
section
/-! DEFINITION. The load/store buffer: handover, overlap, the tick and the commits (20_memory.md R94–R104,
40_cycle_engine.md R157–R163). -/

namespace Sys2Proof.Machine

/-- The LSB has no room (R95). -/
def State.lsbFull (s : State) : Bool := decide (s.cfg.lsbMax ≤ s.lsb.length)

/-- Hit classification of an access: both words of a doubleword must hit (R86). -/
def classify (ea size : Nat) (s : State) : Bool := s.isHit ea && (size != 8 || s.isHit (ea + 4))

/-- The latency of an entry, frozen at handover (R92, R103). -/
def accessLatency (c : Config) (isLoad hit : Bool) : Nat :=
  (if isLoad then c.loadBaseLatency else c.storeBaseLatency) + (if hit then c.hitLatency else c.missPenalty)

/-- The checks of the address, in their order (R102, 42_loadstore.md R222). -/
def checkAddress (ea : Int) (size : Nat) (s : State) : Except Stop Nat :=
  if ea < 0 ∨ (memSize : Int) < ea + size then .error (raise (.badAddress ea) s)
  else if ea % 4 ≠ 0 then .error (raise (.misaligned ea) s)
  else .ok ea.toNat

/-- The encoded data of a STORE station, `Unrepresentable` if the op cannot store it (R78, R80); a load has none. -/
def storeData (S : Station) (o : OpCode) (inst : Nat) (s : State) : Except Stop (Option (List Byte)) :=
  if S.kind = .store then
    match storeCodec o, S.vk with
    | some enc, some v =>
      match enc inst v with
      | some bs => .ok (some bs)
      | none => .error (raise (.unrepresentable v) s)
    | _, _ => .error (.refuse (.brokenTag S.name))
  else .ok none

/-- The LSB entry of a handed-over station (R94, R102). -/
def lsbEntry (S : Station) (o : OpCode) (ea inst : Nat) (data : Option (List Byte)) (s : State) : LsbEntry where
  seq := s.nextSeq
  op := o
  address := ea
  size := opSize o
  value := data
  remainingCycles := accessLatency s.cfg (S.kind == .load) (classify ea (opSize o) s)
  isLoad := S.kind == .load
  dest := S.dest
  station := S.name
  inst := inst
  started := false

/-- Append the entry, take its number, and mark the station handed over (R96, R102). -/
def enterLsb (e : LsbEntry) (s : State) : State :=
  { updStation e.station (fun S => { S with execStarted := true }) s with
    lsb := s.lsb ++ [e], nextSeq := s.nextSeq + 1 }

/-- Handover of station T (R102): the checks in their order, then the new entry. A failing check changes nothing but
`fault` (60_exceptions.md R312). The caller has checked that the LSB has room. -/
def handover (T : Tag) (s : State) : Cyc :=
  match s.station? T with
  | none => .error (.refuse (.brokenTag T))
  | some S =>
    match S.op, S.vj, S.a, S.instruction with
    | some o, some base, some off, some inst =>
      match F64.toInt? base with
      | none => .error (.refuse (.nonIntegerBase base))
      | some b =>
        match checkAddress (effectiveAddress b off) (opSize o) s with
        | .error e => .error e
        | .ok ea =>
          match storeData S o inst s with
          | .error e => .error e
          | .ok data =>
            if s.nextSeq + 1 < 2 ^ 32 then .ok (enterLsb (lsbEntry S o ea inst data s) s)
            else .error (.refuse .seqOverflow)
    | _, _, _, _ => .error (.refuse (.brokenTag T))

/-- The byte ranges of two entries meet (R97). -/
def LsbEntry.overlaps (e1 e2 : LsbEntry) : Bool :=
  decide (e1.address < e2.address + e2.size) && decide (e2.address < e1.address + e1.size)

/-- The bytes a load entry reads through the cache: one word, or two for a doubleword, lower address first (R76, R99). -/
def readEntry (e : LsbEntry) (s : State) : Except Stop (List Byte × State) :=
  match cacheReadWord e.address s with
  | .error x => .error x
  | .ok (b, s1) =>
    if e.size = 8 then
      match cacheReadWord (e.address + 4) s1 with
      | .error x => .error x
      | .ok (b', s2) => .ok (b ++ b', s2)
    else .ok (b, s1)

/-- Commit of a load: read, decode, queue the broadcast, stamp `exec_end` (R99, 40_cycle_engine.md R160). -/
def commitLoad (e : LsbEntry) (s : State) : Cyc :=
  match readEntry e s with
  | .error x => .error x
  | .ok (b, s1) =>
    match loadCodec e.op with
    | none => .error (.refuse (.brokenTag e.station))
    | some dec =>
      .ok (stamp e.inst (fun d => { d with execEnd := some s1.cycle })
            (enqueue e.station (dec e.inst b) e.dest e.op s1))

/-- The bytes a store entry writes through the cache, one word at a time, lower address first (R76, R100). -/
def writeEntry (e : LsbEntry) (bs : List Byte) (s : State) : Cyc :=
  match cacheWriteWord e.address (bs.take 4) s with
  | .error x => .error x
  | .ok s1 => if e.size = 8 then cacheWriteWord (e.address + 4) (bs.drop 4) s1 else .ok s1

/-- Commit of a store: write, stamp `exec_end` and `write`, release the station (R100, 40_cycle_engine.md R161). -/
def commitStore (e : LsbEntry) (s : State) : Cyc :=
  match e.value with
  | none => .error (.refuse (.brokenTag e.station))
  | some bs =>
    match writeEntry e bs s with
    | .error x => .error x
    | .ok s1 =>
      .ok (release e.station
            (stamp e.inst (fun d => { d with execEnd := some s1.cycle, write := some s1.cycle }) s1))

/-- Commit of an entry. -/
def commit (e : LsbEntry) (s : State) : Cyc := if e.isLoad then commitLoad e s else commitStore e s

/-- The first decrement of an entry is its instance's `exec_start` (40_cycle_engine.md R158). -/
def stampStart (e : LsbEntry) (s : State) : State :=
  if e.started then s else stamp e.inst (fun d => { d with execStart := some s.cycle }) s

/-- An entry after one decrement (R98). -/
def LsbEntry.decremented (e : LsbEntry) : LsbEntry :=
  { e with started := true, remainingCycles := e.remainingCycles - 1 }

/-- `lsb_tick` (R98). The list is the LSB in ascending `seq` (R94), so an earlier entry is one nearer its head. `kept` is
what is still in the buffer of the entries visited so far; an entry is stalled iff one of them overlaps it. -/
def lsbTickFrom : List LsbEntry → List LsbEntry → State → Cyc
  | kept, [], s => .ok { s with lsb := kept }
  | kept, e :: rest, s =>
    if kept.any (fun k => k.overlaps e) then lsbTickFrom (kept ++ [e]) rest s
    else
      let s1 := stampStart e s
      if e.decremented.remainingCycles = 0 then
        match commit e.decremented { s1 with lsb := kept ++ rest } with
        | .error x => .error x
        | .ok s2 => lsbTickFrom kept rest s2
      else lsbTickFrom (kept ++ [e.decremented]) rest s1

/-- The Memory phase (40_cycle_engine.md R157). -/
def memoryPhase (s : State) : Cyc := lsbTickFrom [] s.lsb s

/-- Insert a station by ascending instance number. -/
def insertByInstance (S : Station) : List Station → List Station
  | [] => [S]
  | S' :: rest =>
    if S.instruction.getD 0 ≤ S'.instruction.getD 0 then S :: S' :: rest else S' :: insertByInstance S rest

/-- The candidates of the deferred handover: ready LOAD and STORE stations, ascending instance number (R163). -/
def deferred (s : State) : List Station :=
  (s.stations.filter fun S => kindIsMem S.kind && S.ready).foldr insertByInstance []

/-- Hand one candidate over if the LSB has room now; else it stays deferred (R163). -/
def handoverIfRoom (S : Station) (s : State) : Cyc := if s.lsbFull then .ok s else handover S.name s

/-- Step 4 of the cycle: the deferred handovers (R163). -/
def deferredPhase (s : State) : Cyc := forEach handoverIfRoom (deferred s) s

end Sys2Proof.Machine
end

