-- ==== Sys2Proof/Machine/Issue.lean ====
section
/-! DEFINITION. The Issue phase of one record (40_cycle_engine.md R164–R172), shared by every instruction. -/

namespace Sys2Proof.Machine

/-- The cursor moves past an issued record (R171). -/
def advance (s : State) : State := { s with cursor := s.cursor + 1 }

/-- A branch blocks issue until it resolves (R170). -/
def blockIssue (s : State) : State := { s with branchPending := true }

/-- The new station of a memory record has all the operands its handover needs (10_state.md R44). -/
def State.readyAt (s : State) (T : Tag) : Bool :=
  match s.station? T with
  | some S => S.ready
  | none => false

/-- What follows capture and rename (R169–R171): a ready memory op is handed over, a branch blocks issue, and the cursor
advances. A fatal handover keeps the issue's earlier effects and leaves the cursor (60_exceptions.md R312). -/
def finishIssue (k : Kind) (T : Tag) (s : State) : Host.Outcome State Fault Refusal :=
  if kindIsMem k && s.readyAt T then
    match handover T s with
    | .ok s' => .next (advance s')
    | .error (.fatal s') => .next s'
    | .error (.refuse r) => .refused r
  else if k = .branch then .next (advance (blockIssue s))
  else .next (advance s)

/-- Issue one record: destination `dest`, slot j from `j`, slot k from `k`, the `a` field (R164–R172). A pending branch,
no free station of the kind, or a full LSB for a memory op is a stall: nothing changes (R164, 60_exceptions.md R303). -/
def issueRecord (o : OpCode) (dest : Option Reg) (j : Reg) (k : Option Reg) (a : Option I32) (s : State) :
    Host.Outcome State Fault Refusal :=
  if s.branchPending then .next s
  else
    match allocate (opKind o) s with
    | none => .next s
    | some T =>
      if kindIsMem (opKind o) && s.lsbFull then .next s
      else finishIssue (opKind o) T (rename dest T (fill T o dest j k a s))

/-- Slot wiring of format FR: j ← src1, k ← src2 (R167). -/
def issueFr (o : OpCode) (fd fs ft : Fin 32) (s : State) : Host.Outcome State Fault Refusal :=
  issueRecord o (some (.f fd)) (.f fs) (some (.f ft)) none s

/-- Slot wiring of format II: j ← src1, a ← immediate (R167). -/
def issueIi (o : OpCode) (rt rs : Fin 32) (imm : I32) (s : State) : Host.Outcome State Fault Refusal :=
  issueRecord o (some (.r rt)) (.r rs) none (some imm) s

/-- Slot wiring of format LDF: j ← base_reg, a ← offset (R167). -/
def issueLdf (o : OpCode) (dest : Reg) (rb : Fin 32) (off : I32) (s : State) : Host.Outcome State Fault Refusal :=
  issueRecord o (some dest) (.r rb) none (some off) s

/-- Slot wiring of format STF: j ← base_reg, k ← src1, the data, a ← offset (R167). -/
def issueStf (o : OpCode) (data : Reg) (rb : Fin 32) (off : I32) (s : State) : Host.Outcome State Fault Refusal :=
  issueRecord o none (.r rb) (some data) (some off) s

/-- Slot wiring of format BR: j ← src1, k ← src2, a ← immediate, the target (R167). -/
def issueBr (o : OpCode) (rs rt : Fin 32) (target : I32) (s : State) : Host.Outcome State Fault Refusal :=
  issueRecord o none (.r rs) (some (.r rt)) (some target) s

end Sys2Proof.Machine
end

