-- ==== Sys2Proof/Machine/Branch.lean ====
section
/-! DEFINITION. BEQ and BNE: issue, the token result, resolution and flush (44_branch.md). -/

namespace Sys2Proof.Machine

/-- BEQ at issue (R270, R275). -/
def execBeq (rs rt : Fin 32) (target : I32) (s : State) : Host.Outcome State Fault Refusal :=
  issueBr .beq rs rt target s

/-- BNE at issue (R270, R276). -/
def execBne (rs rt : Fin 32) (target : I32) (s : State) : Host.Outcome State Fault Refusal :=
  issueBr .bne rs rt target s

/-- The token a branch broadcasts, +0.0 (R273). -/
def branchToken : F64 := F64.zero false

/-- A station is bound to an instance issued after `i`. -/
def boundAfter (i : Nat) (S : Station) : Bool := S.instruction.any fun j => decide (i < j)

/-- The tags of the stations bound to an instance issued after `i`. -/
def flushedTags (i : Nat) (s : State) : List Tag := (s.stations.filter (boundAfter i)).map Station.name

/-- `flush(i)`: for every instance issued after `i`, release its station, drop its LSB entry and its CDB requests, and
delete it from the log; registers are not rolled back (R274, D46). In every run the set is empty. -/
def flush (i : Nat) (s : State) : State :=
  { s with
    stations := s.stations.map fun S => if boundAfter i S then Station.free S.name else S
    lsb := s.lsb.filter fun e => decide (e.inst ≤ i)
    cdbQueue := s.cdbQueue.filter fun q => !(flushedTags i s).contains q.station
    instances := s.instances.take (i + 1) }

/-- The outcome of a comparison: mark the instance, and if taken flush and jump; issue may go on (R272). -/
def settle (i : Nat) (taken : Bool) (target : I32) (s : State) : State :=
  let s1 := stamp i (fun d => { d with taken := some taken }) s
  let s2 := if taken then { flush i s1 with cursor := target.toInt.toNat } else s1
  { s2 with branchPending := false }

/-- Resolution of a branch with the comparison `test`, on the registers' current values (R272). -/
def resolveWith (test : F64 → F64 → Bool) (rs rt : Fin 32) (target : I32) (i : Nat) (s : State) : Cyc :=
  match readValue (.r rs) s with
  | .error e => .error e
  | .ok u =>
    match readValue (.r rt) s with
    | .error e => .error e
    | .ok w => .ok (settle i (test u w) target s)

/-- BEQ at resolution (R275). -/
def resolveBeq (rs rt : Fin 32) (target : I32) (i : Nat) (s : State) : Cyc := resolveWith takenBeq rs rt target i s

/-- BNE at resolution (R276). -/
def resolveBne (rs rt : Fin 32) (target : I32) (i : Nat) (s : State) : Cyc := resolveWith takenBne rs rt target i s

/-- The record of a dynamic instance, checked (log 10). -/
def State.recordOf (s : State) (i : Nat) : Except Stop (Tag × Instr) :=
  match s.instances[i]? with
  | none => .error (.refuse (.noInstance i))
  | some d =>
    match s.prog[d.pc]? with
    | none => .error (.refuse (.brokenTag d.station))
    | some r =>
      match checkRecord s.prog.length d.pc r with
      | .error c => .error (.refuse (.illFormedRecord d.pc c))
      | .ok ins => .ok (d.station, ins)

/-- `resolve(i, C)`: by the op of the instance's record (R272). Only a branch record can stand there. -/
def resolve (i : Nat) (s : State) : Cyc :=
  match s.recordOf i with
  | .error e => .error e
  | .ok (T, ins) =>
    match ins with
    | .beq rs rt target => resolveBeq rs rt target i s
    | .bne rs rt target => resolveBne rs rt target i s
    | .daddi .. | .dsubi .. | .lw .. | .ld .. | .ls .. | .ldd .. | .sw .. | .sd .. | .ss .. | .sdd .. =>
      .error (.refuse (.brokenTag T))
    | .addS .. | .addD .. | .subS .. | .subD .. | .mulS .. | .mulD .. | .divS .. | .divD .. =>
      .error (.refuse (.brokenTag T))

end Sys2Proof.Machine
end

