-- ==== Sys2Proof/Machine/FpArith.lean ====
section
/-! DEFINITION. ADD, SUB, MUL and DIV in .S and .D (43_fp_arith.md). Both precisions compute in binary64 and differ only
in latency (R240). `exec…` is what the record does when it issues; `result…` is what its station computes when its
countdown ends (40_cycle_engine.md R155). -/

namespace Sys2Proof.Machine

/-- ADD.S at issue (R246, R250). -/
def execAddS (fd fs ft : Fin 32) (s : State) : Host.Outcome State Fault Refusal := issueFr .addS fd fs ft s

/-- ADD.S at completion (R250). -/
def resultAddS (nan : NaN64) (vj vk : F64) : F64 := F64.add nan vj vk

/-- ADD.D at issue (R246, R251). -/
def execAddD (fd fs ft : Fin 32) (s : State) : Host.Outcome State Fault Refusal := issueFr .addD fd fs ft s

/-- ADD.D at completion (R251). -/
def resultAddD (nan : NaN64) (vj vk : F64) : F64 := F64.add nan vj vk

/-- SUB.S at issue (R246, R252). -/
def execSubS (fd fs ft : Fin 32) (s : State) : Host.Outcome State Fault Refusal := issueFr .subS fd fs ft s

/-- SUB.S at completion (R252). -/
def resultSubS (nan : NaN64) (vj vk : F64) : F64 := F64.sub nan vj vk

/-- SUB.D at issue (R246, R253). -/
def execSubD (fd fs ft : Fin 32) (s : State) : Host.Outcome State Fault Refusal := issueFr .subD fd fs ft s

/-- SUB.D at completion (R253). -/
def resultSubD (nan : NaN64) (vj vk : F64) : F64 := F64.sub nan vj vk

/-- MUL.S at issue (R246, R254). -/
def execMulS (fd fs ft : Fin 32) (s : State) : Host.Outcome State Fault Refusal := issueFr .mulS fd fs ft s

/-- MUL.S at completion (R254). -/
def resultMulS (nan : NaN64) (vj vk : F64) : F64 := F64.mul nan vj vk

/-- MUL.D at issue (R246, R255). -/
def execMulD (fd fs ft : Fin 32) (s : State) : Host.Outcome State Fault Refusal := issueFr .mulD fd fs ft s

/-- MUL.D at completion (R255). -/
def resultMulD (nan : NaN64) (vj vk : F64) : F64 := F64.mul nan vj vk

/-- DIV.S at issue (R246, R256). -/
def execDivS (fd fs ft : Fin 32) (s : State) : Host.Outcome State Fault Refusal := issueFr .divS fd fs ft s

/-- DIV.S at completion: +0.0 for a zero divisor (R243, R256). -/
def resultDivS (nan : NaN64) (vj vk : F64) : F64 := divOrZero nan vj vk

/-- DIV.D at issue (R246, R257). -/
def execDivD (fd fs ft : Fin 32) (s : State) : Host.Outcome State Fault Refusal := issueFr .divD fd fs ft s

/-- DIV.D at completion: +0.0 for a zero divisor (R243, R257). -/
def resultDivD (nan : NaN64) (vj vk : F64) : F64 := divOrZero nan vj vk

end Sys2Proof.Machine
end

