-- ==== Sys2Proof/Machine/IntImm.lean ====
section
/-! DEFINITION. DADDI and DSUBI (41_int_imm.md). `exec…` is what the record does when it issues; `result…` is what its
station computes when its countdown ends (40_cycle_engine.md R155). -/

namespace Sys2Proof.Machine

/-- DADDI at issue (R200). -/
def execDaddi (rt rs : Fin 32) (imm : I32) (s : State) : Host.Outcome State Fault Refusal :=
  issueIi .daddi rt rs imm s

/-- DADDI at completion: `vj +f f64(a)` (R200). -/
def resultDaddi (nan : NaN64) (vj : F64) (a : I32) : F64 := F64.add nan vj (F64.ofInt a.toInt)

/-- DSUBI at issue (R201). -/
def execDsubi (rt rs : Fin 32) (imm : I32) (s : State) : Host.Outcome State Fault Refusal :=
  issueIi .dsubi rt rs imm s

/-- DSUBI at completion: `vj -f f64(a)` (R201). -/
def resultDsubi (nan : NaN64) (vj : F64) (a : I32) : F64 := F64.sub nan vj (F64.ofInt a.toInt)

end Sys2Proof.Machine
end

