-- ==== Sys2Proof/Machine/LoadStore.lean ====
section
/-! DEFINITION. The eight loads and stores at issue (42_loadstore.md R210–R224). What they do later is the handover, the
LSB and the commits (Lsb.lean) with their codecs (Codec.lean). -/

namespace Sys2Proof.Machine

/-- LW at issue (R211, R213). -/
def execLw (rt rb : Fin 32) (off : I32) (s : State) : Host.Outcome State Fault Refusal := issueLdf .lw (.r rt) rb off s

/-- LD at issue (R211, R214). -/
def execLd (rt rb : Fin 32) (off : I32) (s : State) : Host.Outcome State Fault Refusal := issueLdf .ld (.r rt) rb off s

/-- L.S at issue (R211, R215). -/
def execLs (ft rb : Fin 32) (off : I32) (s : State) : Host.Outcome State Fault Refusal := issueLdf .ls (.f ft) rb off s

/-- L.D at issue (R211, R216). -/
def execLdd (ft rb : Fin 32) (off : I32) (s : State) : Host.Outcome State Fault Refusal := issueLdf .ldd (.f ft) rb off s

/-- SW at issue (R212, R217). -/
def execSw (rt rb : Fin 32) (off : I32) (s : State) : Host.Outcome State Fault Refusal := issueStf .sw (.r rt) rb off s

/-- SD at issue (R212, R218). -/
def execSd (rt rb : Fin 32) (off : I32) (s : State) : Host.Outcome State Fault Refusal := issueStf .sd (.r rt) rb off s

/-- S.S at issue (R212, R219). -/
def execSs (ft rb : Fin 32) (off : I32) (s : State) : Host.Outcome State Fault Refusal := issueStf .ss (.f ft) rb off s

/-- S.D at issue (R212, R220). -/
def execSdd (ft rb : Fin 32) (off : I32) (s : State) : Host.Outcome State Fault Refusal := issueStf .sdd (.f ft) rb off s

end Sys2Proof.Machine
end

