-- ==== Sys2Proof/Machine/Engine.lean ====
section
/-! DEFINITION. The Write and Execute phases, termination, and the phases before Issue in their order
(40_cycle_engine.md R140–R156, R173). -/

namespace Sys2Proof.Machine

/-! ## Write phase (R143–R150) -/

/-- `select(C)`: the first request that is ready, and the queue without it (R144). -/
def selectRequest (C : Nat) : List Request → Option (Request × List Request)
  | [] => none
  | q :: qs =>
    if q.readyCycle ≤ C then some (q, qs)
    else
      match selectRequest C qs with
      | some (p, rest) => some (p, q :: rest)
      | none => none

/-- The register write of a broadcast: a register that waits for T takes the value; a ready one takes it too, the
degenerate case; one renamed to another tag keeps its cell (R146). -/
def regWrite (T : Tag) (v : F64) (dest : Option Reg) (s : State) : State :=
  match dest with
  | none => s
  | some d =>
    match (s.reg d).qi with
    | none => s.setReg d ⟨v, none⟩
    | some U => if U = T then s.setReg d ⟨v, none⟩ else s

/-- Slot j takes the value if it waits for T (R147). -/
def forwardJ (T : Tag) (v : F64) (C : Int) (S : Station) : Station :=
  if S.qj = some T then { S with vj := some v, qj := none, effCycle := C } else S

/-- Slot k takes the value if it waits for T (R147). -/
def forwardK (T : Tag) (v : F64) (C : Int) (S : Station) : Station :=
  if S.qk = some T then { S with vk := some v, qk := none, effCycle := C } else S

/-- Forwarding to every busy station (R147). -/
def forward (T : Tag) (v : F64) (s : State) : State :=
  { s with stations := s.stations.map fun S =>
      if S.busy then forwardK T v s.cycle (forwardJ T v s.cycle S) else S }

/-- The instance a station is bound to. -/
def State.instanceAt (s : State) (T : Tag) : Option Nat := (s.station? T).bind Station.instruction

/-- Stamp `write` on the instance bound to T (R148). -/
def stampWrite (i : Option Nat) (s : State) : State :=
  match i with
  | some i => stamp i (fun d => { d with write := some s.cycle }) s
  | none => s

/-- The broadcast up to the release of T: register write, forwarding, stamp, release (R146–R148). -/
def broadcastCore (q : Request) (s : State) : State :=
  release q.station
    (stampWrite (s.instanceAt q.station) (forward q.station q.value (regWrite q.station q.value q.dest s)))

/-- The whole broadcast; a branch then resolves (R149, R150). -/
def broadcast (q : Request) (s : State) : Cyc :=
  if q.station.kind = .branch then
    match s.instanceAt q.station with
    | some i => resolve i (broadcastCore q s)
    | none => .error (.refuse (.brokenTag q.station))
  else .ok (broadcastCore q s)

/-- The Write phase: at most one broadcast (R144, R145). -/
def writePhase (s : State) : Cyc :=
  match selectRequest s.cycle s.cdbQueue with
  | none => .ok s
  | some (q, rest) => broadcast q { s with cdbQueue := rest }

/-! ## Execute phase (R151–R155) -/

/-- The NaN an FP result of this station would be (I15; log 5). -/
def resultNaN (o : OpCode) (i : Nat) (vj vk : F64) : NaN64 := Config.freeNaN64 i o.code.toNat vj vk

/-- The result of an FR op from its captured operands. -/
def resultFr (f : NaN64 → F64 → F64 → F64) (o : OpCode) (S : Station) : Option F64 :=
  match S.vj, S.vk, S.instruction with
  | some x, some y, some i => some (f (resultNaN o i x y) x y)
  | _, _, _ => none

/-- The result of an II op from its captured operand and its immediate. -/
def resultIi (f : NaN64 → F64 → I32 → F64) (o : OpCode) (S : Station) : Option F64 :=
  match S.vj, S.a, S.instruction with
  | some x, some a, some i => some (f (resultNaN o i x (F64.ofInt a.toInt)) x a)
  | _, _, _ => none

/-- `result(S)`, by op, from the captured values only (R155); `none` where no rule gives a result. -/
def stationResult (o : OpCode) (S : Station) : Option F64 :=
  match o with
  | .daddi => resultIi resultDaddi .daddi S
  | .dsubi => resultIi resultDsubi .dsubi S
  | .addS => resultFr resultAddS .addS S
  | .addD => resultFr resultAddD .addD S
  | .subS => resultFr resultSubS .subS S
  | .subD => resultFr resultSubD .subD S
  | .mulS => resultFr resultMulS .mulS S
  | .mulD => resultFr resultMulD .mulD S
  | .divS => resultFr resultDivS .divS S
  | .divD => resultFr resultDivD .divD S
  | .beq => some branchToken
  | .bne => some branchToken
  | .lw => none
  | .ld => none
  | .ls => none
  | .ldd => none
  | .sw => none
  | .sd => none
  | .ss => none
  | .sdd => none

/-- Stamp one of the timestamps of the instance bound to a station. -/
def stampBound (S : Station) (f : DynInst → DynInst) (s : State) : State :=
  match S.instruction with
  | some i => stamp i f s
  | none => s

/-- Completion of station S: queue the result and stamp `exec_end` (R152). -/
def complete (S : Station) (s : State) : Cyc :=
  match S.op with
  | none => .error (.refuse (.brokenTag S.name))
  | some o =>
    match stationResult o S with
    | none => .error (.refuse (.brokenTag S.name))
    | some v => .ok (stampBound S (fun d => { d with execEnd := some s.cycle }) (enqueue S.name v S.dest o s))

/-- A running timer (R151). -/
def Station.running (S : Station) : Bool :=
  !kindIsMem S.kind && S.busy && S.execStarted && decide (0 < S.remainingCycles)

/-- Count station T down, and complete it at 0 (R151, R152). -/
def countDown (T : Tag) (s : State) : Cyc :=
  match s.station? T with
  | none => .error (.refuse (.brokenTag T))
  | some S =>
    if S.running then
      let s1 := updStation T (fun S => { S with remainingCycles := S.remainingCycles - 1 }) s
      if S.remainingCycles = 1 then complete S s1 else .ok s1
    else .ok s

/-- The latency a station starts with; `none` where its op has none configured (R154). -/
def startLatency (c : Config) (S : Station) : Option Nat := S.op.bind (latOf c)

/-- A compute station that may start in cycle C (R153). -/
def Station.startable (C : Nat) (S : Station) : Bool :=
  !kindIsMem S.kind && S.ready && decide (S.effCycle < C)

/-- Start station T if it may (R153). An op without a latency is not started (R154; the reset excludes it, R331). -/
def startStation (T : Tag) (s : State) : Cyc :=
  match s.station? T with
  | none => .error (.refuse (.brokenTag T))
  | some S =>
    if S.startable s.cycle then
      match startLatency s.cfg S with
      | none => .ok s
      | some l =>
        .ok (stampBound S (fun d => { d with execStart := some s.cycle })
              (updStation T (fun S => { S with execStarted := true, remainingCycles := l }) s))
    else .ok s

/-- The names of the stations in pool order (10_state.md R45). -/
def State.tags (s : State) : List Tag := s.stations.map Station.name

/-- The Execute phase: every countdown, then every start, in pool order (R141, R151–R153). -/
def executePhase (s : State) : Cyc :=
  match forEach countDown s.tags s with
  | .error e => .error e
  | .ok s' => forEach startStation s'.tags s'

/-! ## The cycle up to Issue (R140–R142) -/

/-- `terminated()` (R173). -/
def State.terminated (s : State) : Bool :=
  decide (s.prog.length ≤ s.cursor) && s.instances.all (fun d => d.write.isSome) &&
  s.stations.all (fun S => !S.busy) && s.lsb.isEmpty

/-- The next cycle's number (R140). -/
def tick (s : State) : State := { s with cycle := s.cycle + 1 }

/-- Phases 1 to 4 of a cycle in their order: Write, Execute, Memory, deferred handover (R141). -/
def earlyPhases (s : State) : Cyc :=
  match writePhase s with
  | .error e => .error e
  | .ok s1 =>
    match executePhase s1 with
    | .error e => .error e
    | .ok s2 =>
      match memoryPhase s2 with
      | .error e => .error e
      | .ok s3 => deferredPhase s3

/-- The record at the cursor, checked; `none` past the end (R164; log 10). -/
def State.recordAtCursor (s : State) : Option (Except WfCheck Instr) :=
  match s.prog[s.cursor]? with
  | none => none
  | some r => some (checkRecord s.prog.length s.cursor r)

/-! ## Loading a record (log 3) -/

/-- The program with `r` at index `i`, longer if it has to be. -/
def placeRecord (i : Nat) (r : Record) (p : List Record) : List Record :=
  p.take i ++ List.replicate (i - p.length) r ++ [r] ++ p.drop (i + 1)

/-- The record of a packed word at index `i`; a word that is none leaves a record that WF_OP refuses. -/
def recordOfWord (i : Nat) (bs : List Byte) : Record :=
  match unpackRecord i bs with
  | .ok r => r
  | .error _ => { id := BitVec.ofNat 32 i, op := 0, dest := none, src1 := none, src2 := none, base := none,
                  offset := 0, immediate := 0 }

end Sys2Proof.Machine
end

