-- ==== Sys2Proof/Machine/Dispatch.lean ====
section
/-! DEFINITION. One arm per instruction: what its record does when it issues (log 12). -/

namespace Sys2Proof.Machine

def exec (i : Instr) (s : State) : Host.Outcome State Fault Refusal :=
  match i with
  | .daddi rt rs imm => Sys2Proof.Machine.execDaddi rt rs imm s
  | .dsubi rt rs imm => Sys2Proof.Machine.execDsubi rt rs imm s
  | .lw rt rb off => Sys2Proof.Machine.execLw rt rb off s
  | .ld rt rb off => Sys2Proof.Machine.execLd rt rb off s
  | .ls ft rb off => Sys2Proof.Machine.execLs ft rb off s
  | .ldd ft rb off => Sys2Proof.Machine.execLdd ft rb off s
  | .sw rt rb off => Sys2Proof.Machine.execSw rt rb off s
  | .sd rt rb off => Sys2Proof.Machine.execSd rt rb off s
  | .ss ft rb off => Sys2Proof.Machine.execSs ft rb off s
  | .sdd ft rb off => Sys2Proof.Machine.execSdd ft rb off s
  | .addS fd fs ft => Sys2Proof.Machine.execAddS fd fs ft s
  | .addD fd fs ft => Sys2Proof.Machine.execAddD fd fs ft s
  | .subS fd fs ft => Sys2Proof.Machine.execSubS fd fs ft s
  | .subD fd fs ft => Sys2Proof.Machine.execSubD fd fs ft s
  | .mulS fd fs ft => Sys2Proof.Machine.execMulS fd fs ft s
  | .mulD fd fs ft => Sys2Proof.Machine.execMulD fd fs ft s
  | .divS fd fs ft => Sys2Proof.Machine.execDivS fd fs ft s
  | .divD fd fs ft => Sys2Proof.Machine.execDivD fd fs ft s
  | .beq rs rt target => Sys2Proof.Machine.execBeq rs rt target s
  | .bne rs rt target => Sys2Proof.Machine.execBne rs rt target s

end Sys2Proof.Machine
end

