-- ==== Sys2Proof/Machine/Step.lean ====
section
/-! DEFINITION. One step is one cycle (40_cycle_engine.md R140–R142). -/

namespace Sys2Proof.Machine

/-- The Issue phase: the record at the cursor, if there is one (R164, R172). -/
def issuePhase (s : State) : Host.Outcome State Fault Refusal :=
  match s.recordAtCursor with
  | none => .next s
  | some (.error c) => .refused (.illFormedRecord s.cursor c)
  | some (.ok i) => exec i s

/-- One cycle. A faulted machine takes no further step and reports its fault (10_state.md R56, log 8); a terminated
one does nothing (70_reset_and_hazards.md R337); a fatal error in a phase leaves the state R312 describes. -/
def step (s : State) : Host.Outcome State Fault Refusal :=
  match s.fault with
  | some f => .fault f
  | none =>
    if s.terminated then .next s
    else
      match earlyPhases (tick s) with
      | .error (.fatal s') => .next s'
      | .error (.refuse r) => .refused r
      | .ok s' => issuePhase s'

/-- The state with a packed word loaded as the record at the cursor, where the Issue phase takes its record (log 3). -/
def State.withFetchWord (s : State) (nbits w : Nat) : State :=
  { s with prog := placeRecord s.cursor (recordOfWord s.cursor (tableBytes nbits w)) s.prog }

end Sys2Proof.Machine
end

