-- ==== Sys2Proof/WellFormed.lean ====
section
/-! DEFINITION. What well-formed means for an instruction and for a program (30_encoding.md R127). -/

namespace Sys2Proof

/-- An instruction is well-formed in a program of `n` records when a branch's target is a record index 0 … n
(WF_TARGET); every other constraint of R127 is in the types of its operands. -/
def Instr.wf (n : Nat) : Instr → Bool
  | .beq _ _ t => decide (0 ≤ t.toInt) && decide (t.toInt ≤ (n : Int))
  | .bne _ _ t => decide (0 ≤ t.toInt) && decide (t.toInt ≤ (n : Int))
  | .daddi .. | .dsubi .. => true
  | .lw .. | .ld .. | .ls .. | .ldd .. => true
  | .sw .. | .sd .. | .ss .. | .sdd .. => true
  | .addS .. | .addD .. | .subS .. | .subD .. => true
  | .mulS .. | .mulD .. | .divS .. | .divD .. => true

/-- The first failing check of the records `rs`, which stand from index `i` on in a program of `n` records: its index
and its name. `none` when all pass. -/
def firstBadRecord (n : Nat) : Nat → List Record → Option (Nat × WfCheck)
  | _, [] => none
  | i, r :: rs =>
    match checkRecord n i r with
    | .error c => some (i, c)
    | .ok _ => firstBadRecord n (i + 1) rs

/-- A program every record of which passes every check. -/
def programOk (p : List Record) : Bool := (firstBadRecord p.length 0 p).isNone

/-- The program made of these instructions, in order. -/
def programOf (is : List Instr) : List Record := is.mapIdx encodeRecord

end Sys2Proof
end

