-- ==== Sys2Proof/Machine/Reset.lean ====
section
/-! DEFINITION. The reset procedure over any host input (70_reset_and_hazards.md R330–R334). -/

namespace Sys2Proof.Machine

/-- A configuration as the host hands it over: any item may be missing and any integer may stand in it (R330 step 1,
I11). `lats` lists the latencies that are set; of an op listed twice the first counts (log 22). -/
structure RawConfig where
  nFpAdd : Option Int
  nFpMul : Option Int
  nFpDiv : Option Int
  nIntAdd : Option Int
  nLoad : Option Int
  nStore : Option Int
  nBranch : Option Int
  nIntMul : Option Int
  lsbMax : Option Int
  cacheSize : Option Int
  blockSize : Option Int
  hitLatency : Option Int
  missPenalty : Option Int
  loadBaseLatency : Option Int
  storeBaseLatency : Option Int
  maxCycles : Option Int
  lats : List (OpCode × Int)
deriving DecidableEq, Repr

/-- A register name as text (70_reset_and_hazards.md R332). -/
abbrev RegText := List Char

/-- Everything the host supplies for a reset (00_scope.md R8, R10, 30_encoding.md R120). -/
structure ResetInput where
  cfg : RawConfig
  preload : List (RegText × F64)
  image : List (Int × Int)
  prog : List Record
deriving DecidableEq, Repr

/-- What an `InvalidConfiguration` names: the parameter or the register (60_exceptions.md R306). For a bad pair of the
memory image R306 and R333 name nothing; that the info is the pair is a DESIGN CHOICE (log 23). -/
inductive ConfigItem where
  | nFpAdd | nFpMul | nFpDiv | nIntAdd | nLoad | nStore | nBranch | nIntMul
  | lsbMax | cacheSize | blockSize | hitLatency | missPenalty | loadBaseLatency | storeBaseLatency | maxCycles
  | latency (o : OpCode)
  | register (name : RegText)
  | imageByte (a v : Int)
deriving DecidableEq, Repr

/-- Why a reset refuses the run (60_exceptions.md R300, R314). -/
inductive ResetError where
  | invalidConfiguration (item : ConfigItem)
  | unknownRegisterName (name : RegText)
  | unknownRegisterField (f : RegField)
  | invalidProgram (index : Nat) (check : WfCheck)
  | unconfiguredLatency (o : OpCode)
deriving DecidableEq, Repr

/-- The error code (60_exceptions.md R314). -/
def ResetError.code : ResetError → Nat
  | .unknownRegisterName _ => 1
  | .unknownRegisterField _ => 1
  | .unconfiguredLatency _ => 4
  | .invalidConfiguration _ => 6
  | .invalidProgram _ _ => 8

/-! ## Step 1: the configuration (00_scope.md R8) -/

/-- A required integer at least `lo` (R8, R330). -/
def need (item : ConfigItem) (lo : Int) (x : Option Int) : Except ResetError Nat :=
  match x with
  | some v => if lo ≤ v then .ok v.toNat else .error (.invalidConfiguration item)
  | none => .error (.invalidConfiguration item)

/-- An optional integer, at least `lo` when it is given (`n_INT_MUL`, `MAX_CYCLES`; log 13). -/
def optional (item : ConfigItem) (lo : Int) (x : Option Int) : Except ResetError (Option Nat) :=
  match x with
  | some v => if lo ≤ v then .ok (some v.toNat) else .error (.invalidConfiguration item)
  | none => .ok none

/-- `block_size` is a power of two, 4 ≤ `block_size` ≤ 2^20 (D8). -/
def blockSizeOk (b : Nat) : Bool := decide (4 ≤ b) && decide (b ≤ memSize) && b == 2 ^ Nat.log2 b

/-- The host's latency of an op, if set. The spec has one `lat(op)` per op (R8) and no rule for one given twice; that the
first pair counts is a DESIGN CHOICE (log 22). -/
def rawLat (c : RawConfig) (o : OpCode) : Option Int := (c.lats.find? fun p => p.1 == o).map Prod.snd

/-- The compute ops in the order of the row `lat(op)` of R8. -/
def computeOps : List OpCode :=
  [.addS, .addD, .subS, .subD, .mulS, .mulD, .divS, .divD, .daddi, .dsubi, .beq, .bne]

/-- A latency that is given is an integer at least 1, whether its op occurs in the program or not (R8, R306, I11). Which
of several bad ones is named is a DESIGN CHOICE (log 13). -/
def checkGivenLatencies (c : RawConfig) : List OpCode → Except ResetError Unit
  | [] => .ok ()
  | o :: os =>
    match rawLat c o with
    | none => checkGivenLatencies c os
    | some l => if 1 ≤ l then checkGivenLatencies c os else .error (.invalidConfiguration (.latency o))

/-- The latencies that are given; step 1 checks each, and step 5 that none is missing (R331). -/
def latencies (c : RawConfig) : Latencies :=
  let l (o : OpCode) : Option Nat := (rawLat c o).map Int.toNat
  { daddi := l .daddi, dsubi := l .dsubi
    addS := l .addS, addD := l .addD, subS := l .subS, subD := l .subD
    mulS := l .mulS, mulD := l .mulD, divS := l .divS, divD := l .divD
    beq := l .beq, bne := l .bne }

/-- Step 1 of the reset, item by item in the order of the table of R8; that order is a DESIGN CHOICE (log 13). -/
def checkConfig (c : RawConfig) : Except ResetError Config := do
  let nFpAdd ← need .nFpAdd 1 c.nFpAdd
  let nFpMul ← need .nFpMul 1 c.nFpMul
  let nFpDiv ← need .nFpDiv 1 c.nFpDiv
  let nIntAdd ← need .nIntAdd 1 c.nIntAdd
  let nLoad ← need .nLoad 1 c.nLoad
  let nStore ← need .nStore 1 c.nStore
  let nBranch ← need .nBranch 1 c.nBranch
  let nIntMul ← optional .nIntMul 0 c.nIntMul
  let lsbMax ← need .lsbMax 1 c.lsbMax
  let cacheSize ← need .cacheSize 1 c.cacheSize
  let blockSize ← need .blockSize 1 c.blockSize
  if !blockSizeOk blockSize || decide (cacheSize < blockSize) then throw (.invalidConfiguration .blockSize)
  if cacheSize % blockSize != 0 then throw (.invalidConfiguration .cacheSize)
  let hitLatency ← need .hitLatency 0 c.hitLatency
  let missPenalty ← need .missPenalty 0 c.missPenalty
  let loadBaseLatency ← need .loadBaseLatency 1 c.loadBaseLatency
  let storeBaseLatency ← need .storeBaseLatency 1 c.storeBaseLatency
  checkGivenLatencies c computeOps
  let maxCycles ← optional .maxCycles 1 c.maxCycles
  return { nFpAdd, nFpMul, nFpDiv, nIntAdd, nLoad, nStore, nBranch, nIntMul, lsbMax, cacheSize, blockSize,
           hitLatency, missPenalty, loadBaseLatency, storeBaseLatency, maxCycles, lat := latencies c }

/-! ## Step 2: the register preload (R332) -/

/-- The value of a decimal digit. -/
def digit? (c : Char) : Option Nat := if '0' ≤ c ∧ c ≤ '9' then some (c.toNat - '0'.toNat) else none

/-- The value of a text of decimal digits, most significant first, on top of `acc`. -/
def digits? : Nat → RegText → Option Nat
  | acc, [] => some acc
  | acc, c :: cs =>
    match digit? c with
    | some d => digits? (acc * 10 + d) cs
    | none => none

/-- The index after the class letter: at least one digit, value 0–31 (R332, D44). -/
def regIndex? (cs : RegText) : Option (Fin 32) :=
  match cs with
  | [] => none
  | c :: cs =>
    match digits? 0 (c :: cs) with
    | some n => if h : n < 32 then some ⟨n, h⟩ else none
    | none => none

/-- The register a name denotes: "`^[FR]\d+$` with index 0–31" (R332); leading zeros are allowed (D44). -/
def parseReg (t : RegText) : Option Reg :=
  match t with
  | 'R' :: cs => (regIndex? cs).map Reg.r
  | 'F' :: cs => (regIndex? cs).map Reg.f
  | _ => none

/-- An R register takes only integer-valued values, an F register any (R332). -/
def preloadValueOk (r : Reg) (v : F64) : Bool :=
  match r with
  | .r _ => (F64.toInt? v).isSome
  | .f _ => true

/-- Step 2; `seen` is the registers already given (R332). The preload is a map without an order: that the first failing
pair of the host's list is the one reported, by its own spelling, is a DESIGN CHOICE (log 13). -/
def checkPreload : List Reg → List (RegText × F64) → Except ResetError (List (Reg × F64))
  | _, [] => .ok []
  | seen, (t, v) :: rest =>
    match parseReg t with
    | none => .error (.unknownRegisterName t)
    | some r =>
      if seen.contains r || !preloadValueOk r v then .error (.invalidConfiguration (.register t))
      else
        match checkPreload (r :: seen) rest with
        | .error e => .error e
        | .ok ps => .ok ((r, v) :: ps)

/-! ## Step 3: the memory image (R333) -/

/-- Step 3: every address inside memory, every byte in 0 … 255 (R333). The image is a map without an order: that the first
failing pair of the host's list is the one reported is a DESIGN CHOICE (log 13). -/
def checkImage : List (Int × Int) → Except ResetError (List (Nat × Byte))
  | [] => .ok []
  | (a, v) :: rest =>
    if 0 ≤ a ∧ a < memSize ∧ 0 ≤ v ∧ v ≤ 255 then
      match checkImage rest with
      | .error e => .error e
      | .ok cs => .ok ((a.toNat, BitVec.ofNat 8 v.toNat) :: cs)
    else .error (.invalidConfiguration (.imageByte a v))

/-! ## Steps 4 and 5: the program and its latencies (30_encoding.md R127, R331) -/

/-- The register field of a record that names no register and is reported. R127 and R302 give no order among the fields of
one record: that it is the first of dest, src1, src2, base_reg is a DESIGN CHOICE (log 13). -/
def badField (r : Record) : Option RegField :=
  [r.dest, r.src1, r.src2, r.base].findSome? fun f => if RegField.named f then none else f

/-- The bad register name of the record at index `i`. -/
def badFieldAt (p : List Record) (i : Nat) : RegField := ((p[i]?).bind badField).getD ⟨.int, 0⟩

/-- Step 4. A bad register name is `UnknownRegister`, every other failed check `InvalidProgram` (R302, R307). -/
def checkProgram (p : List Record) : Except ResetError Unit :=
  match firstBadRecord p.length 0 p with
  | none => .ok ()
  | some (i, .wfRegName) => .error (.unknownRegisterField (badFieldAt p i))
  | some (i, c) => .error (.invalidProgram i c)

/-- The latency of one op, if it is a compute op: present and at least 1 (R331). Step 1 has refused those below 1. -/
def checkLatency (c : RawConfig) (o : OpCode) : Except ResetError Unit :=
  if kindIsMem (opKind o) then .ok ()
  else
    match rawLat c o with
    | none => .error (.unconfiguredLatency o)
    | some l => if 1 ≤ l then .ok () else .error (.invalidConfiguration (.latency o))

/-- Step 5, for the ops that occur in the program (R331). R331 gives no order among them: that the op named is the one that
occurs first is a DESIGN CHOICE (log 13). -/
def checkLatencies (c : RawConfig) : List Record → Except ResetError Unit
  | [] => .ok ()
  | r :: rs =>
    match OpCode.ofCode r.op with
    | none => checkLatencies c rs
    | some o =>
      match checkLatency c o with
      | .error e => .error e
      | .ok () => checkLatencies c rs

/-! ## The reset values with the host's preload and image (R38, R71, R334) -/

/-- Put the preload values into the registers. -/
def preloadRegs (ps : List (Reg × F64)) (s : State) : State :=
  ps.foldl (fun s p => s.setReg p.1 ⟨p.2, none⟩) s

/-- Put the image's bytes into ByteMemory. -/
def loadImage (cs : List (Nat × Byte)) (s : State) : State :=
  { s with mem := cs.foldl (fun m c => m.write c.1 c.2) s.mem }

/-- `reset()` (R330, R338): the checks in their order, then every piece of state at its reset value. It reads nothing of
an earlier run (R337). -/
def hostReset (inp : ResetInput) : Except ResetError State := do
  let c ← checkConfig inp.cfg
  let ps ← checkPreload [] inp.preload
  let cs ← checkImage inp.image
  checkProgram inp.prog
  checkLatencies inp.cfg inp.prog
  return loadImage cs (preloadRegs ps (State.fresh c inp.prog))

end Sys2Proof.Machine
end

