-- ==== Sys2Proof/Machine/Driver.lean ====
section
/-! DEFINITION. The host's operations beside reset and step: run and poll (70_reset_and_hazards.md R338, R339). -/

namespace Sys2Proof.Machine

/-- What `step()` reports to the host (R338). -/
inductive StepReport where
  | running
  | terminated (cycle : Nat)
  | faulted (f : Fault) (cycle : Nat)
deriving DecidableEq, Repr

/-- The report for the state a step left (R338, 60_exceptions.md R312). -/
def State.report (s : State) : StepReport :=
  match s.fault with
  | some f => .faulted f s.cycle
  | none => if s.terminated then .terminated s.cycle else .running

/-- How a run ends. `outOfFuel` is the model's own end of a run without `MAX_CYCLES` (40_cycle_engine.md R175: it "steps
forever"). -/
inductive RunResult where
  | terminated (s : State)
  | faulted (f : Fault) (s : State)
  | nonTerminating (maxCycles : Nat) (s : State)
  | refused (r : Refusal) (s : State)
  | outOfFuel (s : State)
deriving DecidableEq, Repr

/-- The run has executed `MAX_CYCLES` cycles (R175). -/
def State.atBound (s : State) : Bool := s.cfg.maxCycles.any fun m => decide (m ≤ s.cycle)

/-- `run()`: step until terminated, faulted, or about to execute cycle `MAX_CYCLES + 1` (R175, R338), for at most
`fuel` steps. -/
def run : Nat → State → RunResult
  | fuel, s =>
    match s.fault with
    | some f => .faulted f s
    | none =>
      if s.terminated then .terminated s
      else if s.atBound then .nonTerminating (s.cfg.maxCycles.getD 0) s
      else
        match fuel with
        | 0 => .outOfFuel s
        | fuel + 1 =>
          match step s with
          | .next s' => run fuel s'
          | .fault f => .faulted f s
          | .refused r => .refused r s

/-- The code of `NonTerminating` (60_exceptions.md R314). -/
def nonTerminatingCode : Nat := 11

/-- The polled timestamps of a record: those of its latest instance, none if it never issued (R339, 10_state.md R54). -/
def State.pollRecord (s : State) (i : Nat) : Option DynInst := s.instances.reverse.find? fun d => d.pc == i

/-- The polled miss rate (20_memory.md R91). -/
def State.missRate (s : State) : Rat :=
  if s.hits + s.misses = 0 then 0 else (s.misses : Rat) / ((s.hits + s.misses : Nat) : Rat)

/-- The polled snapshot of a station (R339). -/
structure StationView where
  name : Tag
  busy : Bool
  op : Option OpCode
  vj : Option F64
  vk : Option F64
  qj : Option Tag
  qk : Option Tag
  a : Option I32
  remaining : Nat
deriving DecidableEq, Repr

def Station.view (S : Station) : StationView :=
  ⟨S.name, S.busy, S.op, S.vj, S.vk, S.qj, S.qk, S.a, S.remainingCycles⟩

/-- The polled stations, in pool order (R339). -/
def State.pollStations (s : State) : List StationView := s.stations.map Station.view

/-- The polled snapshot of a register: value and qi, without the check of `readValue` (R339, 60_exceptions.md R301). -/
def State.pollRegister (s : State) (r : Reg) : F64 × Option Tag := ((s.reg r).value, (s.reg r).qi)

/-- The polled LSB entries: seq, op, address, remaining, is_load (R339). -/
def State.pollLsb (s : State) : List (Nat × OpCode × Nat × Nat × Bool) :=
  s.lsb.map fun e => (e.seq, e.op, e.address, e.remainingCycles, e.isLoad)

end Sys2Proof.Machine
end

