-- ==== Sys2Proof/Safety.lean ====
section
/-! DEFINITION. What a safe run and a well-formed state are, in the terms the statements use. -/

namespace Sys2Proof.Machine

/-- A run is safe while no fatal error is recorded (60_exceptions.md R312). -/
def State.Safe (s : State) : Prop := s.fault = none

/-- The states a reset of some host input and steps lead to. -/
inductive Reachable : State → Prop where
  | reset {inp : ResetInput} {s : State} (h : hostReset inp = .ok s) : Reachable s
  | step {s t : State} (hs : Reachable s) (h : Sys2Proof.Machine.step s = .next t) : Reachable t

/-! ## The configuration -/

/-- The configuration holds the numbers the host gave, and they meet their constraints (00_scope.md R8); the latencies
apart, which `latOf` reads. -/
structure ConfigGiven (r : RawConfig) (c : Config) : Prop where
  nFpAdd : r.nFpAdd = some (c.nFpAdd : Int) ∧ 1 ≤ c.nFpAdd
  nFpMul : r.nFpMul = some (c.nFpMul : Int) ∧ 1 ≤ c.nFpMul
  nFpDiv : r.nFpDiv = some (c.nFpDiv : Int) ∧ 1 ≤ c.nFpDiv
  nIntAdd : r.nIntAdd = some (c.nIntAdd : Int) ∧ 1 ≤ c.nIntAdd
  nLoad : r.nLoad = some (c.nLoad : Int) ∧ 1 ≤ c.nLoad
  nStore : r.nStore = some (c.nStore : Int) ∧ 1 ≤ c.nStore
  nBranch : r.nBranch = some (c.nBranch : Int) ∧ 1 ≤ c.nBranch
  nIntMul : r.nIntMul = c.nIntMul.map Int.ofNat
  lsbMax : r.lsbMax = some (c.lsbMax : Int) ∧ 1 ≤ c.lsbMax
  cacheSize : r.cacheSize = some (c.cacheSize : Int) ∧ 1 ≤ c.cacheSize ∧ c.cacheSize % c.blockSize = 0
  blockSize : r.blockSize = some (c.blockSize : Int) ∧ (∃ k, c.blockSize = 2 ^ k) ∧ 4 ≤ c.blockSize ∧
    c.blockSize ≤ c.cacheSize ∧ c.blockSize ≤ 2 ^ 20
  hitLatency : r.hitLatency = some (c.hitLatency : Int)
  missPenalty : r.missPenalty = some (c.missPenalty : Int)
  loadBaseLatency : r.loadBaseLatency = some (c.loadBaseLatency : Int) ∧ 1 ≤ c.loadBaseLatency
  storeBaseLatency : r.storeBaseLatency = some (c.storeBaseLatency : Int) ∧ 1 ≤ c.storeBaseLatency
  maxCycles : r.maxCycles = c.maxCycles.map Int.ofNat ∧ ∀ m, c.maxCycles = some m → 1 ≤ m

/-! ## The memory system -/

/-- An LSB entry as the handover makes it (20_memory.md R75, R77, R94, R102). -/
structure EntryOk (e : LsbEntry) : Prop where
  size : e.size = opSize e.op
  wide : e.size = 4 ∨ e.size = 8
  aligned : e.address % 4 = 0
  inside : e.address + e.size ≤ memSize
  kind : e.isLoad = (opKind e.op == .load)
  data : e.isLoad = false → ∃ bs, e.value = some bs ∧ bs.length = e.size

/-- The start address of the block a line holds (20_memory.md R83). -/
def blockStart (c : Config) (i : Nat) (L : CacheLine) : Nat := (L.tag * numLines c + i) * c.blockSize

/-- A line that is full-sized, lies inside memory when valid, and agrees with ByteMemory when valid and clean. -/
structure LineOk (s : State) (i : Nat) (L : CacheLine) : Prop where
  size : L.data.length = s.cfg.blockSize
  inside : L.valid = true → blockStart s.cfg i L + s.cfg.blockSize ≤ memSize
  clean : L.valid = true → L.dirty = false → L.data = s.mem.readBytes (blockStart s.cfg i L) s.cfg.blockSize

/-- The memory system is well-formed: the configured geometry, canonical ByteMemory, lines that hold what R82 to R89
say, and an LSB in ascending `seq`, within its capacity (20_memory.md R70–R102). -/
structure Shaped (s : State) : Prop where
  block : blockSizeOk s.cfg.blockSize = true
  someLine : 0 < numLines s.cfg
  lineCount : s.lines.length = numLines s.cfg
  line : ∀ i L, s.lines[i]? = some L → LineOk s i L
  memory : s.mem.wf
  stationOp : ∀ S ∈ s.stations, ∀ o, S.op = some o → opKind o = S.kind
  entry : ∀ e ∈ s.lsb, EntryOk e
  order : s.lsb.Pairwise fun e e' => e.seq < e'.seq
  seqBelow : ∀ e ∈ s.lsb, e.seq < s.nextSeq
  seqMax : s.nextSeq < 2 ^ 32
  capacity : s.lsb.length ≤ s.cfg.lsbMax

/-! ## Accesses of the cache -/

/-- The line number `indexOf a` once it holds the block of `a` (20_memory.md R87): on a hit the line as it is, on a miss the
block, fetched, valid and clean. -/
def lineMade (s : State) (a : Nat) : Option CacheLine :=
  if s.isHit a then s.lines[indexOf s.cfg a]?
  else some { valid := true, dirty := false, tag := tagOf s.cfg a
              data := s.memRead (a / s.cfg.blockSize * s.cfg.blockSize) s.cfg.blockSize }

/-- A line after a word access at offset `o`: as it is after a read (R88); with the word in it, and dirty, after a write
(R89). -/
def CacheLine.accessed (o : Nat) (w : Option (List Byte)) (L : CacheLine) : CacheLine :=
  match w with
  | none => L
  | some bs => { L with data := L.data.take o ++ bs ++ L.data.drop (o + bs.length), dirty := true }

/-- What one word access at `a`, a read (`none`) or a write (`some` of the bytes), does to the cache, to ByteMemory and to
the counters: direct-mapped, write-back, write-allocate (R82, R87–R90, R112). -/
structure Accessed (s t : State) (a : Nat) (w : Option (List Byte)) : Prop where
  cfg : t.cfg = s.cfg
  line : t.lines[indexOf s.cfg a]? = (lineMade s a).map (CacheLine.accessed (offsetOf s.cfg a) w)
  others : ∀ i, i ≠ indexOf s.cfg a → t.lines[i]? = s.lines[i]?
  kept : (s.isHit a = true ∨ ∀ L, s.lines[indexOf s.cfg a]? = some L → L.valid = true → L.dirty = false) →
    t.mem = s.mem
  writtenBack : ∀ L, s.isHit a = false → s.lines[indexOf s.cfg a]? = some L → L.valid = true → L.dirty = true →
    ∀ x, t.mem.read x =
      if blockStart s.cfg (indexOf s.cfg a) L ≤ x ∧ x < blockStart s.cfg (indexOf s.cfg a) L + s.cfg.blockSize
      then L.data.getD (x - blockStart s.cfg (indexOf s.cfg a) L) 0 else s.mem.read x
  hits : t.hits = s.hits + if s.isHit a then 1 else 0
  misses : t.misses = s.misses + if s.isHit a then 0 else 1

/-- Word accesses, one after the other. -/
def Accesses : List (Nat × Option (List Byte)) → State → State → Prop
  | [], s, t => t.cfg = s.cfg ∧ t.lines = s.lines ∧ t.mem = s.mem ∧ t.hits = s.hits ∧ t.misses = s.misses
  | (a, w) :: l, s, t => ∃ u, Accessed s u a w ∧ Accesses l u t

/-- The word accesses of an entry at its commit: one, or two for a doubleword, the lower address first (R76, R99, R100). -/
def LsbEntry.words (e : LsbEntry) : List (Nat × Option (List Byte)) :=
  let v := if e.isLoad then none else e.value
  (e.address, v.map (List.take 4)) :: if e.size = 8 then [(e.address + 4, v.map (List.drop 4))] else []

/-! ## A tick of the buffer -/

/-- The entry is a store of the byte at `x`. -/
def LsbEntry.stores (e : LsbEntry) (x : Nat) : Bool :=
  !e.isLoad && decide (e.address ≤ x) && decide (x < e.address + e.size)

/-- The coherent view's byte at `x` after the stores among `l`, in their order (20_memory.md R93, R100). -/
def viewAfter (s : State) (l : List LsbEntry) (x : Nat) : Byte :=
  l.foldl (fun b e => if e.stores x then (e.value.getD []).getD (x - e.address) 0 else b) (s.coherentByte x)

/-- The entry is no longer in the buffer of `t`. -/
def LsbEntry.leftBy (e : LsbEntry) (t : State) : Bool := t.lsb.all fun k => k.seq != e.seq

/-- An earlier entry that overlaps the entry is still in the buffer of `t` (R97, R98). -/
def LsbEntry.stalledIn (e : LsbEntry) (earlier : List LsbEntry) (t : State) : Bool :=
  earlier.any fun k => k.overlaps e && !k.leftBy t

/-! ## Stations, tags and requests -/

/-- The format of an op uses slot k (40_cycle_engine.md R167). -/
def usesK (o : OpCode) : Bool :=
  match o.format with
  | .fr | .stf | .br => true
  | .ii | .ldf => false

/-- The format of an op fills the `a` field (30_encoding.md R122). -/
def usesA (o : OpCode) : Bool :=
  match o.format with
  | .ii | .ldf | .stf | .br => true
  | .fr => false

/-- The slots of a busy station (10_state.md R43): exactly one of V and Q in a used slot, neither in an unused one. -/
structure SlotsOk (o : OpCode) (S : Station) : Prop where
  j : S.vj.isSome = !S.qj.isSome
  k : if usesK o then S.vk.isSome = !S.qk.isSome else S.vk = none ∧ S.qk = none
  a : S.a.isSome = usesA o
  dest : S.dest.isSome = o.destClass.isSome

/-- The record of a busy branch station is a branch on these registers, and its slots wait for what they wait for
(44_branch.md R277). -/
def BranchBound (s : State) (S : Station) : Prop :=
  ∃ i d r ins rs rt target, S.instruction = some i ∧ s.instances[i]? = some d ∧ s.prog[d.pc]? = some r ∧
    checkRecord s.prog.length d.pc r = .ok ins ∧ (ins = .beq rs rt target ∨ ins = .bne rs rt target) ∧
    S.qj = (s.reg (.r rs)).qi ∧ S.qk = (s.reg (.r rt)).qi

/-- Every tag names a busy station (10_state.md R42, R43, R53, 40_cycle_engine.md R180, R182, 44_branch.md R271); that
this station will answer it is `Answering`. -/
structure Linked (s : State) : Prop where
  names : s.tags.Nodup
  free : ∀ S ∈ s.stations, S.busy = false → S = Station.free S.name
  bound : ∀ S ∈ s.stations, S.busy = true → ∃ o i d, S.op = some o ∧ opKind o = S.kind ∧ S.instruction = some i ∧
    s.instances[i]? = some d ∧ d.station = S.name ∧ d.op = o ∧ SlotsOk o S
  started : ∀ S ∈ s.stations, S.execStarted = true →
    S.busy = true ∧ S.qj = none ∧ (S.kind = .load ∨ S.qk = none)
  counting : ∀ S ∈ s.stations, 0 < S.remainingCycles → S.execStarted = true ∧ kindIsMem S.kind = false
  regTag : ∀ r T, (s.reg r).qi = some T → ∃ S ∈ s.stations, S.name = T ∧ S.busy = true ∧ S.dest = some r
  slotTag : ∀ S ∈ s.stations, ∀ T, S.qj = some T ∨ S.qk = some T →
    T ≠ S.name ∧ ∃ P ∈ s.stations, P.name = T ∧ P.busy = true ∧ P.dest.isSome = true
  queued : ∀ q ∈ s.cdbQueue, ∃ S ∈ s.stations, S.name = q.station ∧ S.busy = true ∧ S.execStarted = true ∧
    S.remainingCycles = 0 ∧ S.dest = q.dest
  buffered : ∀ e ∈ s.lsb, ∃ S ∈ s.stations, S.name = e.station ∧ S.busy = true ∧ S.execStarted = true ∧
    kindIsMem S.kind = true ∧ S.dest = e.dest ∧ S.op = some e.op ∧ S.instruction = some e.inst ∧
    e.isLoad = (S.kind == .load)
  once : (s.cdbQueue.map Request.station ++ s.lsb.map LsbEntry.station).Nodup
  branch : ∀ S ∈ s.stations, S.busy = true → S.kind = .branch →
    s.branchPending = true ∧ S.instruction = some (s.instances.length - 1) ∧ BranchBound s S

/-- While issue is blocked, a branch station is busy (10_state.md R53, 44_branch.md R271). -/
def BranchInFlight (s : State) : Prop := s.branchPending = true → ∃ S ∈ s.stations, S.kind = .branch ∧ S.busy = true

/-- A station that has started will answer: it is counting down, or its request is queued, or its entry is in the LSB
(40_cycle_engine.md R180); for that every configured latency is at least 1 (00_scope.md R8). -/
structure Answering (s : State) : Prop where
  latency : ∀ o l, latOf s.cfg o = some l → 1 ≤ l
  answer : ∀ S ∈ s.stations, S.execStarted = true →
    0 < S.remainingCycles ∨ S.name ∈ s.cdbQueue.map Request.station ∨ S.name ∈ s.lsb.map LsbEntry.station

/-! ## Integer registers -/

/-- A value is integer-valued (00_scope.md R13). -/
def Integral (v : F64) : Prop := (F64.toInt? v).isSome = true

/-- Slot j of the op's format is an R register (30_encoding.md R124). -/
def readsIntJ (o : OpCode) : Bool :=
  match o.format with
  | .ii | .ldf | .stf | .br => true
  | .fr => false

/-- The class of a register. -/
def Reg.cls : Reg → RegClass
  | .r _ => .int
  | .f _ => .fp

/-- Integer registers, and everything on its way into one or captured from one, are integer-valued (10_state.md R33,
41_int_imm.md R202). -/
structure IntegerValued (s : State) : Prop where
  regs : ∀ i : Fin 32, Integral (s.reg (.r i)).value
  queued : ∀ q ∈ s.cdbQueue, ∀ i, q.dest = some (.r i) → Integral q.value
  captured : ∀ S ∈ s.stations, ∀ o v, S.op = some o → readsIntJ o = true → S.vj = some v → Integral v
  awaited : ∀ S ∈ s.stations, ∀ o T, S.op = some o → readsIntJ o = true → S.qj = some T →
    ∃ P ∈ s.stations, P.name = T ∧ ∃ i, P.dest = some (.r i)
  destClass : ∀ S ∈ s.stations, ∀ o r, S.op = some o → S.dest = some r → Reg.cls r = o.dataClass

/-- Every well-formedness the machine keeps, and a checked program. -/
structure WellFormed (s : State) : Prop where
  shaped : Shaped s
  linked : Linked s
  inFlight : BranchInFlight s
  answering : Answering s
  integer : IntegerValued s
  program : programOk s.prog = true

end Sys2Proof.Machine
end

