-- ==== Sys2Proof/Certificates/Slice0/Obligations.lean ====
section
/-! DEFINITION. The statements for the provers, from the numbered rules of spec/. Each docstring names the rule it
formalises. Statements about a NaN hold for every NaN the free values may give. -/

namespace Sys2Proof.Machine

/-! ## Words the statements share -/

/-- The value a slot captures from a register: that of a ready one (40_cycle_engine.md R166). -/
def slotValue (c : RegCell) : Option F64 :=
  match c.qi with
  | none => some c.value
  | some _ => none

/-- A station as R165 and R166 leave it at issue. -/
def issuedStation (T : Tag) (o : OpCode) (dest : Option Reg) (j : RegCell) (k : Option RegCell) (a : Option I32)
    (i C : Nat) (started : Bool) : Station where
  name := T
  busy := true
  op := some o
  vj := slotValue j
  vk := k.bind slotValue
  qj := j.qi
  qk := k.bind RegCell.qi
  a := a
  instruction := some i
  issueCycle := C
  execStarted := started
  remainingCycles := 0
  dest := dest
  effCycle := C

/-- What no issue and no handover changes: the configuration, the program, the cycle, the CDB queue, the memory system. -/
structure IssueFrame (s t : State) : Prop where
  cfg : t.cfg = s.cfg
  prog : t.prog = s.prog
  cycle : t.cycle = s.cycle
  cdbQueue : t.cdbQueue = s.cdbQueue
  mem : t.mem = s.mem
  lines : t.lines = s.lines
  hits : t.hits = s.hits
  misses : t.misses = s.misses
  coherent : ∀ x, t.coherentByte x = s.coherentByte x

/-- What every completed issue of op `o` into station T does and leaves (R165, R168, R170, R171). The last field of the new
instance, the `taken` mark, is none: the model's choice (log 24). -/
structure Issued (s t : State) (T : Tag) (o : OpCode) (dest : Option Reg) (S : Station) : Prop where
  frame : IssueFrame s t
  station : t.stations = s.stations.map fun S' => if S'.name = T then S else S'
  log : t.instances = s.instances ++ [⟨s.cursor, o, T, some s.cycle, none, none, none, none⟩]
  renamed : ∀ d, dest = some d → t.reg d = ⟨(s.reg d).value, some T⟩
  others : ∀ r, dest ≠ some r → t.reg r = s.reg r
  fault : t.fault = s.fault

/-- The eight FR ops: op, station kind, constructor, and the IEEE operation of their result (R250–R257). -/
def frOps : List (OpCode × Kind × (Fin 32 → Fin 32 → Fin 32 → Instr) × (NaN64 → F64 → F64 → F64)) :=
  [(.addS, .fpAdd, .addS, F64.add), (.addD, .fpAdd, .addD, F64.add),
   (.subS, .fpAdd, .subS, F64.sub), (.subD, .fpAdd, .subD, F64.sub),
   (.mulS, .fpMul, .mulS, F64.mul), (.mulD, .fpMul, .mulD, F64.mul),
   (.divS, .fpDiv, .divS, fun n x y => if F64.isZero y then 0 else F64.div n x y),
   (.divD, .fpDiv, .divD, fun n x y => if F64.isZero y then 0 else F64.div n x y)]

/-- The two II ops and the operation of their result (R200, R201). -/
def iiOps : List (OpCode × (Fin 32 → Fin 32 → I32 → Instr) × (NaN64 → F64 → F64 → F64)) :=
  [(.daddi, .daddi, F64.add), (.dsubi, .dsubi, F64.sub)]

/-- The four loads: op, constructor, destination and size (R213–R216). -/
def loadOps : List (OpCode × (Fin 32 → Fin 32 → I32 → Instr) × (Fin 32 → Reg) × Nat) :=
  [(.lw, .lw, .r, 4), (.ld, .ld, .r, 8), (.ls, .ls, .f, 4), (.ldd, .ldd, .f, 8)]

/-- The four stores: op, constructor, data register, size and encoding (R217–R220). -/
def storeOps : List (OpCode × (Fin 32 → Fin 32 → I32 → Instr) × (Fin 32 → Reg) × Nat ×
    (Nat → F64 → Option (List Byte))) :=
  [(.sw, .sw, .r, 4, encodeSw), (.sd, .sd, .r, 8, encodeSd), (.ss, .ss, .f, 4, encodeSs), (.sdd, .sdd, .f, 8, encodeSdd)]

/-- The two branches and when they are taken (R275, R276). -/
def brOps : List (OpCode × (Fin 32 → Fin 32 → I32 → Instr) × (F64 → F64 → Bool)) :=
  [(.beq, .beq, fun u w => F64.eq u w), (.bne, .bne, fun u w => !F64.eq u w)]

/-- T names the first free station of kind k, lowest index first (10_state.md R46). -/
def FirstFree (s : State) (k : Kind) (T : Tag) : Prop :=
  ∃ before S after, s.stations = before ++ S :: after ∧ S.name = T ∧ S.kind = k ∧ S.busy = false ∧
    ∀ P ∈ before, P.kind = k → P.busy = true

/-- A record can issue into station T of kind k (R164), the LSB apart. -/
def CanIssue (s : State) (k : Kind) (T : Tag) : Prop := s.branchPending = false ∧ FirstFree s k T

/-- The LSB has room (R95). -/
def HasRoom (s : State) : Prop := s.lsb.length < s.cfg.lsbMax

/-- The latency of an access of `size` bytes at `ea`, by what the cache holds now (R86, R103). -/
def frozenLatency (s : State) (base ea size : Nat) : Nat :=
  base + if s.isHit ea ∧ (size = 8 → s.isHit (ea + 4)) then s.cfg.hitLatency else s.cfg.missPenalty

/-- The address checks pass (R222). -/
def AddressOk (ea : Int) (size : Nat) : Prop := 0 ≤ ea ∧ ea + size ≤ 2 ^ 20 ∧ ea % 4 = 0

/-- The error of an address that fails the checks: `BadAddress` before `Misaligned` (R102). -/
def addressFault (ea : Int) (size : Nat) : Fault :=
  if ea < 0 ∨ 2 ^ 20 < ea + size then .badAddress ea else .misaligned ea

/-- What the handover of station S with entry `e` does and leaves (R102). -/
structure HandedOver (s t : State) (S : Station) (e : LsbEntry) : Prop where
  frame : IssueFrame s t
  lsb : t.lsb = s.lsb ++ [e]
  nextSeq : t.nextSeq = s.nextSeq + 1
  stations : t.stations = s.stations.map fun P => if P.name = S.name then { P with execStarted := true } else P
  registers : ∀ r, t.reg r = s.reg r
  log : t.instances = s.instances
  cursor : t.cursor = s.cursor
  branchPending : t.branchPending = s.branchPending
  fault : t.fault = s.fault

/-- `v` is the exact number `z / k`, in units of 2^−1074, rounded as R241 and R242 say: below the overflow bound
2^1024 − 2^970 the nearest finite value, of two equally near ones the one with an even last bit, and from the bound on
an infinity; the sign is the exact number's. -/
def CorrectlyRounded (v : F64) (z k : Int) : Prop :=
  (z ≠ 0 → F64.sign v = decide (z * k < 0)) ∧
  (|z| < (2 ^ 1024 - 2 ^ 970) * 2 ^ 1074 * |k| → F64.isFinite v ∧ ∀ w : F64, F64.isFinite w →
    |F64.scaled v * k - z| ≤ |F64.scaled w * k - z| ∧
    (F64.scaled w ≠ F64.scaled v → |F64.scaled v * k - z| = |F64.scaled w * k - z| → F64.frac v % 2 = 0)) ∧
  ((2 ^ 1024 - 2 ^ 970) * 2 ^ 1074 * |k| ≤ |z| → F64.isInf v)

/-- `v` is a result of op `o` on what station S captured (40_cycle_engine.md R155): the IEEE operation, or a branch's token
+0.0. -/
def ResultOf (o : OpCode) (S : Station) (v : F64) : Prop :=
  (∀ p ∈ frOps, p.1 = o → ∃ n x y, S.vj = some x ∧ S.vk = some y ∧ v = p.2.2.2 n x y) ∧
  (∀ p ∈ iiOps, p.1 = o → ∃ n x a, S.vj = some x ∧ S.a = some a ∧ v = p.2.2 n x (F64.ofInt a.toInt)) ∧
  (∀ p ∈ brOps, p.1 = o → v = 0x0000000000000000#64)

/-- A compute station whose countdown runs (R151). -/
def counting (S : Station) : Bool :=
  decide (S.kind ≠ .load ∧ S.kind ≠ .store ∧ S.busy = true ∧ S.execStarted = true ∧ 0 < S.remainingCycles)

/-- A compute station in the last cycle of its countdown (R152). -/
def completing (S : Station) : Bool := counting S && decide (S.remainingCycles = 1)

/-- The latency a compute station starts with in the cycle of `s`, if it is ready and its last operand came before it
(R153, R154). -/
def startsWith (s : State) (S : Station) : Option Nat :=
  if S.kind ≠ .load ∧ S.kind ≠ .store ∧ S.busy = true ∧ S.execStarted = false ∧ S.qj = none ∧ S.qk = none ∧
    S.effCycle < s.cycle
  then S.op.bind (latOf s.cfg) else none

/-- What the Execute phase makes of one station (R151, R153). -/
def afterExecute (s : State) (S : Station) : Station :=
  if counting S then { S with remainingCycles := S.remainingCycles - 1 }
  else
    match startsWith s S with
    | some l => { S with execStarted := true, remainingCycles := l }
    | none => S

/-- The request a completing station queues (R152). -/
structure Requests (C : Nat) (S : Station) (q : Request) : Prop where
  station : q.station = S.name
  op : S.op = some q.op
  value : ResultOf q.op S q.value
  dest : q.dest = S.dest
  readyCycle : q.readyCycle = C + 1

/-- Nothing is in flight, and every station is free. -/
structure Idle (s : State) : Prop where
  fault : s.fault = none
  names : s.tags.Nodup
  stations : ∀ S ∈ s.stations, S = Station.free S.name
  cdbQueue : s.cdbQueue = []
  lsb : s.lsb = []
  branch : s.branchPending = false

/-- The whole run of a state, step by step. -/
def runs (k : Nat) (s t : State) : Prop := Sys2Proof.core.run k s = .next t

end Sys2Proof.Machine

open Sys2Proof Sys2Proof.Machine

/-! ## Records and words -/

/-- 30_encoding.md R123: a word of each format, written out by hand in the packed form (log 1), is the instruction it
stands for: `DADDI R1, R2, −7`, `L.D F6, 8(R2)`, `S.D F6, 8(R2)`, `MUL.D F0, F2, F4`, `BNE R1, R2, 4`. -/
def Obligations.HandWrittenWordsDecode : Prop :=
  decodeBytes [0x01, 0x01, 0x02, 0x00, 0x00, 0, 0, 0, 0, 0xF9, 0xFF, 0xFF, 0xFF] = .ok (.daddi 1 2 (-7)) ∧
  decodeBytes [0x13, 0x06, 0x00, 0x00, 0x02, 8, 0, 0, 0, 0, 0, 0, 0] = .ok (.ldd 6 2 8) ∧
  decodeBytes [0x1B, 0x00, 0x06, 0x00, 0x02, 8, 0, 0, 0, 0, 0, 0, 0] = .ok (.sdd 6 2 8) ∧
  decodeBytes [0x25, 0x00, 0x02, 0x04, 0x00, 0, 0, 0, 0, 0, 0, 0, 0] = .ok (.mulD 0 2 4) ∧
  decodeBytes [0x31, 0x00, 0x01, 0x02, 0x00, 0, 0, 0, 0, 4, 0, 0, 0] = .ok (.bne 1 2 4)

/-- Decode and encode agree on every instruction, every operand at every value (log 1 is the packed form). -/
def Obligations.DecodeOfEncodeIsTheInstruction : Prop := ∀ i : Instr, decodeBytes (encode i) = .ok i

/-- A decoded record is the record of its instruction, field by field, the ignored fields and the id apart
(30_encoding.md R122, R124, R125, R126): no field is dropped or taken for another. -/
def Obligations.DecodedRecordHasTheInstructionsFields : Prop :=
  ∀ (r : Record) (i : Instr), decodeRecord r = .ok i →
    r.op = i.op.code ∧ r.dest = (encodeRecord 0 i).dest ∧ r.src1 = (encodeRecord 0 i).src1 ∧
    r.src2 = (encodeRecord 0 i).src2 ∧ r.base = (encodeRecord 0 i).base ∧
    (i.op.format = .ldf ∨ i.op.format = .stf → r.offset = (encodeRecord 0 i).offset) ∧
    (i.op.format = .ii ∨ i.op.format = .br → r.immediate = (encodeRecord 0 i).immediate)

/-- 30_encoding.md R127, R128: the checks run in the order of the table, and the first that fails names the refusal; an op
that is none of the twenty codes is refused first of all. -/
def Obligations.RecordChecksRunInOrder : Prop :=
  (∀ (n i : Nat) (r : Record), (∀ o : OpCode, o.code ≠ r.op) → checkRecord n i r = .error .wfOp) ∧
  ∀ (n i : Nat) (r : Record) (o : OpCode), o.code = r.op →
    checkRecord n i r =
      if r.regNamesOk = false then .error .wfRegName
      else if r.fieldsOk o = false then .error .wfFields
      else if r.classesOk o = false then .error .wfClass
      else if r.targetOk o n = false then .error .wfTarget
      else if r.idOk i = false then .error .wfId
      else .ok (r.build o)

/-! ## The cycle -/

/-- 40_cycle_engine.md R141, R142, R164, R172: a cycle of a machine that has neither faulted nor terminated runs Write,
Execute, Memory and the deferred handover in this order, each on the state the one before it left, and then the record at
the cursor: it is `exec` of the decoded instruction at the state those phases left, and that state itself where no record
stands. 60_exceptions.md R312, R313: a fatal error in a phase ends the cycle there (that it ends in a next state is the
model's form, log 8); Execute, which hands nothing over, raises none. -/
def Obligations.StepIssuesTheRecordAtTheCursor : Prop :=
  ∀ s : State, s.fault = none → s.terminated = false →
    (∀ t, writePhase { s with cycle := s.cycle + 1 } = .error (.fatal t) → step s = .next t) ∧
    ∀ s1, writePhase { s with cycle := s.cycle + 1 } = .ok s1 →
      (∀ t, executePhase s1 ≠ .error (.fatal t)) ∧
      ∀ s2, executePhase s1 = .ok s2 →
        (∀ t, memoryPhase s2 = .error (.fatal t) → step s = .next t) ∧
        ∀ s3, memoryPhase s2 = .ok s3 →
          (∀ t, deferredPhase s3 = .error (.fatal t) → step s = .next t) ∧
          ∀ s4, deferredPhase s3 = .ok s4 →
            (∀ (r : Record) (i : Instr), s4.prog[s4.cursor]? = some r →
              checkRecord s4.prog.length s4.cursor r = .ok i → step s = exec i s4) ∧
            (s4.prog.length ≤ s4.cursor → step s = .next s4)

/-- 10_state.md R56, 70_reset_and_hazards.md R337: a faulted machine takes no further step and a terminated one does
nothing. That the former answers `.fault` is the model's form (log 8). -/
def Obligations.FaultedOrTerminatedTakesNoStep : Prop :=
  (∀ (s : State) (f : Fault), s.fault = some f → step s = .fault f) ∧
  (∀ s : State, s.fault = none → s.prog.length ≤ s.cursor → (∀ d ∈ s.instances, d.write ≠ none) →
    (∀ S ∈ s.stations, S.busy = false) → s.lsb = [] → step s = .next s)

/-- 40_cycle_engine.md R140: a cycle's number is one more than the last one's; 30_encoding.md R120 and 00_scope.md R8:
the program and the configuration are fixed for the run. -/
def Obligations.StepCountsOneCycleAndKeepsTheProgram : Prop :=
  ∀ s t : State, step s = .next t → t.cfg = s.cfg ∧ t.prog = s.prog ∧
    (s.terminated = false → t.cycle = s.cycle + 1)

/-- 70_reset_and_hazards.md R348: at most one record issues per cycle: the instance log grows by at most one instance,
which has this cycle's number as its issue; and in a machine whose tags are linked no earlier instance is dropped or
changes its record, op, station or issue cycle. -/
def Obligations.AtMostOneIssuePerCycle : Prop :=
  ∀ s t : State, step s = .next t → t.instances.length ≤ s.instances.length + 1 ∧
    (Linked s → ∃ new : List DynInst, new.length ≤ 1 ∧ (∀ d ∈ new, d.issue = some (s.cycle + 1)) ∧
      t.instances.map (fun d => (d.pc, d.op, d.station, d.issue)) =
        (s.instances ++ new).map (fun d => (d.pc, d.op, d.station, d.issue)))

/-- 10_state.md R51: the cursor stays in 0 … N. -/
def Obligations.CursorStaysInTheProgram : Prop :=
  ∀ s t : State, s.cursor ≤ s.prog.length → step s = .next t → t.cursor ≤ t.prog.length

/-- 10_state.md R34: a register's value changes only by a broadcast, which the Write phase of that cycle selected and
whose destination it is; it then is the broadcast's value. -/
def Obligations.RegisterValuesChangeOnlyByBroadcast : Prop :=
  ∀ (s t : State) (r : Reg), step s = .next t → (t.reg r).value ≠ (s.reg r).value →
    ∃ q rest, selectRequest (s.cycle + 1) s.cdbQueue = some (q, rest) ∧ q.dest = some r ∧ (t.reg r).value = q.value

/-! ## Issue -/

/-- R246 step 1, 40_cycle_engine.md R165–R168, R171: ADD, SUB, MUL and DIV, .S and .D, issue into a free station of
their kind, capture Fs and Ft, rename Fd and advance the cursor; nothing else changes. -/
def Obligations.FpArithmeticIssues : Prop :=
  ∀ p ∈ frOps, ∀ (fd fs ft : Fin 32) (s : State) (T : Tag), CanIssue s p.2.1 T →
    ∃ t, exec (p.2.2.1 fd fs ft) s = .next t ∧
      Issued s t T p.1 (some (.f fd))
        (issuedStation T p.1 (some (.f fd)) (s.reg (.f fs)) (some (s.reg (.f ft))) none s.instances.length s.cycle
          false) ∧
      t.cursor = s.cursor + 1 ∧ t.branchPending = false ∧ t.lsb = s.lsb ∧ t.nextSeq = s.nextSeq

/-- 41_int_imm.md R200, R201 "Issue": DADDI and DSUBI issue into a free INT_ADD station, capture Rs and the immediate,
rename Rt and advance the cursor; nothing else changes. -/
def Obligations.IntegerImmediateIssues : Prop :=
  ∀ p ∈ iiOps, ∀ (rt rs : Fin 32) (imm : I32) (s : State) (T : Tag), CanIssue s .intAdd T →
    ∃ t, exec (p.2.1 rt rs imm) s = .next t ∧
      Issued s t T p.1 (some (.r rt))
        (issuedStation T p.1 (some (.r rt)) (s.reg (.r rs)) none (some imm) s.instances.length s.cycle false) ∧
      t.cursor = s.cursor + 1 ∧ t.branchPending = false ∧ t.lsb = s.lsb ∧ t.nextSeq = s.nextSeq

/-- 42_loadstore.md R211 steps 1 and 2, 20_memory.md R102, R103: a load whose base is ready and whose address is good is
issued and handed over in the same cycle: its LSB entry has the exact address, the frozen latency and the next seq. -/
def Obligations.LoadIssuesAndEntersTheLsb : Prop :=
  ∀ p ∈ loadOps, ∀ (d rb : Fin 32) (off : I32) (s : State) (T : Tag) (b : Int), CanIssue s .load T → HasRoom s →
    (s.reg (.r rb)).qi = none → F64.toInt? (s.reg (.r rb)).value = some b →
    AddressOk (b + off.toInt) p.2.2.2 → s.nextSeq + 1 < 2 ^ 32 →
    ∃ t, exec (p.2.1 d rb off) s = .next t ∧
      Issued s t T p.1 (some (p.2.2.1 d))
        (issuedStation T p.1 (some (p.2.2.1 d)) (s.reg (.r rb)) none (some off) s.instances.length s.cycle true) ∧
      t.cursor = s.cursor + 1 ∧ t.branchPending = false ∧ t.nextSeq = s.nextSeq + 1 ∧
      t.lsb = s.lsb ++ [{ seq := s.nextSeq, op := p.1, address := (b + off.toInt).toNat, size := p.2.2.2, value := none,
                          remainingCycles :=
                            frozenLatency s s.cfg.loadBaseLatency (b + off.toInt).toNat p.2.2.2,
                          isLoad := true, dest := some (p.2.2.1 d), station := T, inst := s.instances.length,
                          started := false }]

/-- 42_loadstore.md R212 steps 1 and 2, 20_memory.md R102: a store whose base and data are ready, whose address is good
and whose value its op can store is issued and handed over in the same cycle, with the encoded bytes in its entry. -/
def Obligations.StoreIssuesAndEntersTheLsb : Prop :=
  ∀ p ∈ storeOps, ∀ (d rb : Fin 32) (off : I32) (s : State) (T : Tag) (b : Int) (bs : List Byte),
    CanIssue s .store T → HasRoom s → (s.reg (.r rb)).qi = none → (s.reg (p.2.2.1 d)).qi = none →
    F64.toInt? (s.reg (.r rb)).value = some b → AddressOk (b + off.toInt) p.2.2.2.1 →
    p.2.2.2.2 s.instances.length (s.reg (p.2.2.1 d)).value = some bs → s.nextSeq + 1 < 2 ^ 32 →
    ∃ t, exec (p.2.1 d rb off) s = .next t ∧
      Issued s t T p.1 none
        (issuedStation T p.1 none (s.reg (.r rb)) (some (s.reg (p.2.2.1 d))) (some off) s.instances.length s.cycle
          true) ∧
      t.cursor = s.cursor + 1 ∧ t.branchPending = false ∧ t.nextSeq = s.nextSeq + 1 ∧
      t.lsb = s.lsb ++ [{ seq := s.nextSeq, op := p.1, address := (b + off.toInt).toNat, size := p.2.2.2.1,
                          value := some bs,
                          remainingCycles :=
                            frozenLatency s s.cfg.storeBaseLatency (b + off.toInt).toNat p.2.2.2.1,
                          isLoad := false, dest := none, station := T, inst := s.instances.length,
                          started := false }]

/-- 40_cycle_engine.md R163, R169: a load whose base is pending, or a store whose base or data is, issues and is
deferred: the LSB is unchanged and the station waits. -/
def Obligations.MemoryOpWithPendingOperandIsDeferred : Prop :=
  (∀ p ∈ loadOps, ∀ (d rb : Fin 32) (off : I32) (s : State) (T : Tag), CanIssue s .load T → HasRoom s →
    (s.reg (.r rb)).qi ≠ none →
    ∃ t, exec (p.2.1 d rb off) s = .next t ∧
      Issued s t T p.1 (some (p.2.2.1 d))
        (issuedStation T p.1 (some (p.2.2.1 d)) (s.reg (.r rb)) none (some off) s.instances.length s.cycle false) ∧
      t.cursor = s.cursor + 1 ∧ t.branchPending = false ∧ t.lsb = s.lsb ∧ t.nextSeq = s.nextSeq) ∧
  (∀ p ∈ storeOps, ∀ (d rb : Fin 32) (off : I32) (s : State) (T : Tag), CanIssue s .store T → HasRoom s →
    ((s.reg (.r rb)).qi ≠ none ∨ (s.reg (p.2.2.1 d)).qi ≠ none) →
    ∃ t, exec (p.2.1 d rb off) s = .next t ∧
      Issued s t T p.1 none
        (issuedStation T p.1 none (s.reg (.r rb)) (some (s.reg (p.2.2.1 d))) (some off) s.instances.length s.cycle
          false) ∧
      t.cursor = s.cursor + 1 ∧ t.branchPending = false ∧ t.lsb = s.lsb ∧ t.nextSeq = s.nextSeq)

/-- 40_cycle_engine.md R163, 20_memory.md R102, 60_exceptions.md R312, R313: step 4 of the cycle takes the ready LOAD and
STORE stations that are not handed over in ascending instance number. Where the LSB has room, the station enters it with
the entry of R102; a bad address or value faults there, and changes nothing else; where the LSB is full, the station
stays deferred. -/
def Obligations.DeferredStationsEnterTheLsbInOrder : Prop :=
  (∀ p ∈ loadOps, ∀ (s : State) (S : Station) (base : F64) (off : I32) (i : Nat) (b : Int),
    s.station? S.name = some S → S.kind = .load → S.op = some p.1 → S.vj = some base → S.a = some off →
    S.instruction = some i → F64.toInt? base = some b → HasRoom s →
    (AddressOk (b + off.toInt) p.2.2.2 → s.nextSeq + 1 < 2 ^ 32 → ∃ t, handoverIfRoom S s = .ok t ∧
      HandedOver s t S { seq := s.nextSeq, op := p.1, address := (b + off.toInt).toNat, size := p.2.2.2, value := none,
                         remainingCycles := frozenLatency s s.cfg.loadBaseLatency (b + off.toInt).toNat p.2.2.2,
                         isLoad := true, dest := S.dest, station := S.name, inst := i, started := false }) ∧
    (¬AddressOk (b + off.toInt) p.2.2.2 →
      handoverIfRoom S s = .error (.fatal { s with fault := some (addressFault (b + off.toInt) p.2.2.2) }))) ∧
  (∀ p ∈ storeOps, ∀ (s : State) (S : Station) (base v : F64) (off : I32) (i : Nat) (b : Int),
    s.station? S.name = some S → S.kind = .store → S.op = some p.1 → S.vj = some base → S.vk = some v →
    S.a = some off → S.instruction = some i → F64.toInt? base = some b → HasRoom s →
    (∀ bs, AddressOk (b + off.toInt) p.2.2.2.1 → p.2.2.2.2 i v = some bs → s.nextSeq + 1 < 2 ^ 32 →
      ∃ t, handoverIfRoom S s = .ok t ∧
        HandedOver s t S { seq := s.nextSeq, op := p.1, address := (b + off.toInt).toNat, size := p.2.2.2.1,
                           value := some bs,
                           remainingCycles := frozenLatency s s.cfg.storeBaseLatency (b + off.toInt).toNat p.2.2.2.1,
                           isLoad := false, dest := S.dest, station := S.name, inst := i, started := false }) ∧
    (¬AddressOk (b + off.toInt) p.2.2.2.1 →
      handoverIfRoom S s = .error (.fatal { s with fault := some (addressFault (b + off.toInt) p.2.2.2.1) })) ∧
    (AddressOk (b + off.toInt) p.2.2.2.1 → p.2.2.2.2 i v = none →
      handoverIfRoom S s = .error (.fatal { s with fault := some (.unrepresentable v) }))) ∧
  (∀ (s : State) (S : Station), ¬HasRoom s → handoverIfRoom S s = .ok s) ∧
  ∀ s : State, ∃ l : List Station,
    l.Perm (s.stations.filter fun S => decide ((S.kind = .load ∨ S.kind = .store) ∧ S.busy = true ∧
      S.execStarted = false ∧ S.qj = none ∧ (S.kind = .load ∨ S.qk = none))) ∧
    l.Pairwise (fun P Q => P.instruction.getD 0 ≤ Q.instruction.getD 0) ∧
    deferredPhase s = forEach handoverIfRoom l s

/-- 44_branch.md R270 step 1, R271: BEQ and BNE issue into a free BRANCH station, capture Rs, Rt and the target, rename
nothing, and block issue. -/
def Obligations.BranchIssuesAndBlocksIssue : Prop :=
  ∀ p ∈ brOps, ∀ (rs rt : Fin 32) (target : I32) (s : State) (T : Tag), CanIssue s .branch T →
    ∃ t, exec (p.2.1 rs rt target) s = .next t ∧
      Issued s t T p.1 none
        (issuedStation T p.1 none (s.reg (.r rs)) (some (s.reg (.r rt))) (some target) s.instances.length s.cycle
          false) ∧
      t.cursor = s.cursor + 1 ∧ t.branchPending = true ∧ t.lsb = s.lsb ∧ t.nextSeq = s.nextSeq

/-- 40_cycle_engine.md R164, 44_branch.md R271, 60_exceptions.md R303: a pending branch, no free station of the kind, or
a full LSB for a memory op is a stall: the state is unchanged. -/
def Obligations.StalledIssueChangesNothing : Prop :=
  ∀ (i : Instr) (s : State),
    (s.branchPending = true ∨ (∀ S ∈ s.stations, S.kind = opKind i.op → S.busy = true) ∨
      ((opKind i.op = .load ∨ opKind i.op = .store) ∧ s.cfg.lsbMax ≤ s.lsb.length)) →
    exec i s = .next s

/-- 42_loadstore.md R222, 60_exceptions.md R312: a load with a bad address: `BadAddress` before `Misaligned`; the station
is filled, the instance exists, the destination is renamed, the cursor does not move, no LSB entry is made. -/
def Obligations.LoadWithBadAddressFaults : Prop :=
  ∀ p ∈ loadOps, ∀ (d rb : Fin 32) (off : I32) (s : State) (T : Tag) (b : Int), CanIssue s .load T → HasRoom s →
    (s.reg (.r rb)).qi = none → F64.toInt? (s.reg (.r rb)).value = some b → ¬AddressOk (b + off.toInt) p.2.2.2 →
    ∃ t, exec (p.2.1 d rb off) s = .next t ∧
      t.fault = some (if b + off.toInt < 0 ∨ 2 ^ 20 < b + off.toInt + p.2.2.2 then .badAddress (b + off.toInt)
                      else .misaligned (b + off.toInt)) ∧
      Issued s { t with fault := s.fault } T p.1 (some (p.2.2.1 d))
        (issuedStation T p.1 (some (p.2.2.1 d)) (s.reg (.r rb)) none (some off) s.instances.length s.cycle false) ∧
      t.cursor = s.cursor ∧ t.branchPending = false ∧ t.lsb = s.lsb ∧ t.nextSeq = s.nextSeq

/-- The same of a store; and after the address checks a value its op cannot store is `Unrepresentable`
(42_loadstore.md R222, 20_memory.md R80, 60_exceptions.md R309). -/
def Obligations.StoreWithBadAddressOrValueFaults : Prop :=
  ∀ p ∈ storeOps, ∀ (d rb : Fin 32) (off : I32) (s : State) (T : Tag) (b : Int), CanIssue s .store T → HasRoom s →
    (s.reg (.r rb)).qi = none → (s.reg (p.2.2.1 d)).qi = none → F64.toInt? (s.reg (.r rb)).value = some b →
    (¬AddressOk (b + off.toInt) p.2.2.2.1 ∨ p.2.2.2.2 s.instances.length (s.reg (p.2.2.1 d)).value = none) →
    ∃ t, exec (p.2.1 d rb off) s = .next t ∧
      t.fault = some (if b + off.toInt < 0 ∨ 2 ^ 20 < b + off.toInt + p.2.2.2.1 then .badAddress (b + off.toInt)
                      else if (b + off.toInt) % 4 ≠ 0 then .misaligned (b + off.toInt)
                      else .unrepresentable (s.reg (p.2.2.1 d)).value) ∧
      Issued s { t with fault := s.fault } T p.1 none
        (issuedStation T p.1 none (s.reg (.r rb)) (some (s.reg (p.2.2.1 d))) (some off) s.instances.length s.cycle
          false) ∧
      t.cursor = s.cursor ∧ t.branchPending = false ∧ t.lsb = s.lsb ∧ t.nextSeq = s.nextSeq

/-! ## Execute -/

/-- 40_cycle_engine.md R152, R155, 43_fp_arith.md R250–R257: when the countdown of an FP station ends, its result, the
IEEE operation on the captured operands, is queued for the next cycle and `exec_end` is stamped; the station stays busy.
For DIV.S and DIV.D a zero divisor gives +0.0. -/
def Obligations.FpResultIsQueuedAtCompletion : Prop :=
  ∀ p ∈ frOps, ∀ (s : State) (T : Tag) (S : Station) (x y : F64) (i : Nat),
    s.station? T = some S → S.busy = true → S.execStarted = true → S.remainingCycles = 1 → T.kind = p.2.1 →
    S.op = some p.1 → S.vj = some x → S.vk = some y → S.instruction = some i →
    ∃ n t, countDown T s = .ok t ∧ t.cdbQueue = s.cdbQueue ++ [⟨T, p.2.2.2 n x y, S.dest, p.1, s.cycle + 1⟩] ∧
      t.instances = s.instances.modify i (fun d => { d with execEnd := some s.cycle }) ∧
      t.station? T = some { S with remainingCycles := 0 } ∧ (∀ U, U ≠ T → t.station? U = s.station? U) ∧
      (∀ r, t.reg r = s.reg r) ∧ (∀ a, t.coherentByte a = s.coherentByte a)

/-- 41_int_imm.md R200, R201, 40_cycle_engine.md R152: the result of DADDI and DSUBI is the binary64 sum and difference
of the captured value and `f64` of the immediate. 44_branch.md R273: that of BEQ and BNE is the token +0.0, and their
request has no destination. -/
def Obligations.IntegerAndBranchResultsAreQueuedAtCompletion : Prop :=
  (∀ p ∈ iiOps, ∀ (s : State) (T : Tag) (S : Station) (x : F64) (a : I32) (i : Nat),
    s.station? T = some S → S.busy = true → S.execStarted = true → S.remainingCycles = 1 → T.kind = .intAdd →
    S.op = some p.1 → S.vj = some x → S.a = some a → S.instruction = some i →
    ∃ n t, countDown T s = .ok t ∧
      t.cdbQueue = s.cdbQueue ++ [⟨T, p.2.2 n x (F64.ofInt a.toInt), S.dest, p.1, s.cycle + 1⟩] ∧
      t.instances = s.instances.modify i (fun d => { d with execEnd := some s.cycle }) ∧
      t.station? T = some { S with remainingCycles := 0 } ∧ (∀ U, U ≠ T → t.station? U = s.station? U) ∧
      (∀ r, t.reg r = s.reg r) ∧ (∀ a, t.coherentByte a = s.coherentByte a)) ∧
  (∀ p ∈ brOps, ∀ (s : State) (T : Tag) (S : Station) (i : Nat),
    s.station? T = some S → S.busy = true → S.execStarted = true → S.remainingCycles = 1 → T.kind = .branch →
    S.op = some p.1 → S.instruction = some i → (Linked s → S.dest = none) ∧
    ∃ t, countDown T s = .ok t ∧
      t.cdbQueue = s.cdbQueue ++ [⟨T, 0x0000000000000000#64, S.dest, p.1, s.cycle + 1⟩] ∧
      t.instances = s.instances.modify i (fun d => { d with execEnd := some s.cycle }) ∧
      t.station? T = some { S with remainingCycles := 0 } ∧ (∀ U, U ≠ T → t.station? U = s.station? U) ∧
      (∀ r, t.reg r = s.reg r) ∧ (∀ a, t.coherentByte a = s.coherentByte a))

/-- 40_cycle_engine.md R153: in the start step a compute station that is ready, with `eff_cycle < C`, starts with the
latency of its op, and `exec_start` is C; any other station is left as it is. R141, R142, R151, R152: the Execute phase
counts every running station down once and starts every station that may start, in pool order; one that completes queues
its request, in that order, and gets `exec_end`; nothing else changes. -/
def Obligations.ExecutePhaseServesEveryStation : Prop :=
  (∀ (s : State) (T : Tag) (S : Station), s.station? T = some S →
    (∀ (o : OpCode) (l i : Nat), kindIsMem T.kind = false → S.busy = true → S.execStarted = false → S.qj = none →
      S.qk = none → S.effCycle < s.cycle → S.op = some o → latOf s.cfg o = some l → S.instruction = some i →
      ∃ t, startStation T s = .ok t ∧ t.station? T = some { S with execStarted := true, remainingCycles := l } ∧
        t.instances = s.instances.modify i (fun d => { d with execStart := some s.cycle }) ∧
        t.cdbQueue = s.cdbQueue ∧ ∀ U, U ≠ T → t.station? U = s.station? U) ∧
    ((kindIsMem T.kind = true ∨ S.busy = false ∨ S.execStarted = true ∨ S.qj ≠ none ∨ S.qk ≠ none ∨
      (s.cycle : Int) ≤ S.effCycle) → startStation T s = .ok s)) ∧
  ∀ s : State, Linked s → ∃ t new, executePhase s = .ok t ∧
    t.stations = s.stations.map (afterExecute s) ∧
    t.cdbQueue = s.cdbQueue ++ new ∧ List.Forall₂ (Requests s.cycle) (s.stations.filter completing) new ∧
    (∀ S ∈ s.stations, ∀ i, S.instruction = some i →
      t.instances[i]? = (s.instances[i]?).map fun d =>
        if completing S then { d with execEnd := some s.cycle }
        else if (startsWith s S).isSome then { d with execStart := some s.cycle } else d) ∧
    (∀ i, (∀ S ∈ s.stations, S.instruction ≠ some i) → t.instances[i]? = s.instances[i]?) ∧
    t.lsb = s.lsb ∧ t.cursor = s.cursor ∧ t.branchPending = s.branchPending ∧ (∀ r, t.reg r = s.reg r) ∧
    ∀ a, t.coherentByte a = s.coherentByte a

/-! ## Arithmetic -/

/-- 43_fp_arith.md R241, R242, for `+f` and `-f`: the sum and the difference of two finite values are the exact ones,
correctly rounded. -/
def Obligations.SumAndDifferenceAreCorrectlyRounded : Prop :=
  ∀ (n : NaN64) (x y : F64), F64.isFinite x → F64.isFinite y →
    CorrectlyRounded (F64.add n x y) (F64.scaled x + F64.scaled y) 1 ∧
    CorrectlyRounded (F64.sub n x y) (F64.scaled x - F64.scaled y) 1

/-- 43_fp_arith.md R241, R242, for `*f` and `/f`: the product of two finite values, and their quotient where the divisor
is no zero, are the exact ones, correctly rounded. -/
def Obligations.ProductAndQuotientAreCorrectlyRounded : Prop :=
  ∀ (n : NaN64) (x y : F64), F64.isFinite x → F64.isFinite y →
    CorrectlyRounded (F64.mul n x y) (F64.scaled x * F64.scaled y) (2 ^ 1074) ∧
    (F64.isZero y = false → CorrectlyRounded (F64.div n x y) (F64.scaled x * 2 ^ 1074) (F64.scaled y))

/-- 43_fp_arith.md R242, R245: NaN operands and invalid operations give a NaN, infinities their default results in all
four operations, and zeros their signs: a sum of zeros is −0 if both are −0 and +0 otherwise, `x -f y` of zeros is −0 only
as (−0) −f (+0), any other exact sum or difference of 0 is +0 (41_int_imm.md R200–R202, R253), and a zero product or
quotient has the exclusive or of the signs; no operation on finite values, a zero divisor apart, gives a NaN. -/
def Obligations.SpecialValuesFollowIeee : Prop :=
  ∀ (n : NaN64) (x y : F64),
    ((F64.isNaN x ∨ F64.isNaN y) → F64.isNaN (F64.add n x y) ∧ F64.isNaN (F64.sub n x y) ∧
      F64.isNaN (F64.mul n x y) ∧ F64.isNaN (F64.div n x y)) ∧
    (F64.isInf x ∧ F64.isInf y → F64.isNaN (F64.div n x y) ∧
      F64.mul n x y = F64.infinity (F64.sign x != F64.sign y) ∧
      (F64.sign x = F64.sign y → F64.add n x y = x ∧ F64.isNaN (F64.sub n x y)) ∧
      (F64.sign x ≠ F64.sign y → F64.isNaN (F64.add n x y) ∧ F64.sub n x y = x)) ∧
    (F64.isInf x ∧ F64.isFinite y → F64.add n x y = x ∧ F64.add n y x = x ∧ F64.sub n x y = x ∧
      F64.sub n y x = F64.infinity (!F64.sign x)) ∧
    (F64.isInf x ∧ F64.isFinite y ∧ F64.isZero y = false →
      F64.mul n x y = F64.infinity (F64.sign x != F64.sign y) ∧
      F64.mul n y x = F64.infinity (F64.sign x != F64.sign y)) ∧
    (F64.isZero x ∧ F64.isInf y → F64.isNaN (F64.mul n x y) ∧ F64.isNaN (F64.mul n y x)) ∧
    (F64.isFinite x ∧ F64.isInf y → F64.isZero (F64.div n x y) ∧
      F64.sign (F64.div n x y) = (F64.sign x != F64.sign y)) ∧
    (F64.isInf x ∧ F64.isFinite y ∧ F64.isZero y = false → F64.isInf (F64.div n x y) ∧
      F64.sign (F64.div n x y) = (F64.sign x != F64.sign y)) ∧
    F64.add n (F64.zero false) (F64.zero false) = F64.zero false ∧
    F64.add n (F64.zero false) (F64.zero true) = F64.zero false ∧
    F64.add n (F64.zero true) (F64.zero false) = F64.zero false ∧
    F64.add n (F64.zero true) (F64.zero true) = F64.zero true ∧
    F64.sub n (F64.zero false) (F64.zero false) = F64.zero false ∧
    F64.sub n (F64.zero false) (F64.zero true) = F64.zero false ∧
    F64.sub n (F64.zero true) (F64.zero false) = F64.zero true ∧
    F64.sub n (F64.zero true) (F64.zero true) = F64.zero false ∧
    (F64.isFinite x → F64.sub n x x = F64.zero false) ∧
    (F64.isFinite x ∧ F64.isFinite y ∧ F64.isZero x = false ∧ F64.scaled x + F64.scaled y = 0 →
      F64.add n x y = F64.zero false) ∧
    (F64.isFinite x ∧ F64.isFinite y ∧ F64.isZero x = false ∧ F64.scaled x - F64.scaled y = 0 →
      F64.sub n x y = F64.zero false) ∧
    (F64.isFinite x ∧ F64.isZero y → F64.isZero (F64.mul n x y) ∧ F64.isZero (F64.mul n y x)) ∧
    (F64.isZero x ∧ F64.isFinite y ∧ F64.isZero y = false → F64.isZero (F64.div n x y)) ∧
    (F64.isZero (F64.mul n x y) → F64.sign (F64.mul n x y) = (F64.sign x != F64.sign y)) ∧
    (F64.isZero (F64.div n x y) → F64.sign (F64.div n x y) = (F64.sign x != F64.sign y)) ∧
    (F64.isFinite x ∧ F64.isFinite y → F64.isNaN (F64.add n x y) = false ∧ F64.isNaN (F64.sub n x y) = false ∧
      F64.isNaN (F64.mul n x y) = false ∧
      (F64.isZero y = false → F64.isNaN (F64.div n x y) = false))

/-- 43_fp_arith.md R243: when `vk` is +0 or −0 the result of DIV.S and DIV.D is +0.0 for every `vj`. -/
def Obligations.DivisionByZeroGivesPlusZero : Prop :=
  ∀ (n : NaN64) (x y : F64), y = 0x0000000000000000#64 ∨ y = 0x8000000000000000#64 →
    resultDivS n x y = 0x0000000000000000#64 ∧ resultDivD n x y = 0x0000000000000000#64

/-- 41_int_imm.md R202, laws 2 to 4: for every integer-valued operand the result of DADDI and DSUBI is finite and
integer-valued, nothing wraps, and a sum or difference of magnitude at most 2^53 is exact. -/
def Obligations.IntegerArithmeticIsExactAndIntegerValued : Prop :=
  (∀ (n : NaN64) (v : F64) (i : Int) (a : I32), F64.toInt? v = some i →
    (|i + a.toInt| ≤ 2 ^ 53 → F64.toInt? (resultDaddi n v a) = some (i + a.toInt)) ∧
    (|i - a.toInt| ≤ 2 ^ 53 → F64.toInt? (resultDsubi n v a) = some (i - a.toInt))) ∧
  ∀ (n : NaN64) (v : F64) (a : I32), Integral v → Integral (resultDaddi n v a) ∧ Integral (resultDsubi n v a)

/-! ## The CDB -/

/-- 40_cycle_engine.md R144: `select(C)` takes the first request with `ready_cycle ≤ C` and leaves every other in its
place; it takes none exactly when none is ready. -/
def Obligations.SelectTakesTheFirstReadyRequest : Prop :=
  ∀ (C : Nat) (l : List Request),
    (∀ q rest, selectRequest C l = some (q, rest) → ∃ before after, l = before ++ q :: after ∧
      rest = before ++ after ∧ q.readyCycle ≤ C ∧ ∀ p ∈ before, C < p.readyCycle) ∧
    (selectRequest C l = none ↔ ∀ p ∈ l, C < p.readyCycle)

/-- 40_cycle_engine.md R146: the register write of a broadcast, in its three cases; no other register changes, and
nothing else does. -/
def Obligations.BroadcastWritesItsDestination : Prop :=
  ∀ (T : Tag) (v : F64) (dest : Option Reg) (s : State),
    (∀ d, dest = some d → (s.reg d).qi = some T → (regWrite T v dest s).reg d = ⟨v, none⟩) ∧
    (∀ d, dest = some d → (s.reg d).qi = none → (regWrite T v dest s).reg d = ⟨v, none⟩) ∧
    (∀ d U, dest = some d → (s.reg d).qi = some U → U ≠ T → (regWrite T v dest s).reg d = s.reg d) ∧
    (∀ r, dest ≠ some r → (regWrite T v dest s).reg r = s.reg r) ∧
    (regWrite T v dest s).stations = s.stations ∧ (regWrite T v dest s).cursor = s.cursor ∧
    (∀ a, (regWrite T v dest s).coherentByte a = s.coherentByte a)

/-- 40_cycle_engine.md R147, R148: the Write phase of a cycle whose selected request is no branch's: every busy station
that waits for T takes the value and the effective cycle and keeps every other field, T is released, `write` is stamped
on T's instance, the request is gone, and registers are as R146 says. -/
def Obligations.BroadcastForwardsAndReleases : Prop :=
  ∀ (s : State) (q : Request) (rest : List Request) (S : Station) (i : Nat),
    selectRequest s.cycle s.cdbQueue = some (q, rest) → s.station? q.station = some S → S.instruction = some i →
    q.station.kind ≠ .branch →
    ∃ t, writePhase s = .ok t ∧ t.cdbQueue = rest ∧ t.station? q.station = some (Station.free q.station) ∧
      t.instances = s.instances.modify i (fun d => { d with write := some s.cycle }) ∧
      (∀ U P, U ≠ q.station → s.station? U = some P → ∃ P', t.station? U = some P' ∧
        (P.busy = false → P' = P) ∧
        (P.busy = true →
          P'.vj = (if P.qj = some q.station then some q.value else P.vj) ∧
          P'.qj = (if P.qj = some q.station then none else P.qj) ∧
          P'.vk = (if P.qk = some q.station then some q.value else P.vk) ∧
          P'.qk = (if P.qk = some q.station then none else P.qk) ∧
          P'.effCycle = (if P.qj = some q.station ∨ P.qk = some q.station then (s.cycle : Int) else P.effCycle) ∧
          P'.name = P.name ∧ P'.busy = true ∧ P'.op = P.op ∧ P'.a = P.a ∧ P'.dest = P.dest ∧
          P'.instruction = P.instruction ∧ P'.issueCycle = P.issueCycle ∧ P'.execStarted = P.execStarted ∧
          P'.remainingCycles = P.remainingCycles)) ∧
      (∀ r, t.reg r = (regWrite q.station q.value q.dest s).reg r) ∧ t.cursor = s.cursor ∧
      t.branchPending = s.branchPending ∧ (∀ a, t.coherentByte a = s.coherentByte a)

/-! ## Branches -/

/-- 44_branch.md R272, R275, R276: with both registers ready a branch compares their current values: taken, the cursor is
the target; not taken, it stays; issue goes on; the outcome is marked; registers and memory are unchanged.
40_cycle_engine.md R148, R149, 44_branch.md R273, R274, R279: in a machine whose tags are linked the Write phase that
selects a branch's request does so: the station is released, `write` and the outcome are stamped on its instance, the
request is gone, nothing is flushed and nothing is forwarded: every other station, request and instance, the LSB, the
registers with their tags, the memory system and its counters are as before. -/
def Obligations.BranchResolvesOnRegisterValues : Prop :=
  (∀ p ∈ brOps, ∀ (s : State) (i : Nat) (d : DynInst) (r : Record) (rs rt : Fin 32) (target : I32),
    s.instances[i]? = some d → s.prog[d.pc]? = some r →
    checkRecord s.prog.length d.pc r = .ok (p.2.1 rs rt target) →
    (s.reg (.r rs)).qi = none → (s.reg (.r rt)).qi = none →
    ∃ t, resolve i s = .ok t ∧ t.branchPending = false ∧
      t.cursor = (if p.2.2 (s.reg (.r rs)).value (s.reg (.r rt)).value then target.toInt.toNat else s.cursor) ∧
      (t.instances[i]?).map DynInst.taken = some (some (p.2.2 (s.reg (.r rs)).value (s.reg (.r rt)).value)) ∧
      (∀ x, t.reg x = s.reg x) ∧ (∀ a, t.coherentByte a = s.coherentByte a) ∧ t.fault = s.fault) ∧
  ∀ (s : State) (q : Request) (rest : List Request), Linked s →
    selectRequest s.cycle s.cdbQueue = some (q, rest) → q.station.kind = .branch →
    ∃ p ∈ brOps, ∃ (S : Station) (i : Nat) (d : DynInst) (r : Record) (rs rt : Fin 32) (target : I32) (t : State),
      s.station? q.station = some S ∧ S.instruction = some i ∧ s.instances[i]? = some d ∧ s.prog[d.pc]? = some r ∧
      checkRecord s.prog.length d.pc r = .ok (p.2.1 rs rt target) ∧ writePhase s = .ok t ∧
      t = { s with
        stations := s.stations.map fun P => if P.name = q.station then Station.free q.station else P
        cdbQueue := rest
        instances := s.instances.modify i fun d =>
          { d with write := some s.cycle
                   taken := some (p.2.2 (s.reg (.r rs)).value (s.reg (.r rt)).value) }
        cursor := if p.2.2 (s.reg (.r rs)).value (s.reg (.r rt)).value then target.toInt.toNat else s.cursor
        branchPending := false }

/-- 10_state.md R36, 60_exceptions.md R301: a pending source register at resolution is `RegisterBusy`, the first one
first, and nothing but `fault` changes. -/
def Obligations.PendingRegisterAtResolutionIsBusy : Prop :=
  ∀ p ∈ brOps, ∀ (s : State) (i : Nat) (d : DynInst) (r : Record) (rs rt : Fin 32) (target : I32),
    s.instances[i]? = some d → s.prog[d.pc]? = some r →
    checkRecord s.prog.length d.pc r = .ok (p.2.1 rs rt target) →
    ((s.reg (.r rs)).qi ≠ none → resolve i s = .error (.fatal { s with fault := some (.registerBusy (.r rs)) })) ∧
    ((s.reg (.r rs)).qi = none → (s.reg (.r rt)).qi ≠ none →
      resolve i s = .error (.fatal { s with fault := some (.registerBusy (.r rt)) }))

/-- 00_scope.md R13, 44_branch.md R272: the equality branches use: false with a NaN, true between zeros of either sign,
equality of the numbers between finite values; an infinity equals the infinity of its own sign and nothing else. -/
def Obligations.BranchEqualityIsIeee : Prop :=
  ∀ x y : F64, ((F64.isNaN x ∨ F64.isNaN y) → F64.eq x y = false) ∧
    (F64.isFinite x → F64.isFinite y → (F64.eq x y = true ↔ F64.scaled x = F64.scaled y)) ∧
    (F64.isInf x → F64.isInf y → (F64.eq x y = true ↔ F64.sign x = F64.sign y)) ∧
    (F64.isInf x → F64.isFinite y → F64.eq x y = false ∧ F64.eq y x = false) ∧
    F64.eq 0x0000000000000000#64 0x8000000000000000#64 = true

/-! ## Memory -/

/-- 20_memory.md R73, R74: big-endian: the most significant byte stands first; a doubleword is its high word, then its
low word. -/
def Obligations.BytesAreBigEndian : Prop :=
  (∀ u : BitVec 32, beBytes 4 u.toNat =
    [u.extractLsb' 24 8, u.extractLsb' 16 8, u.extractLsb' 8 8, u.extractLsb' 0 8]) ∧
  (∀ u : BitVec 64, beBytes 8 u.toNat =
    beBytes 4 (u.extractLsb' 32 32).toNat ++ beBytes 4 (u.extractLsb' 0 32).toNat) ∧
  (∀ bs : List Byte, beBytes bs.length (beUint bs) = bs)

/-- 20_memory.md R79, 42_loadstore.md R213, R214, R216: LW and LD load `f64` of the two's-complement integer of the bytes,
and L.D the bit pattern; `f64` of an integer is the binary64 nearest it, ties to even (00_scope.md R13), and exact up to
magnitude 2^53; `f64(0)` is +0. -/
def Obligations.LoadsDecodeTheirBytes : Prop :=
  (∀ z : Int, CorrectlyRounded (F64.ofInt z) (z * 2 ^ 1074) 1 ∧ (|z| ≤ 2 ^ 53 → F64.toInt? (F64.ofInt z) = some z)) ∧
  F64.ofInt 0 = 0x0000000000000000#64 ∧
  ∀ (i : Nat) (b0 b1 b2 b3 b4 b5 b6 b7 : Byte),
    decodeLw i [b0, b1, b2, b3] = F64.ofInt (b0 ++ b1 ++ b2 ++ b3).toInt ∧
    decodeLd i [b0, b1, b2, b3, b4, b5, b6, b7] = F64.ofInt (b0 ++ b1 ++ b2 ++ b3 ++ b4 ++ b5 ++ b6 ++ b7).toInt ∧
    decodeLdd i [b0, b1, b2, b3, b4, b5, b6, b7] = b0 ++ b1 ++ b2 ++ b3 ++ b4 ++ b5 ++ b6 ++ b7

/-- 42_loadstore.md R215: L.S widens exactly: a number keeps its value and sign, an infinity stays one, a NaN becomes a
binary64 NaN with the same sign. -/
def Obligations.SingleLoadWidensExactly : Prop :=
  ∀ (i : Nat) (b : F32), let v := decodeLs i (beBytes 4 b.toNat)
    F64.sign v = F32.sign b ∧ (F32.isNaN b → F64.isNaN v) ∧ (F32.isInf b → F64.isInf v) ∧
    (F32.expo b < 255 → F64.isFinite v ∧ F64.scaledMag v = F32.scaledMag b * 2 ^ 925)

/-- 20_memory.md R78, 42_loadstore.md R219: S.S stores the binary32 value nearest a finite value that does not overflow,
of two equally near ones the one with an even last bit, with its sign; an infinity and an overflow store an infinity, a
NaN a NaN. -/
def Obligations.SingleStoreRoundsToNearest : Prop :=
  ∀ (i : Nat) (v : F64), ∃ b : F32, encodeSs i v = some (beBytes 4 b.toNat) ∧
    (F64.isNaN v → F32.isNaN b) ∧ (F64.isInf v → F32.isInf b ∧ F32.sign b = F64.sign v) ∧
    (F64.isFinite v → F32.sign b = F64.sign v ∧
      ((2 ^ 128 - 2 ^ 103) * 2 ^ 1074 ≤ F64.scaledMag v → F32.isInf b) ∧
      (F64.scaledMag v < (2 ^ 128 - 2 ^ 103) * 2 ^ 1074 → F32.expo b < 255 ∧
        ∀ w : F32, F32.expo w < 255 →
          |(F32.scaledMag b * 2 ^ 925 : Int) - F64.scaledMag v| ≤ |(F32.scaledMag w * 2 ^ 925 : Int) - F64.scaledMag v| ∧
          (F32.scaledMag w ≠ F32.scaledMag b →
            |(F32.scaledMag b * 2 ^ 925 : Int) - F64.scaledMag v| =
              |(F32.scaledMag w * 2 ^ 925 : Int) - F64.scaledMag v| → F32.frac b % 2 = 0)))

/-- 20_memory.md R81: the codec's round trips, with R80's ranges; and R78, 42_loadstore.md R217, R218, R220: the bytes that
SW, SD and S.D store: the two's-complement pattern of the integer, and the bit pattern. -/
def Obligations.StoredBytesAndRoundTrips : Prop :=
  ∀ (i j : Nat) (v : F64) (bs : List Byte),
    (encodeSdd i v = some bs → decodeLdd j bs = v) ∧
    (encodeSw i v = some bs → F64.eq (decodeLw j bs) v = true) ∧
    (encodeSd i v = some bs → F64.eq (decodeLd j bs) v = true) ∧
    (encodeSs i v = some bs → F64.isNaN v = false → decodeLs j bs = widen 0 (round32 ⟨false, 0⟩ v)) ∧
    (encodeSs i v = some bs → F64.isNaN v = true → F64.isNaN (decodeLs j bs) = true) ∧
    ((encodeSw i v).isSome ↔ ∃ k, F64.toInt? v = some k ∧ -2 ^ 31 ≤ k ∧ k ≤ 2 ^ 31 - 1) ∧
    ((encodeSd i v).isSome ↔ ∃ k, F64.toInt? v = some k ∧ -2 ^ 63 ≤ k ∧ k ≤ 2 ^ 63 - 1) ∧
    (∀ k : Int, F64.toInt? v = some k → -2 ^ 31 ≤ k → k ≤ 2 ^ 31 - 1 →
      encodeSw i v = some (beBytes 4 (k % 2 ^ 32).toNat)) ∧
    (∀ k : Int, F64.toInt? v = some k → -2 ^ 63 ≤ k → k ≤ 2 ^ 63 - 1 →
      encodeSd i v = some (beBytes 8 (k % 2 ^ 64).toNat)) ∧
    encodeSdd i v = some (beBytes 8 v.toNat)

/-- 20_memory.md R88, R90, R93, R115: a word read through the cache gives the coherent view's bytes, counts one access,
and leaves the coherent view as it was, whatever it evicts. R82, R87, R112: on a hit no line and no byte of ByteMemory
changes; on a miss the block is fetched into its one line, valid and clean, every other line stands, and ByteMemory takes
the bytes of a valid and dirty victim, and nothing else (`Accessed`). Nothing but the cache, ByteMemory and the counters
changes. -/
def Obligations.CacheReadGivesTheCoherentView : Prop :=
  ∀ (s : State) (a : Nat), Shaped s → a % 4 = 0 → a + 4 ≤ 2 ^ 20 →
    ∃ t, cacheReadWord a s = .ok (s.memRead a 4, t) ∧ Shaped t ∧
      (∀ x, t.coherentByte x = s.coherentByte x) ∧
      Accessed s t a none ∧ t.isHit a = true ∧ (s.isHit a = true → t.lines = s.lines ∧ t.mem = s.mem) ∧
      t = { s with mem := t.mem, lines := t.lines, hits := t.hits, misses := t.misses } ∧
      t.hits = s.hits + (if s.isHit a then 1 else 0) ∧ t.misses = s.misses + (if s.isHit a then 0 else 1) ∧
      ∀ r, t.reg r = s.reg r

/-- 20_memory.md R89, R116: a word written through the cache is in the coherent view afterwards, and no other byte of
memory changes, whatever is evicted. R82, R87, R112: the block's line holds it then, and is valid and dirty; every other
line stands; ByteMemory does not take the word, but only the bytes of a valid and dirty victim of a miss (`Accessed`).
Nothing but the cache, ByteMemory and the counters changes. -/
def Obligations.CacheWriteChangesOnlyItsWord : Prop :=
  ∀ (s : State) (a : Nat) (bs : List Byte), Shaped s → a % 4 = 0 → a + 4 ≤ 2 ^ 20 → bs.length = 4 →
    ∃ t, cacheWriteWord a bs s = .ok t ∧ Shaped t ∧
      (∀ x, t.coherentByte x = if a ≤ x ∧ x < a + 4 then bs.getD (x - a) 0 else s.coherentByte x) ∧
      Accessed s t a (some bs) ∧ t.isHit a = true ∧
      (∃ L, t.lines[indexOf s.cfg a]? = some L ∧ L.valid = true ∧ L.dirty = true ∧ L.tag = tagOf s.cfg a) ∧
      (s.isHit a = true → t.mem = s.mem) ∧
      t = { s with mem := t.mem, lines := t.lines, hits := t.hits, misses := t.misses } ∧
      t.hits = s.hits + (if s.isHit a then 1 else 0) ∧ t.misses = s.misses + (if s.isHit a then 0 else 1) ∧
      ∀ r, t.reg r = s.reg r

/-- 20_memory.md R99, 40_cycle_engine.md R160, 42_loadstore.md R213–R216: the commit of a load queues the value its op
decodes from the coherent view's bytes, and changes no byte and no register; its one or two words are read through the
cache, the lower address first (R76). -/
def Obligations.LoadCommitQueuesTheLoadedValue : Prop :=
  ∀ (s : State) (e : LsbEntry) (dec : Nat → List Byte → F64), Shaped s → EntryOk e → e.isLoad = true →
    (e.op, dec) ∈ [(OpCode.lw, decodeLw), (.ld, decodeLd), (.ls, decodeLs), (.ldd, decodeLdd)] →
    ∃ t, commit e s = .ok t ∧
      t.cdbQueue = s.cdbQueue ++ [⟨e.station, dec e.inst (s.memRead e.address e.size), e.dest, e.op, s.cycle + 1⟩] ∧
      t.instances = s.instances.modify e.inst (fun d => { d with execEnd := some s.cycle }) ∧
      t.stations = s.stations ∧ (∀ r, t.reg r = s.reg r) ∧
      (∀ x, t.coherentByte x = s.coherentByte x) ∧ Accesses e.words s t

/-- 20_memory.md R100, 40_cycle_engine.md R161, 42_loadstore.md R217–R220: the commit of a store writes exactly its bytes
at its address, through the cache, one word after the other (R76), queues nothing, stamps `exec_end` and `write`, and
releases its station. -/
def Obligations.StoreCommitWritesItsBytes : Prop :=
  ∀ (s : State) (e : LsbEntry) (bs : List Byte), Shaped s → EntryOk e → e.isLoad = false → e.value = some bs →
    ∃ t, commit e s = .ok t ∧
      (∀ x, t.coherentByte x =
        if e.address ≤ x ∧ x < e.address + e.size then bs.getD (x - e.address) 0 else s.coherentByte x) ∧
      t.cdbQueue = s.cdbQueue ∧
      t.instances = s.instances.modify e.inst
        (fun d => { d with execEnd := some s.cycle, write := some s.cycle }) ∧
      t.stations = (s.stations.map fun S => if S.name = e.station then Station.free e.station else S) ∧
      (∀ r, t.reg r = s.reg r) ∧ Accesses e.words s t

/-- 20_memory.md R97, R98, R105: in a tick an entry is stalled, and stays in the buffer as it was, exactly while an earlier
entry that overlaps it is still in the buffer, be that one counting or itself stalled; one that commits earlier in the
same tick blocks nothing (D13). An entry that is not stalled is counted down by one, its first decrement stamping
`exec_start` (40_cycle_engine.md R158), and commits and leaves at its last cycle: a load queues its value, decoded from the
coherent view that the stores committed before it in the tick have left (R99, R160); a store writes its bytes, and its
station is released (R100, R161); `exec_end`, and a store's `write`, are stamped. Requests are queued, and the words of the
entries that commit accessed through the cache (R76, R87), in the order of the entries, and nothing else changes. -/
def Obligations.TickStallsCountsAndCommits : Prop :=
  ∀ s : State, Shaped s → ∃ t new, memoryPhase s = .ok t ∧
    (t.lsb.map LsbEntry.seq).Sublist (s.lsb.map LsbEntry.seq) ∧
    (∀ (l1 l2 : List LsbEntry) (e : LsbEntry), s.lsb = l1 ++ e :: l2 →
      (e.stalledIn l1 t = true → e ∈ t.lsb) ∧
      (e.stalledIn l1 t = false →
        (1 < e.remainingCycles → { e with started := true, remainingCycles := e.remainingCycles - 1 } ∈ t.lsb) ∧
        (e.remainingCycles ≤ 1 → e.leftBy t = true)) ∧
      (e.leftBy t = true → ∀ dec : Nat → List Byte → F64,
        (e.op, dec) ∈ [(OpCode.lw, decodeLw), (.ld, decodeLd), (.ls, decodeLs), (.ldd, decodeLdd)] →
        ⟨e.station, dec e.inst ((List.range e.size).map fun i =>
            viewAfter s (l1.filter fun k => k.leftBy t) (e.address + i)), e.dest, e.op, s.cycle + 1⟩ ∈ new) ∧
      (Linked s → t.instances[e.inst]? = (s.instances[e.inst]?).map fun d =>
        if e.stalledIn l1 t then d
        else { d with
          execStart := if e.started then d.execStart else some s.cycle
          execEnd := if e.leftBy t then some s.cycle else d.execEnd
          write := if e.leftBy t && !e.isLoad then some s.cycle else d.write })) ∧
    t.cdbQueue = s.cdbQueue ++ new ∧
    new.map Request.station = (s.lsb.filter fun e => e.leftBy t && e.isLoad).map LsbEntry.station ∧
    (∀ x, t.coherentByte x = viewAfter s (s.lsb.filter fun e => e.leftBy t) x) ∧
    t.stations = (s.stations.map fun S =>
      if s.lsb.any fun e => e.leftBy t && !e.isLoad && e.station == S.name then Station.free S.name else S) ∧
    (∀ i, (∀ e ∈ s.lsb, e.inst ≠ i) → t.instances[i]? = s.instances[i]?) ∧
    t.hits + t.misses =
      s.hits + s.misses + ((s.lsb.filter fun e => e.leftBy t).map fun e => if e.size = 8 then 2 else 1).sum ∧
    Accesses ((s.lsb.filter fun e => e.leftBy t).flatMap LsbEntry.words) s t ∧
    ∀ r, t.reg r = s.reg r

/-- 20_memory.md R98, 40_cycle_engine.md R158: the oldest entry is never blocked, whatever stands behind it: a tick counts
it down by one and stamps `exec_start` the first time; at its last cycle it leaves the buffer and commits, with one cache
access, or two for a doubleword, and the tick goes on with the entries behind it. Alone, it is all the tick touches. -/
def Obligations.OldestEntryCountsDown : Prop :=
  ∀ (s : State) (e : LsbEntry) (l : List LsbEntry), Shaped s → s.lsb = e :: l →
    (1 < e.remainingCycles → ∃ t l', memoryPhase s = .ok t ∧
      t.lsb = { e with started := true, remainingCycles := e.remainingCycles - 1 } :: l' ∧
      (∀ d, e.started = false → s.instances[e.inst]? = some d →
        (t.instances[e.inst]?).map DynInst.execStart = some (some s.cycle)) ∧
      (∀ r, t.reg r = s.reg r) ∧
      (l = [] → l' = [] ∧
        t.instances = (if e.started then s.instances
                       else s.instances.modify e.inst (fun d => { d with execStart := some s.cycle })) ∧
        t.hits = s.hits ∧ t.misses = s.misses ∧ ∀ a, t.coherentByte a = s.coherentByte a)) ∧
    (e.remainingCycles = 1 → ∃ u t,
      commit { e with started := true, remainingCycles := 0 }
        { s with lsb := l, instances := (if e.started then s.instances
                    else s.instances.modify e.inst (fun d => { d with execStart := some s.cycle })) } = .ok u ∧
      u.lsb = l ∧ u.hits + u.misses = s.hits + s.misses + (if e.size = 8 then 2 else 1) ∧
      memoryPhase u = .ok t ∧ memoryPhase s = .ok t ∧ (∀ k ∈ t.lsb, e.seq < k.seq) ∧ ∀ r, t.reg r = s.reg r)

/-! ## Invariants -/

/-- The memory system stays well-formed: canonical ByteMemory (20_memory.md R70), lines of the configured geometry that
agree with ByteMemory when clean (R83, R87, R89), LSB entries aligned and inside memory (R77, R102), in ascending `seq`
below `next_seq`, a u32, and within capacity (R94–R96). -/
def Obligations.MemorySystemStaysWellFormed : Prop := ∀ s t : State, Shaped s → step s = .next t → Shaped t

/-- 40_cycle_engine.md R180, 10_state.md R42, R43: the tag invariants and the slot invariants are kept by every step; and
so is, with them, that issue is blocked only while a branch is in flight (10_state.md R53); and, in a well-formed memory
system with every latency at least 1, that each station that has started will answer: it is counting down, or its request
is queued, or its entry is in the LSB. -/
def Obligations.TagInvariantsAreKept : Prop :=
  ∀ s t : State, Linked s → step s = .next t →
    Linked t ∧ (BranchInFlight s → BranchInFlight t) ∧ (Shaped s → Answering s → Answering t)

/-- 10_state.md R33, 41_int_imm.md R202 law 5: integer registers stay integer-valued. -/
def Obligations.IntegerRegistersStayIntegerValued : Prop :=
  ∀ s t : State, Linked s → IntegerValued s → step s = .next t → IntegerValued t

/-- The state right after reset, and every state a reset of a host's input leaves, is well-formed. That `State.reset` has
Configuration S and no program is the model's choice (log 2, log 3). -/
def Obligations.ResetStatesAreWellFormed : Prop :=
  WellFormed State.reset ∧ ∀ (inp : ResetInput) (s : State), hostReset inp = .ok s → WellFormed s

/-- 44_branch.md R277: no step of a machine whose tags are linked raises `RegisterBusy`. -/
def Obligations.RegisterBusyIsNeverRaised : Prop :=
  ∀ (s t : State) (r : Reg), Linked s → step s = .next t → t.fault ≠ some (.registerBusy r)

/-- 40_cycle_engine.md R174: the producer of every queued request is busy, so a terminated machine has an empty CDB queue
and no branch pending; nor does a register wait for a tag, so no later cycle could do anything. -/
def Obligations.TerminatedMachineIsQuiet : Prop :=
  ∀ s : State, Linked s → BranchInFlight s →
    (∀ q ∈ s.cdbQueue, ∃ S ∈ s.stations, S.name = q.station ∧ S.busy = true) ∧
    (s.terminated = true → s.cdbQueue = [] ∧ s.branchPending = false ∧ (∀ r, (s.reg r).qi = none) ∧
      ∀ S ∈ s.stations, S = Station.free S.name)

/-- A well-formed machine refuses nothing but the 2^32-th handover (20_memory.md R96, I14): every other refusal of the
model is for states no run reaches (log 9, log 10). -/
def Obligations.WellFormedMachineIsNotRefused : Prop :=
  ∀ (s : State) (r : Refusal), WellFormed s → step s = .refused r → r = .seqOverflow

/-! ## Reset and run -/

/-- 70_reset_and_hazards.md R334, 20_memory.md R71, 10_state.md R38, R50: what a successful reset leaves in every piece of
state. 00_scope.md R8: the configuration is the host's, number by number, and each number meets its constraint; of the
latencies the next statement says so. The image is a map (R333), so the byte it gives an address is the one that a pair
without a rival gives. -/
def Obligations.ResetLeavesTheResetValues : Prop :=
  ∀ (inp : ResetInput) (s : State), hostReset inp = .ok s →
    checkConfig inp.cfg = .ok s.cfg ∧ ConfigGiven inp.cfg s.cfg ∧ s.prog = inp.prog ∧ s.cursor = 0 ∧ s.cycle = 0 ∧
    s.branchPending = false ∧ s.instances = [] ∧ s.cdbQueue = [] ∧ s.fault = none ∧ s.hits = 0 ∧ s.misses = 0 ∧ s.lsb = [] ∧ s.nextSeq = 0 ∧
    s.stations = freePool s.cfg ∧
    s.lines = List.replicate (s.cfg.cacheSize / s.cfg.blockSize) (CacheLine.invalid s.cfg.blockSize) ∧
    (∀ r, (s.reg r).qi = none) ∧
    (∀ r, (∀ p ∈ inp.preload, parseReg p.1 ≠ some r) → (s.reg r).value = 0) ∧
    (∀ p ∈ inp.preload, ∀ r, parseReg p.1 = some r → (s.reg r).value = p.2) ∧
    (∀ a : Nat, (∀ p ∈ inp.image, p.1 ≠ a) → s.coherentByte a = 0 ∧ s.mem.read a = 0) ∧
    ((inp.image.map Prod.fst).Nodup → ∀ p ∈ inp.image,
      s.coherentByte p.1.toNat = BitVec.ofInt 8 p.2 ∧ s.mem.read p.1.toNat = BitVec.ofInt 8 p.2)

/-- 70_reset_and_hazards.md R330 step 1, R331, 00_scope.md R8: a reset that succeeds has a latency for every compute op
that occurs in the program, and every latency it was given, of whichever compute op, is at least 1 and is the configured
one, where the host lists no op twice. Of an op listed twice the first pair is the one that counts: `rawLat` reads it, the
model's choice (log 22). -/
def Obligations.ResetDemandsALatencyOfEveryComputeOp : Prop :=
  ∀ (inp : ResetInput) (s : State), hostReset inp = .ok s →
    (∀ (r : Record) (o : OpCode), r ∈ inp.prog → OpCode.ofCode r.op = some o → opKind o ≠ .load → opKind o ≠ .store →
      ∃ l, latOf s.cfg o = some l) ∧
    (∀ (o : OpCode) (l : Nat), latOf s.cfg o = some l → 1 ≤ l ∧ (o, (l : Int)) ∈ inp.cfg.lats) ∧
    ((inp.cfg.lats.map Prod.fst).Nodup → ∀ (o : OpCode) (l : Int), (o, l) ∈ inp.cfg.lats → opKind o ≠ .load →
      opKind o ≠ .store → 1 ≤ l ∧ latOf s.cfg o = some l.toNat) ∧
    (∀ (o : OpCode) (l : Nat), latOf s.cfg o = some l → rawLat inp.cfg o = some (l : Int)) ∧
    ∀ (o : OpCode) (l : Int), opKind o ≠ .load → opKind o ≠ .store → rawLat inp.cfg o = some l → 1 ≤ l

/-- 40_cycle_engine.md R175: with `MAX_CYCLES` given, a run that reaches it without terminating or faulting ends with
`NonTerminating`; one that has terminated by then succeeds. -/
def Obligations.CycleBoundEndsTheRun : Prop :=
  ∀ (s : State) (m fuel : Nat), s.cfg.maxCycles = some m → m ≤ s.cycle → s.fault = none →
    run fuel s = if s.terminated then .terminated s else .nonTerminating m s

/-! ## Whole lifetimes -/

/-- 40_cycle_engine.md R156, 43_fp_arith.md R246–R257: in an idle machine whose last record is an FP op with ready
operands and latency L, the op issues in cycle c+1, starts in c+2, ends in c+2+L and writes in c+3+L; Fd then holds the
IEEE result, and nothing else of the machine has changed but the log. (The `taken` mark of an instance that is no branch
is none: the model's choice, log 24; so in the next three statements.) -/
def Obligations.IsolatedFpOpRunsToItsResult : Prop :=
  ∀ p ∈ frOps, ∀ (s : State) (fd fs ft : Fin 32) (T : Tag) (L : Nat), Idle s →
    s.recordAtCursor = some (.ok (p.2.2.1 fd fs ft)) → s.cursor + 1 = s.prog.length →
    FirstFree s p.2.1 T → latOf s.cfg p.1 = some L → 1 ≤ L →
    (s.reg (.f fs)).qi = none → (s.reg (.f ft)).qi = none →
    ∃ n t, runs (L + 3) s t ∧
      t.reg (.f fd) = ⟨p.2.2.2 n (s.reg (.f fs)).value (s.reg (.f ft)).value, none⟩ ∧
      (∀ r, r ≠ .f fd → t.reg r = s.reg r) ∧ t.stations = s.stations ∧ t.cdbQueue = [] ∧ t.lsb = [] ∧
      t.instances = s.instances ++ [⟨s.cursor, p.1, T, some (s.cycle + 1), some (s.cycle + 2), some (s.cycle + 2 + L),
        some (s.cycle + 3 + L), none⟩] ∧
      t.cursor = s.cursor + 1 ∧ t.cycle = s.cycle + 3 + L ∧ t.fault = none ∧
      ∀ a, t.coherentByte a = s.coherentByte a

/-- 40_cycle_engine.md R156, 41_int_imm.md R200, R201: the same of DADDI and DSUBI (the `taken` mark: log 24). -/
def Obligations.IsolatedIntegerOpRunsToItsResult : Prop :=
  ∀ p ∈ iiOps, ∀ (s : State) (rt rs : Fin 32) (imm : I32) (T : Tag) (L : Nat), Idle s →
    s.recordAtCursor = some (.ok (p.2.1 rt rs imm)) → s.cursor + 1 = s.prog.length →
    FirstFree s .intAdd T → latOf s.cfg p.1 = some L → 1 ≤ L → (s.reg (.r rs)).qi = none →
    ∃ n t, runs (L + 3) s t ∧
      t.reg (.r rt) = ⟨p.2.2 n (s.reg (.r rs)).value (F64.ofInt imm.toInt), none⟩ ∧
      (∀ r, r ≠ .r rt → t.reg r = s.reg r) ∧ t.stations = s.stations ∧ t.cdbQueue = [] ∧ t.lsb = [] ∧
      t.instances = s.instances ++ [⟨s.cursor, p.1, T, some (s.cycle + 1), some (s.cycle + 2), some (s.cycle + 2 + L),
        some (s.cycle + 3 + L), none⟩] ∧
      t.cursor = s.cursor + 1 ∧ t.cycle = s.cycle + 3 + L ∧ t.fault = none ∧
      ∀ a, t.coherentByte a = s.coherentByte a

/-- 70_reset_and_hazards.md R347, 42_loadstore.md R211, R213–R216: in an idle, well-shaped machine whose last record is a
load with a ready base and a good address, with latency M frozen at its issue in cycle c+1, the load starts in c+2,
commits in c+1+M and writes in c+2+M; its destination then holds what its op decodes from memory's bytes (the `taken`
mark: log 24). -/
def Obligations.IsolatedLoadRunsToItsValue : Prop :=
  ∀ p ∈ loadOps, ∀ (s : State) (d rb : Fin 32) (off : I32) (T : Tag) (b : Int) (dec : Nat → List Byte → F64),
    (p.1, dec) ∈ [(OpCode.lw, decodeLw), (.ld, decodeLd), (.ls, decodeLs), (.ldd, decodeLdd)] →
    Idle s → Shaped s → s.recordAtCursor = some (.ok (p.2.1 d rb off)) → s.cursor + 1 = s.prog.length →
    FirstFree s .load T → 1 ≤ s.cfg.lsbMax → s.nextSeq + 1 < 2 ^ 32 → (s.reg (.r rb)).qi = none →
    F64.toInt? (s.reg (.r rb)).value = some b → AddressOk (b + off.toInt) p.2.2.2 →
    1 ≤ frozenLatency s s.cfg.loadBaseLatency (b + off.toInt).toNat p.2.2.2 →
    ∃ t, runs (frozenLatency s s.cfg.loadBaseLatency (b + off.toInt).toNat p.2.2.2 + 2) s t ∧
      t.reg (p.2.2.1 d) = ⟨dec s.instances.length (s.memRead (b + off.toInt).toNat p.2.2.2), none⟩ ∧
      (∀ r, r ≠ p.2.2.1 d → t.reg r = s.reg r) ∧ t.stations = s.stations ∧ t.lsb = [] ∧ t.cdbQueue = [] ∧
      t.instances = s.instances ++ [⟨s.cursor, p.1, T, some (s.cycle + 1), some (s.cycle + 2),
        some (s.cycle + 1 + frozenLatency s s.cfg.loadBaseLatency (b + off.toInt).toNat p.2.2.2),
        some (s.cycle + 2 + frozenLatency s s.cfg.loadBaseLatency (b + off.toInt).toNat p.2.2.2), none⟩] ∧
      t.cursor = s.cursor + 1 ∧ t.fault = none ∧
      ∀ x, t.coherentByte x = s.coherentByte x

/-- 70_reset_and_hazards.md R347, 42_loadstore.md R212, R217–R220: the same of a store: it commits in c+1+M, its bytes are
in memory then, and no other byte and no register has changed (the `taken` mark: log 24). -/
def Obligations.IsolatedStoreRunsToMemory : Prop :=
  ∀ p ∈ storeOps, ∀ (s : State) (d rb : Fin 32) (off : I32) (T : Tag) (b : Int) (bs : List Byte),
    Idle s → Shaped s → s.recordAtCursor = some (.ok (p.2.1 d rb off)) → s.cursor + 1 = s.prog.length →
    FirstFree s .store T → 1 ≤ s.cfg.lsbMax → s.nextSeq + 1 < 2 ^ 32 → (s.reg (.r rb)).qi = none →
    (s.reg (p.2.2.1 d)).qi = none → F64.toInt? (s.reg (.r rb)).value = some b →
    AddressOk (b + off.toInt) p.2.2.2.1 → p.2.2.2.2 s.instances.length (s.reg (p.2.2.1 d)).value = some bs →
    1 ≤ frozenLatency s s.cfg.storeBaseLatency (b + off.toInt).toNat p.2.2.2.1 →
    ∃ t, runs (frozenLatency s s.cfg.storeBaseLatency (b + off.toInt).toNat p.2.2.2.1 + 1) s t ∧
      (∀ x, t.coherentByte x =
        if (b + off.toInt).toNat ≤ x ∧ x < (b + off.toInt).toNat + p.2.2.2.1
        then bs.getD (x - (b + off.toInt).toNat) 0 else s.coherentByte x) ∧
      (∀ r, t.reg r = s.reg r) ∧ t.stations = s.stations ∧ t.lsb = [] ∧ t.cdbQueue = [] ∧
      t.instances = s.instances ++ [⟨s.cursor, p.1, T, some (s.cycle + 1), some (s.cycle + 2),
        some (s.cycle + 1 + frozenLatency s s.cfg.storeBaseLatency (b + off.toInt).toNat p.2.2.2.1),
        some (s.cycle + 1 + frozenLatency s s.cfg.storeBaseLatency (b + off.toInt).toNat p.2.2.2.1), none⟩] ∧
      t.cursor = s.cursor + 1 ∧ t.fault = none

/-- 44_branch.md R270–R273, R280, 40_cycle_engine.md R148, R159: in an idle machine with a checked program whose next
record is a branch with ready operands and latency L, the branch issues in cycle c+1, nothing issues after it, and it
resolves in the Write phase of cycle c+3+L: its instance then has its four timestamps and its `taken` mark (that this held
none before is the model's choice, log 24), the cursor is the target or the index after the branch, issue may go on, no
request is left, and registers and memory are unchanged. -/
def Obligations.IsolatedBranchResolves : Prop :=
  ∀ p ∈ brOps, ∀ (s : State) (rs rt : Fin 32) (target : I32) (T : Tag) (L : Nat), Idle s → programOk s.prog = true →
    s.recordAtCursor = some (.ok (p.2.1 rs rt target)) → FirstFree s .branch T → latOf s.cfg p.1 = some L →
    1 ≤ L → (s.reg (.r rs)).qi = none → (s.reg (.r rt)).qi = none →
    ∃ u v, runs (L + 2) s u ∧ u.cursor = s.cursor + 1 ∧ u.instances.length = s.instances.length + 1 ∧
      writePhase (tick u) = .ok v ∧ v.branchPending = false ∧
      v.cursor = (if p.2.2 (s.reg (.r rs)).value (s.reg (.r rt)).value then target.toInt.toNat else s.cursor + 1) ∧
      v.instances = s.instances ++ [⟨s.cursor, p.1, T, some (s.cycle + 1), some (s.cycle + 2), some (s.cycle + 2 + L),
        some (s.cycle + 3 + L), some (p.2.2 (s.reg (.r rs)).value (s.reg (.r rt)).value)⟩] ∧
      v.cycle = s.cycle + 3 + L ∧ v.stations = s.stations ∧ v.cdbQueue = [] ∧ (∀ r, v.reg r = s.reg r) ∧
      ∀ a, v.coherentByte a = s.coherentByte a
end

