-- ==== Sys2Proof/Laws/State.lean ====
section
/-! SUPPORT. One lemma per field per update: what each named operation leaves unchanged, and what it writes, so that no
later proof unfolds a record update. -/

namespace Sys2Proof.Machine

/-! ### setReg -/

@[simp] theorem setReg_cfg (r : Reg) (c : RegCell) (s : State) : (s.setReg r c).cfg = s.cfg := by cases r <;> rfl
@[simp] theorem setReg_prog (r : Reg) (c : RegCell) (s : State) : (s.setReg r c).prog = s.prog := by cases r <;> rfl
@[simp] theorem setReg_stations (r : Reg) (c : RegCell) (s : State) :
    (s.setReg r c).stations = s.stations := by cases r <;> rfl
@[simp] theorem setReg_cursor (r : Reg) (c : RegCell) (s : State) :
    (s.setReg r c).cursor = s.cursor := by cases r <;> rfl
@[simp] theorem setReg_cycle (r : Reg) (c : RegCell) (s : State) :
    (s.setReg r c).cycle = s.cycle := by cases r <;> rfl
@[simp] theorem setReg_branchPending (r : Reg) (c : RegCell) (s : State) :
    (s.setReg r c).branchPending = s.branchPending := by cases r <;> rfl
@[simp] theorem setReg_instances (r : Reg) (c : RegCell) (s : State) :
    (s.setReg r c).instances = s.instances := by cases r <;> rfl
@[simp] theorem setReg_cdbQueue (r : Reg) (c : RegCell) (s : State) :
    (s.setReg r c).cdbQueue = s.cdbQueue := by cases r <;> rfl
@[simp] theorem setReg_fault (r : Reg) (c : RegCell) (s : State) :
    (s.setReg r c).fault = s.fault := by cases r <;> rfl
@[simp] theorem setReg_mem (r : Reg) (c : RegCell) (s : State) : (s.setReg r c).mem = s.mem := by cases r <;> rfl
@[simp] theorem setReg_lines (r : Reg) (c : RegCell) (s : State) :
    (s.setReg r c).lines = s.lines := by cases r <;> rfl
@[simp] theorem setReg_hits (r : Reg) (c : RegCell) (s : State) : (s.setReg r c).hits = s.hits := by cases r <;> rfl
@[simp] theorem setReg_misses (r : Reg) (c : RegCell) (s : State) :
    (s.setReg r c).misses = s.misses := by cases r <;> rfl
@[simp] theorem setReg_lsb (r : Reg) (c : RegCell) (s : State) : (s.setReg r c).lsb = s.lsb := by cases r <;> rfl
@[simp] theorem setReg_nextSeq (r : Reg) (c : RegCell) (s : State) :
    (s.setReg r c).nextSeq = s.nextSeq := by cases r <;> rfl

/-! ### setQi -/

@[simp] theorem setQi_cfg (r : Reg) (T : Tag) (s : State) : (setQi r T s).cfg = s.cfg := by cases r <;> rfl
@[simp] theorem setQi_prog (r : Reg) (T : Tag) (s : State) : (setQi r T s).prog = s.prog := by cases r <;> rfl
@[simp] theorem setQi_stations (r : Reg) (T : Tag) (s : State) :
    (setQi r T s).stations = s.stations := by cases r <;> rfl
@[simp] theorem setQi_cursor (r : Reg) (T : Tag) (s : State) : (setQi r T s).cursor = s.cursor := by cases r <;> rfl
@[simp] theorem setQi_cycle (r : Reg) (T : Tag) (s : State) : (setQi r T s).cycle = s.cycle := by cases r <;> rfl
@[simp] theorem setQi_branchPending (r : Reg) (T : Tag) (s : State) :
    (setQi r T s).branchPending = s.branchPending := by cases r <;> rfl
@[simp] theorem setQi_instances (r : Reg) (T : Tag) (s : State) :
    (setQi r T s).instances = s.instances := by cases r <;> rfl
@[simp] theorem setQi_cdbQueue (r : Reg) (T : Tag) (s : State) :
    (setQi r T s).cdbQueue = s.cdbQueue := by cases r <;> rfl
@[simp] theorem setQi_fault (r : Reg) (T : Tag) (s : State) : (setQi r T s).fault = s.fault := by cases r <;> rfl
@[simp] theorem setQi_mem (r : Reg) (T : Tag) (s : State) : (setQi r T s).mem = s.mem := by cases r <;> rfl
@[simp] theorem setQi_lines (r : Reg) (T : Tag) (s : State) : (setQi r T s).lines = s.lines := by cases r <;> rfl
@[simp] theorem setQi_hits (r : Reg) (T : Tag) (s : State) : (setQi r T s).hits = s.hits := by cases r <;> rfl
@[simp] theorem setQi_misses (r : Reg) (T : Tag) (s : State) : (setQi r T s).misses = s.misses := by cases r <;> rfl
@[simp] theorem setQi_lsb (r : Reg) (T : Tag) (s : State) : (setQi r T s).lsb = s.lsb := by cases r <;> rfl
@[simp] theorem setQi_nextSeq (r : Reg) (T : Tag) (s : State) :
    (setQi r T s).nextSeq = s.nextSeq := by cases r <;> rfl

/-! ### updStation -/

@[simp] theorem updStation_cfg (T : Tag) (f : Station → Station) (s : State) : (updStation T f s).cfg = s.cfg := rfl
@[simp] theorem updStation_prog (T : Tag) (f : Station → Station) (s : State) :
    (updStation T f s).prog = s.prog := rfl
@[simp] theorem updStation_intRegs (T : Tag) (f : Station → Station) (s : State) :
    (updStation T f s).intRegs = s.intRegs := rfl
@[simp] theorem updStation_fpRegs (T : Tag) (f : Station → Station) (s : State) :
    (updStation T f s).fpRegs = s.fpRegs := rfl
@[simp] theorem updStation_cursor (T : Tag) (f : Station → Station) (s : State) :
    (updStation T f s).cursor = s.cursor := rfl
@[simp] theorem updStation_cycle (T : Tag) (f : Station → Station) (s : State) :
    (updStation T f s).cycle = s.cycle := rfl
@[simp] theorem updStation_branchPending (T : Tag) (f : Station → Station) (s : State) :
    (updStation T f s).branchPending = s.branchPending := rfl
@[simp] theorem updStation_instances (T : Tag) (f : Station → Station) (s : State) :
    (updStation T f s).instances = s.instances := rfl
@[simp] theorem updStation_cdbQueue (T : Tag) (f : Station → Station) (s : State) :
    (updStation T f s).cdbQueue = s.cdbQueue := rfl
@[simp] theorem updStation_fault (T : Tag) (f : Station → Station) (s : State) :
    (updStation T f s).fault = s.fault := rfl
@[simp] theorem updStation_mem (T : Tag) (f : Station → Station) (s : State) : (updStation T f s).mem = s.mem := rfl
@[simp] theorem updStation_lines (T : Tag) (f : Station → Station) (s : State) :
    (updStation T f s).lines = s.lines := rfl
@[simp] theorem updStation_hits (T : Tag) (f : Station → Station) (s : State) :
    (updStation T f s).hits = s.hits := rfl
@[simp] theorem updStation_misses (T : Tag) (f : Station → Station) (s : State) :
    (updStation T f s).misses = s.misses := rfl
@[simp] theorem updStation_lsb (T : Tag) (f : Station → Station) (s : State) : (updStation T f s).lsb = s.lsb := rfl
@[simp] theorem updStation_nextSeq (T : Tag) (f : Station → Station) (s : State) :
    (updStation T f s).nextSeq = s.nextSeq := rfl

/-! ### release -/

@[simp] theorem release_cfg (T : Tag) (s : State) : (release T s).cfg = s.cfg := rfl
@[simp] theorem release_prog (T : Tag) (s : State) : (release T s).prog = s.prog := rfl
@[simp] theorem release_intRegs (T : Tag) (s : State) : (release T s).intRegs = s.intRegs := rfl
@[simp] theorem release_fpRegs (T : Tag) (s : State) : (release T s).fpRegs = s.fpRegs := rfl
@[simp] theorem release_cursor (T : Tag) (s : State) : (release T s).cursor = s.cursor := rfl
@[simp] theorem release_cycle (T : Tag) (s : State) : (release T s).cycle = s.cycle := rfl
@[simp] theorem release_branchPending (T : Tag) (s : State) : (release T s).branchPending = s.branchPending := rfl
@[simp] theorem release_instances (T : Tag) (s : State) : (release T s).instances = s.instances := rfl
@[simp] theorem release_cdbQueue (T : Tag) (s : State) : (release T s).cdbQueue = s.cdbQueue := rfl
@[simp] theorem release_fault (T : Tag) (s : State) : (release T s).fault = s.fault := rfl
@[simp] theorem release_mem (T : Tag) (s : State) : (release T s).mem = s.mem := rfl
@[simp] theorem release_lines (T : Tag) (s : State) : (release T s).lines = s.lines := rfl
@[simp] theorem release_hits (T : Tag) (s : State) : (release T s).hits = s.hits := rfl
@[simp] theorem release_misses (T : Tag) (s : State) : (release T s).misses = s.misses := rfl
@[simp] theorem release_lsb (T : Tag) (s : State) : (release T s).lsb = s.lsb := rfl
@[simp] theorem release_nextSeq (T : Tag) (s : State) : (release T s).nextSeq = s.nextSeq := rfl

/-! ### stamp -/

@[simp] theorem stamp_cfg (i : Nat) (f : DynInst → DynInst) (s : State) : (stamp i f s).cfg = s.cfg := rfl
@[simp] theorem stamp_prog (i : Nat) (f : DynInst → DynInst) (s : State) : (stamp i f s).prog = s.prog := rfl
@[simp] theorem stamp_intRegs (i : Nat) (f : DynInst → DynInst) (s : State) : (stamp i f s).intRegs = s.intRegs := rfl
@[simp] theorem stamp_fpRegs (i : Nat) (f : DynInst → DynInst) (s : State) : (stamp i f s).fpRegs = s.fpRegs := rfl
@[simp] theorem stamp_stations (i : Nat) (f : DynInst → DynInst) (s : State) :
    (stamp i f s).stations = s.stations := rfl
@[simp] theorem stamp_cursor (i : Nat) (f : DynInst → DynInst) (s : State) : (stamp i f s).cursor = s.cursor := rfl
@[simp] theorem stamp_cycle (i : Nat) (f : DynInst → DynInst) (s : State) : (stamp i f s).cycle = s.cycle := rfl
@[simp] theorem stamp_branchPending (i : Nat) (f : DynInst → DynInst) (s : State) :
    (stamp i f s).branchPending = s.branchPending := rfl
@[simp] theorem stamp_cdbQueue (i : Nat) (f : DynInst → DynInst) (s : State) :
    (stamp i f s).cdbQueue = s.cdbQueue := rfl
@[simp] theorem stamp_fault (i : Nat) (f : DynInst → DynInst) (s : State) : (stamp i f s).fault = s.fault := rfl
@[simp] theorem stamp_mem (i : Nat) (f : DynInst → DynInst) (s : State) : (stamp i f s).mem = s.mem := rfl
@[simp] theorem stamp_lines (i : Nat) (f : DynInst → DynInst) (s : State) : (stamp i f s).lines = s.lines := rfl
@[simp] theorem stamp_hits (i : Nat) (f : DynInst → DynInst) (s : State) : (stamp i f s).hits = s.hits := rfl
@[simp] theorem stamp_misses (i : Nat) (f : DynInst → DynInst) (s : State) : (stamp i f s).misses = s.misses := rfl
@[simp] theorem stamp_lsb (i : Nat) (f : DynInst → DynInst) (s : State) : (stamp i f s).lsb = s.lsb := rfl
@[simp] theorem stamp_nextSeq (i : Nat) (f : DynInst → DynInst) (s : State) : (stamp i f s).nextSeq = s.nextSeq := rfl

/-! ### enqueue -/

@[simp] theorem enqueue_cfg (T : Tag) (v : F64) (d : Option Reg) (o : OpCode) (s : State) :
    (enqueue T v d o s).cfg = s.cfg := rfl
@[simp] theorem enqueue_prog (T : Tag) (v : F64) (d : Option Reg) (o : OpCode) (s : State) :
    (enqueue T v d o s).prog = s.prog := rfl
@[simp] theorem enqueue_intRegs (T : Tag) (v : F64) (d : Option Reg) (o : OpCode) (s : State) :
    (enqueue T v d o s).intRegs = s.intRegs := rfl
@[simp] theorem enqueue_fpRegs (T : Tag) (v : F64) (d : Option Reg) (o : OpCode) (s : State) :
    (enqueue T v d o s).fpRegs = s.fpRegs := rfl
@[simp] theorem enqueue_stations (T : Tag) (v : F64) (d : Option Reg) (o : OpCode) (s : State) :
    (enqueue T v d o s).stations = s.stations := rfl
@[simp] theorem enqueue_cursor (T : Tag) (v : F64) (d : Option Reg) (o : OpCode) (s : State) :
    (enqueue T v d o s).cursor = s.cursor := rfl
@[simp] theorem enqueue_cycle (T : Tag) (v : F64) (d : Option Reg) (o : OpCode) (s : State) :
    (enqueue T v d o s).cycle = s.cycle := rfl
@[simp] theorem enqueue_branchPending (T : Tag) (v : F64) (d : Option Reg) (o : OpCode) (s : State) :
    (enqueue T v d o s).branchPending = s.branchPending := rfl
@[simp] theorem enqueue_instances (T : Tag) (v : F64) (d : Option Reg) (o : OpCode) (s : State) :
    (enqueue T v d o s).instances = s.instances := rfl
@[simp] theorem enqueue_fault (T : Tag) (v : F64) (d : Option Reg) (o : OpCode) (s : State) :
    (enqueue T v d o s).fault = s.fault := rfl
@[simp] theorem enqueue_mem (T : Tag) (v : F64) (d : Option Reg) (o : OpCode) (s : State) :
    (enqueue T v d o s).mem = s.mem := rfl
@[simp] theorem enqueue_lines (T : Tag) (v : F64) (d : Option Reg) (o : OpCode) (s : State) :
    (enqueue T v d o s).lines = s.lines := rfl
@[simp] theorem enqueue_hits (T : Tag) (v : F64) (d : Option Reg) (o : OpCode) (s : State) :
    (enqueue T v d o s).hits = s.hits := rfl
@[simp] theorem enqueue_misses (T : Tag) (v : F64) (d : Option Reg) (o : OpCode) (s : State) :
    (enqueue T v d o s).misses = s.misses := rfl
@[simp] theorem enqueue_lsb (T : Tag) (v : F64) (d : Option Reg) (o : OpCode) (s : State) :
    (enqueue T v d o s).lsb = s.lsb := rfl
@[simp] theorem enqueue_nextSeq (T : Tag) (v : F64) (d : Option Reg) (o : OpCode) (s : State) :
    (enqueue T v d o s).nextSeq = s.nextSeq := rfl

/-! ### rename -/

@[simp] theorem rename_cfg (d : Option Reg) (T : Tag) (s : State) :
    (rename d T s).cfg = s.cfg := by cases d <;> simp [rename]
@[simp] theorem rename_prog (d : Option Reg) (T : Tag) (s : State) :
    (rename d T s).prog = s.prog := by cases d <;> simp [rename]
@[simp] theorem rename_stations (d : Option Reg) (T : Tag) (s : State) :
    (rename d T s).stations = s.stations := by cases d <;> simp [rename]
@[simp] theorem rename_cursor (d : Option Reg) (T : Tag) (s : State) :
    (rename d T s).cursor = s.cursor := by cases d <;> simp [rename]
@[simp] theorem rename_cycle (d : Option Reg) (T : Tag) (s : State) :
    (rename d T s).cycle = s.cycle := by cases d <;> simp [rename]
@[simp] theorem rename_branchPending (d : Option Reg) (T : Tag) (s : State) :
    (rename d T s).branchPending = s.branchPending := by cases d <;> simp [rename]
@[simp] theorem rename_instances (d : Option Reg) (T : Tag) (s : State) :
    (rename d T s).instances = s.instances := by cases d <;> simp [rename]
@[simp] theorem rename_cdbQueue (d : Option Reg) (T : Tag) (s : State) :
    (rename d T s).cdbQueue = s.cdbQueue := by cases d <;> simp [rename]
@[simp] theorem rename_fault (d : Option Reg) (T : Tag) (s : State) :
    (rename d T s).fault = s.fault := by cases d <;> simp [rename]
@[simp] theorem rename_mem (d : Option Reg) (T : Tag) (s : State) :
    (rename d T s).mem = s.mem := by cases d <;> simp [rename]
@[simp] theorem rename_lines (d : Option Reg) (T : Tag) (s : State) :
    (rename d T s).lines = s.lines := by cases d <;> simp [rename]
@[simp] theorem rename_hits (d : Option Reg) (T : Tag) (s : State) :
    (rename d T s).hits = s.hits := by cases d <;> simp [rename]
@[simp] theorem rename_misses (d : Option Reg) (T : Tag) (s : State) :
    (rename d T s).misses = s.misses := by cases d <;> simp [rename]
@[simp] theorem rename_lsb (d : Option Reg) (T : Tag) (s : State) :
    (rename d T s).lsb = s.lsb := by cases d <;> simp [rename]
@[simp] theorem rename_nextSeq (d : Option Reg) (T : Tag) (s : State) :
    (rename d T s).nextSeq = s.nextSeq := by cases d <;> simp [rename]

/-! ### fill -/

@[simp] theorem fill_cfg (T : Tag) (o : OpCode) (d : Option Reg) (j : Reg) (k : Option Reg) (a : Option I32) (s : State) :
    (fill T o d j k a s).cfg = s.cfg := rfl
@[simp] theorem fill_prog (T : Tag) (o : OpCode) (d : Option Reg) (j : Reg) (k : Option Reg) (a : Option I32) (s : State) :
    (fill T o d j k a s).prog = s.prog := rfl
@[simp] theorem fill_intRegs (T : Tag) (o : OpCode) (d : Option Reg) (j : Reg) (k : Option Reg) (a : Option I32) (s : State) :
    (fill T o d j k a s).intRegs = s.intRegs := rfl
@[simp] theorem fill_fpRegs (T : Tag) (o : OpCode) (d : Option Reg) (j : Reg) (k : Option Reg) (a : Option I32) (s : State) :
    (fill T o d j k a s).fpRegs = s.fpRegs := rfl
@[simp] theorem fill_cursor (T : Tag) (o : OpCode) (d : Option Reg) (j : Reg) (k : Option Reg) (a : Option I32) (s : State) :
    (fill T o d j k a s).cursor = s.cursor := rfl
@[simp] theorem fill_cycle (T : Tag) (o : OpCode) (d : Option Reg) (j : Reg) (k : Option Reg) (a : Option I32) (s : State) :
    (fill T o d j k a s).cycle = s.cycle := rfl
@[simp] theorem fill_branchPending (T : Tag) (o : OpCode) (d : Option Reg) (j : Reg) (k : Option Reg) (a : Option I32) (s : State) :
    (fill T o d j k a s).branchPending = s.branchPending := rfl
@[simp] theorem fill_cdbQueue (T : Tag) (o : OpCode) (d : Option Reg) (j : Reg) (k : Option Reg) (a : Option I32) (s : State) :
    (fill T o d j k a s).cdbQueue = s.cdbQueue := rfl
@[simp] theorem fill_fault (T : Tag) (o : OpCode) (d : Option Reg) (j : Reg) (k : Option Reg) (a : Option I32) (s : State) :
    (fill T o d j k a s).fault = s.fault := rfl
@[simp] theorem fill_mem (T : Tag) (o : OpCode) (d : Option Reg) (j : Reg) (k : Option Reg) (a : Option I32) (s : State) :
    (fill T o d j k a s).mem = s.mem := rfl
@[simp] theorem fill_lines (T : Tag) (o : OpCode) (d : Option Reg) (j : Reg) (k : Option Reg) (a : Option I32) (s : State) :
    (fill T o d j k a s).lines = s.lines := rfl
@[simp] theorem fill_hits (T : Tag) (o : OpCode) (d : Option Reg) (j : Reg) (k : Option Reg) (a : Option I32) (s : State) :
    (fill T o d j k a s).hits = s.hits := rfl
@[simp] theorem fill_misses (T : Tag) (o : OpCode) (d : Option Reg) (j : Reg) (k : Option Reg) (a : Option I32) (s : State) :
    (fill T o d j k a s).misses = s.misses := rfl
@[simp] theorem fill_lsb (T : Tag) (o : OpCode) (d : Option Reg) (j : Reg) (k : Option Reg) (a : Option I32) (s : State) :
    (fill T o d j k a s).lsb = s.lsb := rfl
@[simp] theorem fill_nextSeq (T : Tag) (o : OpCode) (d : Option Reg) (j : Reg) (k : Option Reg) (a : Option I32) (s : State) :
    (fill T o d j k a s).nextSeq = s.nextSeq := rfl

/-! ### advance -/

@[simp] theorem advance_cfg (s : State) : (advance s).cfg = s.cfg := rfl
@[simp] theorem advance_prog (s : State) : (advance s).prog = s.prog := rfl
@[simp] theorem advance_intRegs (s : State) : (advance s).intRegs = s.intRegs := rfl
@[simp] theorem advance_fpRegs (s : State) : (advance s).fpRegs = s.fpRegs := rfl
@[simp] theorem advance_stations (s : State) : (advance s).stations = s.stations := rfl
@[simp] theorem advance_cycle (s : State) : (advance s).cycle = s.cycle := rfl
@[simp] theorem advance_branchPending (s : State) : (advance s).branchPending = s.branchPending := rfl
@[simp] theorem advance_instances (s : State) : (advance s).instances = s.instances := rfl
@[simp] theorem advance_cdbQueue (s : State) : (advance s).cdbQueue = s.cdbQueue := rfl
@[simp] theorem advance_fault (s : State) : (advance s).fault = s.fault := rfl
@[simp] theorem advance_mem (s : State) : (advance s).mem = s.mem := rfl
@[simp] theorem advance_lines (s : State) : (advance s).lines = s.lines := rfl
@[simp] theorem advance_hits (s : State) : (advance s).hits = s.hits := rfl
@[simp] theorem advance_misses (s : State) : (advance s).misses = s.misses := rfl
@[simp] theorem advance_lsb (s : State) : (advance s).lsb = s.lsb := rfl
@[simp] theorem advance_nextSeq (s : State) : (advance s).nextSeq = s.nextSeq := rfl

/-! ### blockIssue -/

@[simp] theorem blockIssue_cfg (s : State) : (blockIssue s).cfg = s.cfg := rfl
@[simp] theorem blockIssue_prog (s : State) : (blockIssue s).prog = s.prog := rfl
@[simp] theorem blockIssue_intRegs (s : State) : (blockIssue s).intRegs = s.intRegs := rfl
@[simp] theorem blockIssue_fpRegs (s : State) : (blockIssue s).fpRegs = s.fpRegs := rfl
@[simp] theorem blockIssue_stations (s : State) : (blockIssue s).stations = s.stations := rfl
@[simp] theorem blockIssue_cursor (s : State) : (blockIssue s).cursor = s.cursor := rfl
@[simp] theorem blockIssue_cycle (s : State) : (blockIssue s).cycle = s.cycle := rfl
@[simp] theorem blockIssue_instances (s : State) : (blockIssue s).instances = s.instances := rfl
@[simp] theorem blockIssue_cdbQueue (s : State) : (blockIssue s).cdbQueue = s.cdbQueue := rfl
@[simp] theorem blockIssue_fault (s : State) : (blockIssue s).fault = s.fault := rfl
@[simp] theorem blockIssue_mem (s : State) : (blockIssue s).mem = s.mem := rfl
@[simp] theorem blockIssue_lines (s : State) : (blockIssue s).lines = s.lines := rfl
@[simp] theorem blockIssue_hits (s : State) : (blockIssue s).hits = s.hits := rfl
@[simp] theorem blockIssue_misses (s : State) : (blockIssue s).misses = s.misses := rfl
@[simp] theorem blockIssue_lsb (s : State) : (blockIssue s).lsb = s.lsb := rfl
@[simp] theorem blockIssue_nextSeq (s : State) : (blockIssue s).nextSeq = s.nextSeq := rfl

/-! ### enterLsb -/

@[simp] theorem enterLsb_cfg (e : LsbEntry) (s : State) : (enterLsb e s).cfg = s.cfg := rfl
@[simp] theorem enterLsb_prog (e : LsbEntry) (s : State) : (enterLsb e s).prog = s.prog := rfl
@[simp] theorem enterLsb_intRegs (e : LsbEntry) (s : State) : (enterLsb e s).intRegs = s.intRegs := rfl
@[simp] theorem enterLsb_fpRegs (e : LsbEntry) (s : State) : (enterLsb e s).fpRegs = s.fpRegs := rfl
@[simp] theorem enterLsb_cursor (e : LsbEntry) (s : State) : (enterLsb e s).cursor = s.cursor := rfl
@[simp] theorem enterLsb_cycle (e : LsbEntry) (s : State) : (enterLsb e s).cycle = s.cycle := rfl
@[simp] theorem enterLsb_branchPending (e : LsbEntry) (s : State) :
    (enterLsb e s).branchPending = s.branchPending := rfl
@[simp] theorem enterLsb_instances (e : LsbEntry) (s : State) : (enterLsb e s).instances = s.instances := rfl
@[simp] theorem enterLsb_cdbQueue (e : LsbEntry) (s : State) : (enterLsb e s).cdbQueue = s.cdbQueue := rfl
@[simp] theorem enterLsb_fault (e : LsbEntry) (s : State) : (enterLsb e s).fault = s.fault := rfl
@[simp] theorem enterLsb_mem (e : LsbEntry) (s : State) : (enterLsb e s).mem = s.mem := rfl
@[simp] theorem enterLsb_lines (e : LsbEntry) (s : State) : (enterLsb e s).lines = s.lines := rfl
@[simp] theorem enterLsb_hits (e : LsbEntry) (s : State) : (enterLsb e s).hits = s.hits := rfl
@[simp] theorem enterLsb_misses (e : LsbEntry) (s : State) : (enterLsb e s).misses = s.misses := rfl

/-! ### stampStart -/

@[simp] theorem stampStart_cfg (e : LsbEntry) (s : State) :
    (stampStart e s).cfg = s.cfg := by unfold stampStart; split <;> rfl
@[simp] theorem stampStart_prog (e : LsbEntry) (s : State) :
    (stampStart e s).prog = s.prog := by unfold stampStart; split <;> rfl
@[simp] theorem stampStart_intRegs (e : LsbEntry) (s : State) :
    (stampStart e s).intRegs = s.intRegs := by unfold stampStart; split <;> rfl
@[simp] theorem stampStart_fpRegs (e : LsbEntry) (s : State) :
    (stampStart e s).fpRegs = s.fpRegs := by unfold stampStart; split <;> rfl
@[simp] theorem stampStart_stations (e : LsbEntry) (s : State) :
    (stampStart e s).stations = s.stations := by unfold stampStart; split <;> rfl
@[simp] theorem stampStart_cursor (e : LsbEntry) (s : State) :
    (stampStart e s).cursor = s.cursor := by unfold stampStart; split <;> rfl
@[simp] theorem stampStart_cycle (e : LsbEntry) (s : State) :
    (stampStart e s).cycle = s.cycle := by unfold stampStart; split <;> rfl
@[simp] theorem stampStart_branchPending (e : LsbEntry) (s : State) :
    (stampStart e s).branchPending = s.branchPending := by unfold stampStart; split <;> rfl
@[simp] theorem stampStart_cdbQueue (e : LsbEntry) (s : State) :
    (stampStart e s).cdbQueue = s.cdbQueue := by unfold stampStart; split <;> rfl
@[simp] theorem stampStart_fault (e : LsbEntry) (s : State) :
    (stampStart e s).fault = s.fault := by unfold stampStart; split <;> rfl
@[simp] theorem stampStart_mem (e : LsbEntry) (s : State) :
    (stampStart e s).mem = s.mem := by unfold stampStart; split <;> rfl
@[simp] theorem stampStart_lines (e : LsbEntry) (s : State) :
    (stampStart e s).lines = s.lines := by unfold stampStart; split <;> rfl
@[simp] theorem stampStart_hits (e : LsbEntry) (s : State) :
    (stampStart e s).hits = s.hits := by unfold stampStart; split <;> rfl
@[simp] theorem stampStart_misses (e : LsbEntry) (s : State) :
    (stampStart e s).misses = s.misses := by unfold stampStart; split <;> rfl
@[simp] theorem stampStart_lsb (e : LsbEntry) (s : State) :
    (stampStart e s).lsb = s.lsb := by unfold stampStart; split <;> rfl
@[simp] theorem stampStart_nextSeq (e : LsbEntry) (s : State) :
    (stampStart e s).nextSeq = s.nextSeq := by unfold stampStart; split <;> rfl

/-! ### regWrite -/

@[simp] theorem regWrite_cfg (T : Tag) (v : F64) (d : Option Reg) (s : State) :
    (regWrite T v d s).cfg = s.cfg := by unfold regWrite; split <;> [rfl; (split <;> [simp; (split <;> simp)])]
@[simp] theorem regWrite_prog (T : Tag) (v : F64) (d : Option Reg) (s : State) :
    (regWrite T v d s).prog = s.prog := by unfold regWrite; split <;> [rfl; (split <;> [simp; (split <;> simp)])]
@[simp] theorem regWrite_stations (T : Tag) (v : F64) (d : Option Reg) (s : State) :
    (regWrite T v d s).stations = s.stations := by unfold regWrite; split <;> [rfl; (split <;> [simp; (split <;> simp)])]
@[simp] theorem regWrite_cursor (T : Tag) (v : F64) (d : Option Reg) (s : State) :
    (regWrite T v d s).cursor = s.cursor := by unfold regWrite; split <;> [rfl; (split <;> [simp; (split <;> simp)])]
@[simp] theorem regWrite_cycle (T : Tag) (v : F64) (d : Option Reg) (s : State) :
    (regWrite T v d s).cycle = s.cycle := by unfold regWrite; split <;> [rfl; (split <;> [simp; (split <;> simp)])]
@[simp] theorem regWrite_branchPending (T : Tag) (v : F64) (d : Option Reg) (s : State) :
    (regWrite T v d s).branchPending = s.branchPending := by unfold regWrite; split <;> [rfl; (split <;> [simp; (split <;> simp)])]
@[simp] theorem regWrite_instances (T : Tag) (v : F64) (d : Option Reg) (s : State) :
    (regWrite T v d s).instances = s.instances := by unfold regWrite; split <;> [rfl; (split <;> [simp; (split <;> simp)])]
@[simp] theorem regWrite_cdbQueue (T : Tag) (v : F64) (d : Option Reg) (s : State) :
    (regWrite T v d s).cdbQueue = s.cdbQueue := by unfold regWrite; split <;> [rfl; (split <;> [simp; (split <;> simp)])]
@[simp] theorem regWrite_fault (T : Tag) (v : F64) (d : Option Reg) (s : State) :
    (regWrite T v d s).fault = s.fault := by unfold regWrite; split <;> [rfl; (split <;> [simp; (split <;> simp)])]
@[simp] theorem regWrite_mem (T : Tag) (v : F64) (d : Option Reg) (s : State) :
    (regWrite T v d s).mem = s.mem := by unfold regWrite; split <;> [rfl; (split <;> [simp; (split <;> simp)])]
@[simp] theorem regWrite_lines (T : Tag) (v : F64) (d : Option Reg) (s : State) :
    (regWrite T v d s).lines = s.lines := by unfold regWrite; split <;> [rfl; (split <;> [simp; (split <;> simp)])]
@[simp] theorem regWrite_hits (T : Tag) (v : F64) (d : Option Reg) (s : State) :
    (regWrite T v d s).hits = s.hits := by unfold regWrite; split <;> [rfl; (split <;> [simp; (split <;> simp)])]
@[simp] theorem regWrite_misses (T : Tag) (v : F64) (d : Option Reg) (s : State) :
    (regWrite T v d s).misses = s.misses := by unfold regWrite; split <;> [rfl; (split <;> [simp; (split <;> simp)])]
@[simp] theorem regWrite_lsb (T : Tag) (v : F64) (d : Option Reg) (s : State) :
    (regWrite T v d s).lsb = s.lsb := by unfold regWrite; split <;> [rfl; (split <;> [simp; (split <;> simp)])]
@[simp] theorem regWrite_nextSeq (T : Tag) (v : F64) (d : Option Reg) (s : State) :
    (regWrite T v d s).nextSeq = s.nextSeq := by unfold regWrite; split <;> [rfl; (split <;> [simp; (split <;> simp)])]

/-! ### forward -/

@[simp] theorem forward_cfg (T : Tag) (v : F64) (s : State) : (forward T v s).cfg = s.cfg := rfl
@[simp] theorem forward_prog (T : Tag) (v : F64) (s : State) : (forward T v s).prog = s.prog := rfl
@[simp] theorem forward_intRegs (T : Tag) (v : F64) (s : State) : (forward T v s).intRegs = s.intRegs := rfl
@[simp] theorem forward_fpRegs (T : Tag) (v : F64) (s : State) : (forward T v s).fpRegs = s.fpRegs := rfl
@[simp] theorem forward_cursor (T : Tag) (v : F64) (s : State) : (forward T v s).cursor = s.cursor := rfl
@[simp] theorem forward_cycle (T : Tag) (v : F64) (s : State) : (forward T v s).cycle = s.cycle := rfl
@[simp] theorem forward_branchPending (T : Tag) (v : F64) (s : State) :
    (forward T v s).branchPending = s.branchPending := rfl
@[simp] theorem forward_instances (T : Tag) (v : F64) (s : State) : (forward T v s).instances = s.instances := rfl
@[simp] theorem forward_cdbQueue (T : Tag) (v : F64) (s : State) : (forward T v s).cdbQueue = s.cdbQueue := rfl
@[simp] theorem forward_fault (T : Tag) (v : F64) (s : State) : (forward T v s).fault = s.fault := rfl
@[simp] theorem forward_mem (T : Tag) (v : F64) (s : State) : (forward T v s).mem = s.mem := rfl
@[simp] theorem forward_lines (T : Tag) (v : F64) (s : State) : (forward T v s).lines = s.lines := rfl
@[simp] theorem forward_hits (T : Tag) (v : F64) (s : State) : (forward T v s).hits = s.hits := rfl
@[simp] theorem forward_misses (T : Tag) (v : F64) (s : State) : (forward T v s).misses = s.misses := rfl
@[simp] theorem forward_lsb (T : Tag) (v : F64) (s : State) : (forward T v s).lsb = s.lsb := rfl
@[simp] theorem forward_nextSeq (T : Tag) (v : F64) (s : State) : (forward T v s).nextSeq = s.nextSeq := rfl

/-! ### stampWrite -/

@[simp] theorem stampWrite_cfg (i : Option Nat) (s : State) : (stampWrite i s).cfg = s.cfg := by cases i <;> rfl
@[simp] theorem stampWrite_prog (i : Option Nat) (s : State) : (stampWrite i s).prog = s.prog := by cases i <;> rfl
@[simp] theorem stampWrite_intRegs (i : Option Nat) (s : State) :
    (stampWrite i s).intRegs = s.intRegs := by cases i <;> rfl
@[simp] theorem stampWrite_fpRegs (i : Option Nat) (s : State) :
    (stampWrite i s).fpRegs = s.fpRegs := by cases i <;> rfl
@[simp] theorem stampWrite_stations (i : Option Nat) (s : State) :
    (stampWrite i s).stations = s.stations := by cases i <;> rfl
@[simp] theorem stampWrite_cursor (i : Option Nat) (s : State) :
    (stampWrite i s).cursor = s.cursor := by cases i <;> rfl
@[simp] theorem stampWrite_cycle (i : Option Nat) (s : State) : (stampWrite i s).cycle = s.cycle := by cases i <;> rfl
@[simp] theorem stampWrite_branchPending (i : Option Nat) (s : State) :
    (stampWrite i s).branchPending = s.branchPending := by cases i <;> rfl
@[simp] theorem stampWrite_cdbQueue (i : Option Nat) (s : State) :
    (stampWrite i s).cdbQueue = s.cdbQueue := by cases i <;> rfl
@[simp] theorem stampWrite_fault (i : Option Nat) (s : State) : (stampWrite i s).fault = s.fault := by cases i <;> rfl
@[simp] theorem stampWrite_mem (i : Option Nat) (s : State) : (stampWrite i s).mem = s.mem := by cases i <;> rfl
@[simp] theorem stampWrite_lines (i : Option Nat) (s : State) : (stampWrite i s).lines = s.lines := by cases i <;> rfl
@[simp] theorem stampWrite_hits (i : Option Nat) (s : State) : (stampWrite i s).hits = s.hits := by cases i <;> rfl
@[simp] theorem stampWrite_misses (i : Option Nat) (s : State) :
    (stampWrite i s).misses = s.misses := by cases i <;> rfl
@[simp] theorem stampWrite_lsb (i : Option Nat) (s : State) : (stampWrite i s).lsb = s.lsb := by cases i <;> rfl
@[simp] theorem stampWrite_nextSeq (i : Option Nat) (s : State) :
    (stampWrite i s).nextSeq = s.nextSeq := by cases i <;> rfl

/-! ### stampBound -/

@[simp] theorem stampBound_cfg (S : Station) (f : DynInst → DynInst) (s : State) :
    (stampBound S f s).cfg = s.cfg := by unfold stampBound; split <;> rfl
@[simp] theorem stampBound_prog (S : Station) (f : DynInst → DynInst) (s : State) :
    (stampBound S f s).prog = s.prog := by unfold stampBound; split <;> rfl
@[simp] theorem stampBound_intRegs (S : Station) (f : DynInst → DynInst) (s : State) :
    (stampBound S f s).intRegs = s.intRegs := by unfold stampBound; split <;> rfl
@[simp] theorem stampBound_fpRegs (S : Station) (f : DynInst → DynInst) (s : State) :
    (stampBound S f s).fpRegs = s.fpRegs := by unfold stampBound; split <;> rfl
@[simp] theorem stampBound_stations (S : Station) (f : DynInst → DynInst) (s : State) :
    (stampBound S f s).stations = s.stations := by unfold stampBound; split <;> rfl
@[simp] theorem stampBound_cursor (S : Station) (f : DynInst → DynInst) (s : State) :
    (stampBound S f s).cursor = s.cursor := by unfold stampBound; split <;> rfl
@[simp] theorem stampBound_cycle (S : Station) (f : DynInst → DynInst) (s : State) :
    (stampBound S f s).cycle = s.cycle := by unfold stampBound; split <;> rfl
@[simp] theorem stampBound_branchPending (S : Station) (f : DynInst → DynInst) (s : State) :
    (stampBound S f s).branchPending = s.branchPending := by unfold stampBound; split <;> rfl
@[simp] theorem stampBound_cdbQueue (S : Station) (f : DynInst → DynInst) (s : State) :
    (stampBound S f s).cdbQueue = s.cdbQueue := by unfold stampBound; split <;> rfl
@[simp] theorem stampBound_fault (S : Station) (f : DynInst → DynInst) (s : State) :
    (stampBound S f s).fault = s.fault := by unfold stampBound; split <;> rfl
@[simp] theorem stampBound_mem (S : Station) (f : DynInst → DynInst) (s : State) :
    (stampBound S f s).mem = s.mem := by unfold stampBound; split <;> rfl
@[simp] theorem stampBound_lines (S : Station) (f : DynInst → DynInst) (s : State) :
    (stampBound S f s).lines = s.lines := by unfold stampBound; split <;> rfl
@[simp] theorem stampBound_hits (S : Station) (f : DynInst → DynInst) (s : State) :
    (stampBound S f s).hits = s.hits := by unfold stampBound; split <;> rfl
@[simp] theorem stampBound_misses (S : Station) (f : DynInst → DynInst) (s : State) :
    (stampBound S f s).misses = s.misses := by unfold stampBound; split <;> rfl
@[simp] theorem stampBound_lsb (S : Station) (f : DynInst → DynInst) (s : State) :
    (stampBound S f s).lsb = s.lsb := by unfold stampBound; split <;> rfl
@[simp] theorem stampBound_nextSeq (S : Station) (f : DynInst → DynInst) (s : State) :
    (stampBound S f s).nextSeq = s.nextSeq := by unfold stampBound; split <;> rfl

/-! ### tick -/

@[simp] theorem tick_cfg (s : State) : (tick s).cfg = s.cfg := rfl
@[simp] theorem tick_prog (s : State) : (tick s).prog = s.prog := rfl
@[simp] theorem tick_intRegs (s : State) : (tick s).intRegs = s.intRegs := rfl
@[simp] theorem tick_fpRegs (s : State) : (tick s).fpRegs = s.fpRegs := rfl
@[simp] theorem tick_stations (s : State) : (tick s).stations = s.stations := rfl
@[simp] theorem tick_cursor (s : State) : (tick s).cursor = s.cursor := rfl
@[simp] theorem tick_branchPending (s : State) : (tick s).branchPending = s.branchPending := rfl
@[simp] theorem tick_instances (s : State) : (tick s).instances = s.instances := rfl
@[simp] theorem tick_cdbQueue (s : State) : (tick s).cdbQueue = s.cdbQueue := rfl
@[simp] theorem tick_fault (s : State) : (tick s).fault = s.fault := rfl
@[simp] theorem tick_mem (s : State) : (tick s).mem = s.mem := rfl
@[simp] theorem tick_lines (s : State) : (tick s).lines = s.lines := rfl
@[simp] theorem tick_hits (s : State) : (tick s).hits = s.hits := rfl
@[simp] theorem tick_misses (s : State) : (tick s).misses = s.misses := rfl
@[simp] theorem tick_lsb (s : State) : (tick s).lsb = s.lsb := rfl
@[simp] theorem tick_nextSeq (s : State) : (tick s).nextSeq = s.nextSeq := rfl

/-! ### flush -/

@[simp] theorem flush_cfg (i : Nat) (s : State) : (flush i s).cfg = s.cfg := rfl
@[simp] theorem flush_prog (i : Nat) (s : State) : (flush i s).prog = s.prog := rfl
@[simp] theorem flush_intRegs (i : Nat) (s : State) : (flush i s).intRegs = s.intRegs := rfl
@[simp] theorem flush_fpRegs (i : Nat) (s : State) : (flush i s).fpRegs = s.fpRegs := rfl
@[simp] theorem flush_cursor (i : Nat) (s : State) : (flush i s).cursor = s.cursor := rfl
@[simp] theorem flush_cycle (i : Nat) (s : State) : (flush i s).cycle = s.cycle := rfl
@[simp] theorem flush_branchPending (i : Nat) (s : State) : (flush i s).branchPending = s.branchPending := rfl
@[simp] theorem flush_fault (i : Nat) (s : State) : (flush i s).fault = s.fault := rfl
@[simp] theorem flush_mem (i : Nat) (s : State) : (flush i s).mem = s.mem := rfl
@[simp] theorem flush_lines (i : Nat) (s : State) : (flush i s).lines = s.lines := rfl
@[simp] theorem flush_hits (i : Nat) (s : State) : (flush i s).hits = s.hits := rfl
@[simp] theorem flush_misses (i : Nat) (s : State) : (flush i s).misses = s.misses := rfl
@[simp] theorem flush_nextSeq (i : Nat) (s : State) : (flush i s).nextSeq = s.nextSeq := rfl

/-! ### settle -/

@[simp] theorem settle_cfg (i : Nat) (b : Bool) (t : I32) (s : State) :
    (settle i b t s).cfg = s.cfg := by cases b <;> rfl
@[simp] theorem settle_prog (i : Nat) (b : Bool) (t : I32) (s : State) :
    (settle i b t s).prog = s.prog := by cases b <;> rfl
@[simp] theorem settle_intRegs (i : Nat) (b : Bool) (t : I32) (s : State) :
    (settle i b t s).intRegs = s.intRegs := by cases b <;> rfl
@[simp] theorem settle_fpRegs (i : Nat) (b : Bool) (t : I32) (s : State) :
    (settle i b t s).fpRegs = s.fpRegs := by cases b <;> rfl
@[simp] theorem settle_cycle (i : Nat) (b : Bool) (t : I32) (s : State) :
    (settle i b t s).cycle = s.cycle := by cases b <;> rfl
@[simp] theorem settle_fault (i : Nat) (b : Bool) (t : I32) (s : State) :
    (settle i b t s).fault = s.fault := by cases b <;> rfl
@[simp] theorem settle_mem (i : Nat) (b : Bool) (t : I32) (s : State) :
    (settle i b t s).mem = s.mem := by cases b <;> rfl
@[simp] theorem settle_lines (i : Nat) (b : Bool) (t : I32) (s : State) :
    (settle i b t s).lines = s.lines := by cases b <;> rfl
@[simp] theorem settle_hits (i : Nat) (b : Bool) (t : I32) (s : State) :
    (settle i b t s).hits = s.hits := by cases b <;> rfl
@[simp] theorem settle_misses (i : Nat) (b : Bool) (t : I32) (s : State) :
    (settle i b t s).misses = s.misses := by cases b <;> rfl
@[simp] theorem settle_nextSeq (i : Nat) (b : Bool) (t : I32) (s : State) :
    (settle i b t s).nextSeq = s.nextSeq := by cases b <;> rfl

/-! ### broadcastCore -/

@[simp] theorem broadcastCore_cfg (q : Request) (s : State) :
    (broadcastCore q s).cfg = s.cfg := by simp [broadcastCore]
@[simp] theorem broadcastCore_prog (q : Request) (s : State) :
    (broadcastCore q s).prog = s.prog := by simp [broadcastCore]
@[simp] theorem broadcastCore_cursor (q : Request) (s : State) :
    (broadcastCore q s).cursor = s.cursor := by simp [broadcastCore]
@[simp] theorem broadcastCore_cycle (q : Request) (s : State) :
    (broadcastCore q s).cycle = s.cycle := by simp [broadcastCore]
@[simp] theorem broadcastCore_branchPending (q : Request) (s : State) :
    (broadcastCore q s).branchPending = s.branchPending := by simp [broadcastCore]
@[simp] theorem broadcastCore_cdbQueue (q : Request) (s : State) :
    (broadcastCore q s).cdbQueue = s.cdbQueue := by simp [broadcastCore]
@[simp] theorem broadcastCore_fault (q : Request) (s : State) :
    (broadcastCore q s).fault = s.fault := by simp [broadcastCore]
@[simp] theorem broadcastCore_mem (q : Request) (s : State) :
    (broadcastCore q s).mem = s.mem := by simp [broadcastCore]
@[simp] theorem broadcastCore_lines (q : Request) (s : State) :
    (broadcastCore q s).lines = s.lines := by simp [broadcastCore]
@[simp] theorem broadcastCore_hits (q : Request) (s : State) :
    (broadcastCore q s).hits = s.hits := by simp [broadcastCore]
@[simp] theorem broadcastCore_misses (q : Request) (s : State) :
    (broadcastCore q s).misses = s.misses := by simp [broadcastCore]
@[simp] theorem broadcastCore_lsb (q : Request) (s : State) :
    (broadcastCore q s).lsb = s.lsb := by simp [broadcastCore]
@[simp] theorem broadcastCore_nextSeq (q : Request) (s : State) :
    (broadcastCore q s).nextSeq = s.nextSeq := by simp [broadcastCore]
/-! ### What the updates write -/

@[simp] theorem updStation_stations (T : Tag) (f : Station → Station) (s : State) :
    (updStation T f s).stations = s.stations.map fun S => if S.name = T then f S else S := rfl

@[simp] theorem release_stations (T : Tag) (s : State) :
    (release T s).stations = s.stations.map fun S => if S.name = T then Station.free T else S := rfl

@[simp] theorem stamp_instances (i : Nat) (f : DynInst → DynInst) (s : State) :
    (stamp i f s).instances = s.instances.modify i f := rfl

@[simp] theorem enqueue_cdbQueue (T : Tag) (v : F64) (d : Option Reg) (o : OpCode) (s : State) :
    (enqueue T v d o s).cdbQueue = s.cdbQueue ++ [⟨T, v, d, o, s.cycle + 1⟩] := rfl

@[simp] theorem fill_stations (T : Tag) (o : OpCode) (d : Option Reg) (j : Reg) (k : Option Reg) (a : Option I32)
    (s : State) : (fill T o d j k a s).stations =
      s.stations.map fun S => if S.name = T then filledStation T o d j k a s.instances.length s else S := rfl

@[simp] theorem fill_instances (T : Tag) (o : OpCode) (d : Option Reg) (j : Reg) (k : Option Reg) (a : Option I32)
    (s : State) : (fill T o d j k a s).instances = s.instances ++ [newInstance o T s] := rfl

@[simp] theorem advance_cursor (s : State) : (advance s).cursor = s.cursor + 1 := rfl

@[simp] theorem blockIssue_branchPending (s : State) : (blockIssue s).branchPending = true := rfl

@[simp] theorem enterLsb_lsb (e : LsbEntry) (s : State) : (enterLsb e s).lsb = s.lsb ++ [e] := rfl

@[simp] theorem enterLsb_nextSeq (e : LsbEntry) (s : State) : (enterLsb e s).nextSeq = s.nextSeq + 1 := rfl

@[simp] theorem enterLsb_stations (e : LsbEntry) (s : State) : (enterLsb e s).stations =
    s.stations.map fun S => if S.name = e.station then { S with execStarted := true } else S := rfl

@[simp] theorem tick_cycle (s : State) : (tick s).cycle = s.cycle + 1 := rfl

@[simp] theorem forward_stations (T : Tag) (v : F64) (s : State) : (forward T v s).stations =
    s.stations.map fun S => if S.busy then forwardK T v s.cycle (forwardJ T v s.cycle S) else S := rfl

@[simp] theorem settle_branchPending (i : Nat) (b : Bool) (t : I32) (s : State) :
    (settle i b t s).branchPending = false := rfl

@[simp] theorem settle_cursor (i : Nat) (b : Bool) (t : I32) (s : State) :
    (settle i b t s).cursor = if b then t.toInt.toNat else s.cursor := by cases b <;> rfl

/-! ### Registers -/

@[simp] theorem reg_setReg_same (r : Reg) (c : RegCell) (s : State) : (s.setReg r c).reg r = c := by
  cases r <;> simp [State.setReg, State.reg]

theorem reg_setReg_ne {r r' : Reg} (h : r' ≠ r) (c : RegCell) (s : State) : (s.setReg r c).reg r' = s.reg r' := by
  cases r <;> cases r' <;> simp [State.setReg, State.reg] <;>
    exact Vector.getElem_set_ne _ _ (fun e => h (by simp [Fin.ext_iff, e]))

/-- A register is read from the two register files alone. -/
theorem reg_congr {s t : State} (hi : t.intRegs = s.intRegs) (hf : t.fpRegs = s.fpRegs) (r : Reg) :
    t.reg r = s.reg r := by cases r <;> simp [State.reg, hi, hf]

@[simp] theorem reg_setQi_same (r : Reg) (T : Tag) (s : State) :
    (setQi r T s).reg r = { s.reg r with qi := some T } := reg_setReg_same _ _ _

theorem reg_setQi_ne {r r' : Reg} (h : r' ≠ r) (T : Tag) (s : State) : (setQi r T s).reg r' = s.reg r' :=
  reg_setReg_ne h _ _

/-- The register write of a broadcast touches only its destination (R146). -/
theorem reg_regWrite_ne {T : Tag} {v : F64} {d : Option Reg} {r : Reg} (h : d ≠ some r) (s : State) :
    (regWrite T v d s).reg r = s.reg r := by
  cases d with
  | none => rfl
  | some d =>
    have hd : r ≠ d := fun e => h (by rw [e])
    unfold regWrite
    dsimp only
    split
    · exact reg_setReg_ne hd _ _
    · split
      · exact reg_setReg_ne hd _ _
      · rfl

/-! ### Stations -/

/-- An update by tag changes no name, if it is made by a function that keeps names. -/
theorem tags_updStation {T : Tag} {f : Station → Station} (hf : ∀ S : Station, S.name = T → (f S).name = T)
    (s : State) : (updStation T f s).tags = s.tags := by
  simp only [State.tags, updStation_stations, List.map_map]
  refine List.map_congr_left fun S _ => ?_
  simp only [Function.comp]
  split
  · next h => rw [hf S h, h]
  · rfl

@[simp] theorem tags_release (T : Tag) (s : State) : (release T s).tags = s.tags :=
  tags_updStation (T := T) (f := fun _ => Station.free T) (fun _ _ => rfl) s

theorem station?_updStation_same {T : Tag} {f : Station → Station} (hf : ∀ S : Station, S.name = T → (f S).name = T)
    (s : State) : (updStation T f s).station? T = (s.station? T).map f := by
  simp only [State.station?, updStation_stations, List.find?_map]
  induction s.stations with
  | nil => rfl
  | cons S l ih =>
    simp only [List.find?_cons, Function.comp]
    by_cases h : S.name = T
    · simp [h, hf S h]
    · have hb : (S.name == T) = false := by simpa using h
      simp only [h, if_false, hb]
      exact ih

theorem station?_updStation_ne {T U : Tag} {f : Station → Station} (h : U ≠ T)
    (hf : ∀ S : Station, S.name = T → (f S).name = T) (s : State) :
    (updStation T f s).station? U = s.station? U := by
  simp only [State.station?, updStation_stations]
  induction s.stations with
  | nil => rfl
  | cons S l ih =>
    simp only [List.map_cons, List.find?_cons]
    by_cases hS : S.name = T
    · have h1 : ((f S).name == U) = false := by
        rw [hf S hS]; simpa using Ne.symm h
      have h2 : (S.name == U) = false := by
        rw [hS]; simpa using Ne.symm h
      simp only [hS, if_true, h1]
      rw [show (T == U) = false from by simpa using Ne.symm h]
      exact ih
    · simp only [hS, if_false]
      cases S.name == U
      · exact ih
      · rfl

end Sys2Proof.Machine
end

