-- ==== Sys2Proof/Laws/Issue.lean ====
section
/-! SUPPORT. What issuing a record can answer, said once: the stall, the plain issue, and the issue with a handover. -/

namespace Sys2Proof.Machine

/-! ### Views that read few fields -/

/-- The coherent view is read from the configuration, the lines and ByteMemory alone. -/
theorem coherentByte_congr {s t : State} (hc : t.cfg = s.cfg) (hl : t.lines = s.lines) (hm : t.mem = s.mem) (x : Nat) :
    t.coherentByte x = s.coherentByte x := by
  unfold State.coherentByte State.isHit State.lineData
  rw [hc, hl, hm]

/-- Hits are read from the configuration and the lines alone. -/
theorem isHit_congr {s t : State} (hc : t.cfg = s.cfg) (hl : t.lines = s.lines) (x : Nat) : t.isHit x = s.isHit x := by
  unfold State.isHit
  rw [hc, hl]

theorem memRead_congr {s t : State} (h : ∀ x, t.coherentByte x = s.coherentByte x) (a n : Nat) :
    t.memRead a n = s.memRead a n := by
  simp only [State.memRead, h]

/-! ### Allocation (10_state.md R46) -/

theorem allocate_eq_none {k : Kind} {s : State} :
    allocate k s = none ↔ ∀ S ∈ s.stations, S.kind = k → S.busy = true := by
  simp [allocate, List.find?_eq_none]

theorem allocate_eq_some {k : Kind} {T : Tag} {s : State} :
    allocate k s = some T ↔ ∃ before S after, s.stations = before ++ S :: after ∧ S.name = T ∧ S.kind = k ∧
      S.busy = false ∧ ∀ P ∈ before, P.kind = k → P.busy = true := by
  simp only [allocate, Option.map_eq_some_iff, List.find?_eq_some_iff_append]
  constructor
  · rintro ⟨S, ⟨hp, before, after, hs, hb⟩, rfl⟩
    exact ⟨before, S, after, hs, rfl, by simp_all, by simp_all, fun P hP hk => by have := hb P hP; simp_all⟩
  · rintro ⟨before, S, after, hs, rfl, hk, hb, hf⟩
    exact ⟨S, ⟨by simp [hk, hb], before, after, hs, fun P hP => by by_cases e : P.kind = k <;> simp [e, hf P hP]⟩, rfl⟩

/-- An allocated station is in the pool, of its kind, and the name finds a station. -/
theorem mem_of_allocate {k : Kind} {T : Tag} {s : State} (h : allocate k s = some T) :
    ∃ S ∈ s.stations, S.name = T ∧ S.kind = k ∧ S.busy = false := by
  obtain ⟨b, S, a, hs, hn, hk, hb, -⟩ := allocate_eq_some.1 h
  exact ⟨S, by simp [hs], hn, hk, hb⟩

theorem kind_of_allocate {k : Kind} {T : Tag} {s : State} (h : allocate k s = some T) : T.kind = k := by
  obtain ⟨S, -, rfl, hk, -⟩ := mem_of_allocate h
  exact hk

/-! ### Finding a station by its name -/

theorem station?_name {s : State} {T : Tag} {S : Station} (h : s.station? T = some S) : S.name = T := by
  simpa using List.find?_some h

theorem station?_mem {s : State} {T : Tag} {S : Station} (h : s.station? T = some S) : S ∈ s.stations :=
  List.mem_of_find?_eq_some h

theorem station?_isSome {s : State} {T : Tag} (h : T ∈ s.tags) : ∃ S, s.station? T = some S := by
  obtain ⟨S, hS, rfl⟩ := List.mem_map.1 h
  cases hf : s.station? S.name with
  | some P => exact ⟨P, rfl⟩
  | none => exact absurd (List.find?_eq_none.1 hf S hS) (by simp)

/-- With distinct names a station of the pool is the one its name finds. -/
theorem station?_of_mem {s : State} (hn : s.tags.Nodup) {S : Station} (hS : S ∈ s.stations) :
    s.station? S.name = some S := by
  obtain ⟨P, hP⟩ := station?_isSome (List.mem_map.2 ⟨S, hS, rfl⟩)
  rw [hP, List.inj_on_of_nodup_map hn (station?_mem hP) hS (station?_name hP)]

/-! ### Capture and fill (40_cycle_engine.md R165, R166) -/

theorem capture_ready {r : Reg} {s : State} (h : (s.reg r).qi = none) : capture r s = (some (s.reg r).value, none) := by
  simp [capture, h]

theorem capture_pending {r : Reg} {s : State} {U : Tag} (h : (s.reg r).qi = some U) : capture r s = (none, some U) := by
  simp [capture, h]

/-- The freshly filled station is found by its name. -/
theorem station?_fill {T : Tag} {o : OpCode} {dest : Option Reg} {j : Reg} {k : Option Reg} {a : Option I32} {s : State}
    (h : T ∈ s.tags) : (rename dest T (fill T o dest j k a s)).station? T =
      some (filledStation T o dest j k a s.instances.length s) := by
  obtain ⟨S, hS⟩ := station?_isSome h
  have : (fill T o dest j k a s).station? T = (updStation T
      (fun _ => filledStation T o dest j k a s.instances.length s) s).station? T := rfl
  cases dest <;> simp only [rename, State.station?, setQi_stations] <;>
    exact this.trans (by rw [station?_updStation_same (T := T) (fun _ _ => rfl) s, hS]; rfl)

theorem tags_of_allocate {k : Kind} {T : Tag} {s : State} (h : allocate k s = some T) : T ∈ s.tags := by
  obtain ⟨S, hS, rfl, -⟩ := mem_of_allocate h
  exact List.mem_map.2 ⟨S, hS, rfl⟩

/-! ### Issue (40_cycle_engine.md R164–R171) -/

/-- The state right after capture and rename. -/
def captured (T : Tag) (o : OpCode) (dest : Option Reg) (j : Reg) (k : Option Reg) (a : Option I32) (s : State) :
    State := rename dest T (fill T o dest j k a s)

theorem issueRecord_stall {o : OpCode} {dest : Option Reg} {j : Reg} {k : Option Reg} {a : Option I32} {s : State}
    (h : s.branchPending = true ∨ allocate (opKind o) s = none ∨
      (kindIsMem (opKind o) = true ∧ s.cfg.lsbMax ≤ s.lsb.length)) : issueRecord o dest j k a s = .next s := by
  unfold issueRecord
  split
  · rfl
  · next hb =>
    split
    · rfl
    · next T hT => simp_all [State.lsbFull]

/-- A compute op that finds its station issues. -/
theorem issueRecord_compute {o : OpCode} {dest : Option Reg} {j : Reg} {k : Option Reg} {a : Option I32} {s : State}
    {T : Tag} (hb : s.branchPending = false) (hT : allocate (opKind o) s = some T)
    (hk : kindIsMem (opKind o) = false) :
    issueRecord o dest j k a s = .next (advance
      (if opKind o = .branch then blockIssue (captured T o dest j k a s) else captured T o dest j k a s)) := by
  simp only [issueRecord, hb, hT, hk, finishIssue, captured, Bool.false_and, Bool.false_eq_true, if_false]
  split <;> rfl

/-- A memory op whose station is not ready issues and waits. -/
theorem issueRecord_wait {o : OpCode} {dest : Option Reg} {j : Reg} {k : Option Reg} {a : Option I32} {s : State}
    {T : Tag} (hb : s.branchPending = false) (hT : allocate (opKind o) s = some T)
    (hk : kindIsMem (opKind o) = true) (hl : s.lsb.length < s.cfg.lsbMax)
    (hr : (filledStation T o dest j k a s.instances.length s).ready = false) :
    issueRecord o dest j k a s = .next (advance (captured T o dest j k a s)) := by
  have hne : opKind o ≠ .branch := by intro e; rw [e] at hk; cases hk
  simp only [issueRecord, hb, hT, hk, finishIssue, State.lsbFull, captured, State.readyAt,
    station?_fill (tags_of_allocate hT), hr]
  simp [hne, Nat.not_le.2 hl]

/-- A memory op whose station is ready issues and is handed over. -/
theorem issueRecord_handover {o : OpCode} {dest : Option Reg} {j : Reg} {k : Option Reg} {a : Option I32} {s : State}
    {T : Tag} (hb : s.branchPending = false) (hT : allocate (opKind o) s = some T)
    (hk : kindIsMem (opKind o) = true) (hl : s.lsb.length < s.cfg.lsbMax)
    (hr : (filledStation T o dest j k a s.instances.length s).ready = true) :
    issueRecord o dest j k a s =
      match handover T (captured T o dest j k a s) with
      | .ok s' => .next (advance s')
      | .error (.fatal s') => .next s'
      | .error (.refuse r) => .refused r := by
  simp only [issueRecord, hb, hT, hk, finishIssue, State.lsbFull, captured, State.readyAt,
    station?_fill (tags_of_allocate hT), hr]
  simp [Nat.not_le.2 hl] <;> rfl

/-- Everything an issue can answer. -/
theorem issueRecord_cases (o : OpCode) (dest : Option Reg) (j : Reg) (k : Option Reg) (a : Option I32) (s : State) :
    issueRecord o dest j k a s = .next s ∨
    ∃ T, s.branchPending = false ∧ allocate (opKind o) s = some T ∧
      ((kindIsMem (opKind o) = false ∧ issueRecord o dest j k a s = .next (advance
          (if opKind o = .branch then blockIssue (captured T o dest j k a s) else captured T o dest j k a s))) ∨
       (kindIsMem (opKind o) = true ∧ s.lsb.length < s.cfg.lsbMax ∧
          (filledStation T o dest j k a s.instances.length s).ready = false ∧
          issueRecord o dest j k a s = .next (advance (captured T o dest j k a s))) ∨
       (kindIsMem (opKind o) = true ∧ s.lsb.length < s.cfg.lsbMax ∧
          (filledStation T o dest j k a s.instances.length s).ready = true ∧
          issueRecord o dest j k a s =
            match handover T (captured T o dest j k a s) with
            | .ok s' => .next (advance s')
            | .error (.fatal s') => .next s'
            | .error (.refuse r) => .refused r)) := by
  cases hb : s.branchPending with
  | true => exact .inl (issueRecord_stall (.inl hb))
  | false =>
    cases hT : allocate (opKind o) s with
    | none => exact .inl (issueRecord_stall (.inr (.inl hT)))
    | some T =>
      cases hk : kindIsMem (opKind o) with
      | false => exact .inr ⟨T, rfl, rfl, .inl ⟨rfl, issueRecord_compute hb hT hk⟩⟩
      | true =>
        by_cases hl : s.lsb.length < s.cfg.lsbMax
        · cases hr : (filledStation T o dest j k a s.instances.length s).ready with
          | false => exact .inr ⟨T, rfl, rfl, .inr (.inl ⟨rfl, hl, hr, issueRecord_wait hb hT hk hl hr⟩)⟩
          | true => exact .inr ⟨T, rfl, rfl, .inr (.inr ⟨rfl, hl, hr, issueRecord_handover hb hT hk hl hr⟩)⟩
        · exact .inl (issueRecord_stall (.inr (.inr ⟨hk, Nat.not_lt.1 hl⟩)))

/-! ### The captured state -/

@[simp] theorem captured_cfg (T : Tag) (o : OpCode) (d : Option Reg) (j : Reg) (k : Option Reg) (a : Option I32)
    (s : State) : (captured T o d j k a s).cfg = s.cfg := by simp [captured]

@[simp] theorem captured_prog (T : Tag) (o : OpCode) (d : Option Reg) (j : Reg) (k : Option Reg) (a : Option I32)
    (s : State) : (captured T o d j k a s).prog = s.prog := by simp [captured]

@[simp] theorem captured_stations (T : Tag) (o : OpCode) (d : Option Reg) (j : Reg) (k : Option Reg) (a : Option I32)
    (s : State) : (captured T o d j k a s).stations =
      s.stations.map fun S => if S.name = T then filledStation T o d j k a s.instances.length s else S := by
  simp [captured]

@[simp] theorem captured_cursor (T : Tag) (o : OpCode) (d : Option Reg) (j : Reg) (k : Option Reg) (a : Option I32)
    (s : State) : (captured T o d j k a s).cursor = s.cursor := by simp [captured]

@[simp] theorem captured_cycle (T : Tag) (o : OpCode) (d : Option Reg) (j : Reg) (k : Option Reg) (a : Option I32)
    (s : State) : (captured T o d j k a s).cycle = s.cycle := by simp [captured]

@[simp] theorem captured_branchPending (T : Tag) (o : OpCode) (d : Option Reg) (j : Reg) (k : Option Reg)
    (a : Option I32) (s : State) : (captured T o d j k a s).branchPending = s.branchPending := by simp [captured]

@[simp] theorem captured_instances (T : Tag) (o : OpCode) (d : Option Reg) (j : Reg) (k : Option Reg) (a : Option I32)
    (s : State) : (captured T o d j k a s).instances = s.instances ++ [newInstance o T s] := by simp [captured]

@[simp] theorem captured_cdbQueue (T : Tag) (o : OpCode) (d : Option Reg) (j : Reg) (k : Option Reg) (a : Option I32)
    (s : State) : (captured T o d j k a s).cdbQueue = s.cdbQueue := by simp [captured]

@[simp] theorem captured_fault (T : Tag) (o : OpCode) (d : Option Reg) (j : Reg) (k : Option Reg) (a : Option I32)
    (s : State) : (captured T o d j k a s).fault = s.fault := by simp [captured]

@[simp] theorem captured_mem (T : Tag) (o : OpCode) (d : Option Reg) (j : Reg) (k : Option Reg) (a : Option I32)
    (s : State) : (captured T o d j k a s).mem = s.mem := by simp [captured]

@[simp] theorem captured_lines (T : Tag) (o : OpCode) (d : Option Reg) (j : Reg) (k : Option Reg) (a : Option I32)
    (s : State) : (captured T o d j k a s).lines = s.lines := by simp [captured]

@[simp] theorem captured_hits (T : Tag) (o : OpCode) (d : Option Reg) (j : Reg) (k : Option Reg) (a : Option I32)
    (s : State) : (captured T o d j k a s).hits = s.hits := by simp [captured]

@[simp] theorem captured_misses (T : Tag) (o : OpCode) (d : Option Reg) (j : Reg) (k : Option Reg) (a : Option I32)
    (s : State) : (captured T o d j k a s).misses = s.misses := by simp [captured]

@[simp] theorem captured_lsb (T : Tag) (o : OpCode) (d : Option Reg) (j : Reg) (k : Option Reg) (a : Option I32)
    (s : State) : (captured T o d j k a s).lsb = s.lsb := by simp [captured]

@[simp] theorem captured_nextSeq (T : Tag) (o : OpCode) (d : Option Reg) (j : Reg) (k : Option Reg) (a : Option I32)
    (s : State) : (captured T o d j k a s).nextSeq = s.nextSeq := by simp [captured]

/-- The destination of the record is renamed to its station (R168). -/
theorem reg_captured_dest {T : Tag} {o : OpCode} {d : Reg} {j : Reg} {k : Option Reg} {a : Option I32} (s : State) :
    (captured T o (some d) j k a s).reg d = ⟨(s.reg d).value, some T⟩ := by
  simp only [captured, rename, reg_setQi_same]
  rfl

/-- Every other register is as it was. -/
theorem reg_captured_ne {T : Tag} {o : OpCode} {d : Option Reg} {r j : Reg} {k : Option Reg} {a : Option I32}
    (h : d ≠ some r) (s : State) : (captured T o d j k a s).reg r = s.reg r := by
  cases d with
  | none => rfl
  | some d =>
    simp only [captured, rename]
    rw [reg_setQi_ne fun e => h (by rw [e])]
    rfl

/-! ### Handover (20_memory.md R102) -/

theorem checkAddress_ok {ea : Int} {n : Nat} {s : State} (h : 0 ≤ ea ∧ ea + n ≤ 2 ^ 20 ∧ ea % 4 = 0) :
    checkAddress ea n s = .ok ea.toNat := by
  have : (memSize : Int) = 2 ^ 20 := rfl
  simp only [checkAddress, this]
  rw [if_neg (by omega), if_neg (by omega)]

theorem checkAddress_bad {ea : Int} {n : Nat} {s : State} (h : ¬(0 ≤ ea ∧ ea + n ≤ 2 ^ 20 ∧ ea % 4 = 0)) :
    checkAddress ea n s = .error (raise (if ea < 0 ∨ 2 ^ 20 < ea + n then .badAddress ea else .misaligned ea) s) := by
  have : (memSize : Int) = 2 ^ 20 := rfl
  simp only [checkAddress, this]
  split
  · rfl
  · rw [if_pos (by omega)]

theorem checkAddress_eq_ok {ea : Int} {n a : Nat} {s : State} (h : checkAddress ea n s = .ok a) :
    (a : Int) = ea ∧ a % 4 = 0 ∧ a + n ≤ memSize := by
  unfold checkAddress at h
  split at h
  · cases h
  · split at h
    · cases h
    · cases h; omega

/-- The handover of a station with its base ready and its address good. -/
theorem handover_ok {T : Tag} {s : State} {S : Station} {o : OpCode} {base : F64} {off : I32} {inst : Nat} {b : Int}
    {data : Option (List Byte)} (hS : s.station? T = some S) (ho : S.op = some o) (hv : S.vj = some base)
    (ha : S.a = some off) (hi : S.instruction = some inst) (hb : F64.toInt? base = some b)
    (hea : 0 ≤ b + off.toInt ∧ b + off.toInt + opSize o ≤ 2 ^ 20 ∧ (b + off.toInt) % 4 = 0)
    (hd : storeData S o inst s = .ok data) (hn : s.nextSeq + 1 < 2 ^ 32) :
    handover T s = .ok (enterLsb (lsbEntry S o (b + off.toInt).toNat inst data s) s) := by
  simp [handover, hS, ho, hv, ha, hi, hb, effectiveAddress, checkAddress_ok hea, hd]
  omega

/-- A failing check of the handover raises its error. -/
theorem handover_bad {T : Tag} {s : State} {S : Station} {o : OpCode} {base : F64} {off : I32} {inst : Nat} {b : Int}
    (hS : s.station? T = some S) (ho : S.op = some o) (hv : S.vj = some base)
    (ha : S.a = some off) (hi : S.instruction = some inst) (hb : F64.toInt? base = some b)
    (hea : ¬(0 ≤ b + off.toInt ∧ b + off.toInt + opSize o ≤ 2 ^ 20 ∧ (b + off.toInt) % 4 = 0)) :
    handover T s = .error (raise (if b + off.toInt < 0 ∨ 2 ^ 20 < b + off.toInt + opSize o
      then .badAddress (b + off.toInt) else .misaligned (b + off.toInt)) s) := by
  simp [handover, hS, ho, hv, ha, hi, hb, effectiveAddress, checkAddress_bad hea]

/-- Data that the op cannot store fails the handover, after the address checks. -/
theorem handover_unstorable {T : Tag} {s : State} {S : Station} {o : OpCode} {base : F64} {off : I32} {inst : Nat}
    {b : Int} {x : Stop} (hS : s.station? T = some S) (ho : S.op = some o) (hv : S.vj = some base)
    (ha : S.a = some off) (hi : S.instruction = some inst) (hb : F64.toInt? base = some b)
    (hea : 0 ≤ b + off.toInt ∧ b + off.toInt + opSize o ≤ 2 ^ 20 ∧ (b + off.toInt) % 4 = 0)
    (hd : storeData S o inst s = .error x) : handover T s = .error x := by
  simp [handover, hS, ho, hv, ha, hi, hb, effectiveAddress, checkAddress_ok hea, hd]

/-- Everything a handover can answer. -/
theorem handover_cases {T : Tag} {s : State} {c : Cyc} (h : handover T s = c) :
    (∃ r, c = .error (.refuse r)) ∨ (∃ f, (∀ r, f ≠ .registerBusy r) ∧ c = .error (raise f s)) ∨
    ∃ S o base off inst b, ∃ ea : Nat, ∃ data, s.station? T = some S ∧ S.op = some o ∧ S.vj = some base ∧ S.a = some off ∧
      S.instruction = some inst ∧ F64.toInt? base = some b ∧ b + off.toInt = (ea : Int) ∧ ea % 4 = 0 ∧
      ea + opSize o ≤ memSize ∧ storeData S o inst s = .ok data ∧ s.nextSeq + 1 < 2 ^ 32 ∧
      c = .ok (enterLsb (lsbEntry S o ea inst data s) s) := by
  subst h
  unfold handover
  split
  · exact .inl ⟨_, rfl⟩
  · next S hS =>
    split
    · next o base off inst ho hv ha hi =>
      split
      · exact .inl ⟨_, rfl⟩
      · next b hb =>
        split
        · next e he =>
          unfold checkAddress at he
          split at he
          · cases he; exact .inr (.inl ⟨_, by simp, rfl⟩)
          · split at he
            · cases he; exact .inr (.inl ⟨_, by simp, rfl⟩)
            · cases he
        · next ea hea =>
          split
          · next e he =>
            unfold storeData at he
            split at he
            · split at he
              · split at he
                · cases he
                · cases he; exact .inr (.inl ⟨_, by simp, rfl⟩)
              · cases he; exact .inl ⟨_, rfl⟩
            · cases he
          · next data hd =>
            have := checkAddress_eq_ok hea
            split
            · next hn =>
              exact .inr (.inr ⟨S, o, base, off, inst, b, ea, data, hS, ho, hv, ha, hi, hb, this.1.symm, this.2.1, this.2.2, hd,
                hn, rfl⟩)
            · exact .inl ⟨_, rfl⟩
    · exact .inl ⟨_, rfl⟩

end Sys2Proof.Machine
end

