-- ==== Sys2Proof/Laws/Memory.lean ====
section
/-! SUPPORT. ByteMemory: read after write, and that every write keeps the canonical form. -/

namespace Sys2Proof.Machine

/-- Every listed address of `m` is above `x`. -/
abbrev Memory.above (x : Nat) (m : Memory) : Prop := ∀ c ∈ m, x < c.1

theorem Memory.read_of_above {x : Nat} {m : Memory} (h : Memory.above x m) : m.read x = 0 := by
  induction m with
  | nil => rfl
  | cons c m ih =>
    have hc := h c (by simp)
    simp only [Memory.read]
    rw [if_neg (by omega)]
    exact ih fun d hd => h d (by simp [hd])

theorem Memory.read_write_same {m : Memory} (x : Nat) (v : Byte) (h : m.Pairwise fun c d => c.1 < d.1) :
    (m.write x v).read x = v := by
  induction m with
  | nil =>
    simp only [Memory.write]
    split
    · next hv => rw [hv]; rfl
    · simp [Memory.read]
  | cons c m ih =>
    obtain ⟨a, b⟩ := c
    have ha : Memory.above a m := fun d hd => (List.pairwise_cons.1 h).1 d hd
    simp only [Memory.write]
    split
    · next hxa =>
      split
      · next hv =>
        have : Memory.above x ((a, b) :: m) := by
          intro d hd
          rcases List.mem_cons.1 hd with rfl | hd
          · exact hxa
          · exact Nat.lt_trans hxa (ha d hd)
        rw [hv, Memory.read_of_above this]
      · simp [Memory.read]
    · split
      · next hxa =>
        subst hxa
        split
        · next hv => rw [hv, Memory.read_of_above ha]
        · simp [Memory.read]
      · next h1 h2 =>
        simp only [Memory.read]
        rw [if_neg (Ne.symm h2)]
        exact ih (List.pairwise_cons.1 h).2

theorem Memory.read_write_ne {m : Memory} {x y : Nat} (hxy : y ≠ x) (v : Byte) :
    (m.write x v).read y = m.read y := by
  induction m with
  | nil =>
    simp only [Memory.write]
    split
    · rfl
    · simp [Memory.read, hxy.symm]
  | cons c m ih =>
    obtain ⟨a, b⟩ := c
    simp only [Memory.write]
    split
    · split
      · rfl
      · simp [Memory.read, hxy.symm]
    · split
      · next hxa =>
        subst hxa
        split
        · simp [Memory.read, hxy.symm]
        · simp [Memory.read, hxy.symm]
      · simp only [Memory.read]
        rw [ih]

theorem Memory.mem_write {m : Memory} {x : Nat} {v : Byte} {c : Host.Cell} (h : c ∈ m.write x v) :
    c ∈ m ∨ (c = (x, v) ∧ v ≠ 0) := by
  induction m with
  | nil =>
    simp only [Memory.write] at h
    split at h
    · simp at h
    · next hv => exact .inr ⟨by simpa using h, hv⟩
  | cons d m ih =>
    obtain ⟨a, b⟩ := d
    simp only [Memory.write] at h
    split at h
    · split at h
      · exact .inl h
      · next hv =>
        rcases List.mem_cons.1 h with h | h
        · exact .inr ⟨h, hv⟩
        · exact .inl h
    · split at h
      · split at h
        · exact .inl (List.mem_cons_of_mem _ h)
        · next hv =>
          rcases List.mem_cons.1 h with h | h
          · exact .inr ⟨h, hv⟩
          · exact .inl (List.mem_cons_of_mem _ h)
      · rcases List.mem_cons.1 h with h | h
        · exact .inl (h ▸ List.mem_cons_self ..)
        · rcases ih h with h | h
          · exact .inl (List.mem_cons_of_mem _ h)
          · exact .inr h

theorem Memory.sorted_write {m : Memory} (x : Nat) (v : Byte) (h : m.Pairwise fun c d => c.1 < d.1) :
    (m.write x v).Pairwise fun c d => c.1 < d.1 := by
  induction m with
  | nil => simp only [Memory.write]; split <;> simp
  | cons c m ih =>
    obtain ⟨a, b⟩ := c
    obtain ⟨h1, h2⟩ := List.pairwise_cons.1 h
    simp only [Memory.write]
    split
    · next hxa =>
      split
      · exact h
      · refine List.pairwise_cons.2 ⟨fun d hd => ?_, h⟩
        rcases List.mem_cons.1 hd with rfl | hd
        · exact hxa
        · exact Nat.lt_trans hxa (h1 d hd)
    · next hxa =>
      split
      · next he =>
        split
        · exact h2
        · exact List.pairwise_cons.2 ⟨fun d hd => he ▸ h1 d hd, h2⟩
      · next hne =>
        refine List.pairwise_cons.2 ⟨fun d hd => ?_, ih h2⟩
        rcases Memory.mem_write hd with hd | ⟨rfl, -⟩
        · exact h1 d hd
        · show a < x
          omega

/-- A write inside memory keeps the canonical form. -/
theorem Memory.wf_write {m : Memory} {x : Nat} (v : Byte) (hx : x < memSize) (h : m.wf) : (m.write x v).wf := by
  refine ⟨Memory.sorted_write x v h.1, fun c hc => ?_⟩
  rcases Memory.mem_write hc with hc | ⟨rfl, hv⟩
  · exact h.2 c hc
  · exact ⟨hv, hx⟩

/-- A block write inside memory keeps the canonical form. -/
theorem Memory.wf_writeBytes {m : Memory} {a : Nat} {bs : List Byte} (ha : a + bs.length ≤ memSize) (h : m.wf) :
    (m.writeBytes a bs).wf := by
  induction bs generalizing m a with
  | nil => exact h
  | cons b bs ih =>
    simp only [List.length_cons] at ha
    exact ih (by omega) (Memory.wf_write b (by omega) h)

/-- A block write changes no byte outside the block. -/
theorem Memory.read_writeBytes_outside {m : Memory} {a x : Nat} {bs : List Byte} (hx : x < a ∨ a + bs.length ≤ x) :
    (m.writeBytes a bs).read x = m.read x := by
  induction bs generalizing m a with
  | nil => rfl
  | cons b bs ih =>
    simp only [List.length_cons] at hx
    simp only [Memory.writeBytes]
    rw [ih (by omega), Memory.read_write_ne (by omega)]

/-- A block write puts each byte of the block in its place. -/
theorem Memory.read_writeBytes_inside {m : Memory} {a x : Nat} {bs : List Byte} (h : m.Pairwise fun c d => c.1 < d.1)
    (h1 : a ≤ x) (h2 : x < a + bs.length) : (m.writeBytes a bs).read x = bs.getD (x - a) 0 := by
  induction bs generalizing m a with
  | nil => simp at h2; omega
  | cons b bs ih =>
    simp only [List.length_cons] at h2
    simp only [Memory.writeBytes]
    rcases Nat.eq_or_lt_of_le h1 with rfl | hlt
    · rw [Memory.read_writeBytes_outside (by omega), Memory.read_write_same _ _ h]
      simp
    · rw [ih (Memory.sorted_write a b h) (by omega) (by omega)]
      obtain ⟨k, rfl⟩ : ∃ k, x = a + 1 + k := ⟨x - (a + 1), by omega⟩
      rw [show a + 1 + k - (a + 1) = k by omega, show a + 1 + k - a = k + 1 by omega]
      simp

@[simp] theorem Memory.length_readBytes (m : Memory) (a n : Nat) : (m.readBytes a n).length = n := by
  simp [Memory.readBytes]

@[simp] theorem length_beBytes (n u : Nat) : (beBytes n u).length = n := by
  induction n generalizing u with
  | zero => rfl
  | succ n ih => simp [beBytes, ih]

/-- The reset memory is canonical. -/
theorem Memory.wf_nil : Memory.wf [] := ⟨List.Pairwise.nil, fun _ h => nomatch h⟩

end Sys2Proof.Machine
end

