-- ==== Sys2Proof/Laws/Cache.lean ====
section
/-! SUPPORT. The cache in a well-formed memory system: address arithmetic, and what making a line hold a block does and
leaves alone (20_memory.md R82–R93). -/

namespace Sys2Proof.Machine

/-! ### Address arithmetic (R84) -/

/-- The block size divides memory. -/
theorem blockSize_dvd {b : Nat} (h : blockSizeOk b = true) : 4 ≤ b ∧ b ∣ memSize ∧ 4 ∣ b := by
  simp only [blockSizeOk, Bool.and_eq_true, decide_eq_true_eq, beq_iff_eq] at h
  obtain ⟨⟨h4, hm⟩, hp⟩ := h
  have hk : Nat.log2 b ≤ 20 := by
    by_contra hk
    have : 2 ^ 21 ≤ 2 ^ Nat.log2 b := Nat.pow_le_pow_right (by omega) (by omega)
    have : memSize = 2 ^ 20 := rfl
    omega
  have h2 : 2 ≤ Nat.log2 b := by
    by_contra hk
    have : 2 ^ Nat.log2 b ≤ 2 ^ 1 := Nat.pow_le_pow_right (by omega) (by omega)
    omega
  refine ⟨h4, ?_, ?_⟩
  · rw [hp]; exact Nat.pow_dvd_pow 2 hk
  · rw [hp]; exact Nat.pow_dvd_pow 2 h2

theorem indexOf_lt {c : Config} (h : 0 < numLines c) (a : Nat) : indexOf c a < numLines c := Nat.mod_lt _ h

/-- Tag and index make the block number. -/
theorem tag_index (c : Config) (a : Nat) : tagOf c a * numLines c + indexOf c a = a / c.blockSize := by
  simp only [tagOf, indexOf, Nat.mul_comm _ (numLines c)]
  exact Nat.div_add_mod _ _

/-- The block an address lies in starts here. -/
theorem blockStart_of_holds {c : Config} {a : Nat} {L : CacheLine} (h : L.tag = tagOf c a) :
    blockStart c (indexOf c a) L = a / c.blockSize * c.blockSize := by
  simp only [blockStart, h, tag_index]

/-- An address is its block's start and its offset. -/
theorem start_add_offset (c : Config) (a : Nat) : a / c.blockSize * c.blockSize + offsetOf c a = a := by
  rw [Nat.mul_comm]
  exact Nat.div_add_mod _ _

/-- The address at offset `o` of the block of line `i` with tag of `L`. -/
theorem fields_of_block {c : Config} {i o : Nat} {L : CacheLine} (hb : 0 < c.blockSize) (hi : i < numLines c)
    (ho : o < c.blockSize) : indexOf c (blockStart c i L + o) = i ∧ tagOf c (blockStart c i L + o) = L.tag ∧
      offsetOf c (blockStart c i L + o) = o := by
  have hd : (blockStart c i L + o) / c.blockSize = L.tag * numLines c + i := by
    rw [blockStart, Nat.mul_comm _ c.blockSize, Nat.mul_add_div hb, Nat.div_eq_of_lt ho, Nat.add_zero]
  have hn : 0 < numLines c := by omega
  refine ⟨?_, ?_, ?_⟩
  · rw [indexOf, hd, Nat.mul_comm, Nat.mul_add_mod, Nat.mod_eq_of_lt hi]
  · rw [tagOf, hd, Nat.mul_comm, Nat.mul_add_div hn, Nat.div_eq_of_lt hi, Nat.add_zero]
  · rw [offsetOf, blockStart, Nat.mul_comm, Nat.mul_add_mod, Nat.mod_eq_of_lt ho]

/-- An address inside the block of line `i` has that line's index and its tag. -/
theorem fields_of_mem_block {c : Config} {i x : Nat} {L : CacheLine} (hb : 0 < c.blockSize) (hi : i < numLines c)
    (h1 : blockStart c i L ≤ x) (h2 : x < blockStart c i L + c.blockSize) :
    indexOf c x = i ∧ tagOf c x = L.tag ∧ x = blockStart c i L + offsetOf c x := by
  have := fields_of_block (L := L) (o := x - blockStart c i L) hb hi (by omega)
  rw [Nat.add_sub_cancel' h1] at this
  exact ⟨this.1, this.2.1, by omega⟩

/-- The block of an address inside memory lies inside memory. -/
theorem block_inside {b a : Nat} (hb : blockSizeOk b = true) (ha : a < memSize) : a / b * b + b ≤ memSize := by
  obtain ⟨h4, ⟨k, hk⟩, -⟩ := blockSize_dvd hb
  have : a / b < k := Nat.div_lt_of_lt_mul (hk ▸ ha)
  rw [hk, ← Nat.succ_mul, Nat.mul_comm b k]
  exact Nat.mul_le_mul_right b this

/-- A byte of a block read from memory. -/
theorem getD_readBytes {m : Memory} {a n o : Nat} (h : o < n) : (m.readBytes a n).getD o 0 = m.read (a + o) := by
  simp [Memory.readBytes, List.getD, h]

theorem getD_take {α : Type} {l : List α} {n i : Nat} {d : α} (h : i < n) : (l.take n).getD i d = l.getD i d := by
  simp [List.getD, h]

theorem getD_drop {α : Type} {l : List α} {n i : Nat} {d : α} : (l.drop n).getD i d = l.getD (n + i) d := by
  simp [List.getD, List.getElem?_drop]

/-! ### What the cache operations change -/

/-- Nothing but ByteMemory, the lines and the counters differs. -/
def OnlyCache (s t : State) : Prop :=
  t = { s with mem := t.mem, lines := t.lines, hits := t.hits, misses := t.misses }

theorem OnlyCache.refl (s : State) : OnlyCache s s := rfl

theorem OnlyCache.trans {s t u : State} (h : OnlyCache s t) (h' : OnlyCache t u) : OnlyCache s u := by
  unfold OnlyCache at *
  rw [h] at h'
  exact h'

theorem OnlyCache.cfg {s t : State} (h : OnlyCache s t) : t.cfg = s.cfg := by rw [h]
theorem OnlyCache.prog {s t : State} (h : OnlyCache s t) : t.prog = s.prog := by rw [h]
theorem OnlyCache.intRegs {s t : State} (h : OnlyCache s t) : t.intRegs = s.intRegs := by rw [h]
theorem OnlyCache.fpRegs {s t : State} (h : OnlyCache s t) : t.fpRegs = s.fpRegs := by rw [h]
theorem OnlyCache.stations {s t : State} (h : OnlyCache s t) : t.stations = s.stations := by rw [h]
theorem OnlyCache.cursor {s t : State} (h : OnlyCache s t) : t.cursor = s.cursor := by rw [h]
theorem OnlyCache.cycle {s t : State} (h : OnlyCache s t) : t.cycle = s.cycle := by rw [h]
theorem OnlyCache.branchPending {s t : State} (h : OnlyCache s t) : t.branchPending = s.branchPending := by rw [h]
theorem OnlyCache.instances {s t : State} (h : OnlyCache s t) : t.instances = s.instances := by rw [h]
theorem OnlyCache.cdbQueue {s t : State} (h : OnlyCache s t) : t.cdbQueue = s.cdbQueue := by rw [h]
theorem OnlyCache.fault {s t : State} (h : OnlyCache s t) : t.fault = s.fault := by rw [h]
theorem OnlyCache.lsb {s t : State} (h : OnlyCache s t) : t.lsb = s.lsb := by rw [h]
theorem OnlyCache.nextSeq {s t : State} (h : OnlyCache s t) : t.nextSeq = s.nextSeq := by rw [h]

theorem OnlyCache.reg {s t : State} (h : OnlyCache s t) (r : Reg) : t.reg r = s.reg r :=
  reg_congr h.intRegs h.fpRegs r

/-- The memory system stays well-formed when only the cache changes and its own clauses hold again. -/
theorem OnlyCache.shaped {s t : State} (h : OnlyCache s t) (hs : Shaped s) (hl : t.lines.length = numLines s.cfg)
    (hline : ∀ i L, t.lines[i]? = some L → LineOk t i L) (hm : t.mem.wf) : Shaped t where
  block := by rw [h.cfg]; exact hs.block
  someLine := by rw [h.cfg]; exact hs.someLine
  lineCount := by rw [h.cfg]; exact hl
  line := hline
  memory := hm
  stationOp := by rw [h.stations]; exact hs.stationOp
  entry := by rw [h.lsb]; exact hs.entry
  order := by rw [h.lsb]; exact hs.order
  seqBelow := by rw [h.lsb, h.nextSeq]; exact hs.seqBelow
  seqMax := by rw [h.nextSeq]; exact hs.seqMax
  capacity := by rw [h.lsb, h.cfg]; exact hs.capacity

/-! ### Reading one byte -/

/-- Every index has its line. -/
theorem Shaped.line_at {s : State} (hs : Shaped s) (a : Nat) : ∃ L, s.lines[indexOf s.cfg a]? = some L := by
  have := indexOf_lt hs.someLine a
  rw [← hs.lineCount] at this
  exact ⟨_, List.getElem?_eq_getElem this⟩

theorem coherentByte_of_holds {s : State} {x : Nat} {L : CacheLine} (hL : s.lines[indexOf s.cfg x]? = some L)
    (h : L.holds s.cfg x = true) : s.coherentByte x = L.data.getD (offsetOf s.cfg x) 0 := by
  simp [State.coherentByte, State.isHit, State.lineData, hL, h]

theorem coherentByte_of_not_holds {s : State} {x : Nat} {L : CacheLine} (hL : s.lines[indexOf s.cfg x]? = some L)
    (h : L.holds s.cfg x = false) : s.coherentByte x = s.mem.read x := by
  simp [State.coherentByte, State.isHit, hL, h]

/-- A clean line agrees with ByteMemory, byte by byte. -/
theorem LineOk.read {s : State} {x : Nat} {L : CacheLine} (hs : Shaped s) (hL : s.lines[indexOf s.cfg x]? = some L)
    (h : L.holds s.cfg x = true) (hd : L.dirty = false) : L.data.getD (offsetOf s.cfg x) 0 = s.mem.read x := by
  have hb := blockSize_dvd hs.block
  simp only [CacheLine.holds, Bool.and_eq_true, beq_iff_eq] at h
  rw [(hs.line _ _ hL).clean h.1 hd, getD_readBytes (show offsetOf s.cfg x < s.cfg.blockSize from Nat.mod_lt _ (by omega)), blockStart_of_holds h.2,
    start_add_offset]

/-! ### Writing back and fetching (R87) -/

/-- ByteMemory after the victim of `a` has been written back. -/
def afterWriteBack (s : State) (i : Nat) (L : CacheLine) : Memory :=
  if L.valid && L.dirty then s.mem.writeBytes (blockStart s.cfg i L) L.data else s.mem

theorem writeBack_eq {s : State} (hs : Shaped s) {i : Nat} {L : CacheLine} (hL : s.lines[i]? = some L) (u : State)
    (hc : u.cfg = s.cfg) (hm : u.mem = s.mem) : writeBack i L u = .ok { u with mem := afterWriteBack s i L } := by
  have ho := hs.line i L hL
  unfold writeBack afterWriteBack
  split
  · next h =>
    simp only [Bool.and_eq_true] at h
    have := ho.inside h.1
    simp only [writeBlock, ho.size, hm, hc]
    rw [if_pos (by simpa [blockStart] using this)]
    rw [← hc]
    rfl
  · rw [← hm]

/-- The write-back changes no byte that the victim does not hold, and none at all of a clean one. -/
theorem read_afterWriteBack {s : State} (hs : Shaped s) {i : Nat} {L : CacheLine} (hL : s.lines[i]? = some L) (x : Nat) :
    (afterWriteBack s i L).read x =
      if L.valid = true ∧ L.dirty = true ∧ indexOf s.cfg x = i ∧ tagOf s.cfg x = L.tag
      then L.data.getD (offsetOf s.cfg x) 0 else s.mem.read x := by
  have ho := hs.line i L hL
  have hb : 0 < s.cfg.blockSize := by have := (blockSize_dvd hs.block).1; omega
  have hi : i < numLines s.cfg := by rw [← hs.lineCount]; exact (List.getElem?_eq_some_iff.1 hL).1
  unfold afterWriteBack
  by_cases hv : L.valid = true ∧ L.dirty = true
  · rw [if_pos (by simp [hv])]
    by_cases hx : indexOf s.cfg x = i ∧ tagOf s.cfg x = L.tag
    · rw [if_pos ⟨hv.1, hv.2, hx⟩]
      have h1 : x = blockStart s.cfg i L + offsetOf s.cfg x := by
        rw [← hx.1, blockStart_of_holds hx.2.symm, start_add_offset]
      have h2 : offsetOf s.cfg x < s.cfg.blockSize := Nat.mod_lt _ hb
      rw [Memory.read_writeBytes_inside hs.memory.1 (by omega) (by rw [ho.size]; omega)]
      congr 1
      omega
    · rw [if_neg (by tauto)]
      refine Memory.read_writeBytes_outside ?_
      rw [ho.size]
      by_contra hn
      have := fields_of_mem_block (L := L) (x := x) hb hi (by omega) (by omega)
      exact hx ⟨this.1, this.2.1⟩
  · rw [if_neg (by simpa using hv), if_neg (by tauto)]

theorem wf_afterWriteBack {s : State} (hs : Shaped s) {i : Nat} {L : CacheLine} (hL : s.lines[i]? = some L) :
    (afterWriteBack s i L).wf := by
  have ho := hs.line i L hL
  unfold afterWriteBack
  split
  · next h =>
    simp only [Bool.and_eq_true] at h
    exact Memory.wf_writeBytes (by rw [ho.size]; exact ho.inside h.1) hs.memory
  · exact hs.memory

/-! ### Accesses -/

/-- An access reads the configuration, the lines, ByteMemory and the counters alone. -/
theorem Accessed.congr {s t s' t' : State} {a : Nat} {w : Option (List Byte)} (h : Accessed s t a w)
    (hs : Accesses [] s s') (ht : Accesses [] t t') : Accessed s' t' a w := by
  obtain ⟨c1, l1, m1, h1, x1⟩ := hs
  obtain ⟨c2, l2, m2, h2, x2⟩ := ht
  have hi : s'.isHit a = s.isHit a := by simp only [State.isHit, c1, l1]
  have hc : ∀ x, s'.coherentByte x = s.coherentByte x := coherentByte_congr c1 l1 m1
  have hm : lineMade s' a = lineMade s a := by simp only [lineMade, State.memRead, hc, hi, c1, l1]
  exact ⟨by rw [c2, c1]; exact h.cfg, by rw [l2, c1, hm]; exact h.line, by rw [l2, l1, c1]; exact h.others,
    by rw [hi, l1, c1, m2, m1]; exact h.kept, by rw [hi, l1, c1, m2, m1]; exact h.writtenBack,
    by rw [h2, h1, hi]; exact h.hits, by rw [x2, x1, hi]; exact h.misses⟩

theorem Accesses.congr {l : List (Nat × Option (List Byte))} {s t s' t' : State} (h : Accesses l s t)
    (hs : Accesses [] s s') (ht : Accesses [] t t') : Accesses l s' t' := by
  induction l generalizing s s' with
  | nil =>
    obtain ⟨a1, a2, a3, a4, a5⟩ := h
    obtain ⟨b1, b2, b3, b4, b5⟩ := hs
    obtain ⟨c1, c2, c3, c4, c5⟩ := ht
    exact ⟨by rw [c1, a1, b1], by rw [c2, a2, b2], by rw [c3, a3, b3], by rw [c4, a4, b4], by rw [c5, a5, b5]⟩
  | cons p l ih =>
    obtain ⟨u, hu, h⟩ := h
    exact ⟨u, hu.congr hs ⟨rfl, rfl, rfl, rfl, rfl⟩, ih h ⟨rfl, rfl, rfl, rfl, rfl⟩⟩

theorem Accesses.append {l l' : List (Nat × Option (List Byte))} {s u t : State} (h : Accesses l s u)
    (h' : Accesses l' u t) : Accesses (l ++ l') s t := by
  induction l generalizing s with
  | nil =>
    obtain ⟨a1, a2, a3, a4, a5⟩ := h
    exact h'.congr ⟨a1.symm, a2.symm, a3.symm, a4.symm, a5.symm⟩ ⟨rfl, rfl, rfl, rfl, rfl⟩
  | cons p l ih =>
    obtain ⟨v, hv, h⟩ := h
    exact ⟨v, hv, ih h⟩

theorem Accessed.single {s t : State} {a : Nat} {w : Option (List Byte)} (h : Accessed s t a w) :
    Accesses [(a, w)] s t := ⟨t, h, rfl, rfl, rfl, rfl, rfl⟩

/-- Every word access counts one. -/
theorem Accesses.count {l : List (Nat × Option (List Byte))} {s t : State} (h : Accesses l s t) :
    t.hits + t.misses = s.hits + s.misses + l.length := by
  induction l generalizing s with
  | nil => simp [h.2.2.2.1, h.2.2.2.2]
  | cons p l ih =>
    obtain ⟨u, hu, h⟩ := h
    rw [ih h, hu.hits, hu.misses]
    simp only [List.length_cons]
    split <;> omega

theorem LsbEntry.length_words (e : LsbEntry) : e.words.length = if e.size = 8 then 2 else 1 := by
  simp only [LsbEntry.words, List.length_cons]
  split <;> rfl

/-- After an access the block of its address is in the cache. -/
theorem Accessed.isHit {s t : State} {a : Nat} {w : Option (List Byte)} (h : Accessed s t a w) : t.isHit a = true := by
  unfold State.isHit
  rw [h.cfg, h.line, lineMade]
  split
  · next L hL =>
    obtain ⟨M, hM, rfl⟩ := Option.map_eq_some_iff.1 hL
    have hh : M.holds s.cfg a = true := by
      split at hM
      · next hi =>
        simp only [State.isHit, hM] at hi
        exact hi
      · cases hM
        simp [CacheLine.holds]
    cases w <;> exact hh
  · next hL =>
    rw [Option.map_eq_none_iff] at hL
    split at hL
    · next hi => simp [State.isHit, hL] at hi
    · cases hL

/-! ### LineFor (R87) -/

/-- What making a line hold the block of `a` does: it answers, counts one access, changes nothing but the cache, leaves
the coherent view as it was, and the line of `a` holds the block of `a` afterwards. -/
theorem lineFor_spec {s : State} (hs : Shaped s) {a : Nat} (ha : a < memSize) :
    ∃ t L, lineFor a s = .ok t ∧ OnlyCache s t ∧ Shaped t ∧ t.lines[indexOf s.cfg a]? = some L ∧
      L.holds s.cfg a = true ∧ (∀ x, t.coherentByte x = s.coherentByte x) ∧ Accessed s t a none := by
  obtain ⟨L, hL⟩ := hs.line_at a
  have hhit : s.isHit a = L.holds s.cfg a := by simp [State.isHit, hL]
  cases hh : L.holds s.cfg a with
  | true =>
    have he : lineFor a s = .ok { s with hits := s.hits + 1 } := by simp [lineFor, hL, hh]
    have hO : OnlyCache s { s with hits := s.hits + 1 } := rfl
    refine ⟨_, L, he, hO, hO.shaped hs hs.lineCount (fun i L h => ?_) hs.memory, hL, hh,
      fun x => coherentByte_congr rfl rfl rfl x, rfl, ?_, fun _ _ => rfl, fun _ => rfl, fun M h => ?_, by simp [hhit, hh],
      by simp [hhit, hh]⟩
    rotate_left
    · simp [lineMade, hhit, hh, CacheLine.accessed, hL]
    · rw [hhit, hh] at h; cases h
    have := hs.line i L h
    exact ⟨this.size, this.inside, this.clean⟩
  | false =>
    have hin := block_inside hs.block ha
    have hb : 0 < s.cfg.blockSize := by have := (blockSize_dvd hs.block).1; omega
    obtain ⟨m, hm⟩ : ∃ m, m = afterWriteBack s (indexOf s.cfg a) L := ⟨_, rfl⟩
    obtain ⟨N, hN⟩ : ∃ N : CacheLine, N = ⟨true, false, tagOf s.cfg a,
      m.readBytes (a / s.cfg.blockSize * s.cfg.blockSize) s.cfg.blockSize⟩ := ⟨_, rfl⟩
    obtain ⟨t, ht⟩ : ∃ t : State, t = { s with mem := m, lines := s.lines.set (indexOf s.cfg a) N
                                               misses := s.misses + 1 } := ⟨_, rfl⟩
    have he : lineFor a s = .ok t := by
      simp only [lineFor, hL, hh, Bool.false_eq_true, if_false]
      rw [writeBack_eq hs hL { s with misses := s.misses + 1 } rfl rfl, ← hm]
      simp only [fetchLine, readBlock]
      rw [if_pos hin, ht, hN]
    have hlt : indexOf s.cfg a < s.lines.length := by rw [hs.lineCount]; exact indexOf_lt hs.someLine a
    have hNh : N.holds s.cfg a = true := by simp [hN, CacheLine.holds]
    have hO : OnlyCache s t := by rw [ht]; rfl
    have htl : t.lines = s.lines.set (indexOf s.cfg a) N := by rw [ht]
    have htm : t.mem = m := by rw [ht]
    have htN : t.lines[indexOf s.cfg a]? = some N := by rw [htl]; simp [hlt]
    have hne : ∀ i, i ≠ indexOf s.cfg a → t.lines[i]? = s.lines[i]? := by
      intro i hi
      rw [htl, List.getElem?_set_ne (Ne.symm hi)]
    have hread := fun x => (congrArg (Memory.read · x) hm).trans (read_afterWriteBack hs hL x)
    have hcoh : ∀ x, t.coherentByte x = s.coherentByte x := by
      intro x
      obtain ⟨P, hP⟩ := hs.line_at x
      by_cases hi : indexOf s.cfg x = indexOf s.cfg a
      · have htx : t.lines[indexOf t.cfg x]? = some N := by rw [hO.cfg, hi]; exact htN
        have hPL : s.lines[indexOf s.cfg x]? = some L := by rw [hi]; exact hL
        by_cases hxt : tagOf s.cfg x = tagOf s.cfg a
        · have h1 : N.holds t.cfg x = true := by simp [hN, CacheLine.holds, hO.cfg, hxt]
          have h2 : L.holds s.cfg x = false := by
            rw [← hh]; simp only [CacheLine.holds, hxt]
          have hxa : x / s.cfg.blockSize = a / s.cfg.blockSize := by
            rw [← tag_index, ← tag_index, hxt, hi]
          rw [coherentByte_of_holds htx h1, coherentByte_of_not_holds hPL h2, hO.cfg, hN]
          dsimp only
          rw [getD_readBytes (show offsetOf s.cfg x < s.cfg.blockSize from Nat.mod_lt _ hb), ← hxa, start_add_offset,
            hread, if_neg]
          rintro ⟨hv, -, -, ht'⟩
          simp [CacheLine.holds, hv, ← hxt, ht'] at hh
        · have h1 : N.holds t.cfg x = false := by
            simp [hN, CacheLine.holds, hO.cfg, Ne.symm hxt]
          rw [coherentByte_of_not_holds htx h1, htm, hread]
          cases h2 : L.holds s.cfg x with
          | true =>
            have h3 : L.valid = true ∧ L.tag = tagOf s.cfg x := by simpa [CacheLine.holds] using h2
            rw [coherentByte_of_holds hPL h2]
            split
            · rfl
            · next hn =>
              rw [LineOk.read hs hPL h2]
              by_contra hd
              exact hn ⟨h3.1, by simpa using hd, hi, h3.2.symm⟩
          | false =>
            rw [coherentByte_of_not_holds hPL h2, if_neg]
            rintro ⟨hv, -, -, ht'⟩
            simp [CacheLine.holds, hv, ht'] at h2
      · have htx : t.lines[indexOf t.cfg x]? = some P := by rw [hO.cfg, hne _ hi]; exact hP
        cases h1 : P.holds s.cfg x with
        | true =>
          rw [coherentByte_of_holds htx (by rw [hO.cfg]; exact h1), coherentByte_of_holds hP h1, hO.cfg]
        | false =>
          rw [coherentByte_of_not_holds htx (by rw [hO.cfg]; exact h1), coherentByte_of_not_holds hP h1, htm, hread,
            if_neg (by tauto)]
    refine ⟨t, N, he, hO, hO.shaped hs ?_ ?_ ?_, htN, hNh, hcoh, hO.cfg, ?_, hne, fun h => ?_, fun M _ hM hv hd x => ?_,
      by simp [ht, hhit, hh], by simp [ht, hhit, hh]⟩
    · rw [htl, List.length_set, hs.lineCount]
    · intro i P hP
      by_cases hi : i = indexOf s.cfg a
      · subst hi
        rw [htN] at hP
        cases hP
        have hst : blockStart s.cfg (indexOf s.cfg a) N = a / s.cfg.blockSize * s.cfg.blockSize :=
          blockStart_of_holds (by rw [hN])
        refine ⟨?_, fun _ => ?_, fun _ _ => ?_⟩
        · rw [hO.cfg, hN]; simp
        · rw [hO.cfg, hst]; exact hin
        · rw [hO.cfg, hst, htm, hN]
      · rw [hne i hi] at hP
        have ho := hs.line i P hP
        refine ⟨by rw [hO.cfg]; exact ho.size, by rw [hO.cfg]; exact ho.inside, fun hv hd => ?_⟩
        rw [hO.cfg, htm, ho.clean hv hd]
        have hiL : i < numLines s.cfg := by rw [← hs.lineCount]; exact (List.getElem?_eq_some_iff.1 hP).1
        refine List.map_congr_left fun o ho' => ?_
        have ho' : o < s.cfg.blockSize := by simpa using ho'
        have hf := fields_of_block (L := P) hb hiL ho'
        rw [hread, if_neg (by rw [hf.1]; tauto)]
    · rw [htm, hm]; exact wf_afterWriteBack hs hL
    · have hread' : ∀ x, x / s.cfg.blockSize = a / s.cfg.blockSize → m.read x = s.coherentByte x := fun x hx => by
        have hi : indexOf s.cfg x = indexOf s.cfg a := by rw [indexOf, hx]; rfl
        have ht : tagOf s.cfg x = tagOf s.cfg a := by rw [tagOf, hx]; rfl
        have h2 : L.holds s.cfg x = false := by rw [← hh]; simp only [CacheLine.holds, ht]
        rw [coherentByte_of_not_holds (hi ▸ hL) h2, hread, if_neg]
        rintro ⟨hv, -, -, ht'⟩
        simp [CacheLine.holds, hv, ← ht, ht'] at hh
      have hd : m.readBytes (a / s.cfg.blockSize * s.cfg.blockSize) s.cfg.blockSize =
          s.memRead (a / s.cfg.blockSize * s.cfg.blockSize) s.cfg.blockSize :=
        List.map_congr_left fun o ho => hread' _ (by
          have ho : o < s.cfg.blockSize := by simpa using ho
          rw [Nat.mul_comm, Nat.mul_add_div hb, Nat.div_eq_of_lt ho, Nat.add_zero])
      rw [htN, lineMade, hhit, hh, if_neg (by simp), hN, hd]
      rfl
    · rw [htm, hm, afterWriteBack, if_neg]
      rcases h with h | h
      · rw [hhit, hh] at h; cases h
      · have := h L hL
        cases hv : L.valid <;> simp_all
    · rw [hL] at hM
      cases hM
      have hsz := (hs.line _ _ hL).size
      rw [htm, hm, afterWriteBack, if_pos (by simp [hv, hd])]
      split
      · next hx => exact Memory.read_writeBytes_inside hs.memory.1 (by omega) (by omega)
      · next hx => exact Memory.read_writeBytes_outside (by omega)

/-! ### One word (R88, R89) -/

/-- An aligned word lies in one block. -/
theorem word_fields {c : Config} {a i : Nat} (hb : 4 ∣ c.blockSize) (h0 : 0 < c.blockSize) (ha : a % 4 = 0) (hi : i < 4) :
    indexOf c (a + i) = indexOf c a ∧ tagOf c (a + i) = tagOf c a ∧ offsetOf c (a + i) = offsetOf c a + i := by
  obtain ⟨k, hk⟩ := hb
  have hm : offsetOf c a % 4 = 0 := by
    rw [offsetOf, hk, Nat.mod_mul_right_mod, ha]
  have hlt : offsetOf c a < c.blockSize := Nat.mod_lt _ h0
  have hs := start_add_offset c a
  have hd : (a + i) / c.blockSize = a / c.blockSize := by
    conv_lhs => rw [← hs, Nat.add_assoc, Nat.mul_comm, Nat.mul_add_div h0]
    rw [Nat.div_eq_of_lt (a := offsetOf c a + i) (by omega), Nat.add_zero]
  refine ⟨by rw [indexOf, hd]; rfl, by rw [tagOf, hd]; rfl, ?_⟩
  have := start_add_offset c (a + i)
  rw [hd] at this
  omega

theorem word_offset {c : Config} {a : Nat} (hb : 4 ∣ c.blockSize) (h0 : 0 < c.blockSize) (ha : a % 4 = 0) :
    offsetOf c a + 4 ≤ c.blockSize := by
  obtain ⟨k, hk⟩ := hb
  have hm : offsetOf c a % 4 = 0 := by
    rw [offsetOf, hk, Nat.mod_mul_right_mod, ha]
  have hlt : offsetOf c a < c.blockSize := Nat.mod_lt _ h0
  omega

/-- A word read through the cache is the coherent view's, and only the cache changes. -/
theorem cacheReadWord_spec {s : State} (hs : Shaped s) {a : Nat} (h4 : a % 4 = 0) (ha : a + 4 ≤ memSize) :
    ∃ t, cacheReadWord a s = .ok (s.memRead a 4, t) ∧ OnlyCache s t ∧ Shaped t ∧
      (∀ x, t.coherentByte x = s.coherentByte x) ∧ Accessed s t a none := by
  obtain ⟨t, L, he, hO, ht, hL, hh, hc, hA⟩ := lineFor_spec hs (a := a) (by omega)
  have hb := blockSize_dvd hs.block
  have hoff := word_offset hb.2.2 (by omega) h4
  have hsz : L.data.length = s.cfg.blockSize := by rw [(ht.line _ _ hL).size, hO.cfg]
  refine ⟨t, ?_, hO, ht, hc, hA⟩
  simp only [cacheReadWord, he, hO.cfg, State.lineData, hL]
  congr 2
  refine List.ext_getElem? fun i => ?_
  by_cases hi : i < 4
  · have hf := word_fields (c := s.cfg) hb.2.2 (by omega) h4 hi
    have hcb : s.coherentByte (a + i) = L.data.getD (offsetOf s.cfg a + i) 0 := by
      rw [← hc, coherentByte_of_holds (L := L) (by rw [hO.cfg, hf.1]; exact hL)
        (by rw [hO.cfg]; simpa [CacheLine.holds, hf.2.1] using hh), hO.cfg, hf.2.2]
    have hlt : offsetOf s.cfg a + i < L.data.length := by omega
    rw [List.getElem?_take, if_pos hi, List.getElem?_drop, List.getElem?_eq_getElem hlt]
    simp [State.memRead, hi, hcb, List.getD, hlt]
  · rw [List.getElem?_eq_none (by simp; omega), List.getElem?_eq_none (by simp [State.memRead]; omega)]

theorem getD_splice {d bs : List Byte} {o i : Nat} (h : o + bs.length ≤ d.length) :
    (splice d o bs).getD i 0 = if o ≤ i ∧ i < o + bs.length then bs.getD (i - o) 0 else d.getD i 0 := by
  have ho : (d.take o).length = o := by rw [List.length_take]; omega
  have hob : (d.take o ++ bs).length = o + bs.length := by rw [List.length_append, ho]
  have key : (splice d o bs)[i]? = if o ≤ i ∧ i < o + bs.length then bs[i - o]? else d[i]? := by
    unfold splice
    split
    · next hi => rw [List.getElem?_append_left (by omega), List.getElem?_append_right (by omega), ho]
    · next hi =>
      by_cases hlt : i < o
      · rw [List.getElem?_append_left (by omega), List.getElem?_append_left (by omega), List.getElem?_take, if_pos hlt]
      · rw [List.getElem?_append_right (by omega), hob, List.getElem?_drop]
        congr 1
        omega
  simp only [List.getD, key]
  split <;> rfl

theorem length_splice {d bs : List Byte} {o : Nat} (h : o + bs.length ≤ d.length) : (splice d o bs).length = d.length := by
  simp [splice]
  omega

/-- A word written through the cache is in the coherent view, no other byte changes, and only the cache changes. -/
theorem cacheWriteWord_spec {s : State} (hs : Shaped s) {a : Nat} {bs : List Byte} (h4 : a % 4 = 0) (ha : a + 4 ≤ memSize)
    (hbs : bs.length = 4) :
    ∃ t, cacheWriteWord a bs s = .ok t ∧ OnlyCache s t ∧ Shaped t ∧
      (∀ x, t.coherentByte x = if a ≤ x ∧ x < a + 4 then bs.getD (x - a) 0 else s.coherentByte x) ∧
      Accessed s t a (some bs) := by
  obtain ⟨u, L, he, hO, hu, hL, hh, hc, hA⟩ := lineFor_spec hs (a := a) (by omega)
  have hb := blockSize_dvd hs.block
  have hoff := word_offset hb.2.2 (by omega) h4
  have hsz : L.data.length = s.cfg.blockSize := by rw [(hu.line _ _ hL).size, hO.cfg]
  obtain ⟨N, hN⟩ : ∃ N : CacheLine, N = { L with data := splice L.data (offsetOf s.cfg a) bs, dirty := true } := ⟨_, rfl⟩
  obtain ⟨t, ht⟩ : ∃ t : State, t = { u with lines := u.lines.modify (indexOf s.cfg a) fun L =>
    { L with data := splice L.data (offsetOf s.cfg a) bs, dirty := true } } := ⟨_, rfl⟩
  have heq : cacheWriteWord a bs s = .ok t := by
    simp only [cacheWriteWord, he, hO.cfg, ht]
  have hOt : OnlyCache u t := by rw [ht]; rfl
  have hcfg : t.cfg = s.cfg := hOt.cfg.trans hO.cfg
  have htm : t.mem = u.mem := by rw [ht]
  have htN : t.lines[indexOf s.cfg a]? = some N := by rw [ht]; simp [hL, hN]
  have hne : ∀ i, i ≠ indexOf s.cfg a → t.lines[i]? = u.lines[i]? := by
    intro i hi
    rw [ht]
    simp [Ne.symm hi]
  have hNh : ∀ x, N.holds s.cfg x = L.holds s.cfg x := fun x => by rw [hN]; rfl
  have hsh : Shaped t := by
    refine hOt.shaped hu ?_ ?_ (by rw [htm]; exact hu.memory)
    · rw [hO.cfg, ht]; simp [hu.lineCount, hO.cfg]
    · intro i P hP
      by_cases hi : i = indexOf s.cfg a
      · subst hi
        rw [htN] at hP
        cases hP
        have hl := hu.line _ _ hL
        refine ⟨?_, ?_, ?_⟩
        · rw [hcfg, hN]; exact (length_splice (by omega)).trans hsz
        · intro hv
          have := hl.inside (by rw [hN] at hv; exact hv)
          rw [hO.cfg] at this
          rw [hcfg]
          simpa [blockStart, hN] using this
        · intro _ hd; rw [hN] at hd; cases hd
      · rw [hne i hi] at hP
        have hl := hu.line i P hP
        exact ⟨by rw [hOt.cfg]; exact hl.size, by rw [hOt.cfg]; exact hl.inside, by rw [hOt.cfg, htm]; exact hl.clean⟩
  have hAt : Accessed s t a (some bs) := by
    refine ⟨hcfg, ?_, fun i hi => (hne i hi).trans (hA.others i hi), by rw [htm]; exact hA.kept,
      by rw [htm]; exact hA.writtenBack, by rw [ht]; exact hA.hits, by rw [ht]; exact hA.misses⟩
    have hl := hA.line
    rw [hL] at hl
    cases hm : lineMade s a with
    | none => rw [hm] at hl; cases hl
    | some M =>
      rw [hm] at hl
      cases hl
      rw [htN, hN]
      rfl
  refine ⟨t, heq, hO.trans hOt, hsh, fun x => ?_, hAt⟩
  rw [← hc x]
  by_cases hi : indexOf s.cfg x = indexOf s.cfg a
  · have htx : t.lines[indexOf t.cfg x]? = some N := by rw [hcfg, hi]; exact htN
    have hux : u.lines[indexOf u.cfg x]? = some L := by rw [hO.cfg, hi]; exact hL
    cases hx : L.holds s.cfg x with
    | true =>
      have htag : tagOf s.cfg x = tagOf s.cfg a := by
        simp only [CacheLine.holds, Bool.and_eq_true, beq_iff_eq] at hx hh
        rw [← hx.2, hh.2]
      have hxa : x / s.cfg.blockSize = a / s.cfg.blockSize := by rw [← tag_index, ← tag_index, htag, hi]
      have e1 := start_add_offset s.cfg x
      have e2 := start_add_offset s.cfg a
      rw [hxa] at e1
      rw [coherentByte_of_holds htx (by rw [hcfg, hNh, hx]), coherentByte_of_holds hux (by rw [hO.cfg, hx]), hcfg,
        hO.cfg, hN]
      dsimp only
      rw [getD_splice (by omega), hbs]
      by_cases hin : a ≤ x ∧ x < a + 4
      · rw [if_pos (by omega), if_pos hin]
        congr 1
        omega
      · rw [if_neg (by omega), if_neg hin]
    | false =>
      rw [coherentByte_of_not_holds htx (by rw [hcfg, hNh, hx]), coherentByte_of_not_holds hux (by rw [hO.cfg, hx]), htm,
        if_neg]
      rintro ⟨hx1, hx2⟩
      have hf := word_fields (c := s.cfg) (i := x - a) hb.2.2 (by omega) h4 (by omega)
      rw [show a + (x - a) = x by omega] at hf
      simp only [CacheLine.holds, hf.2.1] at hx
      simp only [CacheLine.holds] at hh
      rw [hh] at hx
      cases hx
  · rw [if_neg]
    · obtain ⟨P, hP⟩ := hu.line_at x
      have htx : t.lines[indexOf t.cfg x]? = some P := by
        rw [hcfg, hne _ hi, ← hO.cfg]; exact hP
      cases hx : P.holds s.cfg x with
      | true =>
        rw [coherentByte_of_holds htx (by rw [hcfg, hx]), coherentByte_of_holds hP (by rw [hO.cfg, hx]), hcfg, hO.cfg]
      | false =>
        rw [coherentByte_of_not_holds htx (by rw [hcfg, hx]), coherentByte_of_not_holds hP (by rw [hO.cfg, hx]), htm]
    · rintro ⟨hx1, hx2⟩
      have hf := word_fields (c := s.cfg) (i := x - a) hb.2.2 (by omega) h4 (by omega)
      rw [show a + (x - a) = x by omega] at hf
      exact hi hf.1

end Sys2Proof.Machine
end

