-- ==== Sys2Proof/Laws/Cyc.lean ====
section
/-! SUPPORT. What a phase can answer, said once: `Cyc.All P` holds when every state the phase hands on, by going on or by
a fatal error, has P. An invariant is carried through a cycle by one `Cyc.All` fact per operation. -/

namespace Sys2Proof.Machine

/-- Every state the phase hands on has P. -/
def Cyc.All (P : State → Prop) : Cyc → Prop
  | .ok s => P s
  | .error (.fatal s) => P s
  | .error (.refuse _) => True

@[simp] theorem Cyc.all_ok {P : State → Prop} {s : State} : Cyc.All P (.ok s) = P s := rfl

@[simp] theorem Cyc.all_fatal {P : State → Prop} {s : State} : Cyc.All P (.error (.fatal s)) = P s := rfl

@[simp] theorem Cyc.all_refuse {P : State → Prop} {r : Refusal} : Cyc.All P (.error (.refuse r)) = True := rfl

@[simp] theorem Cyc.all_raise {P : State → Prop} {f : Fault} {s : State} :
    Cyc.All P (.error (raise f s)) = P { s with fault := some f } := rfl

theorem Cyc.All.mono {P Q : State → Prop} (h : ∀ s, P s → Q s) {c : Cyc} (hc : Cyc.All P c) : Cyc.All Q c := by
  match c with
  | .ok s => exact h s hc
  | .error (.fatal s) => exact h s hc
  | .error (.refuse _) => trivial

theorem Cyc.All.and {P Q : State → Prop} {c : Cyc} (h : Cyc.All P c) (h' : Cyc.All Q c) :
    Cyc.All (fun s => P s ∧ Q s) c := by
  cases c with
  | ok s => exact ⟨h, h'⟩
  | error e => cases e with
    | fatal s => exact ⟨h, h'⟩
    | refuse r => trivial

theorem forEach_ok_nil {α : Type} (f : α → State → Cyc) (s : State) : forEach f [] s = .ok s := rfl

/-- A loop keeps what its body keeps. -/
theorem forEach_all {α : Type} {P : State → Prop} {f : α → State → Cyc} {xs : List α} {s : State}
    (hf : ∀ x ∈ xs, ∀ s, P s → Cyc.All P (f x s)) (hs : P s) : Cyc.All P (forEach f xs s) := by
  induction xs generalizing s with
  | nil => exact hs
  | cons x xs ih =>
    have hx := hf x (by simp) s hs
    simp only [forEach]
    split
    · next s' h =>
      rw [h] at hx
      exact ih (fun y hy => hf y (by simp [hy])) hx
    · next e h => rw [h] at hx; exact hx

/-- A loop whose body raises no fatal error raises none. -/
theorem forEach_ne_fatal {α : Type} {f : α → State → Cyc} (hf : ∀ x s t, f x s ≠ .error (.fatal t)) (xs : List α)
    (s t : State) : forEach f xs s ≠ .error (.fatal t) := by
  induction xs generalizing s with
  | nil => exact fun h => by cases h
  | cons x xs ih =>
    simp only [forEach]
    split
    · exact ih _
    · next e h => exact fun he => hf x s t (h.trans (by rw [Except.error.inj he]))

/-- A loop whose body does nothing does nothing. -/
theorem forEach_id {α : Type} {f : α → State → Cyc} {xs : List α} {s : State} (h : ∀ x ∈ xs, f x s = .ok s) :
    forEach f xs s = .ok s := by
  induction xs with
  | nil => rfl
  | cons x xs ih =>
    simp only [forEach]
    rw [h x (by simp)]
    exact ih fun y hy => h y (by simp [hy])

/-- A loop whose body does something at one element only. -/
theorem forEach_single {α : Type} {f : α → State → Cyc} {xs ys : List α} {x : α} {s s' : State}
    (hxs : ∀ y ∈ xs, f y s = .ok s) (hx : f x s = .ok s') (hys : ∀ y ∈ ys, f y s' = .ok s') :
    forEach f (xs ++ x :: ys) s = .ok s' := by
  induction xs with
  | nil => simp only [List.nil_append, forEach, hx]; exact forEach_id hys
  | cons y xs ih =>
    simp only [List.cons_append, forEach]
    rw [hxs y (by simp)]
    exact ih fun z hz => hxs z (by simp [hz])

/-- The four early phases keep what each of them keeps. -/
theorem earlyPhases_all {P : State → Prop} {s : State} (hs : P s)
    (hw : ∀ s, P s → Cyc.All P (writePhase s)) (he : ∀ s, P s → Cyc.All P (executePhase s))
    (hm : ∀ s, P s → Cyc.All P (memoryPhase s)) (hd : ∀ s, P s → Cyc.All P (deferredPhase s)) :
    Cyc.All P (earlyPhases s) := by
  have h1 := hw s hs
  simp only [earlyPhases]
  split
  · next e h => rw [h] at h1; exact h1
  · next s1 h =>
    rw [h] at h1
    have h2 := he s1 h1
    split
    · next e h => rw [h] at h2; exact h2
    · next s2 h =>
      rw [h] at h2
      have h3 := hm s2 h2
      split
      · next e h => rw [h] at h3; exact h3
      · next s3 h => rw [h] at h3; exact hd s3 h3

/-- Everything a step can answer as a next state: the machine has terminated, or a phase ended the cycle with a fatal
error, or the Issue phase answered after the early phases. -/
theorem step_next_cases {s t : State} (h : step s = .next t) :
    s.fault = none ∧ ((s.terminated = true ∧ t = s) ∨
      (s.terminated = false ∧ (earlyPhases (tick s) = .error (.fatal t) ∨
        ∃ s4, earlyPhases (tick s) = .ok s4 ∧ issuePhase s4 = .next t))) := by
  unfold step at h
  split at h
  · cases h
  · next hf =>
    refine ⟨hf, ?_⟩
    split at h
    · next ht => exact .inl ⟨ht, by simpa using h.symm⟩
    · next ht =>
      refine .inr ⟨by simpa using ht, ?_⟩
      split at h
      · next s' he => exact .inl (by rw [he]; cases h; rfl)
      · cases h
      · next s' he => exact .inr ⟨s', he, h⟩

/-- An invariant of every phase is an invariant of the step. -/
theorem step_keeps {P : State → Prop} (ht : ∀ s, P s → P (tick s))
    (hp : ∀ s, P s → Cyc.All P (earlyPhases s)) (hi : ∀ s t, P s → issuePhase s = .next t → P t)
    {s t : State} (hs : P s) (h : step s = .next t) : P t := by
  obtain ⟨-, h | ⟨-, h | ⟨s4, h4, hI⟩⟩⟩ := step_next_cases h
  · exact h.2 ▸ hs
  · have := hp _ (ht s hs)
    rw [h] at this
    exact this
  · have := hp _ (ht s hs)
    rw [h4] at this
    exact hi s4 t this hI

end Sys2Proof.Machine
end

