-- ==== Sys2Proof/Laws/Execute.lean ====
section
/-! SUPPORT. What the Write and Execute phases do, said once: selection, register write, forwarding, countdown, completion
and start (40_cycle_engine.md R143–R155). -/

namespace Sys2Proof.Machine

/-! ### Finding stations through updates that touch none -/

@[simp] theorem station?_stampBound (S : Station) (f : DynInst → DynInst) (s : State) (U : Tag) :
    (stampBound S f s).station? U = s.station? U := by simp [State.station?]

@[simp] theorem station?_stamp (i : Nat) (f : DynInst → DynInst) (s : State) (U : Tag) :
    (stamp i f s).station? U = s.station? U := rfl

@[simp] theorem station?_stampWrite (i : Option Nat) (s : State) (U : Tag) :
    (stampWrite i s).station? U = s.station? U := by simp [State.station?]

@[simp] theorem station?_enqueue (T : Tag) (v : F64) (d : Option Reg) (o : OpCode) (s : State) (U : Tag) :
    (enqueue T v d o s).station? U = s.station? U := rfl

@[simp] theorem station?_regWrite (T : Tag) (v : F64) (d : Option Reg) (s : State) (U : Tag) :
    (regWrite T v d s).station? U = s.station? U := by simp [State.station?]

/-! ### Countdown and completion (R151, R152) -/

theorem countDown_idle {T : Tag} {s : State} {S : Station} (hS : s.station? T = some S) (hr : S.running = false) :
    countDown T s = .ok s := by simp [countDown, hS, hr]

theorem countDown_runs {T : Tag} {s : State} {S : Station} (hS : s.station? T = some S) (hr : S.running = true)
    (h1 : S.remainingCycles ≠ 1) :
    countDown T s = .ok (updStation T (fun S => { S with remainingCycles := S.remainingCycles - 1 }) s) := by
  simp [countDown, hS, hr, h1]

theorem countDown_completes {T : Tag} {s : State} {S : Station} {o : OpCode} {v : F64}
    (hS : s.station? T = some S) (hr : S.running = true) (h1 : S.remainingCycles = 1) (ho : S.op = some o)
    (hv : stationResult o S = some v) :
    countDown T s = .ok (stampBound S (fun d => { d with execEnd := some s.cycle })
      (enqueue S.name v S.dest o (updStation T (fun S => { S with remainingCycles := S.remainingCycles - 1 }) s))) := by
  simp only [countDown, hS, hr, h1, complete, ho, hv]
  rfl

/-- Everything a countdown can answer. -/
theorem countDown_cases {T : Tag} {s : State} {c : Cyc} (h : countDown T s = c) :
    (∃ r, c = .error (.refuse r)) ∨ ∃ S, s.station? T = some S ∧
      ((S.running = false ∧ c = .ok s) ∨
       (S.running = true ∧ S.remainingCycles ≠ 1 ∧
          c = .ok (updStation T (fun S => { S with remainingCycles := S.remainingCycles - 1 }) s)) ∨
       ∃ o v, S.running = true ∧ S.remainingCycles = 1 ∧ S.op = some o ∧ stationResult o S = some v ∧
          c = .ok (stampBound S (fun d => { d with execEnd := some s.cycle }) (enqueue S.name v S.dest o
            (updStation T (fun S => { S with remainingCycles := S.remainingCycles - 1 }) s)))) := by
  subst h
  cases hS : s.station? T with
  | none => exact .inl ⟨.brokenTag T, by simp only [countDown, hS]⟩
  | some S =>
    cases hr : S.running with
    | false => exact .inr ⟨S, rfl, .inl ⟨hr, countDown_idle hS hr⟩⟩
    | true =>
      by_cases h1 : S.remainingCycles = 1
      · cases ho : S.op with
        | none => exact .inl ⟨.brokenTag S.name, by simp only [countDown, hS, hr, h1, complete, ho, if_true]⟩
        | some o =>
          cases hv : stationResult o S with
          | none => exact .inl ⟨.brokenTag S.name, by simp only [countDown, hS, hr, h1, complete, ho, hv, if_true]⟩
          | some v =>
            exact .inr ⟨S, rfl, .inr (.inr ⟨o, v, hr, h1, ho, hv, countDown_completes hS hr h1 ho hv⟩)⟩
      · exact .inr ⟨S, rfl, .inr (.inl ⟨hr, h1, countDown_runs hS hr h1⟩)⟩

/-! ### Start (R153) -/

theorem startStation_idle {T : Tag} {s : State} {S : Station} (hS : s.station? T = some S)
    (hr : S.startable s.cycle = false) : startStation T s = .ok s := by simp [startStation, hS, hr]

theorem startStation_starts {T : Tag} {s : State} {S : Station} {l : Nat} (hS : s.station? T = some S)
    (hr : S.startable s.cycle = true) (hl : startLatency s.cfg S = some l) :
    startStation T s = .ok (stampBound S (fun d => { d with execStart := some s.cycle })
      (updStation T (fun S => { S with execStarted := true, remainingCycles := l }) s)) := by
  simp only [startStation, hS, hr, hl, if_true]

/-- Everything a start can answer. -/
theorem startStation_cases {T : Tag} {s : State} {c : Cyc} (h : startStation T s = c) :
    (∃ r, c = .error (.refuse r)) ∨ ∃ S, s.station? T = some S ∧ (c = .ok s ∨
      ∃ l, S.startable s.cycle = true ∧ startLatency s.cfg S = some l ∧
        c = .ok (stampBound S (fun d => { d with execStart := some s.cycle })
          (updStation T (fun S => { S with execStarted := true, remainingCycles := l }) s))) := by
  subst h
  cases hS : s.station? T with
  | none => exact .inl ⟨.brokenTag T, by simp only [startStation, hS]⟩
  | some S =>
    cases hr : S.startable s.cycle with
    | false => exact .inr ⟨S, rfl, .inl (startStation_idle hS hr)⟩
    | true =>
      cases hl : startLatency s.cfg S with
      | none => exact .inr ⟨S, rfl, .inl (by simp only [startStation, hS, hr, hl, if_true])⟩
      | some l => exact .inr ⟨S, rfl, .inr ⟨l, hr, hl, startStation_starts hS hr hl⟩⟩

/-! ### Selection (R144) -/

theorem selectRequest_eq_some {C : Nat} {l rest : List Request} {q : Request} (h : selectRequest C l = some (q, rest)) :
    q.readyCycle ≤ C ∧ q ∈ l ∧ ∀ p ∈ rest, p ∈ l := by
  induction l generalizing rest with
  | nil => cases h
  | cons a l ih =>
    simp only [selectRequest] at h
    split at h
    · next hc => cases h; exact ⟨hc, by simp, fun p hp => by simp [hp]⟩
    · split at h
      · next p r hr =>
        cases h
        obtain ⟨h1, h2, h3⟩ := ih hr
        exact ⟨h1, by simp [h2], fun x hx => by
          rcases List.mem_cons.1 hx with rfl | hx
          · simp
          · simp [h3 x hx]⟩
      · cases h

/-- The queue is the selected request and the others. -/
theorem selectRequest_perm {C : Nat} {l rest : List Request} {q : Request} (h : selectRequest C l = some (q, rest)) :
    l.Perm (q :: rest) := by
  induction l generalizing rest with
  | nil => cases h
  | cons a l ih =>
    simp only [selectRequest] at h
    split at h
    · cases h; exact List.Perm.refl _
    · split at h
      · next p r hr =>
        cases h
        exact (List.Perm.cons a (ih hr)).trans (List.Perm.swap q a r)
      · cases h

/-! ### Forwarding (R147) -/

theorem forwardJ_eq (T : Tag) (v : F64) (C : Int) (S : Station) : forwardJ T v C S =
    { S with vj := if S.qj = some T then some v else S.vj, qj := if S.qj = some T then none else S.qj
             effCycle := if S.qj = some T then C else S.effCycle } := by
  unfold forwardJ
  split <;> rfl

theorem forwardK_eq (T : Tag) (v : F64) (C : Int) (S : Station) : forwardK T v C S =
    { S with vk := if S.qk = some T then some v else S.vk, qk := if S.qk = some T then none else S.qk
             effCycle := if S.qk = some T then C else S.effCycle } := by
  unfold forwardK
  split <;> rfl

/-- What one busy station becomes when T broadcasts v. -/
theorem forwardJK_eq (T : Tag) (v : F64) (C : Int) (S : Station) : forwardK T v C (forwardJ T v C S) =
    { S with vj := if S.qj = some T then some v else S.vj, qj := if S.qj = some T then none else S.qj
             vk := if S.qk = some T then some v else S.vk, qk := if S.qk = some T then none else S.qk
             effCycle := if S.qj = some T ∨ S.qk = some T then C else S.effCycle } := by
  rw [forwardK_eq, forwardJ_eq]
  by_cases hj : S.qj = some T <;> by_cases hk : S.qk = some T <;> simp [hj, hk]

/-- Forwarding keeps names, so it can be looked up station by station. -/
theorem station?_forward (T : Tag) (v : F64) (s : State) (U : Tag) : (forward T v s).station? U =
    (s.station? U).map fun S => if S.busy then forwardK T v s.cycle (forwardJ T v s.cycle S) else S := by
  simp only [State.station?, forward_stations, List.find?_map]
  congr 2
  funext S
  simp only [Function.comp]
  split
  · rw [forwardJK_eq]
  · rfl

@[simp] theorem tags_forward (T : Tag) (v : F64) (s : State) : (forward T v s).tags = s.tags := by
  simp only [State.tags, forward_stations, List.map_map]
  refine List.map_congr_left fun S _ => ?_
  simp only [Function.comp]
  split
  · rw [forwardJK_eq]
  · rfl

/-- The Execute phase raises no fatal error (60_exceptions.md R313). -/
theorem executePhase_ne_fatal (s t : State) : executePhase s ≠ .error (.fatal t) := by
  have h1 : ∀ (T : Tag) (s t : State), countDown T s ≠ .error (.fatal t) := fun T s t h => by
    obtain ⟨r, e⟩ | ⟨S, -, ⟨-, e⟩ | ⟨-, -, e⟩ | ⟨o, v, -, -, -, -, e⟩⟩ := countDown_cases h <;> cases e
  have h2 : ∀ (T : Tag) (s t : State), startStation T s ≠ .error (.fatal t) := fun T s t h => by
    obtain ⟨r, e⟩ | ⟨S, -, e | ⟨l, -, -, e⟩⟩ := startStation_cases h <;> cases e
  unfold executePhase
  split
  · next e h => exact fun he => forEach_ne_fatal h1 _ s t (h.trans (by rw [Except.error.inj he]))
  · exact forEach_ne_fatal h2 _ _ t

/-! ### Branch resolution (44_branch.md R272) -/

/-- With no station bound to a later instance, no LSB entry of one and no request of one, flushing changes nothing. -/
theorem flush_eq_self {i : Nat} {s : State} (h1 : s.instances.length ≤ i + 1)
    (h2 : ∀ S ∈ s.stations, ∀ j, S.instruction = some j → j ≤ i) (h3 : ∀ e ∈ s.lsb, e.inst ≤ i) : flush i s = s := by
  have hb : ∀ S ∈ s.stations, boundAfter i S = false := by
    intro S hS
    cases hi : S.instruction with
    | none => simp [boundAfter, hi]
    | some j => simpa [boundAfter, hi] using h2 S hS j hi
  have hf : flushedTags i s = [] := by
    simp only [flushedTags, List.map_eq_nil_iff, List.filter_eq_nil_iff]
    intro S hS
    simp [hb S hS]
  have e1 : (s.stations.map fun S => if boundAfter i S then Station.free S.name else S) = s.stations := by
    conv_rhs => rw [← List.map_id s.stations]
    exact List.map_congr_left fun S hS => by simp [hb S hS]
  have e2 : (s.lsb.filter fun e => decide (e.inst ≤ i)) = s.lsb := by
    rw [List.filter_eq_self]
    intro e he
    simpa using h3 e he
  have e3 : (s.cdbQueue.filter fun q => !(flushedTags i s).contains q.station) = s.cdbQueue := by
    rw [List.filter_eq_self]
    intro q _
    simp [hf]
  simp only [flush, e1, e2, e3, List.take_of_length_le h1]

end Sys2Proof.Machine
end

