-- ==== Sys2Proof/Laws/Frame.lean ====
section
/-! SUPPORT. What the Execute, Memory and handover phases leave alone: the configuration, the program, the registers, the
cursor, the cycle number, the branch block, the log but for its stamps, and that they raise no `RegisterBusy`. -/

namespace Sys2Proof.Machine

/-- What an issue fixes in an instance: its record, op, station and issue cycle. -/
def DynInst.issued (d : DynInst) : Nat × OpCode × Tag × Option Nat := (d.pc, d.op, d.station, d.issue)

/-- A log is only stamped: no instance comes, goes or changes what its issue fixed, and an `exec_start` of this cycle
stays. -/
structure LogKept (c : Nat) (l l' : List DynInst) : Prop where
  issued : l'.map DynInst.issued = l.map DynInst.issued
  started : ∀ i : Nat, (l[i]?).map DynInst.execStart = some (some c) → (l'[i]?).map DynInst.execStart = some (some c)

theorem LogKept.refl (c : Nat) (l : List DynInst) : LogKept c l l := ⟨rfl, fun _ h => h⟩

theorem LogKept.trans {c : Nat} {l l' l'' : List DynInst} (h : LogKept c l l') (h' : LogKept c l' l'') :
    LogKept c l l'' := ⟨h'.issued.trans h.issued, fun i hi => h'.started i (h.started i hi)⟩

theorem LogKept.length {c : Nat} {l l' : List DynInst} (h : LogKept c l l') : l'.length = l.length := by
  simpa using congrArg List.length h.issued

/-- A stamp that a phase of cycle `c` may set. -/
def Stamps (c : Nat) (f : DynInst → DynInst) : Prop :=
  ∀ d, (f d).issued = d.issued ∧ (d.execStart = some c → (f d).execStart = some c)

theorem Stamps.logKept {c : Nat} {f : DynInst → DynInst} (hf : Stamps c f) (i : Nat) (l : List DynInst) :
    LogKept c l (l.modify i f) where
  issued := by
    refine List.ext_getElem? fun k => ?_
    simp only [List.getElem?_map, List.getElem?_modify]
    split <;> cases l[k]? <;> simp [(hf _).1]
  started k h := by
    rw [List.getElem?_modify]
    split
    · cases hl : l[k]? with
      | none => rw [hl] at h; cases h
      | some d =>
        rw [hl] at h
        simpa using (hf d).2 (by simpa using h)
    · simpa using h

/-- What only the Write and Issue phases may change. -/
structure Frame (s t : State) : Prop where
  cfg : t.cfg = s.cfg
  prog : t.prog = s.prog
  intRegs : t.intRegs = s.intRegs
  fpRegs : t.fpRegs = s.fpRegs
  cursor : t.cursor = s.cursor
  cycle : t.cycle = s.cycle
  branchPending : t.branchPending = s.branchPending
  log : LogKept s.cycle s.instances t.instances
  notBusy : ∀ r, t.fault = some (.registerBusy r) → s.fault = some (.registerBusy r)

theorem Frame.refl (s : State) : Frame s s := ⟨rfl, rfl, rfl, rfl, rfl, rfl, rfl, .refl _ _, fun _ h => h⟩

theorem Frame.trans {s t u : State} (h : Frame s t) (h' : Frame t u) : Frame s u :=
  ⟨h'.cfg.trans h.cfg, h'.prog.trans h.prog, h'.intRegs.trans h.intRegs, h'.fpRegs.trans h.fpRegs,
    h'.cursor.trans h.cursor, h'.cycle.trans h.cycle, h'.branchPending.trans h.branchPending,
    h.log.trans (h.cycle ▸ h'.log), fun r hr => h.notBusy r (h'.notBusy r hr)⟩

theorem Frame.logLength {s t : State} (h : Frame s t) : t.instances.length = s.instances.length := h.log.length

theorem Frame.reg {s t : State} (h : Frame s t) (r : Reg) : t.reg r = s.reg r := reg_congr h.intRegs h.fpRegs r

/-- The body of a loop that keeps the frame of its own start keeps that of the loop's. -/
theorem forEach_frame {α : Type} {f : α → State → Cyc} (hf : ∀ x s, Cyc.All (Frame s) (f x s)) (xs : List α) (s : State) :
    Cyc.All (Frame s) (forEach f xs s) :=
  forEach_all (fun x _ t ht => (hf x t).mono fun _ h => ht.trans h) (Frame.refl s)

theorem raise_frame {f : Fault} (hf : ∀ r, f ≠ .registerBusy r) (s : State) :
    Cyc.All (Frame s) (.error (raise f s)) :=
  ⟨rfl, rfl, rfl, rfl, rfl, rfl, rfl, .refl _ _, fun r h => absurd (Option.some.inj h) (hf r)⟩

theorem stampBound_frame (S : Station) {f : DynInst → DynInst} {s : State} (hf : Stamps s.cycle f) :
    Frame s (stampBound S f s) :=
  ⟨by simp, by simp, by simp, by simp, by simp, by simp, by simp, by
    unfold stampBound
    split
    · exact hf.logKept _ _
    · exact .refl _ _, by simp⟩

theorem updStation_frame (T : Tag) (f : Station → Station) (s : State) : Frame s (updStation T f s) :=
  ⟨rfl, rfl, rfl, rfl, rfl, rfl, rfl, .refl _ _, fun _ h => h⟩

theorem enqueue_frame (T : Tag) (v : F64) (d : Option Reg) (o : OpCode) (s : State) : Frame s (enqueue T v d o s) :=
  ⟨rfl, rfl, rfl, rfl, rfl, rfl, rfl, .refl _ _, fun _ h => h⟩

theorem stamp_frame (i : Nat) {f : DynInst → DynInst} {s : State} (hf : Stamps s.cycle f) : Frame s (stamp i f s) :=
  ⟨rfl, rfl, rfl, rfl, rfl, rfl, rfl, hf.logKept _ _, fun _ h => h⟩

theorem lsb_frame (l : List LsbEntry) (s : State) : Frame s { s with lsb := l } :=
  ⟨rfl, rfl, rfl, rfl, rfl, rfl, rfl, .refl _ _, fun _ h => h⟩

/-! ### Execute -/

theorem countDown_frame (T : Tag) (s : State) : Cyc.All (Frame s) (countDown T s) := by
  obtain ⟨r, h⟩ | ⟨S, -, ⟨-, h⟩ | ⟨-, -, h⟩ | ⟨o, v, -, -, -, -, h⟩⟩ := countDown_cases (T := T) (s := s) rfl <;> rw [h]
  · trivial
  · exact Frame.refl s
  · exact updStation_frame _ _ _
  · exact ((updStation_frame _ _ _).trans (enqueue_frame _ _ _ _ _)).trans (stampBound_frame _ fun _ => ⟨rfl, fun h => h⟩)

theorem startStation_frame (T : Tag) (s : State) : Cyc.All (Frame s) (startStation T s) := by
  obtain ⟨r, h⟩ | ⟨S, -, h | ⟨l, -, -, h⟩⟩ := startStation_cases (T := T) (s := s) rfl <;> rw [h]
  · trivial
  · exact Frame.refl s
  · exact (updStation_frame _ _ _).trans (stampBound_frame _ fun _ => ⟨rfl, fun _ => rfl⟩)

theorem executePhase_frame (s : State) : Cyc.All (Frame s) (executePhase s) := by
  have h1 := forEach_frame countDown_frame s.tags s
  unfold executePhase
  split
  · next e h => rw [h] at h1; exact h1
  · next s' h => rw [h] at h1; exact (forEach_frame startStation_frame s'.tags s').mono fun _ h => Frame.trans h1 h

/-! ### Cache and commits -/

theorem writeBack_frame (i : Nat) (L : CacheLine) (s : State) : Cyc.All (Frame s) (writeBack i L s) := by
  unfold writeBack writeBlock
  split
  · split
    · exact ⟨rfl, rfl, rfl, rfl, rfl, rfl, rfl, .refl _ _, fun _ h => h⟩
    · exact raise_frame (by simp) _
  · exact Frame.refl s

theorem fetchLine_frame (a : Nat) (s : State) : Cyc.All (Frame s) (fetchLine a s) := by
  unfold fetchLine
  split
  · next e h =>
    unfold readBlock at h
    split at h <;> cases h
    exact raise_frame (by simp) _
  · exact ⟨rfl, rfl, rfl, rfl, rfl, rfl, rfl, .refl _ _, fun _ h => h⟩

theorem lineFor_frame (a : Nat) (s : State) : Cyc.All (Frame s) (lineFor a s) := by
  unfold lineFor
  split
  · trivial
  · split
    · exact ⟨rfl, rfl, rfl, rfl, rfl, rfl, rfl, .refl _ _, fun _ h => h⟩
    · have h1 := writeBack_frame (indexOf s.cfg a) ‹_› { s with misses := s.misses + 1 }
      have h0 : Frame s { s with misses := s.misses + 1 } := ⟨rfl, rfl, rfl, rfl, rfl, rfl, rfl, .refl _ _, fun _ h => h⟩
      split
      · next e h => rw [h] at h1; exact h1.mono fun _ h => h0.trans h
      · next s' h => rw [h] at h1; exact (fetchLine_frame a s').mono fun _ h => (h0.trans h1).trans h

/-- A result that carries a value beside its state. -/
def Cyc.AllPair (P : State → Prop) : Except Stop (List Byte × State) → Prop
  | .ok (_, s) => P s
  | .error (.fatal s) => P s
  | .error (.refuse _) => True

theorem cacheReadWord_frame (a : Nat) (s : State) : Cyc.AllPair (Frame s) (cacheReadWord a s) := by
  have h1 := lineFor_frame a s
  unfold cacheReadWord
  split
  · next e h =>
    rw [h] at h1
    cases e <;> exact h1
  · next s' h => rw [h] at h1; exact h1

theorem cacheWriteWord_frame (a : Nat) (bs : List Byte) (s : State) : Cyc.All (Frame s) (cacheWriteWord a bs s) := by
  have h1 := lineFor_frame a s
  unfold cacheWriteWord
  split
  · next e h => rw [h] at h1; exact h1
  · next s' h =>
    rw [h] at h1
    exact Frame.trans h1 ⟨rfl, rfl, rfl, rfl, rfl, rfl, rfl, .refl _ _, fun _ h => h⟩

theorem readEntry_frame (e : LsbEntry) (s : State) : Cyc.AllPair (Frame s) (readEntry e s) := by
  have h1 := cacheReadWord_frame e.address s
  unfold readEntry
  split
  · next x h => rw [h] at h1; cases x <;> exact h1
  · next b s1 h =>
    rw [h] at h1
    split
    · have h2 := cacheReadWord_frame (e.address + 4) s1
      split
      · next x h => rw [h] at h2; cases x with
        | fatal => exact Frame.trans h1 h2
        | refuse => trivial
      · next b' s2 h => rw [h] at h2; exact Frame.trans h1 h2
    · exact h1

theorem commitLoad_frame (e : LsbEntry) (s : State) : Cyc.All (Frame s) (commitLoad e s) := by
  have h1 := readEntry_frame e s
  unfold commitLoad
  split
  · next x h => rw [h] at h1; cases x <;> exact h1
  · next b s1 h =>
    rw [h] at h1
    split
    · trivial
    · exact (Frame.trans h1 (enqueue_frame _ _ _ _ _)).trans (stamp_frame _ fun _ => ⟨rfl, fun h => h⟩)

theorem writeEntry_frame (e : LsbEntry) (bs : List Byte) (s : State) : Cyc.All (Frame s) (writeEntry e bs s) := by
  have h1 := cacheWriteWord_frame e.address (bs.take 4) s
  unfold writeEntry
  split
  · next x h => rw [h] at h1; exact h1
  · next s1 h =>
    rw [h] at h1
    split
    · exact (cacheWriteWord_frame _ _ s1).mono fun _ h => Frame.trans h1 h
    · exact h1

theorem commitStore_frame (e : LsbEntry) (s : State) : Cyc.All (Frame s) (commitStore e s) := by
  unfold commitStore
  split
  · trivial
  · next bs _ =>
    have h1 := writeEntry_frame e bs s
    split
    · next x h => rw [h] at h1; exact h1
    · next s1 h =>
      rw [h] at h1
      have h2 : Frame s1 (stamp e.inst (fun d => { d with execEnd := some s1.cycle, write := some s1.cycle }) s1) :=
        stamp_frame _ fun _ => ⟨rfl, fun h => h⟩
      exact (Frame.trans h1 h2).trans (updStation_frame _ _ _)

theorem commit_frame (e : LsbEntry) (s : State) : Cyc.All (Frame s) (commit e s) := by
  unfold commit
  split
  · exact commitLoad_frame e s
  · exact commitStore_frame e s

theorem stampStart_frame (e : LsbEntry) (s : State) : Frame s (stampStart e s) := by
  unfold stampStart
  split
  · exact Frame.refl s
  · exact stamp_frame _ fun _ => ⟨rfl, fun _ => rfl⟩

theorem lsbTickFrom_frame (kept es : List LsbEntry) (s : State) : Cyc.All (Frame s) (lsbTickFrom kept es s) := by
  induction es generalizing kept s with
  | nil => exact lsb_frame _ _
  | cons e es ih =>
    simp only [lsbTickFrom]
    split
    · exact ih _ s
    · split
      · have h0 := (stampStart_frame e s).trans (lsb_frame (kept ++ es) _)
        have h1 := commit_frame e.decremented { stampStart e s with lsb := kept ++ es }
        split
        · next x h => rw [h] at h1; exact h1.mono fun _ h => h0.trans h
        · next s2 h => rw [h] at h1; exact (ih kept s2).mono fun _ h => (h0.trans h1).trans h
      · exact (ih _ _).mono fun _ h => (stampStart_frame e s).trans h

theorem memoryPhase_frame (s : State) : Cyc.All (Frame s) (memoryPhase s) := lsbTickFrom_frame [] s.lsb s

/-! ### Handover -/

theorem enterLsb_frame (e : LsbEntry) (s : State) : Frame s (enterLsb e s) :=
  ⟨rfl, rfl, rfl, rfl, rfl, rfl, rfl, .refl _ _, fun _ h => h⟩

theorem handover_frame (T : Tag) (s : State) : Cyc.All (Frame s) (handover T s) := by
  obtain ⟨r, h⟩ | ⟨f, hf, h⟩ | ⟨S, o, base, off, inst, b, ea, data, -, -, -, -, -, -, -, -, -, -, -, h⟩ :=
    handover_cases (T := T) (s := s) rfl <;> rw [h]
  · trivial
  · exact raise_frame hf _
  · exact enterLsb_frame _ _

theorem deferredPhase_frame (s : State) : Cyc.All (Frame s) (deferredPhase s) :=
  forEach_frame (fun S s => by
    unfold handoverIfRoom
    split
    · exact Frame.refl s
    · exact handover_frame _ _) _ s

/-- Phases 2 to 4 keep the frame of the state the Write phase left. -/
theorem earlyPhases_frame {s : State} {P : State → Prop} (hw : Cyc.All P (writePhase s))
    (hP : ∀ t u, P t → Frame t u → P u) : Cyc.All P (earlyPhases s) := by
  unfold earlyPhases
  split
  · next e h => rw [h] at hw; exact hw
  · next s1 h =>
    rw [h] at hw
    have h2 := executePhase_frame s1
    split
    · next e h => rw [h] at h2; exact h2.mono fun _ h => hP _ _ hw h
    · next s2 h =>
      rw [h] at h2
      have h3 := memoryPhase_frame s2
      split
      · next e h => rw [h] at h3; exact h3.mono fun _ h => hP _ _ hw (Frame.trans h2 h)
      · next s3 h =>
        rw [h] at h3
        exact (deferredPhase_frame s3).mono fun _ h => hP _ _ hw ((Frame.trans h2 h3).trans h)

/-! ### The Write phase -/

/-- What resolving a branch leaves alone. -/
theorem resolve_cases {i : Nat} {s : State} {c : Cyc} (h : resolve i s = c) :
    (∃ r, c = .error (.refuse r)) ∨ ∃ d r ins rs rt target, s.instances[i]? = some d ∧ s.prog[d.pc]? = some r ∧
      checkRecord s.prog.length d.pc r = .ok ins ∧ (ins = .beq rs rt target ∨ ins = .bne rs rt target) ∧
      ((∃ x, (s.reg (.r x)).qi ≠ none ∧ (x = rs ∨ x = rt) ∧ c = .error (raise (.registerBusy (.r x)) s)) ∨
        ((s.reg (.r rs)).qi = none ∧ (s.reg (.r rt)).qi = none ∧ ∃ b, c = .ok (settle i b target s))) := by
  subst h
  have key : ∀ (test : F64 → F64 → Bool) (rs rt : Fin 32) (target : I32),
      (∃ x, (s.reg (.r x)).qi ≠ none ∧ (x = rs ∨ x = rt) ∧
        resolveWith test rs rt target i s = .error (raise (.registerBusy (.r x)) s)) ∨
      ((s.reg (.r rs)).qi = none ∧ (s.reg (.r rt)).qi = none ∧
        ∃ b, resolveWith test rs rt target i s = .ok (settle i b target s)) := by
    intro test rs rt target
    cases h1 : (s.reg (.r rs)).qi with
    | some T => exact .inl ⟨rs, by simp [h1], .inl rfl, by simp [resolveWith, readValue, h1]⟩
    | none =>
      cases h2 : (s.reg (.r rt)).qi with
      | some T => exact .inl ⟨rt, by simp [h2], .inr rfl, by simp [resolveWith, readValue, h1, h2]⟩
      | none => exact .inr ⟨rfl, rfl, _, by simp only [resolveWith, readValue, h1, h2]; rfl⟩
  unfold resolve
  split
  · next e he =>
    unfold State.recordOf at he
    split at he
    · cases he; exact .inl ⟨_, rfl⟩
    · split at he
      · cases he; exact .inl ⟨_, rfl⟩
      · split at he
        · cases he; exact .inl ⟨_, rfl⟩
        · cases he
  · next T ins he =>
    unfold State.recordOf at he
    split at he
    · cases he
    · next d hd =>
      split at he
      · cases he
      · next r hr =>
        split at he
        · cases he
        · next ins' hc =>
          cases he
          cases ins with
          | beq rs rt target =>
            exact .inr ⟨d, r, _, rs, rt, target, hd, hr, hc, .inl rfl, key takenBeq rs rt target⟩
          | bne rs rt target =>
            exact .inr ⟨d, r, _, rs, rt, target, hd, hr, hc, .inr rfl, key takenBne rs rt target⟩
          | _ => exact .inl ⟨_, rfl⟩

/-- Everything the Write phase can answer. -/
theorem writePhase_cases {s : State} {c : Cyc} (h : writePhase s = c) :
    (selectRequest s.cycle s.cdbQueue = none ∧ c = .ok s) ∨
    ∃ q rest, selectRequest s.cycle s.cdbQueue = some (q, rest) ∧
      ((q.station.kind ≠ .branch ∧ c = .ok (broadcastCore q { s with cdbQueue := rest })) ∨
       (q.station.kind = .branch ∧ ((∃ i, s.instanceAt q.station = some i ∧
          c = resolve i (broadcastCore q { s with cdbQueue := rest })) ∨
          (s.instanceAt q.station = none ∧ c = .error (.refuse (.brokenTag q.station)))))) := by
  subst h
  unfold writePhase
  split
  · next h => exact .inl ⟨h, rfl⟩
  · next q rest h =>
    refine .inr ⟨q, rest, h, ?_⟩
    unfold broadcast
    have hi : ({ s with cdbQueue := rest } : State).instanceAt q.station = s.instanceAt q.station := rfl
    split
    · next hk =>
      refine .inr ⟨hk, ?_⟩
      rw [hi]
      split
      · next i h => exact .inl ⟨i, h, rfl⟩
      · next h => exact .inr ⟨h, rfl⟩
    · next hk => exact .inl ⟨hk, rfl⟩

end Sys2Proof.Machine
end

