-- ==== Sys2Proof/Laws/Lsb.lean ====
section
/-! SUPPORT. The bytes an LSB entry reads and writes in a well-formed memory system, and that the Memory phase and the
handover keep the memory system well-formed (20_memory.md R94–R104). -/

namespace Sys2Proof.Machine

/-! ### The bytes of an entry (R76, R99, R100) -/

theorem memRead_eight (s : State) (a : Nat) : s.memRead a 8 = s.memRead a 4 ++ s.memRead (a + 4) 4 := by
  simp [State.memRead, List.range_succ, Nat.add_assoc]

/-- The word accesses of an entry that reads, or writes the bytes given. -/
def wordsOf (e : LsbEntry) (v : Option (List Byte)) : List (Nat × Option (List Byte)) :=
  (e.address, v.map (List.take 4)) :: if e.size = 8 then [(e.address + 4, v.map (List.drop 4))] else []

theorem LsbEntry.words_eq (e : LsbEntry) : e.words = wordsOf e (if e.isLoad then none else e.value) := rfl

/-- A load entry reads the coherent view's bytes, and only the cache changes. -/
theorem readEntry_spec {s : State} (hs : Shaped s) {e : LsbEntry} (he : EntryOk e) :
    ∃ t, readEntry e s = .ok (s.memRead e.address e.size, t) ∧ OnlyCache s t ∧ Shaped t ∧
      (∀ x, t.coherentByte x = s.coherentByte x) ∧ Accesses (wordsOf e none) s t := by
  have hin := he.inside
  have hal := he.aligned
  rcases he.wide with h4 | h8
  · obtain ⟨t, h1, hO, ht, hc, hA⟩ := cacheReadWord_spec hs hal (by omega)
    refine ⟨t, ?_, hO, ht, hc, ?_⟩
    · simp [readEntry, h1, h4]
    · simpa [wordsOf, h4] using hA.single
  · obtain ⟨t, h1, hO, ht, hc, hA⟩ := cacheReadWord_spec hs hal (by omega)
    obtain ⟨u, h2, hO2, hu, hc2, hA2⟩ := cacheReadWord_spec ht (a := e.address + 4) (by omega) (by omega)
    refine ⟨u, ?_, hO.trans hO2, hu, fun x => (hc2 x).trans (hc x), ?_⟩
    · simp only [readEntry, h1, h8, if_true, h2]
      rw [memRead_eight, memRead_congr hc (e.address + 4)]
    · simpa [wordsOf, h8] using hA.single.append hA2.single

/-- A store entry writes its bytes into the coherent view and nothing else there, and only the cache changes. -/
theorem writeEntry_spec {s : State} (hs : Shaped s) {e : LsbEntry} (he : EntryOk e) {bs : List Byte}
    (hb : bs.length = e.size) :
    ∃ t, writeEntry e bs s = .ok t ∧ OnlyCache s t ∧ Shaped t ∧
      (∀ x, t.coherentByte x =
        if e.address ≤ x ∧ x < e.address + e.size then bs.getD (x - e.address) 0 else s.coherentByte x) ∧
      Accesses (wordsOf e (some bs)) s t := by
  have hin := he.inside
  have hal := he.aligned
  rcases he.wide with h4 | h8
  · obtain ⟨t, h1, hO, ht, hc, hA⟩ := cacheWriteWord_spec hs (bs := bs.take 4) hal (by omega) (by simp; omega)
    refine ⟨t, ?_, hO, ht, fun x => ?_, ?_⟩
    · simp [writeEntry, h1, h4]
    · rw [hc, h4]
      split
      · exact getD_take (by omega)
      · rfl
    · simpa [wordsOf, h4] using hA.single
  · obtain ⟨t, h1, hO, ht, hc, hA⟩ := cacheWriteWord_spec hs (bs := bs.take 4) hal (by omega) (by simp; omega)
    obtain ⟨u, h2, hO2, hu, hc2, hA2⟩ :=
      cacheWriteWord_spec ht (a := e.address + 4) (bs := bs.drop 4) (by omega) (by omega) (by simp; omega)
    refine ⟨u, ?_, hO.trans hO2, hu, fun x => ?_, ?_⟩
    · simp [writeEntry, h1, h8, h2]
    · rw [hc2, hc, h8]
      by_cases hx : e.address ≤ x ∧ x < e.address + 8
      · rw [if_pos hx]
        by_cases hx4 : e.address + 4 ≤ x
        · rw [if_pos (by omega), getD_drop]
          congr 1
          omega
        · rw [if_neg (by omega), if_pos (by omega)]
          exact getD_take (by omega)
      · rw [if_neg (by omega), if_neg (by omega), if_neg hx]
    · simpa [wordsOf, h8] using hA.single.append hA2.single

/-! ### The memory system stays well-formed -/

/-- The memory system is read from these fields alone; a station keeps the op its kind asks for. -/
theorem Shaped.congr {s t : State} (hs : Shaped s) (hc : t.cfg = s.cfg) (hm : t.mem = s.mem) (hl : t.lines = s.lines)
    (hq : t.lsb = s.lsb) (hn : t.nextSeq = s.nextSeq)
    (hst : ∀ S ∈ t.stations, ∀ o, S.op = some o → opKind o = S.kind) : Shaped t where
  block := by rw [hc]; exact hs.block
  someLine := by rw [hc]; exact hs.someLine
  lineCount := by rw [hc, hl]; exact hs.lineCount
  line := by
    intro i L h
    rw [hl] at h
    have := hs.line i L h
    exact ⟨by rw [hc]; exact this.size, by rw [hc]; exact this.inside, by rw [hc, hm]; exact this.clean⟩
  memory := by rw [hm]; exact hs.memory
  stationOp := hst
  entry := by rw [hq]; exact hs.entry
  order := by rw [hq]; exact hs.order
  seqBelow := by rw [hq, hn]; exact hs.seqBelow
  seqMax := by rw [hn]; exact hs.seqMax
  capacity := by rw [hq, hc]; exact hs.capacity

/-- An update that keeps every station's op and name keeps the memory system well-formed. -/
theorem Shaped.mapStations {s t : State} (hs : Shaped s) (hc : t.cfg = s.cfg) (hm : t.mem = s.mem)
    (hl : t.lines = s.lines) (hq : t.lsb = s.lsb) (hn : t.nextSeq = s.nextSeq) (f : Station → Station)
    (hst : t.stations = s.stations.map f) (hf : ∀ S ∈ s.stations, (f S).kind = S.kind ∧ ((f S).op = S.op ∨ (f S).op = none)) :
    Shaped t := by
  refine hs.congr hc hm hl hq hn fun P hP o ho => ?_
  rw [hst] at hP
  obtain ⟨S, hS, rfl⟩ := List.mem_map.1 hP
  obtain ⟨h1, h2 | h2⟩ := hf S hS
  · rw [h1]; exact hs.stationOp S hS o (by rw [← h2]; exact ho)
  · rw [h2] at ho; cases ho

theorem raise_shaped {s : State} (hs : Shaped s) (f : Fault) : Cyc.All Shaped (.error (raise f s)) :=
  hs.congr rfl rfl rfl rfl rfl hs.stationOp

/-- The buffer may be replaced by one whose entries come from it, in order. -/
theorem Shaped.withLsb {s : State} (hs : Shaped s) {l : List LsbEntry} (he : ∀ e ∈ l, EntryOk e)
    (ho : l.Pairwise fun e e' => e.seq < e'.seq) (hb : ∀ e ∈ l, e.seq < s.nextSeq) (hc : l.length ≤ s.cfg.lsbMax) :
    Shaped { s with lsb := l } where
  block := hs.block
  someLine := hs.someLine
  lineCount := hs.lineCount
  line := fun i L h => by
    have := hs.line i L h
    exact ⟨this.size, this.inside, this.clean⟩
  memory := hs.memory
  stationOp := hs.stationOp
  entry := he
  order := ho
  seqBelow := hb
  seqMax := hs.seqMax
  capacity := hc

theorem Shaped.sameLsb {s : State} {l : List LsbEntry} (hs : Shaped s) (h : s.lsb = l) : Shaped { s with lsb := l } := by
  subst h
  exact hs

theorem stamp_shaped {s : State} (hs : Shaped s) (i : Nat) (f : DynInst → DynInst) : Shaped (stamp i f s) :=
  hs.congr rfl rfl rfl rfl rfl hs.stationOp

theorem release_shaped {s : State} (hs : Shaped s) (T : Tag) : Shaped (release T s) := by
  refine hs.mapStations rfl rfl rfl rfl rfl _ rfl fun S _ => ?_
  by_cases h : S.name = T
  · rw [if_pos h]; exact ⟨by simp [Station.kind, Station.free, h], .inr rfl⟩
  · rw [if_neg h]; exact ⟨rfl, .inl rfl⟩

/-- The requests the commit of an entry queues (40_cycle_engine.md R160). -/
def commitRequests (e : LsbEntry) (s : State) : List Request :=
  if e.isLoad then
    match loadCodec e.op with
    | some dec => [⟨e.station, dec e.inst (s.memRead e.address e.size), e.dest, e.op, s.cycle + 1⟩]
    | none => []
  else []

/-- Everything the commit of an entry does in a well-formed memory system (20_memory.md R99, R100). -/
structure Committed (s t : State) (e : LsbEntry) : Prop where
  shaped : Shaped t
  cfg : t.cfg = s.cfg
  cycle : t.cycle = s.cycle
  lsb : t.lsb = s.lsb
  nextSeq : t.nextSeq = s.nextSeq
  reg : ∀ r, t.reg r = s.reg r
  queue : t.cdbQueue = s.cdbQueue ++ commitRequests e s
  stations : t.stations = if e.isLoad then s.stations else (release e.station s).stations
  instances : t.instances = s.instances.modify e.inst fun d =>
    { d with execEnd := some s.cycle, write := if e.isLoad then d.write else some s.cycle }
  coherent : ∀ x, t.coherentByte x =
    if e.stores x then (e.value.getD []).getD (x - e.address) 0 else s.coherentByte x
  accesses : Accesses e.words s t

theorem EntryOk.codec {e : LsbEntry} (he : EntryOk e) (hl : e.isLoad = true) : ∃ dec, loadCodec e.op = some dec := by
  have hk := he.kind
  rw [hl, eq_comm, beq_iff_eq] at hk
  revert hk
  cases e.op <;> simp [opKind, loadCodec]

/-- A well-formed load queues one request of its station, and a store none. -/
theorem commitRequests_stations {e : LsbEntry} (he : EntryOk e) (s : State) :
    (commitRequests e s).map Request.station = if e.isLoad then [e.station] else [] := by
  unfold commitRequests
  split
  · next hl =>
    obtain ⟨dec, hd⟩ := he.codec hl
    rw [hd]
    rfl
  · rfl

/-- A commit in a well-formed memory system goes through. -/
theorem commit_spec {s : State} (hs : Shaped s) {e : LsbEntry} (he : EntryOk e) :
    ∃ t, commit e s = .ok t ∧ Committed s t e := by
  unfold commit
  cases hl : e.isLoad with
  | true =>
    obtain ⟨t, h1, hO, ht, hc, hA⟩ := readEntry_spec hs he
    obtain ⟨dec, hd⟩ := he.codec hl
    refine ⟨_, by simp only [if_true, commitLoad, h1, hd]; rfl, ?_⟩
    refine ⟨ht.congr rfl rfl rfl rfl rfl ht.stationOp, hO.cfg, hO.cycle, hO.lsb, hO.nextSeq, fun r => hO.reg r, ?_,
      ?_, ?_, fun x => ?_, ?_⟩
    · simp [commitRequests, hl, hd, hO.cdbQueue, hO.cycle]
    · simp [hl, hO.stations]
    · simp [hl, hO.instances, hO.cycle]
    · rw [show e.stores x = false by simp [LsbEntry.stores, hl]]
      exact (coherentByte_congr rfl rfl rfl x).trans (hc x)
    · rw [LsbEntry.words_eq, hl]
      exact hA.congr ⟨rfl, rfl, rfl, rfl, rfl⟩ ⟨rfl, rfl, rfl, rfl, rfl⟩
  | false =>
    obtain ⟨bs, hv, hb⟩ := he.data hl
    obtain ⟨t, h1, hO, ht, hc, hA⟩ := writeEntry_spec hs he hb
    refine ⟨_, by simp only [Bool.false_eq_true, if_false, commitStore, hv, h1]; rfl, ?_⟩
    refine ⟨release_shaped (stamp_shaped ht _ _) _, hO.cfg, hO.cycle, hO.lsb, hO.nextSeq, fun r => hO.reg r, ?_, ?_, ?_,
      fun x => ?_, ?_⟩
    · simp [commitRequests, hl, hO.cdbQueue]
    · simp [hl, hO.stations]
    · simp [hl, hO.instances, hO.cycle]
    · refine ((coherentByte_congr rfl rfl rfl x).trans (hc x)).trans ?_
      simp [LsbEntry.stores, hl, hv]
    · rw [LsbEntry.words_eq, hl, hv]
      exact hA.congr ⟨rfl, rfl, rfl, rfl, rfl⟩ ⟨rfl, rfl, rfl, rfl, rfl⟩

theorem Committed.count {s t : State} {e : LsbEntry} (h : Committed s t e) :
    t.hits + t.misses = s.hits + s.misses + (if e.size = 8 then 2 else 1) :=
  e.length_words ▸ h.accesses.count

/-! ### The Memory phase -/

theorem EntryOk.decremented {e : LsbEntry} (h : EntryOk e) : EntryOk e.decremented :=
  ⟨h.size, h.wide, h.aligned, h.inside, h.kind, h.data⟩

theorem stampStart_withLsb (e : LsbEntry) (s : State) (l : List LsbEntry) :
    ({ stampStart e s with lsb := l } : State) = stampStart e { s with lsb := l } := by
  unfold stampStart
  split <;> rfl

theorem stampStart_shaped {s : State} (hs : Shaped s) (e : LsbEntry) : Shaped (stampStart e s) := by
  unfold stampStart
  split
  · exact hs
  · exact stamp_shaped hs _ _

/-- The first entry behind `kept` leaves a well-formed buffer well-formed, and is well-formed itself. -/
theorem Shaped.without {s : State} {kept es : List LsbEntry} (e : LsbEntry)
    (hs : Shaped { s with lsb := kept ++ e :: es }) :
    Shaped (stampStart e { s with lsb := kept ++ es }) ∧ EntryOk e.decremented := by
  have hl : (kept ++ es).Sublist (kept ++ e :: es) :=
    List.Sublist.append (List.Sublist.refl _) (List.sublist_cons_self _ _)
  exact ⟨stampStart_shaped (hs.withLsb (fun x hx => hs.entry x (hl.subset hx)) (hs.order.sublist hl)
    (fun x hx => hs.seqBelow x (hl.subset hx)) (Nat.le_trans hl.length_le hs.capacity)) e,
    (hs.entry e (by simp)).decremented⟩

/-- Counting the first entry behind `kept` down keeps the buffer well-formed. -/
theorem Shaped.counted {s : State} {kept es : List LsbEntry} (e : LsbEntry)
    (hs : Shaped { s with lsb := kept ++ e :: es }) :
    Shaped { stampStart e s with lsb := kept ++ [e.decremented] ++ es } := by
  rw [stampStart_withLsb]
  refine stampStart_shaped (hs.withLsb (l := kept ++ [e.decremented] ++ es) ?_ ?_ ?_ ?_) e
  · intro x hx
    simp only [List.append_assoc, List.cons_append, List.nil_append, List.mem_append, List.mem_cons] at hx
    rcases hx with hx | rfl | hx
    · exact hs.entry x (by simp [hx])
    · exact (hs.entry e (by simp)).decremented
    · exact hs.entry x (by simp [hx])
  · have ho := hs.order
    simp only [List.append_assoc, List.cons_append, List.nil_append, List.pairwise_append, List.pairwise_cons,
      List.mem_cons, forall_eq_or_imp] at ho ⊢
    exact ⟨ho.1, ⟨ho.2.1.1, ho.2.1.2⟩, fun a ha => ⟨(ho.2.2 a ha).1, (ho.2.2 a ha).2⟩⟩
  · intro x hx
    simp only [List.append_assoc, List.cons_append, List.nil_append, List.mem_append, List.mem_cons] at hx
    rcases hx with hx | rfl | hx
    · exact hs.seqBelow x (by simp [hx])
    · exact hs.seqBelow e (by simp)
    · exact hs.seqBelow x (by simp [hx])
  · have := hs.capacity
    simpa using this

/-- The entry at a tick's visit is stalled (R98). -/
def stalls (kept : List LsbEntry) (e : LsbEntry) : Bool := kept.any fun k => k.overlaps e

/-- A tick behind the entries `kept`, entry by entry: `none` where the entry stays as it is, else the state after its
commit or its decrement, in a well-formed memory system. -/
theorem lsbTickFrom_cons {s : State} {kept es : List LsbEntry} {e : LsbEntry}
    (hs : Shaped { s with lsb := kept ++ e :: es }) :
    (stalls kept e = true ∧ lsbTickFrom kept (e :: es) s = lsbTickFrom (kept ++ [e]) es s) ∨
    (stalls kept e = false ∧ e.decremented.remainingCycles = 0 ∧ ∃ u,
      Committed (stampStart e { s with lsb := kept ++ es }) u e ∧
      lsbTickFrom kept (e :: es) s = lsbTickFrom kept es u) ∨
    (stalls kept e = false ∧ e.decremented.remainingCycles ≠ 0 ∧
      lsbTickFrom kept (e :: es) s = lsbTickFrom (kept ++ [e.decremented]) es (stampStart e s)) := by
  cases hst : stalls kept e with
  | true => exact .inl ⟨rfl, by simp only [lsbTickFrom]; exact if_pos hst⟩
  | false =>
    have hk : ¬(kept.any fun k => k.overlaps e) = true := by
      rw [show (kept.any fun k => k.overlaps e) = false from hst]
      simp
    by_cases hz : e.decremented.remainingCycles = 0
    · obtain ⟨h1, h2⟩ := hs.without e
      obtain ⟨u, hu, hC⟩ := commit_spec h1 h2
      rw [← stampStart_withLsb] at hu
      exact .inr (.inl ⟨rfl, hz, u, ⟨hC.shaped, hC.cfg, hC.cycle, hC.lsb, hC.nextSeq, hC.reg, hC.queue, hC.stations,
        hC.instances, hC.coherent, hC.accesses⟩, by simp only [lsbTickFrom, if_neg hk, if_pos hz, hu]⟩)
    · exact .inr (.inr ⟨rfl, hz, by simp only [lsbTickFrom, if_neg hk, if_neg hz]⟩)

/-- A tick in a well-formed memory system goes through and keeps it well-formed. -/
theorem lsbTickFrom_shaped (kept es : List LsbEntry) (s : State) (hs : Shaped { s with lsb := kept ++ es }) :
    ∃ t, lsbTickFrom kept es s = .ok t ∧ Shaped t := by
  induction es generalizing kept s with
  | nil => exact ⟨_, rfl, by simpa using hs⟩
  | cons e es ih =>
    obtain ⟨-, h⟩ | ⟨-, -, u, hC, h⟩ | ⟨-, -, h⟩ := lsbTickFrom_cons hs <;> rw [h]
    · exact ih _ s (by simpa using hs)
    · exact ih kept u (hC.shaped.sameLsb (hC.lsb.trans (by simp)))
    · exact ih _ _ (hs.counted e)

theorem memoryPhase_shaped {s : State} (hs : Shaped s) : ∃ t, memoryPhase s = .ok t ∧ Shaped t :=
  lsbTickFrom_shaped [] s.lsb s hs

/-- The buffer a tick leaves of the entries `es` behind the entries `kept` (R98). -/
def lsbAfter : List LsbEntry → List LsbEntry → List LsbEntry
  | kept, [] => kept
  | kept, e :: es =>
    if kept.any (fun k => k.overlaps e) then lsbAfter (kept ++ [e]) es
    else if e.decremented.remainingCycles = 0 then lsbAfter kept es
    else lsbAfter (kept ++ [e.decremented]) es

theorem lsbAfter_cons (kept : List LsbEntry) (e : LsbEntry) (es : List LsbEntry) : lsbAfter kept (e :: es) =
    if stalls kept e then lsbAfter (kept ++ [e]) es
    else if e.decremented.remainingCycles = 0 then lsbAfter kept es
    else lsbAfter (kept ++ [e.decremented]) es := rfl

theorem lsbTickFrom_lsb {kept es : List LsbEntry} {s t : State} (h : lsbTickFrom kept es s = .ok t) :
    t.lsb = lsbAfter kept es := by
  induction es generalizing kept s with
  | nil => cases h; rfl
  | cons e es ih =>
    simp only [lsbTickFrom] at h
    simp only [lsbAfter]
    split at h
    · next hb => rw [if_pos hb]; exact ih h
    · next hb =>
      rw [if_neg hb]
      split at h
      · next hz =>
        rw [if_pos hz]
        split at h
        · cases h
        · exact ih h
      · next hz => rw [if_neg hz]; exact ih h

theorem lsbAfter_append (kept l1 l2 : List LsbEntry) : lsbAfter kept (l1 ++ l2) = lsbAfter (lsbAfter kept l1) l2 := by
  induction l1 generalizing kept with
  | nil => rfl
  | cons e l1 ih =>
    simp only [List.cons_append, lsbAfter]
    split
    · exact ih _
    · split <;> exact ih _

/-- What is kept stays, and what is left of the others is in their order. -/
theorem lsbAfter_eq (kept es : List LsbEntry) :
    ∃ l, lsbAfter kept es = kept ++ l ∧ (l.map LsbEntry.seq).Sublist (es.map LsbEntry.seq) := by
  induction es generalizing kept with
  | nil => exact ⟨[], by simp [lsbAfter], .slnil⟩
  | cons e es ih =>
    simp only [lsbAfter]
    split
    · obtain ⟨l, h1, h2⟩ := ih (kept ++ [e])
      exact ⟨e :: l, by simp [h1], by simpa using h2⟩
    · split
      · obtain ⟨l, h1, h2⟩ := ih kept
        exact ⟨l, h1, .cons _ h2⟩
      · obtain ⟨l, h1, h2⟩ := ih (kept ++ [e.decremented])
        exact ⟨e.decremented :: l, by simp [h1], by simpa [LsbEntry.decremented] using h2⟩

/-- An entry that is left is one of the entries, but for its countdown. -/
theorem mem_lsbAfter {kept es : List LsbEntry} {k : LsbEntry} (h : k ∈ lsbAfter kept es) :
    k ∈ kept ∨ ∃ e ∈ es, k = e ∨ k = e.decremented := by
  induction es generalizing kept with
  | nil => exact .inl h
  | cons e es ih =>
    simp only [lsbAfter] at h
    split at h
    · rcases ih h with h | ⟨e', he, h⟩
      · rcases List.mem_append.1 h with h | h
        · exact .inl h
        · exact .inr ⟨e, by simp, .inl (by simpa using h)⟩
      · exact .inr ⟨e', by simp [he], h⟩
    · split at h
      · rcases ih h with h | ⟨e', he, h⟩
        · exact .inl h
        · exact .inr ⟨e', by simp [he], h⟩
      · rcases ih h with h | ⟨e', he, h⟩
        · rcases List.mem_append.1 h with h | h
          · exact .inl h
          · exact .inr ⟨e, by simp, .inr (by simpa using h)⟩
        · exact .inr ⟨e', by simp [he], h⟩

/-! ### Handover and issue -/

theorem length_storeCodec {o : OpCode} {enc : Nat → F64 → Option (List Byte)} (h : storeCodec o = some enc) {i : Nat}
    {v : F64} {bs : List Byte} (hb : enc i v = some bs) : bs.length = opSize o := by
  revert h
  cases o <;> simp only [storeCodec, reduceCtorEq, false_implies, Option.some.injEq] <;> rintro rfl
  · simp only [encodeSw, Option.map_eq_some_iff] at hb
    obtain ⟨_, -, rfl⟩ := hb
    exact length_beBytes 4 _
  · simp only [encodeSd, Option.map_eq_some_iff] at hb
    obtain ⟨_, -, rfl⟩ := hb
    exact length_beBytes 8 _
  · cases hb; exact length_beBytes 4 _
  · cases hb; exact length_beBytes 8 _

theorem opSize_mem {o : OpCode} (h : kindIsMem (opKind o) = true) : opSize o = 4 ∨ opSize o = 8 := by
  revert h
  cases o <;> simp [opKind, kindIsMem, opSize]

/-- A handover to a buffer with room keeps the memory system well-formed. -/
theorem handover_shaped {s : State} (hs : Shaped s) {T : Tag} (hk : kindIsMem T.kind = true)
    (hr : s.lsb.length < s.cfg.lsbMax) : Cyc.All Shaped (handover T s) := by
  obtain ⟨r, h⟩ | ⟨f, -, h⟩ | ⟨S, o, base, off, inst, b, ea, data, hS, ho, -, -, -, -, -, h4, hin, hd, hn, h⟩ :=
    handover_cases (T := T) (s := s) rfl <;> rw [h]
  · trivial
  · exact raise_shaped hs f
  · have hSk : S.kind = T.kind := by rw [Station.kind, station?_name hS]
    have hok := hs.stationOp S (station?_mem hS) o ho
    have hw := opSize_mem (o := o) (by rw [hok, hSk, hk])
    have hE : EntryOk (lsbEntry S o ea inst data s) := by
      refine ⟨rfl, hw, h4, hin, ?_, ?_⟩
      · simp only [lsbEntry, hok]
      · intro hl
        have hst : S.kind = .store := by
          simp only [lsbEntry, beq_eq_false_iff_ne] at hl
          rw [← hSk] at hk
          revert hl hk
          cases S.kind <;> simp [kindIsMem]
        unfold storeData at hd
        rw [if_pos hst] at hd
        split at hd
        · next enc v hc hv =>
          split at hd
          · next bs he =>
            cases hd
            exact ⟨bs, rfl, length_storeCodec hc he⟩
          · cases hd
        · cases hd
    have h1 : Shaped { s with lsb := s.lsb ++ [lsbEntry S o ea inst data s], nextSeq := s.nextSeq + 1 } := by
      refine ⟨hs.block, hs.someLine, hs.lineCount, fun i L h => ?_, hs.memory, hs.stationOp, ?_, ?_, ?_, hn, ?_⟩
      · have := hs.line i L h
        exact ⟨this.size, this.inside, this.clean⟩
      · intro e he
        rcases List.mem_append.1 he with he | he
        · exact hs.entry e he
        · rw [List.mem_singleton.1 he]; exact hE
      · simp only [List.pairwise_append, List.pairwise_singleton, List.mem_singleton, forall_eq]
        exact ⟨hs.order, trivial, fun e he => hs.seqBelow e he⟩
      · intro e he
        rcases List.mem_append.1 he with he | he
        · exact Nat.lt_succ_of_lt (hs.seqBelow e he)
        · rw [List.mem_singleton.1 he]; exact Nat.lt_succ_self _
      · simpa using hr
    exact h1.mapStations rfl rfl rfl rfl rfl _ rfl fun S _ => by split <;> exact ⟨rfl, .inl rfl⟩

/-! ### The candidates of the deferred handover (40_cycle_engine.md R163) -/

theorem insertByInstance_perm (S : Station) (l : List Station) : (insertByInstance S l).Perm (S :: l) := by
  induction l with
  | nil => exact .refl _
  | cons P l ih =>
    simp only [insertByInstance]
    split
    · exact .refl _
    · exact (ih.cons P).trans (.swap S P l)

theorem insertByInstance_sorted {S : Station} {l : List Station}
    (h : l.Pairwise fun P Q => P.instruction.getD 0 ≤ Q.instruction.getD 0) :
    (insertByInstance S l).Pairwise fun P Q => P.instruction.getD 0 ≤ Q.instruction.getD 0 := by
  induction l with
  | nil => simp [insertByInstance]
  | cons P l ih =>
    simp only [insertByInstance]
    have hP := List.pairwise_cons.1 h
    split
    · next hle =>
      refine List.pairwise_cons.2 ⟨fun Q hQ => ?_, h⟩
      rcases List.mem_cons.1 hQ with rfl | hQ
      · exact hle
      · exact Nat.le_trans hle (hP.1 Q hQ)
    · next hle =>
      refine List.pairwise_cons.2 ⟨fun Q hQ => ?_, ih hP.2⟩
      rcases List.mem_cons.1 ((insertByInstance_perm S l).subset hQ) with rfl | hQ
      · omega
      · exact hP.1 Q hQ

/-- The candidates are the ready memory stations, each once. -/
theorem deferred_perm (s : State) :
    (deferred s).Perm (s.stations.filter fun S => kindIsMem S.kind && S.ready) := by
  unfold deferred
  generalize s.stations.filter _ = l
  induction l with
  | nil => exact .refl _
  | cons S l ih => exact (insertByInstance_perm S _).trans (ih.cons S)

/-- They stand in ascending instance number. -/
theorem deferred_sorted (s : State) :
    (deferred s).Pairwise fun P Q => P.instruction.getD 0 ≤ Q.instruction.getD 0 := by
  unfold deferred
  generalize s.stations.filter _ = l
  induction l with
  | nil => exact .nil
  | cons S l ih => exact insertByInstance_sorted ih

theorem mem_deferred {s : State} {S : Station} :
    S ∈ deferred s ↔ S ∈ s.stations ∧ kindIsMem S.kind = true ∧ S.ready = true := by
  rw [(deferred_perm s).mem_iff]
  simp

theorem deferredPhase_shaped {s : State} (hs : Shaped s) : Cyc.All Shaped (deferredPhase s) := by
  refine forEach_all (fun S hS t ht => ?_) hs
  unfold handoverIfRoom
  split
  · exact ht
  · next h => exact handover_shaped ht (mem_deferred.1 hS).2.1 (by simpa [State.lsbFull] using h)

theorem captured_shaped {s : State} (hs : Shaped s) {T : Tag} {o : OpCode} {d : Option Reg} {j : Reg} {k : Option Reg}
    {a : Option I32} (hT : opKind o = T.kind) : Shaped (captured T o d j k a s) := by
  refine hs.congr (by simp) (by simp) (by simp) (by simp) (by simp) fun P hP o' ho => ?_
  rw [captured_stations] at hP
  obtain ⟨S, hS, rfl⟩ := List.mem_map.1 hP
  split at ho
  · next h => rw [if_pos h]; cases ho; exact hT
  · next h => rw [if_neg h]; exact hs.stationOp S hS o' ho

theorem issueRecord_shaped {s t : State} (hs : Shaped s) {o : OpCode} {d : Option Reg} {j : Reg} {k : Option Reg}
    {a : Option I32} (h : issueRecord o d j k a s = .next t) : Shaped t := by
  obtain h' | ⟨T, hb, hT, ⟨hk, h'⟩ | ⟨hk, hl, hr, h'⟩ | ⟨hk, hl, hr, h'⟩⟩ := issueRecord_cases o d j k a s <;> rw [h'] at h
  · cases h; exact hs
  · cases h
    have hc := captured_shaped hs (T := T) (o := o) (d := d) (j := j) (k := k) (a := a) (kind_of_allocate hT).symm
    split <;> exact hc.congr rfl rfl rfl rfl rfl hc.stationOp
  · cases h
    have hc := captured_shaped hs (T := T) (o := o) (d := d) (j := j) (k := k) (a := a) (kind_of_allocate hT).symm
    exact hc.congr rfl rfl rfl rfl rfl hc.stationOp
  · have hc := captured_shaped hs (T := T) (o := o) (d := d) (j := j) (k := k) (a := a) (kind_of_allocate hT).symm
    have hh := handover_shaped hc (T := T) (by rw [kind_of_allocate hT]; exact hk) (by simpa using hl)
    split at h
    · next s' he =>
      cases h
      rw [he] at hh
      have hh : Shaped s' := hh
      exact hh.congr rfl rfl rfl rfl rfl hh.stationOp
    · next s' he => cases h; rw [he] at hh; exact hh
    · cases h

/-! ### Execute and Write -/

theorem stampBound_shaped {s : State} (hs : Shaped s) (S : Station) (f : DynInst → DynInst) :
    Shaped (stampBound S f s) := by
  unfold stampBound
  split
  · exact stamp_shaped hs _ _
  · exact hs

theorem enqueue_shaped {s : State} (hs : Shaped s) (T : Tag) (v : F64) (d : Option Reg) (o : OpCode) :
    Shaped (enqueue T v d o s) := hs.congr rfl rfl rfl rfl rfl hs.stationOp

theorem Shaped.withQueue {s : State} (hs : Shaped s) (l : List Request) : Shaped { s with cdbQueue := l } :=
  hs.congr rfl rfl rfl rfl rfl hs.stationOp

/-- An update by tag that keeps name and op. -/
theorem updStation_shaped {s : State} (hs : Shaped s) (T : Tag) {f : Station → Station}
    (hf : ∀ S : Station, (f S).name = S.name ∧ (f S).op = S.op) : Shaped (updStation T f s) := by
  refine hs.mapStations rfl rfl rfl rfl rfl _ rfl fun S _ => ?_
  split
  · exact ⟨by rw [Station.kind, (hf S).1]; rfl, .inl (hf S).2⟩
  · exact ⟨rfl, .inl rfl⟩

theorem countDown_shaped {s : State} (hs : Shaped s) (T : Tag) : Cyc.All Shaped (countDown T s) := by
  have hu : Shaped (updStation T (fun S => { S with remainingCycles := S.remainingCycles - 1 }) s) :=
    updStation_shaped hs T fun S => ⟨rfl, rfl⟩
  obtain ⟨r, h⟩ | ⟨S, -, ⟨-, h⟩ | ⟨-, -, h⟩ | ⟨o, v, -, -, -, -, h⟩⟩ := countDown_cases (T := T) (s := s) rfl <;> rw [h]
  · trivial
  · exact hs
  · exact hu
  · exact stampBound_shaped (enqueue_shaped hu _ _ _ _) _ _

theorem startStation_shaped {s : State} (hs : Shaped s) (T : Tag) : Cyc.All Shaped (startStation T s) := by
  obtain ⟨r, h⟩ | ⟨S, -, h | ⟨l, -, -, h⟩⟩ := startStation_cases (T := T) (s := s) rfl <;> rw [h]
  · trivial
  · exact hs
  · have hu : Shaped (updStation T (fun S => { S with execStarted := true, remainingCycles := l }) s) :=
      updStation_shaped hs T fun S => ⟨rfl, rfl⟩
    exact stampBound_shaped hu _ _

theorem executePhase_shaped {s : State} (hs : Shaped s) : Cyc.All Shaped (executePhase s) := by
  have h1 := forEach_all (xs := s.tags) (fun T _ t ht => countDown_shaped ht T) hs
  unfold executePhase
  split
  · next e h => rw [h] at h1; exact h1
  · next s' h => rw [h] at h1; exact forEach_all (fun T _ t ht => startStation_shaped ht T) h1

theorem broadcastCore_shaped {s : State} (hs : Shaped s) (q : Request) : Shaped (broadcastCore q s) := by
  have hw : Shaped (regWrite q.station q.value q.dest s) :=
    hs.congr (by simp) (by simp) (by simp) (by simp) (by simp) (by simp; exact hs.stationOp)
  have hf : Shaped (forward q.station q.value (regWrite q.station q.value q.dest s)) := by
    refine hw.mapStations rfl rfl rfl rfl rfl _ rfl fun S _ => ?_
    split
    · rw [forwardJK_eq]; exact ⟨rfl, .inl rfl⟩
    · exact ⟨rfl, .inl rfl⟩
  refine release_shaped ?_ _
  unfold stampWrite
  split
  · exact stamp_shaped hf _ _
  · exact hf

theorem settle_shaped {s : State} (hs : Shaped s) (i : Nat) (b : Bool) (target : I32) : Shaped (settle i b target s) := by
  have h1 := stamp_shaped hs i (fun d => { d with taken := some b })
  unfold settle
  cases b with
  | false => exact h1.congr rfl rfl rfl rfl rfl h1.stationOp
  | true =>
    have hl : ((stamp i (fun d => { d with taken := some true }) s).lsb.filter fun e => decide (e.inst ≤ i)).Sublist
        (stamp i (fun d => { d with taken := some true }) s).lsb := List.filter_sublist
    have h2 := h1.withLsb (fun e he => h1.entry e (hl.subset he)) (h1.order.sublist hl)
      (fun e he => h1.seqBelow e (hl.subset he)) (Nat.le_trans hl.length_le h1.capacity)
    refine h2.mapStations rfl rfl rfl rfl rfl _ rfl fun S _ => ?_
    split
    · exact ⟨rfl, .inr rfl⟩
    · exact ⟨rfl, .inl rfl⟩

theorem writePhase_shaped {s : State} (hs : Shaped s) : Cyc.All Shaped (writePhase s) := by
  obtain ⟨h, h'⟩ | ⟨q, rest, -, ⟨hk, h'⟩ | ⟨hk, ⟨i, hi, h'⟩ | ⟨hi, h'⟩⟩⟩ := writePhase_cases (s := s) rfl <;> rw [h']
  · exact hs
  · exact broadcastCore_shaped (hs.withQueue rest) q
  · have hb : Shaped (broadcastCore q { s with cdbQueue := rest }) :=
      broadcastCore_shaped (hs.withQueue rest) q
    obtain ⟨r, h⟩ | ⟨d, r, ins, rs, rt, tg, -, -, -, -, ⟨x, -, -, h⟩ | ⟨-, -, b, h⟩⟩ := resolve_cases (i := i)
      (s := broadcastCore q { s with cdbQueue := rest }) rfl <;> rw [h]
    · trivial
    · exact raise_shaped hb _
    · exact settle_shaped hb i b tg
  · trivial

end Sys2Proof.Machine
end

