-- ==== Sys2Proof/Laws/Link.lean ====
section
/-! SUPPORT. That the phases of a cycle keep the tag invariants (10_state.md R42, R43, 40_cycle_engine.md R180): one lemma
per shared operation. -/

namespace Sys2Proof.Machine

/-! ### Reading the invariant -/

/-- Distinct names make stations of one name equal. -/
theorem Linked.unique {s : State} (h : Linked s) {S P : Station} (hS : S ∈ s.stations) (hP : P ∈ s.stations)
    (e : S.name = P.name) : S = P := List.inj_on_of_nodup_map h.names hS hP e

/-- A station whose name finds it by `station?`. -/
theorem Linked.found {s : State} (h : Linked s) {S P : Station} {T : Tag} (hS : s.station? T = some S)
    (hP : P ∈ s.stations) (e : P.name = T) : P = S :=
  h.unique hP (station?_mem hS) (e.trans (station?_name hS).symm)

/-- The station of a request. -/
theorem Linked.ofQueued {s : State} (h : Linked s) {q : Request} (hq : q ∈ s.cdbQueue) :
    ∃ S, s.station? q.station = some S ∧ S.busy = true ∧ S.execStarted = true ∧ S.remainingCycles = 0 ∧
      S.dest = q.dest := by
  obtain ⟨S, hS, hn, hb, he, hr, hd⟩ := h.queued q hq
  exact ⟨S, hn ▸ station?_of_mem h.names hS, hb, he, hr, hd⟩

/-- A request's or an entry's station has started. -/
theorem Linked.once_started {s : State} (h : Linked s) {T : Tag}
    (hT : T ∈ s.cdbQueue.map Request.station ++ s.lsb.map LsbEntry.station) :
    ∃ S ∈ s.stations, S.name = T ∧ S.execStarted = true ∧ S.remainingCycles = 0 := by
  rcases List.mem_append.1 hT with hT | hT
  · obtain ⟨q, hq, rfl⟩ := List.mem_map.1 hT
    obtain ⟨S, hS, hn, -, he, hr, -⟩ := h.queued q hq
    exact ⟨S, hS, hn, he, hr⟩
  · obtain ⟨e, hq, rfl⟩ := List.mem_map.1 hT
    obtain ⟨S, hS, hn, -, he, hk, -⟩ := h.buffered e hq
    refine ⟨S, hS, hn, he, ?_⟩
    by_contra hr
    have := (h.counting S hS (by omega)).2
    rw [hk] at this
    cases this

/-- An instance is bound to one station at most. -/
theorem Linked.unique_instruction {s : State} (h : Linked s) {S P : Station} (hS : S ∈ s.stations) (hP : P ∈ s.stations)
    {i : Nat} (e : S.instruction = some i) (e' : P.instruction = some i) : S = P := by
  have hb : ∀ Q ∈ s.stations, Q.instruction = some i → ∃ d, s.instances[i]? = some d ∧ d.station = Q.name := by
    intro Q hQ hi
    cases hq : Q.busy with
    | false => rw [h.free Q hQ hq] at hi; cases hi
    | true =>
      obtain ⟨o, j, d, -, -, hj, hd, hn, -⟩ := h.bound Q hQ hq
      rw [hi] at hj
      cases hj
      exact ⟨d, hd, hn⟩
  obtain ⟨d, hd, hn⟩ := hb S hS e
  obtain ⟨d', hd', hn'⟩ := hb P hP e'
  rw [hd] at hd'
  cases hd'
  exact h.unique hS hP (hn.symm.trans hn')

/-! ### Updates the invariant does not read -/

/-- The instance log, as far as the invariant reads it. -/
structure SameLog (s t : State) : Prop where
  length : t.instances.length = s.instances.length
  entry : ∀ (i : Nat) (d : DynInst), s.instances[i]? = some d →
    ∃ d' : DynInst, t.instances[i]? = some d' ∧ d'.pc = d.pc ∧ d'.station = d.station ∧ d'.op = d.op

theorem SameLog.of_eq {s t : State} (h : t.instances = s.instances) : SameLog s t :=
  ⟨by rw [h], fun i d hd => ⟨d, by rw [h]; exact hd, rfl, rfl, rfl⟩⟩

theorem SameLog.of_modify {s t : State} {i : Nat} {f : DynInst → DynInst} (h : t.instances = s.instances.modify i f)
    (hf : ∀ d, (f d).pc = d.pc ∧ (f d).station = d.station ∧ (f d).op = d.op) : SameLog s t := by
  refine ⟨by simp [h], fun j d hd => ?_⟩
  rw [h, List.getElem?_modify, hd]
  by_cases e : i = j
  · exact ⟨f d, by simp [e], hf d⟩
  · exact ⟨d, by simp [e], rfl, rfl, rfl⟩

theorem BranchBound.congr {s t : State} (hp : t.prog = s.prog) (hr : ∀ r, t.reg r = s.reg r) (hl : SameLog s t)
    {S : Station} (h : BranchBound s S) : BranchBound t S := by
  obtain ⟨i, d, r, ins, rs, rt, tg, hi, hd, hrec, hc, ho, hj, hk⟩ := h
  obtain ⟨d', hd', hpc, -, -⟩ := hl.entry i d hd
  exact ⟨i, d', r, ins, rs, rt, tg, hi, hd', by rw [hp, hpc]; exact hrec, by rw [hp, hpc]; exact hc, ho,
    by rw [hr]; exact hj, by rw [hr]; exact hk⟩

/-- The invariant reads the program, the registers, the stations, the log, the queue, the buffer and the block. -/
theorem Linked.congr {s t : State} (h : Linked s) (hp : t.prog = s.prog) (hr : ∀ r, t.reg r = s.reg r)
    (hs : t.stations = s.stations) (hl : SameLog s t) (hq : t.cdbQueue = s.cdbQueue) (hb : t.lsb = s.lsb)
    (hbp : t.branchPending = s.branchPending) : Linked t where
  names := by rw [State.tags, hs]; exact h.names
  free := by rw [hs]; exact h.free
  bound := by
    rw [hs]
    intro S hS hbz
    obtain ⟨o, i, d, ho, hk, hi, hd, hn, hop, hslot⟩ := h.bound S hS hbz
    obtain ⟨d', hd', -, hst, hop'⟩ := hl.entry i d hd
    exact ⟨o, i, d', ho, hk, hi, hd', hst.trans hn, hop'.trans hop, hslot⟩
  started := by rw [hs]; exact h.started
  counting := by rw [hs]; exact h.counting
  regTag := by
    intro r T hT
    rw [hr] at hT
    rw [hs]
    exact h.regTag r T hT
  slotTag := by rw [hs]; exact h.slotTag
  queued := by rw [hs, hq]; exact h.queued
  buffered := by rw [hs, hb]; exact h.buffered
  once := by rw [hq, hb]; exact h.once
  branch := by
    rw [hs, hbp, hl.length]
    intro S hS h1 h2
    obtain ⟨a, b, c⟩ := h.branch S hS h1 h2
    exact ⟨a, b, c.congr hp hr hl⟩

theorem raise_linked {s : State} (h : Linked s) (f : Fault) : Cyc.All Linked (.error (raise f s)) :=
  h.congr rfl (fun _ => reg_congr rfl rfl _) rfl (.of_eq rfl) rfl rfl rfl

theorem stamp_linked {s : State} (h : Linked s) (i : Nat) {f : DynInst → DynInst}
    (hf : ∀ d, (f d).pc = d.pc ∧ (f d).station = d.station ∧ (f d).op = d.op) : Linked (stamp i f s) :=
  h.congr rfl (fun _ => reg_congr rfl rfl _) rfl (.of_modify rfl hf) rfl rfl rfl

theorem stampBound_linked {s : State} (h : Linked s) (S : Station) {f : DynInst → DynInst}
    (hf : ∀ d, (f d).pc = d.pc ∧ (f d).station = d.station ∧ (f d).op = d.op) : Linked (stampBound S f s) := by
  unfold stampBound
  split
  · exact stamp_linked h _ hf
  · exact h

/-! ### Starting and counting -/

/-- A station's timer changes: execution starts or goes on, and a station with a request counts no more. -/
theorem retime_linked {s : State} (h : Linked s) {T : Tag} {S : Station} (hS : s.station? T = some S) {n : Nat}
    (hb : S.busy = true) (hj : S.qj = none) (hk : S.kind = .load ∨ S.qk = none)
    (hn : 0 < n → kindIsMem S.kind = false)
    (hq : T ∈ s.cdbQueue.map Request.station ++ s.lsb.map LsbEntry.station → n = 0) :
    Linked (updStation T (fun S => { S with execStarted := true, remainingCycles := n }) s) := by
  have hSm := station?_mem hS
  have hSn := station?_name hS
  have hst : ∀ P ∈ (updStation T (fun S => { S with execStarted := true, remainingCycles := n }) s).stations,
      P = { S with execStarted := true, remainingCycles := n } ∨ (P ∈ s.stations ∧ P.name ≠ T) := by
    intro P hP
    rw [updStation_stations] at hP
    obtain ⟨P', hP', rfl⟩ := List.mem_map.1 hP
    by_cases e : P'.name = T
    · rw [if_pos e, h.found hS hP' e]; exact .inl rfl
    · rw [if_neg e]; exact .inr ⟨hP', e⟩
  have hback : ∀ P ∈ s.stations, ∃ P' ∈ (updStation T (fun S => { S with execStarted := true, remainingCycles := n })
      s).stations, P' = (if P.name = T then { P with execStarted := true, remainingCycles := n } else P) :=
    fun P hP => ⟨_, List.mem_map.2 ⟨P, hP, rfl⟩, rfl⟩
  refine ⟨?_, ?_, ?_, ?_, ?_, ?_, ?_, ?_, ?_, h.once, ?_⟩
  · rw [tags_updStation (T := T) (f := fun S => { S with execStarted := true, remainingCycles := n }) fun _ e => e]
    exact h.names
  · intro P hP hbz
    rcases hst P hP with rfl | ⟨hP', -⟩
    · rw [show ({ S with execStarted := true, remainingCycles := n } : Station).busy = S.busy from rfl, hb] at hbz
      cases hbz
    · exact h.free P hP' hbz
  · intro P hP hbz
    rcases hst P hP with rfl | ⟨hP', -⟩
    · obtain ⟨o, i, d, ho, hk, hi, hd, hn, hop, hs1, hs2, hs3, hs4⟩ := h.bound S hSm hb
      exact ⟨o, i, d, ho, hk, hi, hd, hn, hop, hs1, hs2, hs3, hs4⟩
    · exact h.bound P hP' hbz
  · intro P hP he
    rcases hst P hP with rfl | ⟨hP', -⟩
    · exact ⟨hb, hj, hk⟩
    · exact h.started P hP' he
  · intro P hP hr
    rcases hst P hP with rfl | ⟨hP', -⟩
    · exact ⟨rfl, hn hr⟩
    · exact h.counting P hP' hr
  · intro r U hU
    obtain ⟨P, hP, hPn, hPb, hPd⟩ := h.regTag r U hU
    obtain ⟨P', hP', rfl⟩ := hback P hP
    exact ⟨_, hP', by split <;> exact hPn, by split <;> exact hPb, by split <;> exact hPd⟩
  · intro P hP U hU
    have hP' : ∃ P' ∈ s.stations, P'.name = P.name ∧ P'.qj = P.qj ∧ P'.qk = P.qk := by
      rcases hst P hP with rfl | ⟨hP', -⟩
      · exact ⟨S, hSm, rfl, rfl, rfl⟩
      · exact ⟨P, hP', rfl, rfl, rfl⟩
    obtain ⟨P', hP', e1, e2, e3⟩ := hP'
    obtain ⟨hne, Q, hQ, hQn, hQb, hQd⟩ := h.slotTag P' hP' U (by rw [e2, e3]; exact hU)
    obtain ⟨Q', hQ', rfl⟩ := hback Q hQ
    exact ⟨by rw [← e1]; exact hne, _, hQ', by split <;> exact hQn, by split <;> exact hQb, by split <;> exact hQd⟩
  · intro q hq'
    obtain ⟨P, hP, hPn, hPb, hPe, hPr, hPd⟩ := h.queued q hq'
    obtain ⟨P', hP', rfl⟩ := hback P hP
    refine ⟨_, hP', by split <;> exact hPn, by split <;> exact hPb, by split <;> first | rfl | exact hPe, ?_,
      by split <;> exact hPd⟩
    split
    · next e => exact hq (List.mem_append.2 (.inl (List.mem_map.2 ⟨q, hq', by rw [← e, hPn]⟩)))
    · exact hPr
  · intro e he
    obtain ⟨P, hP, hPn, hPb, hPe, hPk, hPd, hPo, hPi, hPl⟩ := h.buffered e he
    obtain ⟨P', hP', rfl⟩ := hback P hP
    exact ⟨_, hP', by split <;> exact hPn, by split <;> exact hPb, by split <;> first | rfl | exact hPe,
      by split <;> exact hPk, by split <;> exact hPd, by split <;> exact hPo, by split <;> exact hPi,
      by split <;> exact hPl⟩
  · intro P hP hbz hkd
    have hP' : ∃ P' ∈ s.stations, P'.busy = P.busy ∧ P'.kind = P.kind ∧ P'.instruction = P.instruction ∧
        P'.qj = P.qj ∧ P'.qk = P.qk := by
      rcases hst P hP with rfl | ⟨hP', -⟩
      · exact ⟨S, hSm, rfl, rfl, rfl, rfl, rfl⟩
      · exact ⟨P, hP', rfl, rfl, rfl, rfl, rfl⟩
    obtain ⟨P', hP', e1, e2, e3, e4, e5⟩ := hP'
    obtain ⟨a, b, i, d, r, ins, rs, rt, tg, hi, hd, hrec, hc, ho, hjq, hkq⟩ :=
      h.branch P' hP' (e1.trans hbz) (e2.trans hkd)
    exact ⟨a, e3.symm.trans b, i, d, r, ins, rs, rt, tg, e3.symm.trans hi, hd, hrec, hc, ho, e4.symm.trans hjq,
      e5.symm.trans hkq⟩

/-- Two updates of one station that agree on it are the same update. -/
theorem updStation_congr {s : State} (h : Linked s) {T : Tag} {S : Station} (hS : s.station? T = some S)
    {f g : Station → Station} (e : f S = g S) : updStation T f s = updStation T g s := by
  unfold updStation
  congr 1
  refine List.map_congr_left fun P hP => ?_
  by_cases hn : P.name = T
  · rw [if_pos hn, if_pos hn, h.found hS hP hn, e]
  · rw [if_neg hn, if_neg hn]

/-- A new request of a station that has started, counts no more and has none yet. -/
theorem enqueue_linked {s : State} (h : Linked s) {S : Station} (hS : S ∈ s.stations) (hb : S.busy = true)
    (he : S.execStarted = true) (hr : S.remainingCycles = 0) (v : F64) (o : OpCode)
    (hq : S.name ∉ s.cdbQueue.map Request.station ++ s.lsb.map LsbEntry.station) :
    Linked (enqueue S.name v S.dest o s) := by
  refine ⟨h.names, h.free, h.bound, h.started, h.counting, h.regTag, h.slotTag, ?_, h.buffered, ?_, h.branch⟩
  · intro q hq'
    rw [enqueue_cdbQueue] at hq'
    rcases List.mem_append.1 hq' with hq' | hq'
    · exact h.queued q hq'
    · rw [List.mem_singleton.1 hq']
      exact ⟨S, hS, rfl, hb, he, hr, rfl⟩
  · rw [enqueue_cdbQueue, List.map_append, enqueue_lsb]
    have : (S.name :: (s.cdbQueue.map Request.station ++ s.lsb.map LsbEntry.station)).Nodup :=
      List.nodup_cons.2 ⟨hq, h.once⟩
    refine (List.Perm.nodup_iff ?_).1 this
    simp only [List.map_cons, List.map_nil, List.append_assoc, List.cons_append, List.nil_append]
    exact List.perm_middle.symm

theorem countDown_linked {s : State} (h : Linked s) (T : Tag) : Cyc.All Linked (countDown T s) := by
  obtain ⟨r, hc⟩ | ⟨S, hS, ⟨-, hc⟩ | ⟨hr, h1, hc⟩ | ⟨o, v, hr, h1, ho, hv, hc⟩⟩ := countDown_cases (T := T) (s := s) rfl <;>
    rw [hc]
  · trivial
  · exact h
  all_goals
    simp only [Station.running, Bool.and_eq_true, Bool.not_eq_true', decide_eq_true_eq] at hr
    obtain ⟨⟨⟨hk, hb⟩, he⟩, hpos⟩ := hr
    have hst := h.started S (station?_mem hS) he
    have hnq : T ∉ s.cdbQueue.map Request.station ++ s.lsb.map LsbEntry.station := by
      intro hT
      obtain ⟨P, hP, hPn, -, hP0⟩ := h.once_started hT
      rw [h.found hS hP hPn] at hP0
      omega
    have hu : updStation T (fun S => { S with remainingCycles := S.remainingCycles - 1 }) s =
        updStation T (fun P => { P with execStarted := true, remainingCycles := S.remainingCycles - 1 }) s :=
      updStation_congr h hS (by simp [he])
    have hL := retime_linked h hS (n := S.remainingCycles - 1) hb hst.2.1 hst.2.2 (fun _ => hk) (fun hT => absurd hT hnq)
    rw [← hu] at hL
  · exact hL
  · have hSn := station?_name hS
    refine stampBound_linked ?_ S fun d => ⟨rfl, rfl, rfl⟩
    have hm : ({ S with remainingCycles := S.remainingCycles - 1 } : Station) ∈
        (updStation T (fun S => { S with remainingCycles := S.remainingCycles - 1 }) s).stations :=
      List.mem_map.2 ⟨S, station?_mem hS, by rw [if_pos hSn]⟩
    exact enqueue_linked hL hm hb he (by simp [h1]) v o (by dsimp only; rw [hSn]; exact hnq)

theorem startStation_linked {s : State} (h : Linked s) (T : Tag) : Cyc.All Linked (startStation T s) := by
  obtain ⟨r, hc⟩ | ⟨S, hS, hc | ⟨l, hr, hl, hc⟩⟩ := startStation_cases (T := T) (s := s) rfl <;> rw [hc]
  · trivial
  · exact h
  · simp only [Station.startable, Station.ready, Bool.and_eq_true, Bool.not_eq_true', decide_eq_true_eq, Bool.or_eq_true,
      beq_iff_eq, Option.isNone_iff_eq_none] at hr
    obtain ⟨⟨hk, ⟨⟨⟨hb, he⟩, hj⟩, hq⟩⟩, -⟩ := hr
    refine stampBound_linked (retime_linked h hS hb hj hq (fun _ => hk) fun hT => ?_) S fun d => ⟨rfl, rfl, rfl⟩
    obtain ⟨P, hP, hPn, hPe, -⟩ := h.once_started hT
    rw [h.found hS hP hPn, he] at hPe
    cases hPe

theorem executePhase_linked {s : State} (h : Linked s) : Cyc.All Linked (executePhase s) := by
  have h1 := forEach_all (xs := s.tags) (fun T _ t ht => countDown_linked ht T) h
  unfold executePhase
  split
  · next e he => rw [he] at h1; exact h1
  · next s' he => rw [he] at h1; exact forEach_all (fun T _ t ht => startStation_linked ht T) h1

/-! ### The cache and the commits -/

/-- Nothing but the cache, ByteMemory and `fault` differs. -/
def CacheOrFault (s t : State) : Prop :=
  t = { s with mem := t.mem, lines := t.lines, hits := t.hits, misses := t.misses, fault := t.fault }

theorem CacheOrFault.trans {s t u : State} (h : CacheOrFault s t) (h' : CacheOrFault t u) : CacheOrFault s u := by
  unfold CacheOrFault at *
  rw [h] at h'
  exact h'

theorem CacheOrFault.linked {s t : State} (hc : CacheOrFault s t) (h : Linked s) : Linked t := by
  rw [hc]
  exact h.congr rfl (fun _ => reg_congr rfl rfl _) rfl (.of_eq rfl) rfl rfl rfl

theorem lineFor_cache (a : Nat) (s : State) : Cyc.All (CacheOrFault s) (lineFor a s) := by
  unfold lineFor
  split
  · trivial
  · next L _ =>
    split
    · exact rfl
    · have h1 : Cyc.All (CacheOrFault s) (writeBack (indexOf s.cfg a) L { s with misses := s.misses + 1 }) := by
        unfold writeBack writeBlock
        split
        · split <;> exact rfl
        · exact rfl
      split
      · next e he => rw [he] at h1; exact h1
      · next s' he =>
        rw [he] at h1
        refine Cyc.All.mono (fun _ h => CacheOrFault.trans h1 h) ?_
        unfold fetchLine
        split
        · next e h =>
          unfold readBlock at h
          split at h <;> cases h
          exact rfl
        · exact rfl

theorem cacheReadWord_cache (a : Nat) (s : State) : Cyc.AllPair (CacheOrFault s) (cacheReadWord a s) := by
  have h1 := lineFor_cache a s
  unfold cacheReadWord
  split
  · next e h =>
    rw [h] at h1
    cases e <;> exact h1
  · next s' h => rw [h] at h1; exact h1

theorem cacheWriteWord_cache (a : Nat) (bs : List Byte) (s : State) :
    Cyc.All (CacheOrFault s) (cacheWriteWord a bs s) := by
  have h1 := lineFor_cache a s
  unfold cacheWriteWord
  split
  · next e h => rw [h] at h1; exact h1
  · next s' h =>
    rw [h] at h1
    exact CacheOrFault.trans h1 rfl

theorem readEntry_cache (e : LsbEntry) (s : State) : Cyc.AllPair (CacheOrFault s) (readEntry e s) := by
  have h1 := cacheReadWord_cache e.address s
  unfold readEntry
  split
  · next x h => rw [h] at h1; cases x <;> exact h1
  · next b s1 h =>
    rw [h] at h1
    split
    · have h2 := cacheReadWord_cache (e.address + 4) s1
      split
      · next x h => rw [h] at h2; cases x with
        | fatal => exact CacheOrFault.trans h1 h2
        | refuse => trivial
      · next b' s2 h => rw [h] at h2; exact CacheOrFault.trans h1 h2
    · exact h1

theorem writeEntry_cache (e : LsbEntry) (bs : List Byte) (s : State) :
    Cyc.All (CacheOrFault s) (writeEntry e bs s) := by
  have h1 := cacheWriteWord_cache e.address (bs.take 4) s
  unfold writeEntry
  split
  · next x h => rw [h] at h1; exact h1
  · next s1 h =>
    rw [h] at h1
    split
    · exact (cacheWriteWord_cache _ _ s1).mono fun _ h => CacheOrFault.trans h1 h
    · exact h1

/-- The buffer may shrink, or its entries count down. -/
theorem Linked.withLsb {s : State} (h : Linked s) {l : List LsbEntry}
    (hb : ∀ e ∈ l, ∃ e' ∈ s.lsb, e.station = e'.station ∧ e.dest = e'.dest ∧ e.op = e'.op ∧ e.inst = e'.inst ∧
      e.isLoad = e'.isLoad)
    (ho : (l.map LsbEntry.station).Sublist (s.lsb.map LsbEntry.station)) : Linked { s with lsb := l } where
  names := h.names
  free := h.free
  bound := h.bound
  started := h.started
  counting := h.counting
  regTag := h.regTag
  slotTag := h.slotTag
  queued := h.queued
  buffered := by
    intro e he
    obtain ⟨e', he', h1, h2, h3, h4, h5⟩ := hb e he
    rw [h1, h2, h3, h4, h5]
    exact h.buffered e' he'
  once := h.once.sublist (List.Sublist.append (List.Sublist.refl _) ho)
  branch := h.branch

/-- A station without destination, request and entry can be released. -/
theorem release_linked {s : State} (h : Linked s) {S : Station} (hS : S ∈ s.stations) (hd : S.dest = none)
    (hq : S.name ∉ s.cdbQueue.map Request.station ++ s.lsb.map LsbEntry.station) : Linked (release S.name s) := by
  have hst : ∀ P ∈ (release S.name s).stations, P = Station.free S.name ∨ (P ∈ s.stations ∧ P.name ≠ S.name) := by
    intro P hP
    rw [release_stations] at hP
    obtain ⟨P', hP', rfl⟩ := List.mem_map.1 hP
    by_cases e : P'.name = S.name
    · rw [if_pos e]; exact .inl rfl
    · rw [if_neg e]; exact .inr ⟨hP', e⟩
  have hback : ∀ P ∈ s.stations, P.name ≠ S.name → P ∈ (release S.name s).stations := fun P hP e =>
    List.mem_map.2 ⟨P, hP, by rw [if_neg e]⟩
  refine ⟨by rw [tags_release]; exact h.names, ?_, ?_, ?_, ?_, ?_, ?_, ?_, ?_, h.once, ?_⟩
  · intro P hP hb
    rcases hst P hP with rfl | ⟨hP', -⟩
    · rfl
    · exact h.free P hP' hb
  · intro P hP hb
    rcases hst P hP with rfl | ⟨hP', -⟩
    · cases hb
    · exact h.bound P hP' hb
  · intro P hP hb
    rcases hst P hP with rfl | ⟨hP', -⟩
    · cases hb
    · exact h.started P hP' hb
  · intro P hP hb
    rcases hst P hP with rfl | ⟨hP', -⟩
    · exact absurd hb (Nat.lt_irrefl 0)
    · exact h.counting P hP' hb
  · intro r T hT
    obtain ⟨P, hP, hn, hb, hd'⟩ := h.regTag r T hT
    refine ⟨P, hback P hP fun e => ?_, hn, hb, hd'⟩
    rw [h.unique hP hS e, hd] at hd'
    cases hd'
  · intro P hP T hT
    rcases hst P hP with rfl | ⟨hP', -⟩
    · rcases hT with hT | hT <;> cases hT
    · obtain ⟨hne, Q, hQ, hn, hb, hd'⟩ := h.slotTag P hP' T hT
      refine ⟨hne, Q, hback Q hQ fun e => ?_, hn, hb, hd'⟩
      rw [h.unique hQ hS e, hd] at hd'
      cases hd'
  · intro q hq'
    obtain ⟨P, hP, hn, hrest⟩ := h.queued q hq'
    exact ⟨P, hback P hP fun e => hq (List.mem_append.2 (.inl (List.mem_map.2 ⟨q, hq', by rw [← hn, e]⟩))), hn, hrest⟩
  · intro e he
    obtain ⟨P, hP, hn, hrest⟩ := h.buffered e he
    exact ⟨P, hback P hP fun e' => hq (List.mem_append.2 (.inr (List.mem_map.2 ⟨e, he, by rw [← hn, e']⟩))), hn, hrest⟩
  · intro P hP hb hk
    rcases hst P hP with rfl | ⟨hP', -⟩
    · cases hb
    · exact h.branch P hP' hb hk

/-- A commit of an entry that is no longer in the buffer. -/
theorem commit_linked {s : State} (h : Linked s) {e : LsbEntry} {S : Station} (hS : S ∈ s.stations)
    (hn : S.name = e.station) (hb : S.busy = true) (hx : S.execStarted = true) (hk : kindIsMem S.kind = true)
    (hd : S.dest = e.dest) (ho : S.op = some e.op) (hl : e.isLoad = (S.kind == .load))
    (hq : e.station ∉ s.cdbQueue.map Request.station ++ s.lsb.map LsbEntry.station) :
    Cyc.All (fun t => Linked t ∧ t.lsb = s.lsb) (commit e s) := by
  have h0 : S.remainingCycles = 0 := by
    by_contra hr
    have := (h.counting S hS (by omega)).2
    rw [hk] at this
    cases this
  have hmono : ∀ t, CacheOrFault s t → Linked t ∧ t.lsb = s.lsb := fun t ht => ⟨ht.linked h, by rw [ht]⟩
  unfold commit
  split
  · have h1 := readEntry_cache e s
    unfold commitLoad
    split
    · next x he =>
      rw [he] at h1
      cases x with
      | fatal => exact hmono _ h1
      | refuse => trivial
    · next b t he =>
      rw [he] at h1
      have h1 : CacheOrFault s t := h1
      have ht := h1.linked h
      have e1 : t.stations = s.stations := by rw [h1]
      have e2 : t.cdbQueue = s.cdbQueue := by rw [h1]
      have e3 : t.lsb = s.lsb := by rw [h1]
      split
      · trivial
      · next dec hdec =>
        refine ⟨stamp_linked ?_ _ fun d => ⟨rfl, rfl, rfl⟩, e3⟩
        rw [← hd, ← hn]
        exact enqueue_linked ht (by rw [e1]; exact hS) hb hx h0 _ _ (by rw [e2, e3, hn]; exact hq)
  · next hload =>
    unfold commitStore
    split
    · trivial
    · next bs _ =>
      have h1 := writeEntry_cache e bs s
      split
      · next x he =>
        rw [he] at h1
        cases x with
        | fatal => exact hmono _ h1
        | refuse => trivial
      · next t he =>
        rw [he] at h1
        have h1 : CacheOrFault s t := h1
        have ht := stamp_linked (h1.linked h) e.inst
          (f := fun d => { d with execEnd := some t.cycle, write := some t.cycle }) fun d => ⟨rfl, rfl, rfl⟩
        have e1 : t.stations = s.stations := by rw [h1]
        have e2 : t.cdbQueue = s.cdbQueue := by rw [h1]
        have e3 : t.lsb = s.lsb := by rw [h1]
        refine ⟨?_, e3⟩
        rw [← hn]
        refine release_linked ht (by rw [stamp_stations, e1]; exact hS) ?_
          (by rw [stamp_cdbQueue, stamp_lsb, e2, e3, hn]; exact hq)
        obtain ⟨o, i, d, ho', hko, -, -, -, -, hslot⟩ := h.bound S hS hb
        rw [ho] at ho'
        cases ho'
        have hst : opKind e.op = .store := by
          rw [hko]
          simp only [hl, beq_iff_eq] at hload
          revert hload hk
          cases S.kind <;> simp [kindIsMem]
        have hdc : e.op.destClass = none := by
          revert hst
          cases e.op <;> simp [opKind, OpCode.destClass, OpCode.format]
        have := hslot.dest
        rw [hdc] at this
        exact Option.isSome_eq_false_iff.1 this |> Option.isNone_iff_eq_none.1

/-! ### The Memory phase -/

theorem stampStart_linked {s : State} (h : Linked s) (e : LsbEntry) : Linked (stampStart e s) := by
  unfold stampStart
  split
  · exact h
  · exact stamp_linked h _ fun d => ⟨rfl, rfl, rfl⟩

theorem lsbTickFrom_linked (kept es : List LsbEntry) (s : State) (h : Linked { s with lsb := kept ++ es }) :
    Cyc.All Linked (lsbTickFrom kept es s) := by
  induction es generalizing kept s with
  | nil => simpa [lsbTickFrom] using h
  | cons e es ih =>
    simp only [lsbTickFrom]
    split
    · exact ih _ s (by simpa using h)
    · split
      · obtain ⟨S, hS, hn, hb, hx, hk, hd, ho, -, hl⟩ := h.buffered e (by simp)
        have hsub : Linked { stampStart e s with lsb := kept ++ es } := by
          rw [stampStart_withLsb]
          refine stampStart_linked (h.withLsb (l := kept ++ es) (fun x hx => ⟨x, ?_, rfl, rfl, rfl, rfl, rfl⟩) ?_) e
          · rcases List.mem_append.1 hx with hx | hx <;> simp [hx]
          · exact (List.Sublist.append (List.Sublist.refl _) (List.sublist_cons_self _ _)).map _
        have hq : e.station ∉ s.cdbQueue.map Request.station ++ (kept ++ es).map LsbEntry.station := by
          have := h.once
          dsimp only at this
          have hp : (s.cdbQueue.map Request.station ++ (kept ++ e :: es).map LsbEntry.station).Perm
              (e.station :: (s.cdbQueue.map Request.station ++ (kept ++ es).map LsbEntry.station)) := by
            simp only [List.map_append, List.map_cons]
            rw [← List.append_assoc, ← List.append_assoc]
            exact List.perm_middle
          exact (List.nodup_cons.1 (hp.nodup_iff.1 this)).1
        have hc := commit_linked hsub (e := e.decremented) (S := S) (by simpa using hS) hn hb hx hk hd ho hl
          (by rw [show e.decremented.station = e.station from rfl, stampStart_cdbQueue]; exact hq)
        split
        · next x he => rw [he] at hc; exact hc.mono fun _ h => h.1
        · next t he =>
          rw [he] at hc
          have hc : Linked t ∧ t.lsb = kept ++ es := hc
          refine ih kept t ?_
          rw [← hc.2]
          exact hc.1
      · refine ih _ _ ?_
        rw [stampStart_withLsb]
        refine stampStart_linked (h.withLsb (l := kept ++ [e.decremented] ++ es) ?_ ?_) e
        · intro x hx
          simp only [List.append_assoc, List.cons_append, List.nil_append, List.mem_append, List.mem_cons] at hx
          rcases hx with hx | rfl | hx
          · exact ⟨x, by simp [hx], rfl, rfl, rfl, rfl, rfl⟩
          · exact ⟨e, by simp, rfl, rfl, rfl, rfl, rfl⟩
          · exact ⟨x, by simp [hx], rfl, rfl, rfl, rfl, rfl⟩
        · simp [LsbEntry.decremented]

theorem memoryPhase_linked {s : State} (h : Linked s) : Cyc.All Linked (memoryPhase s) :=
  lsbTickFrom_linked [] s.lsb s h

/-! ### Handover -/

/-- The handover of a ready memory station. -/
theorem handover_linked {s : State} (h : Linked s) {S : Station} (hS : S ∈ s.stations) (hr : S.ready = true)
    (hk : kindIsMem S.kind = true) : Cyc.All (fun t => Linked t ∧ ∀ P ∈ s.stations, P.name ≠ S.name → P ∈ t.stations)
      (handover S.name s) := by
  simp only [Station.ready, Bool.and_eq_true, Bool.not_eq_true', Bool.or_eq_true, beq_iff_eq,
    Option.isNone_iff_eq_none] at hr
  obtain ⟨⟨⟨hb, he⟩, hj⟩, hq⟩ := hr
  have hf := station?_of_mem h.names hS
  obtain ⟨r, hc⟩ | ⟨f, -, hc⟩ | ⟨P, o, base, off, inst, b, ea, data, hP, ho, hv, ha, hi, -, -, -, -, -, -, hc⟩ :=
    handover_cases (T := S.name) (s := s) rfl <;> rw [hc]
  · trivial
  · exact ⟨raise_linked h f, fun P hP _ => hP⟩
  · rw [hf] at hP
    cases hP
    have h0 : S.remainingCycles = 0 := by
      by_contra hn
      have := (h.counting S hS (by omega)).1
      rw [he] at this
      cases this
    have hnq : S.name ∉ s.cdbQueue.map Request.station ++ s.lsb.map LsbEntry.station := by
      intro hT
      obtain ⟨Q, hQ, hQn, hQe, -⟩ := h.once_started hT
      rw [h.unique hQ hS hQn, he] at hQe
      cases hQe
    have hL := retime_linked h hf (n := 0) hb hj hq (fun h => absurd h (Nat.lt_irrefl 0)) fun hT => absurd hT hnq
    have hu : updStation S.name (fun S => { S with execStarted := true }) s =
        updStation S.name (fun P => { P with execStarted := true, remainingCycles := 0 }) s :=
      updStation_congr h hf (by rw [← h0])
    rw [← hu] at hL
    obtain ⟨N, hN⟩ : ∃ N : Station, N = { S with execStarted := true } := ⟨_, rfl⟩
    have hm : N ∈ (updStation S.name (fun S => { S with execStarted := true }) s).stations :=
      List.mem_map.2 ⟨S, hS, by rw [if_pos rfl, hN]⟩
    refine ⟨⟨hL.names, hL.free, hL.bound, hL.started, hL.counting, hL.regTag, hL.slotTag, hL.queued, ?_, ?_, hL.branch⟩,
      fun P hP hn => List.mem_map.2 ⟨P, hP, if_neg hn⟩⟩
    · intro e he'
      rcases List.mem_append.1 he' with he' | he'
      · exact hL.buffered e he'
      · rw [List.mem_singleton.1 he']
        subst hN
        exact ⟨_, hm, rfl, hb, rfl, hk, rfl, ho, hi, rfl⟩
    · rw [enterLsb_lsb, List.map_append, ← List.append_assoc]
      have : (S.name :: (s.cdbQueue.map Request.station ++ s.lsb.map LsbEntry.station)).Nodup :=
        List.nodup_cons.2 ⟨hnq, h.once⟩
      refine (List.Perm.nodup_iff ?_).1 this
      exact (List.perm_append_singleton _ _).symm

theorem nodup_deferred {s : State} (h : Linked s) : ((deferred s).map Station.name).Nodup := by
  have hperm : ∀ (S : Station) (l : List Station), (insertByInstance S l).Perm (S :: l) := by
    intro S l
    induction l with
    | nil => exact List.Perm.refl _
    | cons a l ih =>
      simp only [insertByInstance]
      split
      · exact List.Perm.refl _
      · exact (List.Perm.cons a ih).trans (List.Perm.swap S a l)
  have : ∀ l : List Station, (l.foldr insertByInstance []).Perm l := by
    intro l
    induction l with
    | nil => exact List.Perm.refl _
    | cons a l ih => exact (hperm a _).trans (List.Perm.cons a ih)
  refine ((this _).map Station.name).nodup_iff.2 ?_
  exact h.names.sublist (List.filter_sublist.map Station.name)

theorem deferredPhase_linked {s : State} (h : Linked s) : Cyc.All Linked (deferredPhase s) := by
  have key : ∀ (l : List Station) (t : State), Linked t → (l.map Station.name).Nodup →
      (∀ S ∈ l, S ∈ t.stations ∧ kindIsMem S.kind = true ∧ S.ready = true) →
      Cyc.All Linked (forEach handoverIfRoom l t) := by
    intro l
    induction l with
    | nil => intro t ht _ _; exact ht
    | cons S l ih =>
      intro t ht hn hl
      obtain ⟨hS, hk, hr⟩ := hl S (by simp)
      simp only [List.map_cons, List.nodup_cons] at hn
      have h1 : Cyc.All (fun u => Linked u ∧ ∀ P ∈ t.stations, P.name ≠ S.name → P ∈ u.stations)
          (handoverIfRoom S t) := by
        unfold handoverIfRoom
        split
        · exact ⟨ht, fun P hP _ => hP⟩
        · exact handover_linked ht hS hr hk
      simp only [forEach]
      split
      · next u hu =>
        rw [hu] at h1
        have h1 : Linked u ∧ ∀ P ∈ t.stations, P.name ≠ S.name → P ∈ u.stations := h1
        refine ih u h1.1 hn.2 fun P hP => ?_
        obtain ⟨hP', hPk, hPr⟩ := hl P (by simp [hP])
        exact ⟨h1.2 P hP' fun e => hn.1 (List.mem_map.2 ⟨P, hP, e⟩), hPk, hPr⟩
      · next e he => rw [he] at h1; exact h1.mono fun _ h => h.1
  exact key _ s h (nodup_deferred h) fun S hS => mem_deferred.1 hS

/-! ### Issue -/

/-- The new station's slots are as 10_state.md R43 says. -/
theorem filled_slotsOk {T : Tag} {o : OpCode} {d : Option Reg} {j : Reg} {k : Option Reg} {a : Option I32} {i : Nat}
    (s : State) (hk : k.isSome = usesK o) (ha : a.isSome = usesA o) (hd : d.isSome = o.destClass.isSome) :
    SlotsOk o (filledStation T o d j k a i s) := by
  have hc : ∀ r, (capture r s).1.isSome = !(capture r s).2.isSome := by
    intro r
    unfold capture
    split <;> rfl
  refine ⟨hc j, ?_, ha, hd⟩
  cases k with
  | none =>
    rw [if_neg (by rw [← hk]; simp)]
    exact ⟨rfl, rfl⟩
  | some r =>
    rw [if_pos (by rw [← hk]; rfl)]
    exact hc r

/-- A slot waits for what its register waits for. -/
theorem capture_tag (r : Reg) (s : State) : (capture r s).2 = (s.reg r).qi := by
  unfold capture
  split
  · next h => rw [h]
  · next h => rw [h]

/-- Capture and rename into a free station, while no branch blocks issue. A branch block then follows at once. -/
theorem captured_linked {s : State} (h : Linked s) {T : Tag} {o : OpCode} {d : Option Reg} {j : Reg} {k : Option Reg}
    {a : Option I32} (hb : s.branchPending = false) (hT : allocate (opKind o) s = some T) (hk : k.isSome = usesK o)
    (ha : a.isSome = usesA o) (hd : d.isSome = o.destClass.isSome) {t : State}
    (hrg : ∀ r, t.reg r = (captured T o d j k a s).reg r) (hst : t.stations = (captured T o d j k a s).stations)
    (hlog : t.instances = (captured T o d j k a s).instances) (hq : t.cdbQueue = s.cdbQueue) (hl : t.lsb = s.lsb)
    (hbr : opKind o = .branch → t.branchPending = true ∧ BranchBound t (filledStation T o d j k a s.instances.length s)) :
    Linked t := by
  obtain ⟨F, hF, hFn, hFk, hFb⟩ := mem_of_allocate hT
  have hTk := kind_of_allocate hT
  obtain ⟨N, hN⟩ : ∃ N, N = filledStation T o d j k a s.instances.length s := ⟨_, rfl⟩
  have hFT : ∀ P ∈ s.stations, P.name = T → P.busy = false := fun P hP e => by
    rw [h.unique hP hF (e.trans hFn.symm)]; exact hFb
  have hNn : N.name = T := by rw [hN]; rfl
  have hNb : N.busy = true := by rw [hN]; rfl
  have hNd : N.dest = d := by rw [hN]; rfl
  rw [captured_stations, ← hN] at hst
  rw [captured_instances] at hlog
  rw [← hN] at hbr
  have hmem : ∀ P ∈ t.stations, P = N ∨ (P ∈ s.stations ∧ P.name ≠ T) := by
    intro P hP
    rw [hst] at hP
    obtain ⟨P', hP', rfl⟩ := List.mem_map.1 hP
    by_cases e : P'.name = T
    · rw [if_pos e]; exact .inl rfl
    · rw [if_neg e]; exact .inr ⟨hP', e⟩
  have hNm : N ∈ t.stations := by rw [hst]; exact List.mem_map.2 ⟨F, hF, by rw [if_pos hFn]⟩
  have hback : ∀ P ∈ s.stations, P.busy = true → P ∈ t.stations := by
    intro P hP hPb
    rw [hst]
    refine List.mem_map.2 ⟨P, hP, if_neg fun e => ?_⟩
    rw [hFT P hP e] at hPb
    cases hPb
  have hold : ∀ (i : Nat) (x : DynInst), s.instances[i]? = some x → t.instances[i]? = some x := by
    intro i x hx
    rw [hlog, List.getElem?_append_left (List.getElem?_eq_some_iff.1 hx).1]
    exact hx
  have hreg : ∀ r U, (s.reg r).qi = some U → U ≠ T ∧ ∃ P ∈ t.stations, P.name = U ∧ P.busy = true ∧ P.dest = some r := by
    intro r U hU
    obtain ⟨P, hP, hn, hPb, hPd⟩ := h.regTag r U hU
    refine ⟨?_, P, hback P hP hPb, hn, hPb, hPd⟩
    rintro rfl
    rw [hFT P hP hn] at hPb
    cases hPb
  have hnb : ∀ P ∈ s.stations, P.busy = true → P.kind = .branch → False := by
    intro P hP h1 h2
    have := (h.branch P hP h1 h2).1
    rw [hb] at this
    cases this
  refine ⟨?_, ?_, ?_, ?_, ?_, ?_, ?_, ?_, ?_, by rw [hq, hl]; exact h.once, ?_⟩
  · rw [State.tags, hst]
    have := tags_updStation (T := T) (f := fun _ => N) (fun _ _ => hNn) s
    simp only [State.tags, updStation_stations] at this
    rw [this]
    exact h.names
  · intro P hP hPb
    rcases hmem P hP with rfl | ⟨hP', -⟩
    · rw [hNb] at hPb; cases hPb
    · exact h.free P hP' hPb
  · intro P hP hPb
    rcases hmem P hP with rfl | ⟨hP', -⟩
    · refine ⟨o, s.instances.length, newInstance o T s, by rw [hN]; rfl, by rw [hN]; exact hTk.symm, by rw [hN]; rfl, ?_,
        by rw [hNn]; rfl, rfl, by rw [hN]; exact filled_slotsOk s hk ha hd⟩
      rw [hlog]
      simp
    · obtain ⟨o', i, x, h1, h2, h3, h4, h5⟩ := h.bound P hP' hPb
      exact ⟨o', i, x, h1, h2, h3, hold i x h4, h5⟩
  · intro P hP hPe
    rcases hmem P hP with rfl | ⟨hP', -⟩
    · rw [hN] at hPe; cases hPe
    · exact h.started P hP' hPe
  · intro P hP hPr
    rcases hmem P hP with rfl | ⟨hP', -⟩
    · rw [hN] at hPr; exact absurd hPr (Nat.lt_irrefl 0)
    · exact h.counting P hP' hPr
  · intro r U hU
    rw [hrg] at hU
    by_cases hr : d = some r
    · subst hr
      rw [reg_captured_dest] at hU
      cases hU
      exact ⟨N, hNm, hNn, hNb, hNd⟩
    · rw [reg_captured_ne hr] at hU
      exact (hreg r U hU).2
  · intro P hP U hU
    rcases hmem P hP with rfl | ⟨hP', -⟩
    · have : ∃ r, (s.reg r).qi = some U := by
        rw [hN] at hU
        rcases hU with hU | hU
        · exact ⟨j, (capture_tag j s).symm.trans hU⟩
        · cases k with
          | none => cases hU
          | some r => exact ⟨r, (capture_tag r s).symm.trans hU⟩
      obtain ⟨r, hr⟩ := this
      obtain ⟨hne, Q, hQ, hQn, hQb, hQd⟩ := hreg r U hr
      exact ⟨by rw [hNn]; exact hne, Q, hQ, hQn, hQb, by rw [hQd]; rfl⟩
    · obtain ⟨hne, Q, hQ, hQn, hQb, hQd⟩ := h.slotTag P hP' U hU
      exact ⟨hne, Q, hback Q hQ hQb, hQn, hQb, hQd⟩
  · intro q hq'
    rw [hq] at hq'
    obtain ⟨P, hP, hn, hPb, hrest⟩ := h.queued q hq'
    exact ⟨P, hback P hP hPb, hn, hPb, hrest⟩
  · intro e he
    rw [hl] at he
    obtain ⟨P, hP, hn, hPb, hrest⟩ := h.buffered e he
    exact ⟨P, hback P hP hPb, hn, hPb, hrest⟩
  · intro P hP hPb hPk
    rcases hmem P hP with rfl | ⟨hP', -⟩
    · have hko : opKind o = .branch := by
        rw [← hTk, ← hNn]
        exact hPk
      refine ⟨(hbr hko).1, ?_, (hbr hko).2⟩
      rw [hN, hlog]
      simp [filledStation]
    · exact (hnb P hP' hPb hPk).elim

/-- A whole issue. `hbr` says what the record at the cursor is when it is a branch. -/
theorem issueRecord_linked {s t : State} (h : Linked s) {o : OpCode} {d : Option Reg} {j : Reg} {k : Option Reg}
    {a : Option I32} (hk : k.isSome = usesK o) (ha : a.isSome = usesA o) (hd : d.isSome = o.destClass.isSome)
    (hbr : opKind o = .branch → ∃ r ins rs rt target, s.prog[s.cursor]? = some r ∧
      checkRecord s.prog.length s.cursor r = .ok ins ∧ (ins = .beq rs rt target ∨ ins = .bne rs rt target) ∧
      d = none ∧ j = .r rs ∧ k = some (.r rt))
    (hi : issueRecord o d j k a s = .next t) : Linked t := by
  obtain h' | ⟨T, hb, hT, ⟨hm, h'⟩ | ⟨hm, hlt, hr, h'⟩ | ⟨hm, hlt, hr, h'⟩⟩ := issueRecord_cases o d j k a s <;> rw [h'] at hi
  · cases hi; exact h
  · cases hi
    by_cases hkb : opKind o = .branch
    · rw [if_pos hkb]
      refine captured_linked h hb hT hk ha hd (fun r => reg_congr rfl rfl r) rfl rfl
        (by simp) (by simp) fun _ => ⟨by simp, ?_⟩
      obtain ⟨r, ins, rs, rt, tg, hrec, hc, ho, rfl, rfl, rfl⟩ := hbr hkb
      refine ⟨s.instances.length, newInstance o T s, r, ins, rs, rt, tg, rfl, ?_, ?_, ?_, ho, ?_, ?_⟩
      · simp
      · simpa [newInstance] using hrec
      · simpa [newInstance] using hc
      · rw [show (filledStation T o none (.r rs) (some (.r rt)) a s.instances.length s).qj = (capture (.r rs) s).2 from rfl,
          capture_tag, reg_congr (t := advance (blockIssue (captured T o none (.r rs) (some (.r rt)) a s)))
            (s := captured T o none (.r rs) (some (.r rt)) a s) rfl rfl, reg_captured_ne (by simp)]
      · rw [show (filledStation T o none (.r rs) (some (.r rt)) a s.instances.length s).qk = (capture (.r rt) s).2 from rfl,
          capture_tag, reg_congr (t := advance (blockIssue (captured T o none (.r rs) (some (.r rt)) a s)))
            (s := captured T o none (.r rs) (some (.r rt)) a s) rfl rfl, reg_captured_ne (by simp)]
    · rw [if_neg hkb]
      exact captured_linked h hb hT hk ha hd (fun r => reg_congr rfl rfl r) rfl rfl (by simp) (by simp)
        fun e => absurd e hkb
  · cases hi
    have hkb : opKind o ≠ .branch := by intro e; rw [e] at hm; cases hm
    exact captured_linked h hb hT hk ha hd (fun r => reg_congr rfl rfl r) rfl rfl (by simp) (by simp)
      fun e => absurd e hkb
  · have hkb : opKind o ≠ .branch := by intro e; rw [e] at hm; cases hm
    have hc : Linked (captured T o d j k a s) :=
      captured_linked h hb hT hk ha hd (fun r => rfl) rfl rfl (by simp) (by simp) fun e => absurd e hkb
    have hF : filledStation T o d j k a s.instances.length s ∈ (captured T o d j k a s).stations :=
      station?_mem (station?_fill (tags_of_allocate hT))
    have hTm : kindIsMem T.kind = true := by rw [kind_of_allocate hT]; exact hm
    have hh := handover_linked hc hF hr hTm
    rw [show (filledStation T o d j k a s.instances.length s).name = T from rfl] at hh
    split at hi
    · next u he =>
      cases hi
      rw [he] at hh
      exact Linked.congr (s := u) hh.1 rfl (fun _ => reg_congr rfl rfl _) rfl (.of_eq rfl) rfl rfl rfl
    · next u he => cases hi; rw [he] at hh; exact hh.1
    · cases hi

/-! ### The broadcast -/

/-- What a broadcast makes of a station other than its own. -/
theorem mem_broadcastCore {q : Request} {s : State} {P : Station} (h : P ∈ (broadcastCore q s).stations) :
    P = Station.free q.station ∨ ∃ P' ∈ s.stations, P'.name ≠ q.station ∧
      P = if P'.busy then forwardK q.station q.value s.cycle (forwardJ q.station q.value s.cycle P') else P' := by
  simp only [broadcastCore, release_stations, stampWrite_stations, forward_stations, regWrite_stations,
    regWrite_cycle, List.map_map] at h
  obtain ⟨P', hP', rfl⟩ := List.mem_map.1 h
  simp only [Function.comp]
  have hn : (if P'.busy then forwardK q.station q.value s.cycle (forwardJ q.station q.value s.cycle P') else P').name =
      P'.name := by
    split
    · rw [forwardJK_eq]
    · rfl
  by_cases e : P'.name = q.station
  · rw [if_pos (hn.trans e)]; exact .inl rfl
  · rw [if_neg fun h => e (hn.symm.trans h)]
    exact .inr ⟨P', hP', e, rfl⟩

theorem forwarded_mem_broadcastCore {q : Request} {s : State} {P : Station} (h : P ∈ s.stations) (hn : P.name ≠ q.station)
    (hb : P.busy = true) : { P with
      vj := if P.qj = some q.station then some q.value else P.vj
      qj := if P.qj = some q.station then none else P.qj
      vk := if P.qk = some q.station then some q.value else P.vk
      qk := if P.qk = some q.station then none else P.qk
      effCycle := if P.qj = some q.station ∨ P.qk = some q.station then (s.cycle : Int) else P.effCycle } ∈
        (broadcastCore q s).stations := by
  simp only [broadcastCore, release_stations, stampWrite_stations, forward_stations, regWrite_stations,
    regWrite_cycle, List.map_map]
  refine List.mem_map.2 ⟨P, h, ?_⟩
  simp only [Function.comp, hb, if_true, forwardJK_eq]
  rw [if_neg hn]

/-- The registers after a broadcast (R146). -/
theorem reg_broadcastCore (q : Request) (s : State) (r : Reg) :
    (broadcastCore q s).reg r = (regWrite q.station q.value q.dest s).reg r :=
  reg_congr (by simp [broadcastCore]) (by simp [broadcastCore]) r

/-- The tag of a register after a broadcast, when the register it names is T's destination. -/
theorem qi_broadcastCore {q : Request} {s : State} (hd : ∀ r, (s.reg r).qi = some q.station → q.dest = some r) (r : Reg) :
    ((broadcastCore q s).reg r).qi = if (s.reg r).qi = some q.station then none else (s.reg r).qi := by
  rw [reg_broadcastCore]
  by_cases hr : q.dest = some r
  · simp only [hr, regWrite]
    cases hq : (s.reg r).qi with
    | none => simp
    | some U =>
      by_cases hU : U = q.station
      · simp [hU]
      · simp [hU, hq]
  · rw [reg_regWrite_ne hr, if_neg fun e => hr (hd r e)]

theorem sameLog_broadcastCore (q : Request) (s : State) : SameLog s (broadcastCore q s) := by
  have hi : (broadcastCore q s).instances = (stampWrite (s.instanceAt q.station) s).instances := by
    simp only [broadcastCore, release_instances]
    unfold stampWrite
    split
    · simp
    · simp
  unfold stampWrite at hi
  split at hi
  · exact .of_modify hi fun d => ⟨rfl, rfl, rfl⟩
  · exact .of_eq hi

/-- A broadcast of a request taken out of the queue. -/
theorem broadcastCore_linked {s : State} (h : Linked s) {q : Request} {rest : List Request}
    (hp : s.cdbQueue.Perm (q :: rest)) : Linked (broadcastCore q { s with cdbQueue := rest }) := by
  obtain ⟨S, hS, hSn, hSb, hSe, hSr, hSd⟩ := h.queued q (hp.mem_iff.2 (by simp))
  obtain ⟨u, hu⟩ : ∃ u : State, u = { s with cdbQueue := rest } := ⟨_, rfl⟩
  have hur : ∀ r, u.reg r = s.reg r := fun r => by rw [hu]; exact reg_congr rfl rfl r
  have hus : u.stations = s.stations := by rw [hu]
  have honce : (q.station :: (rest.map Request.station ++ s.lsb.map LsbEntry.station)).Nodup :=
    ((hp.map Request.station).append_right _).nodup_iff.1 h.once
  have hreg : ∀ r, (u.reg r).qi = some q.station → q.dest = some r := by
    intro r hr
    rw [hur] at hr
    obtain ⟨P, hP, hn, -, hd⟩ := h.regTag r _ hr
    rw [h.unique hP hS (hn.trans hSn.symm), hSd] at hd
    exact hd
  have hqi := qi_broadcastCore hreg
  rw [← hu]
  have hst : ∀ P ∈ (broadcastCore q u).stations, P = Station.free q.station ∨ ∃ P' ∈ s.stations, P'.name ≠ q.station ∧
      ((P'.busy = false ∧ P = P') ∨ (P'.busy = true ∧ P = { P' with
        busy := true
        vj := if P'.qj = some q.station then some q.value else P'.vj
        qj := if P'.qj = some q.station then none else P'.qj
        vk := if P'.qk = some q.station then some q.value else P'.vk
        qk := if P'.qk = some q.station then none else P'.qk
        effCycle := if P'.qj = some q.station ∨ P'.qk = some q.station then (u.cycle : Int) else P'.effCycle })) := by
    intro P hP
    rcases mem_broadcastCore hP with rfl | ⟨P', hP', hn, rfl⟩
    · exact .inl rfl
    · rw [hus] at hP'
      refine .inr ⟨P', hP', hn, ?_⟩
      cases hb : P'.busy with
      | false => exact .inl ⟨rfl, by simp⟩
      | true => exact .inr ⟨rfl, by rw [if_pos rfl, forwardJK_eq, hb]⟩
  have hback : ∀ P ∈ s.stations, P.busy = true → P.name ≠ q.station → ∃ P' ∈ (broadcastCore q u).stations,
      P'.name = P.name ∧ P'.busy = P.busy ∧ P'.dest = P.dest ∧ P'.execStarted = P.execStarted ∧
      P'.remainingCycles = P.remainingCycles ∧ P'.op = P.op ∧ P'.instruction = P.instruction := fun P hP hb hn =>
    ⟨_, forwarded_mem_broadcastCore (by rw [hus]; exact hP) hn hb, rfl, rfl, rfl, rfl, rfl, rfl, rfl⟩
  have hlog := sameLog_broadcastCore q u
  have hui : u.instances = s.instances := by rw [hu]
  refine ⟨?_, ?_, ?_, ?_, ?_, ?_, ?_, ?_, ?_, ?_, ?_⟩
  · have : (broadcastCore q u).tags = u.tags := by
      simp only [broadcastCore, tags_release]
      have h1 : ∀ (i : Option Nat) (v : State), (stampWrite i v).tags = v.tags := fun i v => by simp [State.tags]
      rw [h1, tags_forward]
      simp [State.tags]
    rw [this, State.tags, hus]
    exact h.names
  · intro P hP hb
    rcases hst P hP with rfl | ⟨P', hP', -, ⟨hb', rfl⟩ | ⟨hb', rfl⟩⟩
    · rfl
    · exact h.free _ hP' hb
    · cases hb
  · intro P hP hb
    rcases hst P hP with rfl | ⟨P', hP', -, ⟨hb', rfl⟩ | ⟨hb', rfl⟩⟩
    · cases hb
    · rw [hb'] at hb; cases hb
    · obtain ⟨o, i, d, ho, hk, hi, hd, hn, hop, h1, h2, h3, h4⟩ := h.bound P' hP' hb'
      obtain ⟨d', hd', -, hst', hop'⟩ := hlog.entry i d (by rw [hui]; exact hd)
      refine ⟨o, i, d', ho, hk, hi, hd', hst'.trans hn, hop'.trans hop, ?_, ?_, h3, h4⟩
      · dsimp only
        split
        · rfl
        · exact h1
      · dsimp only
        split at h2
        · rw [if_pos ‹_›]
          split
          · rfl
          · exact h2
        · rw [if_neg ‹_›, h2.1, h2.2]
          simp
  · intro P hP he
    rcases hst P hP with rfl | ⟨P', hP', -, ⟨hb', rfl⟩ | ⟨hb', rfl⟩⟩
    · cases he
    · exact h.started _ hP' he
    · obtain ⟨h1, h2, h3⟩ := h.started P' hP' he
      refine ⟨rfl, by simp [h2], ?_⟩
      rcases h3 with h3 | h3
      · exact .inl h3
      · exact .inr (by simp [h3])
  · intro P hP hr
    rcases hst P hP with rfl | ⟨P', hP', -, ⟨hb', rfl⟩ | ⟨hb', rfl⟩⟩
    · exact absurd hr (Nat.lt_irrefl 0)
    · exact h.counting _ hP' hr
    · exact h.counting P' hP' hr
  · intro r T hT
    rw [hqi, hur] at hT
    split at hT
    · cases hT
    · next hne =>
      obtain ⟨P, hP, hn, hb, hd⟩ := h.regTag r T hT
      obtain ⟨P', hP', e1, e2, e3, -⟩ := hback P hP hb fun e => hne (by rw [hT, ← hn, e])
      exact ⟨P', hP', e1.trans hn, e2.trans hb, e3.trans hd⟩
  · intro P hP T hT
    have : ∃ P' ∈ s.stations, P'.name = P.name ∧ T ≠ q.station ∧ (P'.qj = some T ∨ P'.qk = some T) := by
      rcases hst P hP with rfl | ⟨P', hP', -, ⟨hb', rfl⟩ | ⟨hb', rfl⟩⟩
      · rcases hT with hT | hT <;> cases hT
      · rw [h.free _ hP' hb'] at hT
        rcases hT with hT | hT <;> cases hT
      · refine ⟨P', hP', rfl, ?_⟩
        dsimp only at hT
        rcases hT with hT | hT
        · split at hT
          · cases hT
          · next hne => exact ⟨fun e => hne (e ▸ hT), .inl hT⟩
        · split at hT
          · cases hT
          · next hne => exact ⟨fun e => hne (e ▸ hT), .inr hT⟩
    obtain ⟨P', hP', hn, hne, hq⟩ := this
    obtain ⟨h1, Q, hQ, hQn, hQb, hQd⟩ := h.slotTag P' hP' T hq
    obtain ⟨Q', hQ', e1, e2, e3, -⟩ := hback Q hQ hQb (by rw [hQn]; exact hne)
    exact ⟨by rw [← hn]; exact h1, Q', hQ', e1.trans hQn, e2.trans hQb, by rw [e3]; exact hQd⟩
  · intro p hp'
    have hp'' : p ∈ rest := by simpa [hu] using hp'
    obtain ⟨P, hP, hn, hb, he, hr, hd⟩ := h.queued p (hp.mem_iff.2 (by simp [hp'']))
    obtain ⟨P', hP', e1, e2, e3, e4, e5, -⟩ := hback P hP hb fun e =>
      (List.nodup_cons.1 honce).1 (List.mem_append.2 (.inl (List.mem_map.2 ⟨p, hp'', by rw [← hn, e]⟩)))
    exact ⟨P', hP', e1.trans hn, e2.trans hb, e4.trans he, e5.trans hr, e3.trans hd⟩
  · intro e he
    have he' : e ∈ s.lsb := by simpa [hu] using he
    obtain ⟨P, hP, hn, hb, hx, hk, hd, ho, hi, hl⟩ := h.buffered e he'
    obtain ⟨P', hP', e1, e2, e3, e4, e5, e6, e7⟩ := hback P hP hb fun e' =>
      (List.nodup_cons.1 honce).1 (List.mem_append.2 (.inr (List.mem_map.2 ⟨e, he', by rw [← hn, e']⟩)))
    have hkd : P'.kind = P.kind := by rw [Station.kind, e1]; rfl
    exact ⟨P', hP', e1.trans hn, e2.trans hb, e4.trans hx, by rw [hkd]; exact hk, e3.trans hd, e6.trans ho, e7.trans hi,
      by rw [hkd]; exact hl⟩
  · have e1 : (broadcastCore q u).cdbQueue = rest := by simp [hu]
    have e2 : (broadcastCore q u).lsb = s.lsb := by simp [hu]
    rw [e1, e2]
    exact (List.nodup_cons.1 honce).2
  · intro P hP hb hk
    rcases hst P hP with rfl | ⟨P', hP', -, ⟨hb', rfl⟩ | ⟨hb', rfl⟩⟩
    · cases hb
    · rw [hb'] at hb; cases hb
    · obtain ⟨a, b, i, d, r, ins, rs, rt, tg, hi, hd, hrec, hc, ho, hj, hkq⟩ := h.branch P' hP' hb' hk
      obtain ⟨d', hd', hpc, -, -⟩ := hlog.entry i d (by rw [hui]; exact hd)
      have hup : (broadcastCore q u).prog = s.prog := by simp [hu]
      refine ⟨by simp [hu, a], by rw [hlog.length, hui]; exact b, i, d', r, ins, rs, rt, tg, hi, hd',
        by rw [hup, hpc]; exact hrec, by rw [hup, hpc]; exact hc, ho, ?_, ?_⟩
      · rw [hqi, hur]; dsimp only; rw [hj]
      · rw [hqi, hur]; dsimp only; rw [hkq]

/-- What resolution leaves where there is nothing to flush (44_branch.md R272, R274). -/
def settledBranch (i : Nat) (b : Bool) (target : I32) (s : State) : State :=
  { s with
    instances := s.instances.modify i fun d => { d with taken := some b }
    cursor := if b then target.toInt.toNat else s.cursor
    branchPending := false }

/-- The branch of a busy branch station reads its registers ready when it resolves, and no station, entry or request is
of a later instance (44_branch.md R274, R277). -/
theorem resolve_linked {s : State} (h : Linked s) {q : Request} {rest : List Request} (hp : s.cdbQueue.Perm (q :: rest))
    (hk : q.station.kind = .branch) {i : Nat} (hi : s.instanceAt q.station = some i) :
    ∃ d r ins rs rt target, s.instances[i]? = some d ∧ s.prog[d.pc]? = some r ∧
      checkRecord s.prog.length d.pc r = .ok ins ∧ (ins = .beq rs rt target ∨ ins = .bne rs rt target) ∧
      ∃ b, resolve i (broadcastCore q { s with cdbQueue := rest }) =
        .ok (settle i b target (broadcastCore q { s with cdbQueue := rest })) ∧
        Linked (settle i b target (broadcastCore q { s with cdbQueue := rest })) ∧
        (settle i b target (broadcastCore q { s with cdbQueue := rest })).stations =
          (broadcastCore q { s with cdbQueue := rest }).stations ∧
        (settle i b target (broadcastCore q { s with cdbQueue := rest })).cdbQueue =
          (broadcastCore q { s with cdbQueue := rest }).cdbQueue ∧
        (settle i b target (broadcastCore q { s with cdbQueue := rest })).lsb =
          (broadcastCore q { s with cdbQueue := rest }).lsb ∧
        settle i b target (broadcastCore q { s with cdbQueue := rest }) =
          settledBranch i b target (broadcastCore q { s with cdbQueue := rest }) ∧
        (∀ a c, ins = .beq a c target →
          b = takenBeq ((broadcastCore q { s with cdbQueue := rest }).reg (.r a)).value
            ((broadcastCore q { s with cdbQueue := rest }).reg (.r c)).value) ∧
        ∀ a c, ins = .bne a c target →
          b = takenBne ((broadcastCore q { s with cdbQueue := rest }).reg (.r a)).value
            ((broadcastCore q { s with cdbQueue := rest }).reg (.r c)).value := by
  have hL := broadcastCore_linked h hp
  obtain ⟨S, hS, hSn, hSb, hSe, -, hSd⟩ := h.queued q (hp.mem_iff.2 (by simp))
  have hSk : S.kind = .branch := by rw [Station.kind, hSn]; exact hk
  have hfi : s.instanceAt q.station = S.instruction := by
    rw [State.instanceAt, ← hSn, station?_of_mem h.names hS]; rfl
  obtain ⟨hbp, hinst, i', d, r, ins, rs, rt, tg, hi', hd, hrec, hc, ho, hj, hkq⟩ := h.branch S hS hSb hSk
  rw [hfi, hi'] at hi
  cases hi
  obtain ⟨-, hqj, hqk⟩ := h.started S hS hSe
  have hqk : S.qk = none := by
    rcases hqk with hqk | hqk
    · rw [hSk] at hqk; cases hqk
    · exact hqk
  obtain ⟨u, hu⟩ : ∃ u : State, u = broadcastCore q { s with cdbQueue := rest } := ⟨_, rfl⟩
  have hlog : SameLog s u := by
    rw [hu]
    have := sameLog_broadcastCore q { s with cdbQueue := rest }
    exact ⟨this.length, this.entry⟩
  have hup : u.prog = s.prog := by simp [hu]
  have hregq : ∀ r, (s.reg r).qi = none → (u.reg r).qi = none := by
    intro r hr
    have hru : ∀ r, ({ s with cdbQueue := rest } : State).reg r = s.reg r := fun r => reg_congr rfl rfl r
    have hd' : ∀ r, (({ s with cdbQueue := rest } : State).reg r).qi = some q.station → q.dest = some r := by
      intro r hr
      rw [hru] at hr
      obtain ⟨P, hP, hn, -, hd⟩ := h.regTag r _ hr
      rw [h.unique hP hS (hn.trans hSn.symm), hSd] at hd
      exact hd
    rw [hu, qi_broadcastCore hd', hru, hr]
    simp
  refine ⟨d, r, ins, rs, rt, tg, hd, hrec, hc, ho, ?_⟩
  rw [← hu] at hL ⊢
  obtain ⟨d', hd', hpc, -, -⟩ := hlog.entry i d hd
  have hb : ∃ b, resolve i u = .ok (settle i b tg u) ∧
      (∀ a c, ins = .beq a c tg → b = takenBeq (u.reg (.r a)).value (u.reg (.r c)).value) ∧
      ∀ a c, ins = .bne a c tg → b = takenBne (u.reg (.r a)).value (u.reg (.r c)).value := by
    have h1 : u.recordOf i = .ok (d'.station, ins) := by
      simp only [State.recordOf, hd', hup, hpc, hrec, hc]
    have hr1 := hregq _ (hj.symm.trans hqj)
    have hr2 := hregq _ (hkq.symm.trans hqk)
    rcases ho with rfl | rfl
    · exact ⟨_, by simp only [resolve, h1, resolveBeq, resolveWith, readValue, hr1, hr2]; rfl,
        fun a c e => (by cases e; rfl), nofun⟩
    · exact ⟨_, by simp only [resolve, h1, resolveBne, resolveWith, readValue, hr1, hr2]; rfl,
        nofun, fun a c e => by cases e; rfl⟩
  obtain ⟨b, hb, hb'⟩ := hb
  refine ⟨b, hb, ?_⟩
  have hlen : i = u.instances.length - 1 := by
    rw [hlog.length]
    rw [hi'] at hinst
    exact Option.some.inj hinst
  have hlt : i < u.instances.length := by rw [hlog.length]; exact (List.getElem?_eq_some_iff.1 hd).1
  have hle : ∀ P ∈ u.stations, ∀ j, P.instruction = some j → j < u.instances.length := by
    intro P hP j hj'
    cases hPb : P.busy with
    | false => rw [hL.free P hP hPb] at hj'; cases hj'
    | true =>
      obtain ⟨o, i', x, -, -, h3, h4, -⟩ := hL.bound P hP hPb
      rw [h3] at hj'
      cases hj'
      exact (List.getElem?_eq_some_iff.1 h4).1
  have hlsb : ∀ e ∈ u.lsb, e.inst ≤ i := by
    intro e he
    obtain ⟨P, hP, -, -, -, -, -, -, hPi, -⟩ := hL.buffered e he
    have := hle P hP _ hPi
    omega
  have hset : ∀ b, Linked { stamp i (fun d => { d with taken := some b }) u with branchPending := false } := by
    intro b
    have h1 := stamp_linked hL i (f := fun d => { d with taken := some b }) fun d => ⟨rfl, rfl, rfl⟩
    refine ⟨h1.names, h1.free, h1.bound, h1.started, h1.counting, h1.regTag, h1.slotTag, h1.queued, h1.buffered, h1.once, ?_⟩
    intro P hP hPb hPk
    exfalso
    obtain ⟨-, hPi, -⟩ := hL.branch P hP hPb hPk
    obtain ⟨o, j, x, -, -, h3, h4, h5, -⟩ := hL.bound P hP hPb
    obtain ⟨o', j', y, -, -, g3, g4, g5, -⟩ := h.bound S hS hSb
    rw [hPi] at h3
    rw [hi'] at g3
    cases g3
    have hji : j = i := by rw [← Option.some.inj h3, ← hlen]
    subst hji
    rw [hd] at g4
    cases g4
    obtain ⟨d'', hd'', -, hst', -⟩ := hlog.entry j d hd
    rw [hd''] at h4
    cases h4
    have hPn : P.name = q.station := by rw [← h5, hst', g5, hSn]
    rw [hu] at hP
    rcases mem_broadcastCore hP with rfl | ⟨P', hP', hn, he⟩
    · cases hPb
    · refine hn ?_
      rw [← hPn, he]
      split
      · rw [forwardJK_eq]
      · rfl
  unfold settle
  cases b with
  | false => exact ⟨hset false, rfl, rfl, rfl, rfl, hb'⟩
  | true =>
    have hfl : flush i (stamp i (fun d => { d with taken := some true }) u) = stamp i (fun d => { d with taken := some true }) u := by
      refine flush_eq_self (by simp; omega) (fun P hP j hj' => ?_) hlsb
      have := hle P hP j hj'
      omega
    simp only [if_true, hfl]
    exact ⟨(hset true).congr rfl (fun _ => reg_congr rfl rfl _) rfl (.of_eq rfl) rfl rfl rfl, rfl, rfl, rfl, rfl, hb'⟩

/-- The broadcast of a branch's request writes no register and forwards to no slot: no tag names a branch station, since it
has no destination (40_cycle_engine.md R146–R148, 44_branch.md R273). -/
theorem broadcastCore_branch {s : State} (h : Linked s) {q : Request} {rest : List Request}
    (hp : s.cdbQueue.Perm (q :: rest)) (hk : q.station.kind = .branch) {i : Nat} (hi : s.instanceAt q.station = some i) :
    broadcastCore q { s with cdbQueue := rest } = { s with
      stations := s.stations.map fun P => if P.name = q.station then Station.free q.station else P
      cdbQueue := rest
      instances := s.instances.modify i fun d => { d with write := some s.cycle } } := by
  obtain ⟨S, hS, hSn, hSb, -, -, hSd⟩ := h.queued q (hp.mem_iff.2 (by simp))
  obtain ⟨o, j, d, ho, hko, -, -, -, -, hslots⟩ := h.bound S hS hSb
  have hnone : S.dest = none := by
    have hd := hslots.dest
    have hkb : opKind o = .branch := by rw [hko, Station.kind, hSn]; exact hk
    have hc : o.destClass = none := by cases o <;> first | rfl | cases hkb
    rw [hc] at hd
    simpa using hd
  have hfwd : forward q.station q.value { s with cdbQueue := rest } = { s with cdbQueue := rest } := by
    have hid : ∀ P ∈ s.stations, (if P.busy then forwardK q.station q.value s.cycle
        (forwardJ q.station q.value s.cycle P) else P) = P := by
      intro P hP
      have hno : ∀ T, P.qj = some T ∨ P.qk = some T → T ≠ q.station := by
        rintro T hT rfl
        obtain ⟨-, Q, hQ, hn, -, hd⟩ := h.slotTag P hP _ hT
        rw [h.unique hQ hS (hn.trans hSn.symm), hnone] at hd
        cases hd
      have hj : P.qj ≠ some q.station := fun e => hno _ (.inl e) rfl
      have hk : P.qk ≠ some q.station := fun e => hno _ (.inr e) rfl
      split
      · simp [forwardK, forwardJ, hj, hk]
      · rfl
    simp only [forward]
    congr 1
    conv_rhs => rw [← List.map_id s.stations]
    exact List.map_congr_left hid
  have hreg : regWrite q.station q.value q.dest { s with cdbQueue := rest } = { s with cdbQueue := rest } := by
    rw [← hSd, hnone]; rfl
  have hi' : ({ s with cdbQueue := rest } : State).instanceAt q.station = some i := hi
  rw [broadcastCore, hreg, hfwd, hi']
  rfl

/-- The Write phase of a branch's request: it resolves on its registers' values, and nothing else changes but its station,
its request and its instance (40_cycle_engine.md R148, R149, 44_branch.md R272–R274, R279). -/
theorem writePhase_branch {s : State} (h : Linked s) {q : Request} {rest : List Request}
    (hs : selectRequest s.cycle s.cdbQueue = some (q, rest)) (hk : q.station.kind = .branch) :
    ∃ S i d r ins rs rt target b, s.station? q.station = some S ∧ S.instruction = some i ∧ s.instances[i]? = some d ∧
      s.prog[d.pc]? = some r ∧ checkRecord s.prog.length d.pc r = .ok ins ∧
      (ins = .beq rs rt target ∧ b = takenBeq (s.reg (.r rs)).value (s.reg (.r rt)).value ∨
        ins = .bne rs rt target ∧ b = takenBne (s.reg (.r rs)).value (s.reg (.r rt)).value) ∧
      writePhase s = .ok { s with
        stations := s.stations.map fun P => if P.name = q.station then Station.free q.station else P
        cdbQueue := rest
        instances := s.instances.modify i fun d => { d with write := some s.cycle, taken := some b }
        cursor := if b then target.toInt.toNat else s.cursor
        branchPending := false } := by
  have hp := selectRequest_perm hs
  obtain ⟨S, hS, hSb, -⟩ := h.ofQueued (selectRequest_eq_some hs).2.1
  obtain ⟨o, i, x, -, -, hSi, -⟩ := h.bound S (station?_mem hS) hSb
  have hi : s.instanceAt q.station = some i := by rw [State.instanceAt, hS]; exact hSi
  obtain ⟨d, r, ins, rs, rt, target, hd, hr, hc, ho, b, hb, -, -, -, -, hset, hbeq, hbne⟩ := resolve_linked h hp hk hi
  rw [broadcastCore_branch h hp hk hi] at hb hset hbeq hbne
  refine ⟨S, i, d, r, ins, rs, rt, target, b, hS, hSi, hd, hr, hc, ?_, ?_⟩
  · exact ho.imp (fun e => ⟨e, hbeq _ _ e⟩) fun e => ⟨e, hbne _ _ e⟩
  · obtain ⟨hn, -⟩ | ⟨q', rest', hs', ⟨hk', -⟩ | ⟨-, ⟨i', hi', hw⟩ | ⟨hi', -⟩⟩⟩ := writePhase_cases (s := s) rfl
    · rw [hs] at hn; cases hn
    all_goals (rw [hs] at hs'; cases hs')
    · exact absurd hk hk'
    · rw [hi] at hi'
      cases hi'
      rw [hw, broadcastCore_branch h hp hk hi, hb, hset, settledBranch]
      simp only [List.modify_modify_eq]
      rfl
    · rw [hi] at hi'; cases hi'

theorem writePhase_linked {s : State} (h : Linked s) : Cyc.All Linked (writePhase s) := by
  obtain ⟨h', hc⟩ | ⟨q, rest, hs, ⟨hk, hc⟩ | ⟨hk, ⟨i, hi, hc⟩ | ⟨hi, hc⟩⟩⟩ := writePhase_cases (s := s) rfl <;> rw [hc]
  · exact h
  · exact broadcastCore_linked h (selectRequest_perm hs)
  · obtain ⟨d, r, ins, rs, rt, tg, -, -, -, -, b, hb, hL, -⟩ := resolve_linked h (selectRequest_perm hs) hk hi
    rw [hb]
    exact hL
  · trivial

/-- The Issue phase keeps the tags linked. -/
theorem issuePhase_linked {s t : State} (hs : Linked s) (h : issuePhase s = .next t) : Linked t := by
  unfold issuePhase at h
  split at h
  · cases h; exact hs
  · cases h
  · next i hi =>
    unfold State.recordAtCursor at hi
    split at hi
    · cases hi
    · next r hr =>
      have hc : checkRecord s.prog.length s.cursor r = .ok i := by simpa using hi
      cases i with
      | beq rs rt tg =>
        exact issueRecord_linked hs rfl rfl rfl
          (fun _ => ⟨r, _, rs, rt, tg, hr, hc, .inl rfl, rfl, rfl, rfl⟩) h
      | bne rs rt tg =>
        exact issueRecord_linked hs rfl rfl rfl
          (fun _ => ⟨r, _, rs, rt, tg, hr, hc, .inr rfl, rfl, rfl, rfl⟩) h
      | _ => exact issueRecord_linked hs rfl rfl rfl (fun e => by cases e) h

end Sys2Proof.Machine
end

