-- ==== Sys2Proof/Laws/Answer.lean ====
section
/-! SUPPORT. That the phases of a cycle keep what each started station waits for: a countdown, a queued request or an entry
of the LSB (40_cycle_engine.md R180): one lemma per shared operation. -/

namespace Sys2Proof.Machine

/-- What a station that has started and counts no more waits for. -/
def Awaited (s : State) (T : Tag) : Prop :=
  T ∈ s.cdbQueue.map Request.station ∨ T ∈ s.lsb.map LsbEntry.station

/-- Every started station is one of before that counts as it did, or counts down, or is awaited; and of those before none
is awaited no more. -/
theorem Answering.of {s t : State} (h : Answering s) (hc : t.cfg = s.cfg)
    (hst : ∀ S ∈ t.stations, S.execStarted = true → 0 < S.remainingCycles ∨ Awaited t S.name ∨
      ∃ P ∈ s.stations, P.name = S.name ∧ P.execStarted = true ∧ P.remainingCycles = S.remainingCycles)
    (ha : ∀ S ∈ t.stations, S.execStarted = true → Awaited s S.name → Awaited t S.name) : Answering t where
  latency := by rw [hc]; exact h.latency
  answer S hS he := by
    rcases hst S hS he with h' | h' | ⟨P, hP, hn, hPe, hr⟩
    · exact .inl h'
    · exact .inr h'
    · rw [← hr, ← hn]
      rcases h.answer P hP hPe with h' | h'
      · exact .inl h'
      · exact .inr (hn ▸ ha S hS he (hn ▸ h'))

/-- The invariant reads the configuration, the stations, the queue and the buffer. -/
theorem Answering.congr {s t : State} (h : Answering s) (hc : t.cfg = s.cfg) (hs : t.stations = s.stations)
    (hq : t.cdbQueue = s.cdbQueue) (hl : t.lsb = s.lsb) : Answering t :=
  h.of hc (fun S hS he => .inr (.inr ⟨S, hs ▸ hS, rfl, he, rfl⟩)) fun S _ _ ha => by
    unfold Awaited; rw [hq, hl]; exact ha

/-! ### Execute -/

/-- An update of station T that does not start it idle, and keeps it awaited if it was. -/
theorem Answering.update {s t : State} (h : Answering s) {T : Tag} {f : Station → Station} (hc : t.cfg = s.cfg)
    (hst : t.stations = (updStation T f s).stations) (hn : ∀ S, (f S).name = S.name)
    (hf : ∀ S ∈ s.stations, S.name = T → 0 < (f S).remainingCycles ∨ Awaited t T)
    (ha : ∀ U, Awaited s U → Awaited t U) : Answering t := by
  refine h.of hc (fun S hS he => ?_) fun S _ _ => ha S.name
  rw [hst, updStation_stations] at hS
  obtain ⟨P, hP, rfl⟩ := List.mem_map.1 hS
  by_cases e : P.name = T
  · rw [if_pos e] at he ⊢
    rcases hf P hP e with h | h
    · exact .inl h
    · exact .inr (.inl (by rw [hn, e]; exact h))
  · rw [if_neg e] at he ⊢
    exact .inr (.inr ⟨P, hP, rfl, he, rfl⟩)

theorem countDown_answering {s : State} (hl : Linked s) (h : Answering s) (T : Tag) :
    Cyc.All Answering (countDown T s) := by
  obtain ⟨r, hc⟩ | ⟨S, hS, ⟨-, hc⟩ | ⟨hr, h1, hc⟩ | ⟨o, v, hr, h1, ho, hv, hc⟩⟩ := countDown_cases (T := T) (s := s) rfl <;>
    rw [hc]
  · trivial
  · exact h
  · refine h.update rfl rfl (fun _ => rfl) (fun P hP e => .inl ?_) fun _ hU => hU
    simp only [Station.running, Bool.and_eq_true, decide_eq_true_eq] at hr
    rw [hl.found hS hP e]
    dsimp only
    omega
  · refine h.update (T := T) (f := fun S => { S with remainingCycles := S.remainingCycles - 1 }) (by simp) (by simp)
      (fun _ => rfl) (fun P hP e => .inr (.inl ?_)) fun U hU => ?_
    · simp [station?_name hS]
    · unfold Awaited at hU ⊢
      simp only [stampBound_cdbQueue, enqueue_cdbQueue, updStation_cdbQueue, List.map_append, List.mem_append,
        stampBound_lsb, enqueue_lsb, updStation_lsb]
      exact hU.imp .inl id

theorem startStation_answering {s : State} (h : Answering s) (T : Tag) : Cyc.All Answering (startStation T s) := by
  obtain ⟨r, hc⟩ | ⟨S, hS, hc | ⟨l, hr, hl, hc⟩⟩ := startStation_cases (T := T) (s := s) rfl <;> rw [hc]
  · trivial
  · exact h
  · refine h.update (T := T) (f := fun S => { S with execStarted := true, remainingCycles := l }) (by simp) (by simp)
      (fun _ => rfl) (fun P hP e => .inl ?_) fun U hU => ?_
    · obtain ⟨o, -, ho⟩ := Option.bind_eq_some_iff.1 hl
      exact h.latency o l ho
    · simpa [Awaited] using hU

theorem executePhase_answering {s : State} (hl : Linked s) (h : Answering s) :
    Cyc.All Answering (executePhase s) := by
  have h1 : Cyc.All (fun t => Linked t ∧ Answering t) (forEach countDown s.tags s) :=
    forEach_all (fun T _ t ht => (countDown_linked ht.1 T).and (countDown_answering ht.1 ht.2 T)) ⟨hl, h⟩
  unfold executePhase
  split
  · next e he => rw [he] at h1; exact h1.mono fun _ h => h.2
  · next s' he =>
    rw [he] at h1
    exact forEach_all (fun T _ t ht => startStation_answering ht T) (And.right h1)

/-! ### Memory -/

theorem stampStart_answering {s : State} (h : Answering s) (e : LsbEntry) : Answering (stampStart e s) :=
  h.congr (by simp) (by simp) (by simp) (by simp)

/-- A tick of a well-formed memory system: an entry that leaves the buffer has queued a request or freed its station. -/
theorem lsbTickFrom_answering (kept es : List LsbEntry) (s : State) (hs : Shaped { s with lsb := kept ++ es })
    (h : Answering { s with lsb := kept ++ es }) : Cyc.All Answering (lsbTickFrom kept es s) := by
  induction es generalizing kept s with
  | nil => simpa [lsbTickFrom] using h
  | cons e es ih =>
    obtain ⟨-, hc⟩ | ⟨-, -, u, hC, hc⟩ | ⟨-, -, hc⟩ := lsbTickFrom_cons hs <;> rw [hc]
    · exact ih _ s (by simpa using hs) (by simpa using h)
    · have hlsb : ({ u with lsb := kept ++ es } : State) = u := by
        rw [← show u.lsb = kept ++ es from hC.lsb.trans (by simp)]
      refine ih kept u (by rw [hlsb]; exact hC.shaped) ?_
      rw [hlsb]
      have hq := congrArg (List.map Request.station) hC.queue
      rw [List.map_append, commitRequests_stations (hs.entry e (by simp)), stampStart_cdbQueue] at hq
      have hst : ∀ S ∈ u.stations, S.execStarted = true → S ∈ s.stations ∧ (S.name = e.station → e.isLoad = true) := by
        intro S hS he
        rw [hC.stations] at hS
        split at hS
        · next hl => exact ⟨by simpa using hS, fun _ => hl⟩
        · rw [release_stations] at hS
          obtain ⟨P, hP, rfl⟩ := List.mem_map.1 hS
          split at he
          · cases he
          · next hn => rw [if_neg hn]; exact ⟨by simpa using hP, fun e => absurd e hn⟩
      refine h.of (hC.cfg.trans (by simp)) (fun S hS he => .inr (.inr ⟨S, (hst S hS he).1, rfl, he, rfl⟩))
        fun S hS he hU => ?_
      unfold Awaited at hU ⊢
      rw [hq, hC.lsb]
      simp only [List.map_append, List.map_cons, List.mem_append, List.mem_cons, stampStart_lsb] at hU ⊢
      by_cases hn : S.name = e.station
      · rw [(hst S hS he).2 hn, hn]
        simp
      · tauto
    · refine ih _ _ (hs.counted e) (h.of (by simp) (fun S hS he => .inr (.inr ⟨S, by simpa using hS, rfl, he, rfl⟩))
        fun S _ _ hU => ?_)
      simpa [Awaited, LsbEntry.decremented] using hU

theorem memoryPhase_answering {s : State} (hs : Shaped s) (h : Answering s) : Cyc.All Answering (memoryPhase s) :=
  lsbTickFrom_answering [] s.lsb s hs h

/-! ### Handover -/

theorem handover_answering {s : State} (h : Answering s) (T : Tag) : Cyc.All Answering (handover T s) := by
  obtain ⟨r, hc⟩ | ⟨f, -, hc⟩ | ⟨S, o, base, off, inst, b, ea, data, hS, -, -, -, -, -, -, -, -, -, -, hc⟩ :=
    handover_cases (T := T) (s := s) rfl <;> rw [hc]
  · trivial
  · exact h.congr rfl rfl rfl rfl
  · refine h.update (T := T) (f := fun S => { S with execStarted := true }) rfl ?_ (fun _ => rfl)
      (fun _ _ _ => .inr (.inr ?_)) fun U hU => hU.imp id fun hU => ?_
    · simp [enterLsb, lsbEntry, station?_name hS]
    · simp [lsbEntry, station?_name hS]
    · rw [enterLsb_lsb, List.map_append]
      exact List.mem_append.2 (.inl hU)

theorem deferredPhase_answering {s : State} (h : Answering s) : Cyc.All Answering (deferredPhase s) :=
  forEach_all (fun S _ t ht => by
    unfold handoverIfRoom
    split
    · exact ht
    · exact handover_answering ht _) h

/-! ### Write -/

/-- A broadcast frees its station, and every other one is awaited as before. -/
theorem broadcastCore_answering {s : State} (h : Answering s) {q : Request} {rest : List Request}
    (hp : s.cdbQueue.Perm (q :: rest)) : Answering (broadcastCore q { s with cdbQueue := rest }) := by
  have hst : ∀ S ∈ (broadcastCore q { s with cdbQueue := rest }).stations, S.execStarted = true →
      S.name ≠ q.station ∧ ∃ P ∈ s.stations, P.name = S.name ∧ P.execStarted = true ∧
        P.remainingCycles = S.remainingCycles := by
    intro S hS he
    rcases mem_broadcastCore hS with rfl | ⟨P, hP, hn, rfl⟩
    · cases he
    · split at he
      · next hb =>
        rw [if_pos hb]
        rw [forwardJK_eq] at he ⊢
        exact ⟨hn, P, hP, rfl, he, rfl⟩
      · next hb =>
        rw [if_neg hb]
        exact ⟨hn, P, hP, rfl, he, rfl⟩
  refine h.of (by simp [broadcastCore]) (fun S hS he => .inr (.inr (hst S hS he).2)) fun S hS he hU => ?_
  have hne := (hst S hS he).1
  unfold Awaited at hU ⊢
  rw [(hp.map Request.station).mem_iff] at hU
  simp only [broadcastCore, release_cdbQueue, stampWrite_cdbQueue, forward_cdbQueue, regWrite_cdbQueue, release_lsb,
    stampWrite_lsb, forward_lsb, regWrite_lsb]
  simpa [hne] using hU

theorem writePhase_answering {s : State} (hl : Linked s) (h : Answering s) : Cyc.All Answering (writePhase s) := by
  obtain ⟨h', hc⟩ | ⟨q, rest, hs, ⟨hk, hc⟩ | ⟨hk, ⟨i, hi, hc⟩ | ⟨hi, hc⟩⟩⟩ := writePhase_cases (s := s) rfl <;> rw [hc]
  · exact h
  · exact broadcastCore_answering h (selectRequest_perm hs)
  · obtain ⟨d, r, ins, rs, rt, tg, -, -, -, -, b, hb, -, h1, h2, h3, -⟩ := resolve_linked hl (selectRequest_perm hs) hk hi
    rw [hb]
    refine (broadcastCore_answering h (selectRequest_perm hs)).congr ?_ h1 h2 h3
    unfold settle
    cases b <;> rfl
  · trivial

/-! ### Issue -/

/-- The new station of an issue has not started. -/
theorem captured_answering {s : State} (h : Answering s) (T : Tag) (o : OpCode) (d : Option Reg) (j : Reg)
    (k : Option Reg) (a : Option I32) : Answering (captured T o d j k a s) := by
  refine h.of (by simp) (fun S hS he => .inr (.inr ?_)) fun S _ _ hU => by simpa [Awaited] using hU
  rw [captured_stations] at hS
  obtain ⟨P, hP, rfl⟩ := List.mem_map.1 hS
  split at he
  · cases he
  · next hn => rw [if_neg hn]; exact ⟨P, hP, rfl, he, rfl⟩

theorem issueRecord_answering {s t : State} (h : Answering s) {o : OpCode} {d : Option Reg} {j : Reg} {k : Option Reg}
    {a : Option I32} (hi : issueRecord o d j k a s = .next t) : Answering t := by
  obtain h' | ⟨T, -, -, ⟨-, h'⟩ | ⟨-, -, -, h'⟩ | ⟨-, -, -, h'⟩⟩ := issueRecord_cases o d j k a s <;> rw [h'] at hi
  · cases hi; exact h
  · cases hi
    split <;> exact (captured_answering h T o d j k a).congr rfl rfl rfl rfl
  · cases hi
    exact (captured_answering h T o d j k a).congr rfl rfl rfl rfl
  · have hh := handover_answering (captured_answering h T o d j k a) T
    split at hi
    · next u he =>
      cases hi
      rw [he] at hh
      exact Answering.congr (s := u) hh rfl rfl rfl rfl
    · next u he => cases hi; rw [he] at hh; exact hh
    · cases hi

theorem issuePhase_answering {s t : State} (h : Answering s) (hi : issuePhase s = .next t) : Answering t := by
  unfold issuePhase at hi
  split at hi
  · cases hi; exact h
  · cases hi
  · next i _ => cases i <;> exact issueRecord_answering h hi

end Sys2Proof.Machine
end

