-- ==== Sys2Proof/Laws/Float.lean ====
section
/-! SUPPORT. The one rounding of the model, said once: `roundMag` answers the code of the format's value nearest the exact
quotient, ties to even (43_fp_arith.md R241), and codes read back as the values they stand for. -/

namespace Sys2Proof.Machine

theorem pow2_eq (n : Nat) : pow2 n = 2 ^ n := by
  rw [pow2, ← Nat.pow_mul, ← Nat.pow_add, Nat.div_add_mod]

/-- The magnitude, in units of the smallest subnormal, that a magnitude code of a format with `p` fraction bits stands for. -/
def magOf (p c : Nat) : Nat := if c / 2 ^ p = 0 then c % 2 ^ p else (2 ^ p + c % 2 ^ p) * 2 ^ (c / 2 ^ p - 1)

/-- The code of a significand `m` shifted by `k` stands for `m * 2^k`. -/
theorem magOf_code {p k m : Nat} (h1 : m ≤ 2 ^ (p + 1)) (h2 : k = 0 ∨ 2 ^ p ≤ m) : magOf p (k * 2 ^ p + m) = m * 2 ^ k := by
  have hp : 0 < 2 ^ p := Nat.two_pow_pos p
  have h2p : 2 ^ (p + 1) = 2 ^ p + 2 ^ p := by rw [Nat.pow_succ]; omega
  have hd : ∀ m', (k * 2 ^ p + m') / 2 ^ p = k + m' / 2 ^ p ∧ (k * 2 ^ p + m') % 2 ^ p = m' % 2 ^ p := by
    intro m'
    rw [Nat.mul_comm]
    exact ⟨by rw [Nat.mul_add_div hp], by rw [Nat.mul_add_mod]⟩
  by_cases hlt : m < 2 ^ p
  · obtain rfl : k = 0 := by omega
    simp only [magOf, Nat.zero_mul, Nat.zero_add, Nat.div_eq_of_lt hlt, Nat.mod_eq_of_lt hlt]
    simp
  · rcases Nat.eq_or_lt_of_le h1 with h | h
    · have e1 : m / 2 ^ p = 2 := by rw [h, h2p, ← Nat.two_mul, Nat.mul_div_cancel _ hp]
      have e2 : m % 2 ^ p = 0 := by rw [h, h2p, ← Nat.two_mul, Nat.mul_mod_left]
      rw [magOf, (hd m).1, (hd m).2, e1, e2, if_neg (by omega), h, h2p, show k + 2 - 1 = k + 1 by omega, Nat.pow_succ]
      ring
    · have e1 : m / 2 ^ p = 1 := by
        rw [Nat.div_eq_iff hp]
        omega
      have e2 : m % 2 ^ p = m - 2 ^ p := by rw [Nat.mod_eq_sub_mod (by omega), Nat.mod_eq_of_lt (by omega)]
      rw [magOf, (hd m).1, (hd m).2, e1, e2, if_neg (by omega), show 2 ^ p + (m - 2 ^ p) = m by omega]
      rfl

/-- Every magnitude is a multiple of `2^k`, or smaller than `2^(p+k)`. -/
theorem magOf_multiple (p c k : Nat) : 2 ^ k ∣ magOf p c ∨ (0 < k ∧ magOf p c < 2 ^ p * 2 ^ k) := by
  have hp : 0 < 2 ^ p := Nat.two_pow_pos p
  have hc : c % 2 ^ p < 2 ^ p := Nat.mod_lt _ hp
  rcases Nat.eq_zero_or_pos k with rfl | hk
  · exact .inl (one_dvd _)
  · have hk1 : 2 ^ 1 ≤ 2 ^ k := Nat.pow_le_pow_right (by omega) hk
    unfold magOf
    split
    · exact .inr ⟨hk, Nat.lt_of_lt_of_le hc (Nat.le_mul_of_pos_right _ (by omega))⟩
    · by_cases he : k ≤ c / 2 ^ p - 1
      · exact .inl (Dvd.dvd.mul_left (Nat.pow_dvd_pow 2 he) _)
      · refine .inr ⟨hk, ?_⟩
        obtain ⟨j, hj⟩ : ∃ j, k = c / 2 ^ p - 1 + 1 + j := ⟨k - (c / 2 ^ p - 1) - 1, by omega⟩
        have hj1 : 2 ^ (c / 2 ^ p - 1) * 2 ≤ 2 ^ k := by
          rw [← Nat.pow_succ, hj]
          exact Nat.pow_le_pow_right (by omega) (by omega)
        calc (2 ^ p + c % 2 ^ p) * 2 ^ (c / 2 ^ p - 1)
            < (2 ^ p * 2) * 2 ^ (c / 2 ^ p - 1) := Nat.mul_lt_mul_of_pos_right (by omega) (Nat.two_pow_pos _)
          _ = 2 ^ p * (2 ^ (c / 2 ^ p - 1) * 2) := by ring
          _ ≤ 2 ^ p * 2 ^ k := Nat.mul_le_mul_left _ hj1

/-- A larger code is a larger magnitude. -/
theorem magOf_lt_succ (p c : Nat) : magOf p c < magOf p (c + 1) := by
  have hp : 0 < 2 ^ p := Nat.two_pow_pos p
  have hc := Nat.div_add_mod c (2 ^ p)
  have hm := Nat.mod_lt c hp
  obtain ⟨e, he⟩ : ∃ e, e = c / 2 ^ p := ⟨_, rfl⟩
  obtain ⟨f, hf⟩ : ∃ f, f = c % 2 ^ p := ⟨_, rfl⟩
  rw [← he, ← hf] at hc
  rw [← hf] at hm
  by_cases h : f + 1 < 2 ^ p
  · have e1 : (c + 1) / 2 ^ p = e := by
      rw [← hc, Nat.add_assoc, Nat.mul_add_div hp, Nat.div_eq_of_lt h, Nat.add_zero]
    have e2 : (c + 1) % 2 ^ p = f + 1 := by rw [← hc, Nat.add_assoc, Nat.mul_add_mod, Nat.mod_eq_of_lt h]
    simp only [magOf, e1, e2, ← he, ← hf]
    split
    · omega
    · exact Nat.mul_lt_mul_of_pos_right (by omega) (Nat.two_pow_pos _)
  · have hf1 : f + 1 = 2 ^ p := by omega
    have e0 : c + 1 = 2 ^ p * (e + 1) := by rw [← hc, Nat.add_assoc, hf1, Nat.mul_succ]
    have e1 : (c + 1) / 2 ^ p = e + 1 := by rw [e0, Nat.mul_div_cancel_left _ hp]
    have e2 : (c + 1) % 2 ^ p = 0 := by rw [e0, Nat.mul_mod_right]
    simp only [magOf, e1, e2, ← he, ← hf, Nat.add_zero, Nat.add_sub_cancel, Nat.succ_ne_zero, if_false]
    split
    · next h0 => subst h0; omega
    · obtain ⟨e', rfl⟩ : ∃ e', e = e' + 1 := ⟨e - 1, by omega⟩
      rw [Nat.add_sub_cancel, Nat.pow_succ, Nat.mul_comm (2 ^ e') 2, ← Nat.mul_assoc]
      exact Nat.mul_lt_mul_of_pos_right (by omega) (Nat.two_pow_pos _)

theorem magOf_lt {p c d : Nat} (h : c < d) : magOf p c < magOf p d := by
  induction d with
  | zero => omega
  | succ d ih =>
    rcases Nat.eq_or_lt_of_le (Nat.le_of_lt_succ h) with rfl | h'
    · exact magOf_lt_succ _ _
    · exact Nat.lt_trans (ih h') (magOf_lt_succ _ _)

theorem magOf_inj {p c d : Nat} (h : magOf p c = magOf p d) : c = d := by
  rcases Nat.lt_trichotomy c d with h' | h' | h'
  · exact absurd h (Nat.ne_of_lt (magOf_lt h'))
  · exact h'
  · exact absurd h.symm (Nat.ne_of_lt (magOf_lt h'))

/-- What `roundMag` computes: a significand and a shift, nearest, ties to even. -/
theorem roundMag_spec (p inf num den : Nat) (hden : 0 < den) : ∃ k m, roundMag p inf num den = min (k * 2 ^ p + m) inf ∧
    m ≤ 2 ^ (p + 1) ∧ (k = 0 ∨ 2 ^ p ≤ m) ∧ 2 * (m * (2 ^ k * den)) ≤ 2 * num + 2 ^ k * den ∧
    2 * num ≤ 2 * (m * (2 ^ k * den)) + 2 ^ k * den ∧
    (2 * (m * (2 ^ k * den)) = 2 * num + 2 ^ k * den ∨ 2 * num = 2 * (m * (2 ^ k * den)) + 2 ^ k * den → m % 2 = 0) ∧
    (0 < k → 2 ^ p * (2 ^ k * den) ≤ num) := by
  obtain ⟨k, hk⟩ : ∃ k, k = Nat.log2 (num / den) - p := ⟨_, rfl⟩
  obtain ⟨d, hd⟩ : ∃ d, d = 2 ^ k * den := ⟨_, rfl⟩
  have hd' : den * pow2 k = d := by rw [pow2_eq, hd, Nat.mul_comm]
  have hpos : 0 < d := by rw [hd]; exact Nat.mul_pos (Nat.two_pow_pos k) hden
  have hdm := Nat.div_add_mod num d
  have hr : num % d < d := Nat.mod_lt _ hpos
  obtain ⟨q, hq⟩ : ∃ q, q = num / d := ⟨_, rfl⟩
  obtain ⟨r, hr'⟩ : ∃ r, r = num % d := ⟨_, rfl⟩
  rw [← hq, ← hr'] at hdm
  rw [← hr'] at hr
  have hqle : q < 2 ^ (p + 1) := by
    have hn : num / den < 2 ^ (Nat.log2 (num / den) + 1) := Nat.lt_log2_self
    have : q = num / den / 2 ^ k := by rw [hq, hd, Nat.mul_comm, Nat.div_div_eq_div_mul]
    rw [this]
    refine Nat.div_lt_of_lt_mul ?_
    rw [← Nat.pow_add]
    exact Nat.lt_of_lt_of_le hn (Nat.pow_le_pow_right (by omega) (by omega))
  have hqge : 0 < k → 2 ^ p ≤ q := by
    intro h0
    have hne : num / den ≠ 0 := by
      intro h
      rw [h, show Nat.log2 0 = 0 from rfl] at hk
      omega
    have hn : 2 ^ Nat.log2 (num / den) ≤ num / den := Nat.log2_self_le hne
    have : q = num / den / 2 ^ k := by rw [hq, hd, Nat.mul_comm, Nat.div_div_eq_div_mul]
    rw [this, Nat.le_div_iff_mul_le (Nat.two_pow_pos k), ← Nat.pow_add]
    exact Nat.le_trans (Nat.pow_le_pow_right (by omega) (by omega)) hn
  obtain ⟨m, hm⟩ : ∃ m, m = if (decide (d < 2 * r) || (2 * r == d && q % 2 == 1)) = true then q + 1 else q := ⟨_, rfl⟩
  have hround : roundMag p inf num den = min (k * 2 ^ p + m) inf := by
    simp only [roundMag]
    rw [← hk, hd', ← hq, ← hr', hm]
  refine ⟨k, m, hround, ?_, ?_, ?_, ?_, ?_, ?_⟩
  · rw [hm]; split <;> omega
  · by_cases h0 : k = 0
    · exact .inl h0
    · have := hqge (by omega)
      right
      rw [hm]
      split <;> omega
  all_goals rw [← hd]
  · rw [hm]
    split
    · next h =>
      simp only [Bool.or_eq_true, decide_eq_true_eq, Bool.and_eq_true, beq_iff_eq] at h
      have : (q + 1) * d = d * q + d := by ring
      omega
    · have : q * d = d * q := Nat.mul_comm _ _
      omega
  · rw [hm]
    split
    · have : (q + 1) * d = d * q + d := by ring
      omega
    · next h =>
      simp only [Bool.or_eq_true, decide_eq_true_eq, Bool.and_eq_true, beq_iff_eq, not_or] at h
      have : q * d = d * q := Nat.mul_comm _ _
      omega
  · rw [hm]
    split
    · next h =>
      simp only [Bool.or_eq_true, decide_eq_true_eq, Bool.and_eq_true, beq_iff_eq] at h
      have : (q + 1) * d = d * q + d := by ring
      omega
    · next h =>
      simp only [Bool.or_eq_true, decide_eq_true_eq, Bool.and_eq_true, beq_iff_eq, not_or] at h
      have : q * d = d * q := Nat.mul_comm _ _
      omega
  · intro h0
    have h1 := Nat.mul_le_mul_right d (hqge h0)
    have : q * d = d * q := Nat.mul_comm _ _
    omega

/-- An exact quotient whose significand fits is not rounded. -/
theorem roundMag_exact {p inf m k den : Nat} (hden : 0 < den) (hm : m < 2 ^ (p + 1)) :
    ∃ c, roundMag p inf (m * 2 ^ k * den) den = min c inf ∧ magOf p c = m * 2 ^ k := by
  obtain ⟨k', m', h1, h2, h3, h4, h5, -, h7⟩ := roundMag_spec p inf (m * 2 ^ k * den) den hden
  refine ⟨_, h1, ?_⟩
  rw [magOf_code h2 h3]
  have hk : k' ≤ k := by
    by_contra hk
    have h7 := h7 (by omega)
    obtain ⟨j, rfl⟩ : ∃ j, k' = k + 1 + j := ⟨k' - k - 1, by omega⟩
    have : 2 ^ p * (2 ^ (k + 1 + j) * den) = 2 ^ (p + 1) * 2 ^ j * (2 ^ k * den) := by
      rw [Nat.pow_add, Nat.pow_succ, Nat.pow_succ]; ring
    rw [this, Nat.mul_assoc m] at h7
    have hp : 0 < 2 ^ k * den := Nat.mul_pos (Nat.two_pow_pos k) hden
    have := Nat.le_of_mul_le_mul_right h7 hp
    have := Nat.le_mul_of_pos_right (2 ^ (p + 1)) (Nat.two_pow_pos j)
    omega
  obtain ⟨j, rfl⟩ : ∃ j, k = k' + j := ⟨k - k', by omega⟩
  have e : m * 2 ^ (k' + j) * den = (m * 2 ^ j) * (2 ^ k' * den) := by rw [Nat.pow_add]; ring
  rw [e] at h4 h5
  have hp : 0 < 2 ^ k' * den := Nat.mul_pos (Nat.two_pow_pos _) hden
  have : m' = m * 2 ^ j := by
    rcases Nat.lt_trichotomy m' (m * 2 ^ j) with h | h | h
    · have := Nat.mul_le_mul_right (2 ^ k' * den) (Nat.succ_le_of_lt h)
      rw [Nat.succ_mul] at this
      omega
    · exact h
    · have := Nat.mul_le_mul_right (2 ^ k' * den) (Nat.succ_le_of_lt h)
      rw [Nat.succ_mul] at this
      omega
  rw [this, Nat.pow_add]
  ring

/-- The rounded value is nearest, and the tie goes to the even code. -/
theorem roundMag_nearest {p inf num den : Nat} (hp : 0 < p) (hden : 0 < den) (hfin : roundMag p inf num den < inf) (c : Nat) :
    |((magOf p (roundMag p inf num den) * den : Nat) : Int) - num| ≤ |((magOf p c * den : Nat) : Int) - num| ∧
    (magOf p c ≠ magOf p (roundMag p inf num den) →
      |((magOf p (roundMag p inf num den) * den : Nat) : Int) - num| = |((magOf p c * den : Nat) : Int) - num| →
      roundMag p inf num den % 2 = 0) := by
  obtain ⟨k, m, h1, h2, h3, h4, h5, h6, h7⟩ := roundMag_spec p inf num den hden
  have hc : roundMag p inf num den = k * 2 ^ p + m := by omega
  have heven : m % 2 = 0 → (k * 2 ^ p + m) % 2 = 0 := by
    intro h
    obtain ⟨p', rfl⟩ : ∃ p', p = p' + 1 := ⟨p - 1, by omega⟩
    rw [Nat.pow_succ, ← Nat.mul_assoc]
    omega
  simp only [Int.abs_eq_natAbs]
  rw [hc, magOf_code h2 h3]
  obtain ⟨D, hD⟩ : ∃ D, D = 2 ^ k * den := ⟨_, rfl⟩
  rw [← hD] at h4 h5 h6 h7
  have hM : m * 2 ^ k * den = m * D := by rw [hD]; ring
  rw [hM]
  have hDpos : 0 < D := by rw [hD]; exact Nat.mul_pos (Nat.two_pow_pos k) hden
  have h2k : 0 < 2 ^ k := Nat.two_pow_pos k
  rcases magOf_multiple p c k with ⟨w, hw⟩ | ⟨hk, hw⟩
  · have hW : magOf p c * den = w * D := by rw [hw, hD]; ring
    have hne : magOf p c ≠ m * 2 ^ k → w ≠ m := by
      rintro h rfl
      exact h (by rw [hw, Nat.mul_comm])
    rw [hW]
    rcases Nat.lt_trichotomy w m with h | h | h
    · have := Nat.mul_le_mul_right D (Nat.succ_le_of_lt h)
      rw [Nat.succ_mul] at this
      exact ⟨by omega, fun _ he => heven (h6 (by omega))⟩
    · rw [h]
      exact ⟨le_refl _, fun h' => absurd h (hne h')⟩
    · have := Nat.mul_le_mul_right D (Nat.succ_le_of_lt h)
      rw [Nat.succ_mul] at this
      exact ⟨by omega, fun _ he => heven (h6 (by omega))⟩
  · have h7 := h7 hk
    have hm : 2 ^ p ≤ m := by omega
    have hB := Nat.mul_le_mul_right D hm
    have hW : magOf p c * den < 2 ^ p * D := by
      have := Nat.mul_lt_mul_of_pos_right hw hden
      rwa [Nat.mul_assoc, ← hD] at this
    have hstrict : ((((m * D : Nat) : Int) - num).natAbs : Int) < (((magOf p c * den : Nat) : Int) - num).natAbs := by
      rcases Nat.eq_or_lt_of_le hm with h | h
      · rw [← h]; omega
      · have := Nat.mul_le_mul_right D (Nat.succ_le_of_lt h)
        rw [Nat.succ_mul] at this
        omega
    exact ⟨le_of_lt hstrict, fun _ he => absurd he (ne_of_lt hstrict)⟩

/-- A rounded multiple of `2^j` is a multiple of `2^j`. -/
theorem roundMag_multiple {p inf num j : Nat} (h : 2 ^ j ∣ num) :
    ∃ c, roundMag p inf num 1 = min c inf ∧ 2 ^ j ∣ magOf p c := by
  obtain ⟨k, m, h1, h2, h3, h4, h5, -, -⟩ := roundMag_spec p inf num 1 Nat.one_pos
  refine ⟨_, h1, ?_⟩
  rw [magOf_code h2 h3]
  by_cases hk : j ≤ k
  · exact Dvd.dvd.mul_left (Nat.pow_dvd_pow 2 hk) m
  · obtain ⟨i, rfl⟩ : ∃ i, j = k + i := ⟨j - k, by omega⟩
    obtain ⟨w, hw⟩ := h
    have hw' : num = (2 ^ i * w) * 2 ^ k := by rw [hw, Nat.pow_add]; ring
    have hp : 0 < 2 ^ k := Nat.two_pow_pos k
    rw [Nat.mul_one] at h4 h5
    have : m = 2 ^ i * w := by
      rcases Nat.lt_trichotomy m (2 ^ i * w) with h | h | h
      · have := Nat.mul_le_mul_right (2 ^ k) (Nat.succ_le_of_lt h)
        rw [Nat.succ_mul] at this
        omega
      · exact h
      · have := Nat.mul_le_mul_right (2 ^ k) (Nat.succ_le_of_lt h)
        rw [Nat.succ_mul] at this
        omega
    exact ⟨w, by rw [this, Nat.pow_add]; ring⟩

/-- The magnitude of the infinity code. -/
theorem magOf_infCode (p e : Nat) : magOf p (infCode p (e + 1)) = 2 ^ p * 2 ^ e := by
  have hp : 0 < 2 ^ p := Nat.two_pow_pos p
  rw [magOf, infCode, Nat.mul_div_cancel _ hp, Nat.mul_mod_left, if_neg (by omega)]
  rfl

/-- The magnitude of the largest finite code. -/
theorem magOf_maxCode (p e c : Nat) (h : c < infCode p (e + 2)) : magOf p c + 2 ^ e ≤ 2 ^ p * 2 ^ (e + 1) := by
  have hp : 0 < 2 ^ p := Nat.two_pow_pos p
  have he : (e + 2) * 2 ^ p = (e + 1) * 2 ^ p + 2 ^ p := by ring
  have hmax : magOf p ((e + 1) * 2 ^ p + (2 ^ p - 1)) = (2 ^ p + (2 ^ p - 1)) * 2 ^ e := by
    rw [magOf, Nat.mul_comm, Nat.mul_add_div hp, Nat.mul_add_mod, Nat.div_eq_of_lt (by omega),
      Nat.mod_eq_of_lt (by omega), if_neg (by omega)]
    rfl
  have hle : magOf p c ≤ magOf p ((e + 1) * 2 ^ p + (2 ^ p - 1)) := by
    rw [infCode] at h
    rcases Nat.eq_or_lt_of_le (show c ≤ (e + 1) * 2 ^ p + (2 ^ p - 1) by omega) with rfl | h'
    · exact Nat.le_refl _
    · exact Nat.le_of_lt (magOf_lt h')
  rw [hmax] at hle
  have : (2 ^ p + (2 ^ p - 1)) * 2 ^ e + 2 ^ e = 2 ^ p * 2 ^ (e + 1) := by
    have h2 : (2 ^ p + (2 ^ p - 1)) + 1 = 2 ^ p * 2 := by omega
    rw [Nat.pow_succ, ← Nat.succ_mul, Nat.succ_eq_add_one, h2]
    ring
  omega

/-- When a quotient does not round to infinity: below half an ulp past the largest finite magnitude. -/
theorem roundMag_finite_iff {p e num den : Nat} (hden : 0 < den) :
    roundMag p (infCode p (e + 2)) num den < infCode p (e + 2) ↔ 2 * num + 2 ^ e * den < 2 ^ p * 2 ^ (e + 2) * den := by
  obtain ⟨k, m, h1, h2, h3, h4, h5, h6, h7⟩ := roundMag_spec p (infCode p (e + 2)) num den hden
  have hp : 0 < 2 ^ p := Nat.two_pow_pos p
  have hM := magOf_code h2 h3
  have e2 : 2 ^ p * 2 ^ (e + 2) * den = 2 * (2 ^ p * 2 ^ (e + 1) * den) := by rw [Nat.pow_succ 2 (e + 1)]; ring
  rw [h1, show (min (k * 2 ^ p + m) (infCode p (e + 2)) < infCode p (e + 2)) ↔
    (k * 2 ^ p + m < infCode p (e + 2)) by omega, e2]
  obtain ⟨P, hP⟩ : ∃ P, P = 2 ^ p * 2 ^ (e + 1) * den := ⟨_, rfl⟩
  have hmk : m * 2 ^ k * den = m * (2 ^ k * den) := Nat.mul_assoc _ _ _
  constructor
  · intro h
    have hmax := magOf_maxCode p e _ h
    rw [hM] at hmax
    have hke : k ≤ e := by
      rw [infCode] at h
      rcases h3 with h3 | h3
      · omega
      · by_contra hk
        have : (e + 1) * 2 ^ p ≤ k * 2 ^ p := Nat.mul_le_mul_right _ (by omega)
        have : (e + 2) * 2 ^ p = (e + 1) * 2 ^ p + 2 ^ p := by ring
        omega
    have hkd : 2 ^ k * den ≤ 2 ^ e * den := Nat.mul_le_mul_right _ (Nat.pow_le_pow_right (by omega) hke)
    have hmax' := Nat.mul_le_mul_right den hmax
    rw [Nat.add_mul, hmk, ← hP] at hmax'
    rw [← hP]
    rcases Nat.lt_or_ge (2 * num + 2 ^ e * den) (2 * P) with hlt | hge
    · exact hlt
    · exfalso
      have hkd' : 2 ^ k * den = 2 ^ e * den := by omega
      have hke' : k = e := Nat.pow_right_injective (Nat.le_refl 2) (Nat.eq_of_mul_eq_mul_right hden hkd')
      have heven := h6 (.inr (by omega))
      have hm1 : m * 2 ^ k + 2 ^ e = 2 ^ p * 2 ^ (e + 1) := by
        refine Nat.eq_of_mul_eq_mul_right hden ?_
        rw [Nat.add_mul, hmk, ← hP]
        omega
      rw [hke', Nat.pow_succ, ← Nat.succ_mul, ← Nat.mul_assoc, Nat.mul_right_comm] at hm1
      have := Nat.eq_of_mul_eq_mul_right (Nat.two_pow_pos e) hm1
      omega
  · intro h
    by_contra hc
    have hge : magOf p (infCode p (e + 2)) ≤ magOf p (k * 2 ^ p + m) := by
      rcases Nat.eq_or_lt_of_le (Nat.le_of_not_lt hc) with h' | h'
      · rw [h']
      · exact Nat.le_of_lt (magOf_lt h')
    rw [hM, magOf_infCode p (e + 1)] at hge
    have hge' := Nat.mul_le_mul_right den hge
    rw [← hP] at hge' h
    rw [hmk] at hge'
    by_cases hk : k ≤ e
    · have hkd : 2 ^ k * den ≤ 2 ^ e * den := Nat.mul_le_mul_right _ (Nat.pow_le_pow_right (by omega) hk)
      omega
    · have h7 := h7 (by omega)
      have : P ≤ 2 ^ p * (2 ^ k * den) := by
        rw [hP, Nat.mul_assoc]
        exact Nat.mul_le_mul_left _ (Nat.mul_le_mul_right _ (Nat.pow_le_pow_right (by omega) (by omega)))
      omega

/-! ## binary64 -/

theorem F64.inf_eq : F64.inf = 2047 * 2 ^ 52 := rfl

theorem F64.toNat_ofCode {s : Bool} {c : Nat} (h : c < 2 ^ 63) :
    (F64.ofCode s c).toNat = (if s then 2 ^ 63 else 0) + c := by
  unfold F64.ofCode
  rw [BitVec.toNat_ofNat, Nat.mod_eq_of_lt]
  split <;> omega

theorem F64.sign_ofCode {s : Bool} {c : Nat} (h : c < 2 ^ 63) : F64.sign (F64.ofCode s c) = s := by
  unfold F64.sign
  rw [BitVec.msb_eq_decide, F64.toNat_ofCode h]
  cases s <;> simp; omega

theorem F64.expo_ofCode {s : Bool} {c : Nat} (h : c < 2 ^ 63) : F64.expo (F64.ofCode s c) = c / 2 ^ 52 := by
  unfold F64.expo
  rw [F64.toNat_ofCode h]
  split <;> omega

theorem F64.frac_ofCode {s : Bool} {c : Nat} (h : c < 2 ^ 63) : F64.frac (F64.ofCode s c) = c % 2 ^ 52 := by
  unfold F64.frac
  rw [F64.toNat_ofCode h]
  split <;> omega

theorem F64.scaledMag_ofCode {s : Bool} {c : Nat} (h : c < 2 ^ 63) : F64.scaledMag (F64.ofCode s c) = magOf 52 c := by
  unfold F64.scaledMag magOf
  rw [F64.expo_ofCode h, F64.frac_ofCode h, pow2_eq]

theorem F64.isFinite_ofCode {s : Bool} {c : Nat} (h : c < 2 ^ 63) : F64.isFinite (F64.ofCode s c) = decide (c < F64.inf) := by
  unfold F64.isFinite
  rw [F64.expo_ofCode h, F64.inf_eq, decide_eq_decide]
  omega

/-- The magnitude code of a value. -/
theorem F64.ofCode_code (v : F64) : ∃ c, c < 2 ^ 63 ∧ v = F64.ofCode (F64.sign v) c := by
  have hv : v.toNat < 2 ^ 64 := v.isLt
  refine ⟨v.toNat % 2 ^ 63, Nat.mod_lt _ (by omega), ?_⟩
  apply BitVec.eq_of_toNat_eq
  rw [F64.toNat_ofCode (Nat.mod_lt _ (by omega)), F64.sign, BitVec.msb_eq_decide]
  split <;> simp_all <;> omega

/-! ### Classes of values -/

theorem F64.inf_val : F64.inf = 9218868437227405312 := by decide

theorem F64.nan_code_lt (n : NaN64) : F64.inf + (n.fracPred.val + 1) < 2 ^ 63 := by
  have := n.fracPred.isLt
  rw [F64.inf_val]
  omega

@[simp] theorem F64.isNaN_ofNaN (n : NaN64) : F64.isNaN (F64.ofNaN n) = true := by
  have := n.fracPred.isLt
  unfold F64.isNaN F64.ofNaN
  rw [F64.expo_ofCode (F64.nan_code_lt n), F64.frac_ofCode (F64.nan_code_lt n), F64.inf_val]
  simp only [Bool.and_eq_true, beq_iff_eq, bne_iff_ne]
  omega

@[simp] theorem F64.isInf_infinity (s : Bool) : F64.isInf (F64.infinity s) = true := by cases s <;> decide

@[simp] theorem F64.sign_infinity (s : Bool) : F64.sign (F64.infinity s) = s := by cases s <;> decide

@[simp] theorem F64.isZero_zero (s : Bool) : F64.isZero (F64.zero s) = true := by cases s <;> decide

@[simp] theorem F64.sign_zero (s : Bool) : F64.sign (F64.zero s) = s := by cases s <;> decide

@[simp] theorem F64.scaled_zero (s : Bool) : F64.scaled (F64.zero s) = 0 := by cases s <;> decide

theorem F64.notNaN_of_isFinite {x : F64} (h : F64.isFinite x = true) : F64.isNaN x = false ∧ F64.isInf x = false := by
  simp only [F64.isFinite, decide_eq_true_eq] at h
  simp only [F64.isNaN, F64.isInf, Bool.and_eq_false_iff, beq_eq_false_iff_ne]
  constructor <;> left <;> omega

theorem F64.notNaN_of_isInf {x : F64} (h : F64.isInf x = true) :
    F64.isNaN x = false ∧ F64.isFinite x = false ∧ F64.isZero x = false := by
  simp only [F64.isInf, Bool.and_eq_true, beq_iff_eq] at h
  simp [F64.isFinite, F64.isNaN, F64.isZero, h]

theorem F64.isFinite_of_isZero {x : F64} (h : F64.isZero x = true) : F64.isFinite x = true ∧ F64.scaledMag x = 0 := by
  simp only [F64.isZero, Bool.and_eq_true, beq_iff_eq] at h
  simp [F64.isFinite, F64.scaledMag, h]

theorem F64.isZero_iff {x : F64} : F64.isZero x = true ↔ F64.scaledMag x = 0 := by
  refine ⟨fun h => (F64.isFinite_of_isZero h).2, fun h => ?_⟩
  unfold F64.scaledMag at h
  simp only [F64.isZero, Bool.and_eq_true, beq_iff_eq]
  split at h
  · exact ⟨by assumption, h⟩
  · have : 0 < pow2 (F64.expo x - 1) := by rw [pow2_eq]; exact Nat.two_pow_pos _
    rcases Nat.mul_eq_zero.1 h with h | h <;> omega

/-- Two finite values of one sign and magnitude are one value. -/
theorem F64.ext_mag {x y : F64} (h1 : F64.sign x = F64.sign y) (h2 : F64.scaledMag x = F64.scaledMag y) : x = y := by
  obtain ⟨c, hc, hx⟩ := F64.ofCode_code x
  obtain ⟨d, hd, hy⟩ := F64.ofCode_code y
  rw [hx, hy, F64.scaledMag_ofCode hc, F64.scaledMag_ofCode hd] at h2
  rw [hx, hy, h1, magOf_inj h2]

/-! ### The sign change -/

theorem F64.toNat_neg (y : F64) : (F64.neg y).toNat = y.toNat ^^^ 2 ^ 63 := by
  unfold F64.neg
  rw [BitVec.toNat_xor]
  rfl

@[simp] theorem F64.sign_neg (y : F64) : F64.sign (F64.neg y) = !F64.sign y := by
  unfold F64.sign F64.neg
  rw [BitVec.msb_xor, show (0x8000000000000000#64 : F64).msb = true by decide, Bool.xor_true]

@[simp] theorem F64.frac_neg (y : F64) : F64.frac (F64.neg y) = F64.frac y := by
  unfold F64.frac
  rw [F64.toNat_neg, Nat.xor_mod_two_pow]
  simp

@[simp] theorem F64.expo_neg (y : F64) : F64.expo (F64.neg y) = F64.expo y := by
  unfold F64.expo
  rw [F64.toNat_neg, Nat.xor_div_two_pow, show 2048 = 2 ^ 11 from rfl, Nat.xor_mod_two_pow]
  simp

@[simp] theorem F64.isNaN_neg (y : F64) : F64.isNaN (F64.neg y) = F64.isNaN y := by simp [F64.isNaN]

@[simp] theorem F64.isInf_neg (y : F64) : F64.isInf (F64.neg y) = F64.isInf y := by simp [F64.isInf]

@[simp] theorem F64.isFinite_neg (y : F64) : F64.isFinite (F64.neg y) = F64.isFinite y := by simp [F64.isFinite]

@[simp] theorem F64.scaled_neg (y : F64) : F64.scaled (F64.neg y) = -F64.scaled y := by
  unfold F64.scaled F64.scaledMag
  rw [F64.expo_neg, F64.frac_neg, F64.sign_neg]
  cases F64.sign y <;> simp

/-! ### Rounding -/

theorem unit64_eq : unit64 = 2 ^ 1074 := pow2_eq _

theorem unit64_pos : 0 < unit64 := by rw [unit64_eq]; exact Nat.two_pow_pos _

@[simp] theorem F64.round_nothing (s : Bool) (d : Nat) : F64.round s 0 d = F64.zero s := by
  unfold F64.round roundMag F64.zero
  simp [show Nat.log2 0 = 0 from rfl]

theorem roundMag_le (p inf num den : Nat) : roundMag p inf num den ≤ inf := by
  unfold roundMag
  exact Nat.min_le_right _ _

theorem F64.round_code (num den : Nat) : roundMag 52 F64.inf num den < 2 ^ 63 := by
  exact Nat.lt_of_le_of_lt (roundMag_le 52 F64.inf num den) (by rw [F64.inf_eq]; norm_num)

theorem F64.sign_round (s : Bool) (num den : Nat) : F64.sign (F64.round s num den) = s :=
  F64.sign_ofCode (F64.round_code num den)

/-- Rounding never gives a NaN. -/
@[simp] theorem F64.isNaN_round (s : Bool) (num den : Nat) : F64.isNaN (F64.round s num den) = false := by
  have h := roundMag_le 52 F64.inf num den
  have hc := F64.round_code num den
  have hi := F64.inf_val
  simp only [F64.isNaN, F64.round, F64.expo_ofCode hc, F64.frac_ofCode hc, Bool.and_eq_false_iff, beq_eq_false_iff_ne,
    bne_eq_false_iff_eq]
  omega

theorem F64.isFinite_round {s : Bool} {num den : Nat} :
    F64.isFinite (F64.round s num den) = decide (roundMag 52 F64.inf num den < F64.inf) :=
  F64.isFinite_ofCode (F64.round_code num den)

/-- What does not round to a finite value rounds to an infinity. -/
theorem F64.isInf_round (s : Bool) (num den : Nat) :
    F64.isInf (F64.round s num den) = !F64.isFinite (F64.round s num den) := by
  have h := F64.isNaN_round s num den
  simp only [F64.isNaN, F64.isInf, F64.isFinite] at h ⊢
  rcases Nat.lt_trichotomy (F64.expo (F64.round s num den)) 2047 with e | e | e
  · simp [e, Nat.ne_of_lt e]
  · simpa [e] using h
  · unfold F64.expo at e
    omega

/-- Rounding is to nearest, with ties to even, among all finite values of either sign. -/
theorem F64.round_nearest {s : Bool} {num den : Nat} (hden : 0 < den) (hf : F64.isFinite (F64.round s num den) = true)
    (w : F64) : |F64.scaled (F64.round s num den) * den - (if s then -(num : Int) else num)| ≤
      |F64.scaled w * den - (if s then -(num : Int) else num)| ∧
    (F64.scaled w ≠ F64.scaled (F64.round s num den) →
      |F64.scaled (F64.round s num den) * den - (if s then -(num : Int) else num)| =
        |F64.scaled w * den - (if s then -(num : Int) else num)| → F64.frac (F64.round s num den) % 2 = 0) := by
  rw [F64.isFinite_round, decide_eq_true_eq] at hf
  have hc := F64.round_code num den
  obtain ⟨c, hc', hw⟩ := F64.ofCode_code w
  have hwm : F64.scaledMag w = magOf 52 c := by rw [hw]; exact F64.scaledMag_ofCode hc'
  have hrm : F64.scaledMag (F64.round s num den) = magOf 52 (roundMag 52 F64.inf num den) := F64.scaledMag_ofCode hc
  have hrf : F64.frac (F64.round s num den) % 2 = roundMag 52 F64.inf num den % 2 := by
    rw [F64.round, F64.frac_ofCode hc]; omega
  have h1 := roundMag_nearest (p := 52) (by omega) hden hf c
  have h0 := roundMag_nearest (p := 52) (by omega) hden hf 0
  rw [show magOf 52 0 = 0 from rfl] at h0
  rw [hrf]
  unfold F64.scaled
  rw [F64.sign_round, hwm, hrm]
  obtain ⟨M, hM⟩ : ∃ M, M = magOf 52 (roundMag 52 F64.inf num den) := ⟨_, rfl⟩
  obtain ⟨W, hW⟩ : ∃ W, W = magOf 52 c := ⟨_, rfl⟩
  rw [← hM] at h0 h1 ⊢
  rw [← hW] at h1 ⊢
  push_cast at h0 h1
  simp only [Int.abs_eq_natAbs] at h0 h1 ⊢
  have hMD : (0 : Int) ≤ (M : Int) * den := by positivity
  have hWD : (0 : Int) ≤ (W : Int) * den := by positivity
  have hz : (M : Int) * den = 0 → M = 0 := by
    intro h
    rcases mul_eq_zero.1 h with h | h <;> omega
  have hzw : (W : Int) * den = 0 → W = 0 := by
    intro h
    rcases mul_eq_zero.1 h with h | h <;> omega
  have hn : ∀ x : Int, -x * (den : Int) = -(x * den) := fun x => by ring
  cases s <;> cases F64.sign w <;> simp only [if_true, Bool.false_eq_true, if_false, hn]
  · exact ⟨h1.1, fun h => h1.2 (by omega)⟩
  · refine ⟨by omega, fun h he => ?_⟩
    refine h0.2 (fun h' => ?_) (by omega)
    omega
  · refine ⟨by omega, fun h he => ?_⟩
    refine h0.2 (fun h' => ?_) (by omega)
    omega
  · refine ⟨by omega, fun h he => ?_⟩
    exact h1.2 (by omega) (by omega)

/-! ### Integers -/

theorem F64.scaledMag_round {s : Bool} {num den : Nat} :
    F64.scaledMag (F64.round s num den) = magOf 52 (roundMag 52 F64.inf num den) :=
  F64.scaledMag_ofCode (F64.round_code num den)

/-- A quotient below half an ulp past the largest magnitude rounds to a finite value, and only such a quotient does. -/
theorem F64.isFinite_round_iff {s : Bool} {num den : Nat} (hden : 0 < den) :
    F64.isFinite (F64.round s num den) = true ↔ 2 * num + 2 ^ 2045 * den < 2 ^ 52 * 2 ^ 2047 * den := by
  rw [F64.isFinite_round, decide_eq_true_eq]
  have h := roundMag_finite_iff (p := 52) (e := 2045) (num := num) hden
  rw [show 2045 + 2 = 2047 from rfl] at h
  exact h

/-- The overflow bound, 2^1024 − 2^970 (43_fp_arith.md R242, G4). -/
theorem F64.isFinite_round_bound {s : Bool} {num den : Nat} (hden : 0 < den) :
    F64.isFinite (F64.round s num den) = true ↔ num < (2 ^ 1024 - 2 ^ 970) * 2 ^ 1074 * den := by
  rw [F64.isFinite_round_iff hden]
  have e1 : 2 ^ 2045 = 2 * 2 ^ 2044 := by rw [← Nat.pow_succ']
  have e2 : 2 ^ 52 * 2 ^ 2047 = 2 ^ 55 * 2 ^ 2044 := by rw [← Nat.pow_add, ← Nat.pow_add]
  have e3 : (2 ^ 1024 - 2 ^ 970) * 2 ^ 1074 = (2 ^ 54 - 1) * 2 ^ 2044 := by
    rw [Nat.sub_mul, Nat.sub_mul, ← Nat.pow_add, ← Nat.pow_add, ← Nat.pow_add, Nat.one_mul]
  rw [e1, e2, e3, Nat.mul_assoc, Nat.mul_assoc, Nat.mul_assoc]
  generalize 2 ^ 2044 * den = U
  omega

theorem F64.toInt?_eq_some {v : F64} {i : Int} :
    F64.toInt? v = some i ↔ F64.isFinite v = true ∧ F64.scaled v = i * unit64 := by
  have hu := unit64_pos
  unfold F64.toInt? F64.scaled
  simp only [Bool.and_eq_true, beq_iff_eq, ← Nat.dvd_iff_mod_eq_zero]
  have hu' : (unit64 : Int) ≠ 0 := by omega
  constructor
  · intro h
    split at h
    · next hc =>
      obtain ⟨hf, w, hw⟩ := hc
      rw [hw, Nat.mul_div_cancel_left _ hu] at h
      refine ⟨hf, ?_⟩
      cases hs : F64.sign v <;> simp only [hs, Bool.false_eq_true, if_false, if_true, Option.some.injEq] at h ⊢ <;>
        rw [← h, hw] <;> push_cast <;> ring
    · exact absurd h (by simp)
  · rintro ⟨hf, h⟩
    have hd : unit64 ∣ F64.scaledMag v := by
      have : (unit64 : Int) ∣ (F64.scaledMag v : Int) := by
        split at h
        · exact ⟨-i, by rw [Int.mul_neg, Int.mul_comm, ← h, Int.neg_neg]⟩
        · exact ⟨i, by rw [Int.mul_comm, ← h]⟩
      exact_mod_cast this
    rw [if_pos ⟨hf, hd⟩]
    obtain ⟨w, hw⟩ := hd
    rw [hw, Nat.mul_div_cancel_left _ hu]
    rw [hw] at h
    push_cast at h
    congr 1
    refine mul_right_cancel₀ hu' ?_
    rw [← h]
    split <;> ring

/-- A value is integer-valued when it is finite and its magnitude a multiple of 1.0. -/
theorem F64.toInt?_isSome {v : F64} : (F64.toInt? v).isSome = true ↔ F64.isFinite v = true ∧ unit64 ∣ F64.scaledMag v := by
  unfold F64.toInt?
  simp only [Bool.and_eq_true, beq_iff_eq, ← Nat.dvd_iff_mod_eq_zero]
  split
  · next h => simp [h]
  · next h => simp [h]

/-- Rounding a multiple of 1.0 that does not overflow gives an integer. -/
theorem F64.round_integral {s : Bool} {num : Nat} (hd : unit64 ∣ num) (hf : F64.isFinite (F64.round s num 1) = true) :
    (F64.toInt? (F64.round s num 1)).isSome = true := by
  rw [F64.toInt?_isSome]
  refine ⟨hf, ?_⟩
  rw [F64.isFinite_round, decide_eq_true_eq] at hf
  rw [unit64_eq] at hd ⊢
  obtain ⟨c, hc, hm⟩ := roundMag_multiple (p := 52) (inf := F64.inf) hd
  rw [F64.scaledMag_round, hc, Nat.min_eq_left (by omega)]
  exact hm

/-- A magnitude of at most 53 significant bits that does not overflow is not rounded. -/
theorem F64.scaledMag_round_exact {s : Bool} {m k : Nat} (hm : m ≤ 2 ^ 53)
    (hf : F64.isFinite (F64.round s (m * 2 ^ k) 1) = true) : F64.scaledMag (F64.round s (m * 2 ^ k) 1) = m * 2 ^ k := by
  rw [F64.isFinite_round, decide_eq_true_eq] at hf
  rw [F64.scaledMag_round]
  have key : ∀ (m k : Nat), m < 2 ^ 53 → roundMag 52 F64.inf (m * 2 ^ k) 1 < F64.inf →
      magOf 52 (roundMag 52 F64.inf (m * 2 ^ k) 1) = m * 2 ^ k := by
    intro m k hm hf
    obtain ⟨c, hc, hx⟩ := roundMag_exact (inf := F64.inf) (k := k) Nat.one_pos hm
    rw [Nat.mul_one] at hc
    rw [hc] at hf ⊢
    rw [Nat.min_eq_left (by omega)]
    exact hx
  rcases Nat.eq_or_lt_of_le hm with rfl | h
  · have e : 2 ^ 53 * 2 ^ k = 1 * 2 ^ (53 + k) := by rw [Nat.pow_add, Nat.one_mul]
    rw [e] at hf ⊢
    exact key _ _ (by norm_num) hf
  · exact key m k h hf

/-- Integers of magnitude at most 2^53 are binary64 values. -/
theorem F64.toInt?_round {z : Int} (hz : z.natAbs ≤ 2 ^ 53) :
    F64.toInt? (F64.round (decide (z < 0)) (z.natAbs * unit64) 1) = some z := by
  have hf : F64.isFinite (F64.round (decide (z < 0)) (z.natAbs * unit64) 1) = true := by
    rw [F64.isFinite_round_iff Nat.one_pos, unit64_eq]
    have h1 : z.natAbs * 2 ^ 1074 ≤ 2 ^ 53 * 2 ^ 1074 := Nat.mul_le_mul_right _ hz
    have h2 : 2 ^ 53 * 2 ^ 1074 = 2 ^ 1127 := by rw [← Nat.pow_add]
    have h3 : 2 ^ 1127 ≤ 2 ^ 2045 := Nat.pow_le_pow_right (by omega) (by omega)
    have h4 : 2 ^ 52 * 2 ^ 2047 = 2 ^ 54 * 2 ^ 2045 := by rw [← Nat.pow_add, ← Nat.pow_add]
    have h5 : 0 < 2 ^ 2045 := Nat.two_pow_pos _
    rw [h2] at h1
    rw [h4]
    generalize 2 ^ 1074 = a at *
    generalize 2 ^ 1127 = b at *
    generalize 2 ^ 2045 = c at *
    omega
  rw [F64.toInt?_eq_some]
  refine ⟨hf, ?_⟩
  rw [unit64_eq] at hf ⊢
  unfold F64.scaled
  rw [F64.sign_round, F64.scaledMag_round_exact hz hf]
  rw [Int.natCast_mul]
  generalize ((2 ^ 1074 : Nat) : Int) = U
  split <;> rename_i h <;> simp only [decide_eq_true_eq] at h
  · rw [show ((z.natAbs : Nat) : Int) = -z by omega]; ring
  · rw [show ((z.natAbs : Nat) : Int) = z by omega]

theorem F64.toInt?_ofInt {z : Int} (hz : z.natAbs ≤ 2 ^ 53) : F64.toInt? (F64.ofInt z) = some z := F64.toInt?_round hz

/-- `f64` of an integer that does not overflow is integer-valued. -/
theorem F64.ofInt_integral {z : Int} (hz : z.natAbs ≤ 2 ^ 64) : (F64.toInt? (F64.ofInt z)).isSome = true := by
  refine F64.round_integral (Dvd.intro_left _ rfl) ?_
  rw [F64.isFinite_round_iff Nat.one_pos, unit64_eq]
  have h1 : z.natAbs * 2 ^ 1074 ≤ 2 ^ 64 * 2 ^ 1074 := Nat.mul_le_mul_right _ hz
  have h2 : 2 ^ 64 * 2 ^ 1074 = 2 ^ 1138 := by rw [← Nat.pow_add]
  have h3 : 2 ^ 1138 ≤ 2 ^ 2045 := Nat.pow_le_pow_right (by omega) (by omega)
  have h4 : 2 ^ 52 * 2 ^ 2047 = 2 ^ 54 * 2 ^ 2045 := by rw [← Nat.pow_add, ← Nat.pow_add]
  have h5 : 0 < 2 ^ 2045 := Nat.two_pow_pos _
  rw [h2] at h1
  rw [h4]
  generalize 2 ^ 1074 = a at *
  generalize 2 ^ 1138 = b at *
  generalize 2 ^ 2045 = c at *
  omega

/-- The sum of two integer-valued values, one of them small: the exact sum when that is small, and integer-valued in any
case. -/
theorem F64.add_integral {n : NaN64} {x y : F64} {i j : Int} (hx : F64.toInt? x = some i) (hy : F64.toInt? y = some j)
    (hj : j.natAbs ≤ 2 ^ 32) : (F64.toInt? (F64.add n x y)).isSome = true ∧
      ((i + j).natAbs ≤ 2 ^ 53 → F64.toInt? (F64.add n x y) = some (i + j)) := by
  obtain ⟨hxf, hxs⟩ := F64.toInt?_eq_some.1 hx
  obtain ⟨hyf, hys⟩ := F64.toInt?_eq_some.1 hy
  have hu := unit64_pos
  unfold F64.add
  simp only [F64.notNaN_of_isFinite hxf, F64.notNaN_of_isFinite hyf, Bool.or_self, Bool.false_eq_true, if_false]
  rw [hxs, hys, ← add_mul]
  have hzero : ∀ s, F64.toInt? (F64.zero s) = some 0 := fun s => by
    rw [F64.toInt?_eq_some, F64.scaled_zero]
    exact ⟨(F64.isFinite_of_isZero (F64.isZero_zero s)).1, by ring⟩
  have hu' : (unit64 : Int) ≠ 0 := by omega
  by_cases hz : (i + j) * (unit64 : Int) = 0
  · rw [if_pos hz, hzero]
    refine ⟨rfl, fun _ => ?_⟩
    rw [(Int.mul_eq_zero.1 hz).resolve_right hu']
  · rw [if_neg hz]
    have hs : decide ((i + j) * (unit64 : Int) < 0) = decide (i + j < 0) := by
      rw [decide_eq_decide]
      exact ⟨fun h => by by_contra hc; exact absurd h (not_lt.2 (mul_nonneg (by omega) (by omega))),
        fun h => mul_neg_of_neg_of_pos h (by omega)⟩
    have ha : ((i + j) * (unit64 : Int)).natAbs = (i + j).natAbs * unit64 := by
      rw [Int.natAbs_mul, Int.natAbs_natCast]
    rw [hs, ha]
    refine ⟨?_, fun h => F64.toInt?_round h⟩
    refine F64.round_integral (Dvd.intro_left _ rfl) ?_
    rw [F64.isFinite_round_iff Nat.one_pos]
    have hi : i.natAbs * unit64 = F64.scaledMag x := by
      have : (F64.scaled x).natAbs = F64.scaledMag x := by
        unfold F64.scaled
        split <;> omega
      rw [← this, hxs, Int.natAbs_mul, Int.natAbs_natCast]
    have hmax : F64.scaledMag x + 2 ^ 2045 ≤ 2 ^ 52 * 2 ^ 2046 := by
      obtain ⟨c, hc, hv⟩ := F64.ofCode_code x
      rw [hv, F64.isFinite_ofCode hc, decide_eq_true_eq] at hxf
      rw [hv, F64.scaledMag_ofCode hc]
      have h := magOf_maxCode 52 2045 c hxf
      rw [show 2045 + 1 = 2046 from rfl] at h
      exact h
    have hij : (i + j).natAbs * unit64 ≤ i.natAbs * unit64 + j.natAbs * unit64 := by
      rw [← Nat.add_mul]
      exact Nat.mul_le_mul_right _ (Int.natAbs_add_le i j)
    have hjm : j.natAbs * unit64 ≤ 2 ^ 32 * unit64 := Nat.mul_le_mul_right _ hj
    have h1 : 2 ^ 32 * unit64 = 2 ^ 1106 := by rw [unit64_eq, ← Nat.pow_add]
    have h2 : 2 ^ 1106 ≤ 2 ^ 2043 := Nat.pow_le_pow_right (by omega) (by omega)
    have h3 : 2 ^ 2045 = 4 * 2 ^ 2043 := by rw [show 2045 = 2 + 2043 from rfl, Nat.pow_add]
    have h4 : 2 ^ 52 * 2 ^ 2046 = 2 ^ 55 * 2 ^ 2043 := by rw [← Nat.pow_add, ← Nat.pow_add]
    have h5 : 2 ^ 52 * 2 ^ 2047 = 2 ^ 56 * 2 ^ 2043 := by rw [← Nat.pow_add, ← Nat.pow_add]
    have h6 : 0 < 2 ^ 2043 := Nat.two_pow_pos _
    rw [h5, h3]
    rw [h3, h4] at hmax
    rw [h1] at hjm
    rw [hi] at hij
    clear h3 h4 h5 h1 hxs hys hs ha hz hi
    generalize 2 ^ 1106 = a at *
    generalize 2 ^ 2043 = c at *
    omega

end Sys2Proof.Machine
end

