-- ==== Sys2Proof/Laws/Codec.lean ====
section
/-! SUPPORT. Bytes, words and codecs: the big-endian bytes of a number and back (20_memory.md R73), the binary32 layout, and
what a store's bytes load as (R78 to R81). -/

namespace Sys2Proof.Machine

/-! ## Bytes -/
theorem beUint_lt (bs : List Byte) : beUint bs < 256 ^ bs.length := by
  induction bs with
  | nil => simp [beUint]
  | cons b bs ih =>
    have := b.isLt
    simp only [beUint, List.length_cons, Nat.pow_succ]
    have : b.toNat * 256 ^ bs.length ≤ 255 * 256 ^ bs.length := Nat.mul_le_mul_right _ (by omega)
    omega

theorem beBytes_mod (n u v : Nat) (h : u % 256 ^ n = v % 256 ^ n) : beBytes n u = beBytes n v := by
  induction n generalizing u v with
  | zero => rfl
  | succ n ih =>
    simp only [beBytes]
    have e : 256 ^ (n + 1) = 256 ^ n * 256 := Nat.pow_succ ..
    congr 1
    · apply BitVec.eq_of_toNat_eq
      simp only [BitVec.toNat_ofNat]
      have := congrArg (· / 256 ^ n) h
      simp only [e, Nat.mod_mul_right_div_self] at this
      exact this
    · apply ih
      have := congrArg (· % 256 ^ n) h
      simp only [e, Nat.mod_mul_right_mod] at this
      exact this

theorem beUint_beBytes (n u : Nat) : beUint (beBytes n u) = u % 256 ^ n := by
  induction n generalizing u with
  | zero => simp [beBytes, beUint, Nat.mod_one]
  | succ n ih =>
    simp only [beBytes, beUint, length_beBytes, ih, BitVec.toNat_ofNat]
    rw [show 256 ^ (n + 1) = 256 ^ n * 256 from Nat.pow_succ .., Nat.mod_mul (x := u), Nat.add_comm,
      Nat.mul_comm, show (2 : Nat) ^ 8 = 256 from rfl]

theorem beBytes_beUint (bs : List Byte) : beBytes bs.length (beUint bs) = bs := by
  induction bs with
  | nil => rfl
  | cons b bs ih =>
    simp only [List.length_cons, beBytes, beUint]
    have hl := beUint_lt bs
    congr 1
    · rw [Nat.mul_comm, Nat.mul_add_div (by positivity), Nat.div_eq_of_lt hl]
      simp
    · rw [beBytes_mod _ _ (beUint bs) (by rw [Nat.mul_comm, Nat.mul_add_mod])]
      exact ih

theorem toNat_append_byte (n : Nat) (x : BitVec n) (b : BitVec 8) : (x ++ b).toNat = x.toNat * 256 + b.toNat := by
  rw [BitVec.toNat_append, ← Nat.shiftLeft_add_eq_or_of_lt b.isLt, Nat.shiftLeft_eq]

theorem toNat_append_four (b0 b1 b2 b3 : Byte) : (b0 ++ b1 ++ b2 ++ b3).toNat = beUint [b0, b1, b2, b3] := by
  simp only [toNat_append_byte]
  simp [beUint]
  omega

theorem toNat_append_eight (b0 b1 b2 b3 b4 b5 b6 b7 : Byte) :
    (b0 ++ b1 ++ b2 ++ b3 ++ b4 ++ b5 ++ b6 ++ b7).toNat = beUint [b0, b1, b2, b3, b4, b5, b6, b7] := by
  simp only [toNat_append_byte]
  simp [beUint]
  omega

/-! ## Integers -/
theorem I32.natAbs_le (a : I32) : a.toInt.natAbs ≤ 2 ^ 31 := by
  have := BitVec.le_toInt a; have := BitVec.toInt_lt (x := a); simp at *; omega

theorem F64.toInt?_neg {v : F64} {i : Int} (h : F64.toInt? v = some i) : F64.toInt? (F64.neg v) = some (-i) := by
  rw [F64.toInt?_eq_some] at h ⊢
  rw [F64.isFinite_neg, F64.scaled_neg, h.2]
  exact ⟨h.1, by ring⟩

/-! ## binary32 and the store codecs -/
theorem F32.toNat_ofCode {s : Bool} {c : Nat} (h : c < 2 ^ 31) : (F32.ofCode s c).toNat = (if s then 2 ^ 31 else 0) + c := by
  unfold F32.ofCode
  rw [BitVec.toNat_ofNat, Nat.mod_eq_of_lt]
  split <;> omega

theorem F32.sign_ofCode {s : Bool} {c : Nat} (h : c < 2 ^ 31) : F32.sign (F32.ofCode s c) = s := by
  unfold F32.sign
  rw [BitVec.msb_eq_decide, F32.toNat_ofCode h]
  cases s <;> simp; omega

theorem F32.expo_ofCode {s : Bool} {c : Nat} (h : c < 2 ^ 31) : F32.expo (F32.ofCode s c) = c / 2 ^ 23 := by
  unfold F32.expo
  rw [F32.toNat_ofCode h]
  split <;> omega

theorem F32.frac_ofCode {s : Bool} {c : Nat} (h : c < 2 ^ 31) : F32.frac (F32.ofCode s c) = c % 2 ^ 23 := by
  unfold F32.frac
  rw [F32.toNat_ofCode h]
  split <;> omega

theorem F32.scaledMag_ofCode {s : Bool} {c : Nat} (h : c < 2 ^ 31) : F32.scaledMag (F32.ofCode s c) = magOf 23 c := by
  unfold F32.scaledMag magOf
  rw [F32.expo_ofCode h, F32.frac_ofCode h, pow2_eq]

theorem F32.ofCode_code (v : F32) : ∃ c, c < 2 ^ 31 ∧ v = F32.ofCode (F32.sign v) c := by
  have hv : v.toNat < 2 ^ 32 := v.isLt
  refine ⟨v.toNat % 2 ^ 31, Nat.mod_lt _ (by omega), ?_⟩
  apply BitVec.eq_of_toNat_eq
  rw [F32.toNat_ofCode (Nat.mod_lt _ (by omega)), F32.sign, BitVec.msb_eq_decide]
  split <;> simp_all <;> omega

theorem F32.inf_val : F32.inf = 2139095040 := by decide

/-- L.S reads back the word that stands in memory. -/
theorem decodeLs_beBytes (i : Nat) (b : F32) : decodeLs i (beBytes 4 b.toNat) = widen (Config.freePayload i b) b := by
  unfold decodeLs
  rw [beUint_beBytes]
  have : BitVec.ofNat 32 (b.toNat % 256 ^ 4) = b := by
    have := b.isLt
    rw [Nat.mod_eq_of_lt (by omega)]; simp
  simp only [this]

theorem magOf_split32 (c : Nat) (h : c < 255 * 2 ^ 23) : ∃ m k, magOf 23 c = m * 2 ^ k ∧ m < 2 ^ 24 ∧ k ≤ 253 := by
  unfold magOf
  split
  · exact ⟨c % 2 ^ 23, 0, by simp, by omega, by omega⟩
  · exact ⟨_, _, rfl, by omega, by omega⟩

theorem unit32_eq : unit32 = 2 ^ 925 := pow2_eq _

theorem F64.isFinite_round_small {s : Bool} {m k : Nat} (hm : m < 2 ^ 24) (hk : k ≤ 1300) :
    F64.isFinite (F64.round s (m * 2 ^ k) 1) = true := by
  rw [F64.isFinite_round_iff Nat.one_pos]
  have h1 : m * 2 ^ k ≤ 2 ^ 24 * 2 ^ 1300 := Nat.mul_le_mul (by omega) (Nat.pow_le_pow_right (by omega) hk)
  have h2 : 2 ^ 24 * 2 ^ 1300 = 2 ^ 1324 := by rw [← Nat.pow_add]
  have h3 : 2 ^ 1324 ≤ 2 ^ 2045 := Nat.pow_le_pow_right (by omega) (by omega)
  have h4 : 2 ^ 52 * 2 ^ 2047 = 2 ^ 54 * 2 ^ 2045 := by rw [← Nat.pow_add, ← Nat.pow_add]
  have h5 : 0 < 2 ^ 2045 := Nat.two_pow_pos _
  rw [h2] at h1
  rw [h4]
  generalize m * 2 ^ k = q at *
  generalize 2 ^ 1324 = b at *
  generalize 2 ^ 2045 = c at *
  omega

theorem unit32_pos : 0 < unit32 := by rw [unit32_eq]; exact Nat.two_pow_pos _

theorem storeInt_eq_some {n : Nat} {v : F64} {k : Int} : storeInt n v = some k ↔
    F64.toInt? v = some k ∧ -(2 ^ (n - 1) : Nat) ≤ k ∧ k < (2 ^ (n - 1) : Nat) := by
  unfold storeInt
  split
  · next i hi =>
    rw [hi]
    split <;> simp <;> grind
  · next h => simp [h]

/-- Two finite values of one scaled value are equal. -/
theorem F64.eq_of_scaled {x y : F64} (hx : F64.isFinite x = true) (hy : F64.isFinite y = true)
    (h : F64.scaled x = F64.scaled y) : F64.eq x y = true := by
    unfold F64.eq
    simp only [F64.notNaN_of_isFinite hx, F64.notNaN_of_isFinite hy, Bool.not_false, Bool.true_and, Bool.or_eq_true,
      beq_iff_eq, Bool.and_eq_true]
    rw [F64.isZero_iff, F64.isZero_iff]
    unfold F64.scaled at h
    by_cases hs : F64.sign x = F64.sign y
    · left
      refine F64.ext_mag hs ?_
      rw [hs] at h
      split at h <;> omega
    · right
      cases hx : F64.sign x <;> cases hy : F64.sign y <;> simp_all

/-- `f64` of the integer a value stands for is that value. -/
theorem F64.ofInt_of_toInt? {v : F64} {k : Int} (h : F64.toInt? v = some k) : F64.eq (F64.ofInt k) v = true := by
  obtain ⟨hf, hs⟩ := F64.toInt?_eq_some.1 h
  have hmag : k.natAbs * unit64 = F64.scaledMag v := by
      have : (F64.scaled v).natAbs = F64.scaledMag v := by
        unfold F64.scaled
        split <;> omega
      rw [← this, hs, Int.natAbs_mul, Int.natAbs_natCast]
  obtain ⟨c, hc, hv⟩ := F64.ofCode_code v
  have hcf : c < F64.inf := by rw [hv, F64.isFinite_ofCode hc, decide_eq_true_eq] at hf; exact hf
  have hm : F64.scaledMag v = magOf 52 c := by rw [hv, F64.scaledMag_ofCode hc]
  have hmm : ∃ m k, magOf 52 c = m * 2 ^ k ∧ m < 2 ^ 53 := by
    unfold magOf
    split
    · exact ⟨c % 2 ^ 52, 0, by simp, by omega⟩
    · exact ⟨_, _, rfl, by omega⟩
  obtain ⟨m, e, hme, hm53⟩ := hmm
  have hfin : F64.isFinite (F64.round (decide (k < 0)) (k.natAbs * unit64) 1) = true := by
    rw [F64.isFinite_round_iff Nat.one_pos, hmag, hm]
    have h := magOf_maxCode 52 2045 c hcf
    rw [show 2045 + 1 = 2046 from rfl] at h
    have e1 : 2 ^ 52 * 2 ^ 2046 = 2 ^ 53 * 2 ^ 2045 := by rw [← Nat.pow_add, ← Nat.pow_add]
    have e2 : 2 ^ 52 * 2 ^ 2047 = 2 ^ 54 * 2 ^ 2045 := by rw [← Nat.pow_add, ← Nat.pow_add]
    rw [e2]
    rw [e1] at h
    have : 0 < 2 ^ 2045 := Nat.two_pow_pos _
    generalize 2 ^ 2045 = U at *
    omega
  have hex : F64.scaledMag (F64.ofInt k) = F64.scaledMag v := by
    unfold F64.ofInt
    rw [hmag, hm, hme] at *
    exact F64.scaledMag_round_exact (by omega) hfin
  have hsg : F64.sign (F64.ofInt k) = decide (k < 0) := F64.sign_round ..
  refine F64.eq_of_scaled hfin hf ?_
  rw [hs]
  show F64.scaled (F64.ofInt k) = _
  unfold F64.scaled
  rw [hsg, hex, ← hmag]
  push_cast
  split <;> rename_i h <;> simp at h
  · rw [Int.abs_eq_natAbs, show ((k.natAbs : Nat) : Int) = -k by omega]; ring
  · rw [Int.abs_eq_natAbs, show ((k.natAbs : Nat) : Int) = k by omega]

/-- The two's-complement bytes of an integer in range read back as it. -/
theorem signExtend_intBytes {n : Nat} {k : Int} (hn : 0 < n) (h1 : -(2 ^ (8 * n - 1) : Nat) ≤ k) (h2 : k < (2 ^ (8 * n - 1) : Nat)) :
    signExtend (8 * n) (beUint (intBytes n k)) = k := by
  unfold signExtend intBytes
  rw [beUint_beBytes]
  have e : 256 ^ n = 2 * 2 ^ (8 * n - 1) := by
    rw [show 256 = 2 ^ 8 from rfl, ← Nat.pow_mul, ← Nat.pow_succ']; congr 1; omega
  have e' : 2 ^ (8 * n) = 2 * 2 ^ (8 * n - 1) := by rw [← Nat.pow_succ']; congr 1; omega
  rw [e, e']
  generalize 2 ^ (8 * n - 1) = P at *
  have h3 : (k % ((2 * P : Nat) : Int)) = if 0 ≤ k then k else k + (2 * P : Nat) := by
    split
    · exact Int.emod_eq_of_lt (by omega) (by omega)
    · rw [← Int.add_emod_right]; exact Int.emod_eq_of_lt (by omega) (by omega)
  rw [h3, Nat.mod_eq_of_lt (by split <;> omega)]
  split <;> split <;> omega

end Sys2Proof.Machine
end

