-- ==== Sys2Proof/Laws/Integer.lean ====
section
/-! SUPPORT. What every phase keeps of two invariants: integer registers stay integer-valued (10_state.md R33,
41_int_imm.md R202 law 5), and issue is blocked only while a branch is in flight (10_state.md R53). -/

namespace Sys2Proof.Machine

variable {c p : Prop}

/-- What a phase does to registers, stations and queue that leaves both invariants alone: values stand, no branch station
and no producer is freed, slots are not filled, and what is queued for an integer register is, if `c`, integer-valued. -/
structure Quiet (c : Prop) (s t : State) : Prop where
  reg : ∀ r, (t.reg r).value = (s.reg r).value
  pend : t.branchPending = s.branchPending
  fwd : ∀ S ∈ s.stations, (∃ S' ∈ t.stations, S'.name = S.name ∧ S'.dest = S.dest ∧ S'.busy = S.busy) ∨
    (S.dest = none ∧ S.kind ≠ .branch)
  bwd : ∀ S' ∈ t.stations, S'.op = none ∨
    ∃ S ∈ s.stations, S'.op = S.op ∧ S'.vj = S.vj ∧ S'.qj = S.qj ∧ S'.dest = S.dest
  queue : ∀ q ∈ t.cdbQueue, q ∈ s.cdbQueue ∨ (c → ∀ i, q.dest = some (.r i) → Integral q.value)

/-- If `c`, integer registers stay integer-valued; if `p`, issue is blocked only while a branch is in flight. -/
def Good (c p : Prop) (s : State) : Prop := (c → IntegerValued s) ∧ (p → BranchInFlight s)

theorem Quiet.good {s t : State} (h : Quiet c s t) (hs : Good c p s) : Good c p t := by
  obtain ⟨hi, hb⟩ := hs
  refine ⟨fun hc => have hi := hi hc
    ⟨fun i => by rw [h.reg]; exact hi.regs i, fun q hq i hd => ?_, fun S' hS' o v ho hr hv => ?_,
      fun S' hS' o T ho hr hq => ?_, fun S' hS' o r ho hd => ?_⟩, ?_⟩
  · rcases h.queue q hq with hq | hq
    · exact hi.queued q hq i hd
    · exact hq hc i hd
  · rcases h.bwd S' hS' with e | ⟨S, hS, e1, e2, e3, e4⟩
    · rw [e] at ho; cases ho
    · exact hi.captured S hS o v (by rw [← e1]; exact ho) hr (by rw [← e2]; exact hv)
  · rcases h.bwd S' hS' with e | ⟨S, hS, e1, e2, e3, e4⟩
    · rw [e] at ho; cases ho
    · obtain ⟨P, hP, hn, i, hd⟩ := hi.awaited S hS o T (by rw [← e1]; exact ho) hr (by rw [← e3]; exact hq)
      rcases h.fwd P hP with ⟨P', hP', hn', hd', -⟩ | ⟨hd', -⟩
      · exact ⟨P', hP', hn'.trans hn, i, hd'.trans hd⟩
      · rw [hd'] at hd; cases hd
  · rcases h.bwd S' hS' with e | ⟨S, hS, e1, e2, e3, e4⟩
    · rw [e] at ho; cases ho
    · exact hi.destClass S hS o r (by rw [← e1]; exact ho) (by rw [← e4]; exact hd)
  · intro hp0 hp
    rw [h.pend] at hp
    obtain ⟨S, hS, hk, hb⟩ := hb hp0 hp
    rcases h.fwd S hS with ⟨S', hS', hn, -, hb'⟩ | ⟨-, hk'⟩
    · exact ⟨S', hS', by rw [Station.kind, hn]; exact hk, hb'.trans hb⟩
    · exact absurd hk hk'

theorem Quiet.of_same {s t : State} (hr : ∀ r, t.reg r = s.reg r) (hp : t.branchPending = s.branchPending)
    (hst : t.stations = s.stations)
    (hq : ∀ q ∈ t.cdbQueue, q ∈ s.cdbQueue ∨ (c → ∀ i, q.dest = some (.r i) → Integral q.value)) : Quiet c s t :=
  ⟨fun r => by rw [hr], hp, fun S hS => .inl ⟨S, by rw [hst]; exact hS, rfl, rfl, rfl⟩,
    fun S hS => .inr ⟨S, by rw [← hst]; exact hS, rfl, rfl, rfl, rfl⟩, hq⟩

theorem Quiet.of_upd {s : State} {T : Tag} {f : Station → Station}
    (hf : ∀ S : Station, (f S).name = S.name ∧ (f S).op = S.op ∧ (f S).vj = S.vj ∧ (f S).qj = S.qj ∧
      (f S).dest = S.dest ∧ (f S).busy = S.busy) : Quiet c s (updStation T f s) := by
  refine ⟨fun r => by rw [reg_congr (t := updStation T f s) (s := s) rfl rfl], rfl, fun S hS => .inl ?_,
    fun S' hS' => .inr ?_, fun q hq => .inl hq⟩
  · refine ⟨_, List.mem_map.2 ⟨S, hS, rfl⟩, ?_⟩
    split
    · exact ⟨(hf S).1, (hf S).2.2.2.2.1, (hf S).2.2.2.2.2⟩
    · exact ⟨rfl, rfl, rfl⟩
  · rw [updStation_stations] at hS'
    obtain ⟨S, hS, rfl⟩ := List.mem_map.1 hS'
    refine ⟨S, hS, ?_⟩
    split
    · exact ⟨(hf S).2.1, (hf S).2.2.1, (hf S).2.2.2.1, (hf S).2.2.2.2.1⟩
    · exact ⟨rfl, rfl, rfl, rfl⟩

theorem Good.congr {s t : State} (h : Good c p s) (hr : ∀ r, t.reg r = s.reg r) (hp : t.branchPending = s.branchPending)
   (hst : t.stations = s.stations) (hq : t.cdbQueue = s.cdbQueue) : Good c p t :=
  (Quiet.of_same hr hp hst (fun q h => .inl (by rw [← hq]; exact h))).good h

theorem toInt?_immediate (a : I32) : F64.toInt? (F64.ofInt a.toInt) = some a.toInt :=
  F64.toInt?_ofInt (by have := I32.natAbs_le a; omega)

/-- The result of a station whose destination is an integer register (R155, 41_int_imm.md R202). -/
theorem integral_result {s : State} (hs : IntegerValued s) {S : Station} (hS : S ∈ s.stations) {o : OpCode} {v : F64}
    (ho : S.op = some o)
   (hv : stationResult o S = some v) {i} (hd : S.dest = some (.r i)) : Integral v := by
  have hc := hs.destClass S hS o _ ho hd
  have hcap := hs.captured S hS o
  cases o <;> first | (cases hc; done) | (simp only [stationResult, Option.some.injEq, reduceCtorEq] at hv)
  · unfold resultIi at hv
    split at hv
    · next x a j hx ha hj =>
      cases hv
      obtain ⟨n, hn⟩ := Option.isSome_iff_exists.1 (hcap x ho rfl hx)
      exact (F64.add_integral hn (toInt?_immediate a) (by have := I32.natAbs_le a; omega)).1
    · cases hv
  · unfold resultIi at hv
    split at hv
    · next x a j hx ha hj =>
      cases hv
      obtain ⟨n, hn⟩ := Option.isSome_iff_exists.1 (hcap x ho rfl hx)
      exact (F64.add_integral hn (F64.toInt?_neg (toInt?_immediate a)) (by have := I32.natAbs_le a; omega)).1
    · cases hv
  · rw [← hv]; unfold Integral; decide
  · rw [← hv]; unfold Integral; decide

theorem countDown_good {s : State} (h : Good c p s) (T : Tag) : Cyc.All (Good c p) (countDown T s) := by
  obtain ⟨r, hc⟩ | ⟨S, hS, ⟨-, hc⟩ | ⟨hr, h1, hc⟩ | ⟨o, v, hr, h1, ho, hv, hc⟩⟩ := countDown_cases (T := T) (s := s) rfl <;>
    rw [hc]
  · trivial
  · exact h
  · exact
      Quiet.good (Quiet.of_upd (by intro S; exact ⟨rfl, rfl, rfl, rfl, rfl, rfl⟩)) h
  · have h1 : Good c p (updStation T (fun S => { S with remainingCycles := S.remainingCycles - 1 }) s) :=
      Quiet.good (Quiet.of_upd (by intro S; exact ⟨rfl, rfl, rfl, rfl, rfl, rfl⟩)) h
    refine Good.congr (s := enqueue S.name v S.dest o
      (updStation T (fun S => { S with remainingCycles := S.remainingCycles - 1 }) s)) ?_
          (fun r => reg_congr (by simp) (by simp) r) (by simp) (by simp) (by simp)
    refine Quiet.good (s := (updStation T (fun S => { S with remainingCycles := S.remainingCycles - 1 }) s))
      (Quiet.of_same (fun r => reg_congr rfl rfl r) rfl rfl fun q hq => ?_) h1
    rw [enqueue_cdbQueue] at hq
    rcases List.mem_append.1 hq with hq | hq
    · exact .inl hq
    · rw [List.mem_singleton.1 hq]
      exact .inr fun hc i hd => integral_result (h.1 hc) (station?_mem hS) ho hv hd

theorem startStation_good {s : State} (h : Good c p s) (T : Tag) : Cyc.All (Good c p) (startStation T s) := by
  obtain ⟨r, hc⟩ | ⟨S, hS, hc | ⟨l, hr, hl, hc⟩⟩ := startStation_cases (T := T) (s := s) rfl <;> rw [hc]
  · trivial
  · exact h
  · refine Good.congr (s := updStation T (fun S => { S with execStarted := true, remainingCycles := l }) s) ?_
          (fun r => reg_congr (by simp) (by simp) r) (by simp) (by simp) (by simp)
    exact
      Quiet.good (Quiet.of_upd (by intro S; exact ⟨rfl, rfl, rfl, rfl, rfl, rfl⟩)) h

theorem executePhase_good {s : State} (h : Good c p s) : Cyc.All (Good c p) (executePhase s) := by
  have h1 := forEach_all (xs := s.tags) (fun T _ t ht => countDown_good ht T) h
  unfold executePhase
  split
  · next e he => rw [he] at h1; exact h1
  · next s' he => rw [he] at h1; exact forEach_all (fun T _ t ht => startStation_good ht T) h1

theorem CacheOrFault.good {s t : State} (hc : CacheOrFault s t) (h : Good c p s) : Good c p t := by
  refine h.congr (fun r => ?_) ?_ ?_ ?_ <;> rw [hc]
  exact reg_congr rfl rfl r

/-- What a load into an integer register decodes (42_loadstore.md R213, R214). -/
theorem integral_decode {o : OpCode} {dec} (h : loadCodec o = some dec) (hc : o.dataClass = .int) (i : Nat)
    (bs : List Byte) (hb : bs.length ≤ 8) : Integral (dec i bs) := by
  have hlt := beUint_lt bs
  have h8 : 256 ^ bs.length ≤ 256 ^ 8 := Nat.pow_le_pow_right (by omega) hb
  cases o <;> simp only [loadCodec, Option.some.injEq, reduceCtorEq] at h <;> first | (cases hc; done) | skip
  · subst h
    refine F64.ofInt_integral ?_
    unfold signExtend; norm_num at *
    split <;> omega
  · subst h
    refine F64.ofInt_integral ?_
    unfold signExtend; norm_num at *
    split <;> omega

theorem length_cacheReadWord {a s b t} (h : cacheReadWord a s = .ok (b, t)) : b.length ≤ 4 := by
  unfold cacheReadWord at h
  split at h
  · cases h
  · cases h; exact List.length_take_le ..

theorem length_readEntry {e s b t} (h : readEntry e s = .ok (b, t)) : b.length ≤ 8 := by
  unfold readEntry at h
  split at h
  · cases h
  · next h1 =>
    have := length_cacheReadWord h1
    split at h
    · split at h
      · cases h
      · next h2 =>
        have := length_cacheReadWord h2
        cases h; simp; omega
    · cases h; omega

theorem commit_good {s : State} (h : Good c p s) (hl : Linked s) {e : LsbEntry} {S : Station} (hS : S ∈ s.stations)
    (hn : S.name = e.station) (hb : S.busy = true) (hk : kindIsMem S.kind = true) (hld : e.isLoad = (S.kind == .load))
    (hd : S.dest = e.dest) (ho : S.op = some e.op) : Cyc.All (Good c p) (commit e s) := by
  unfold commit
  split
  · next hload =>
    have h1 := readEntry_cache e s
    unfold commitLoad
    split
    · next x he =>
        rw [he] at h1
        cases x with
        | fatal => exact CacheOrFault.good h1 h
        | refuse => trivial
    · next b t ht =>
      rw [ht] at h1
      have h1 : CacheOrFault s t := h1
      have hg := CacheOrFault.good h1 h
      split
      · trivial
      · next dec hdec =>
        refine Good.congr (s := enqueue e.station (dec e.inst b) e.dest e.op t) ?_
          (fun r => reg_congr (by simp) (by simp) r) (by simp) (by simp) (by simp)
        refine Quiet.good (s := t) (Quiet.of_same (fun r => reg_congr rfl rfl r) rfl rfl fun q hq => ?_) hg
        rw [enqueue_cdbQueue] at hq
        rcases List.mem_append.1 hq with hq | hq
        · exact .inl hq
        · rw [List.mem_singleton.1 hq]
          refine .inr fun hcc i hd' => ?_
          have hc := (h.1 hcc).destClass S hS e.op (.r i) ho (by rw [hd]; exact hd')
          exact integral_decode hdec hc.symm _ _ (length_readEntry ht)
  · next hload =>
    unfold commitStore
    split
    · trivial
    · next bs _ =>
      have h1 := writeEntry_cache e bs s
      split
      · next x he =>
        rw [he] at h1
        cases x with
        | fatal => exact CacheOrFault.good h1 h
        | refuse => trivial
      · next t he =>
        rw [he] at h1
        have h1 : CacheOrFault s t := h1
        have hg : Good c p (stamp e.inst (fun d => { d with execEnd := some t.cycle, write := some t.cycle }) t) :=
          (CacheOrFault.good h1 h).congr (fun r => reg_congr rfl rfl r) rfl rfl rfl
        have e1 : t.stations = s.stations := by rw [h1]
        have hSd : S.dest = none ∧ S.kind ≠ .branch := by
          have hst : S.kind = .store := by
            simp only [hld, beq_iff_eq] at hload
            revert hload hk
            cases S.kind <;> simp [kindIsMem]
          obtain ⟨o, i, d, ho', hko, -, -, -, -, hslot⟩ := hl.bound S hS hb
          rw [ho] at ho'; cases ho'
          have hdc : e.op.destClass = none := by
            rw [hst] at hko
            revert hko
            cases e.op <;> simp [opKind, OpCode.destClass, OpCode.format]
          refine ⟨?_, by rw [hst]; simp⟩
          have := hslot.dest
          rw [hdc] at this
          simpa using this
        refine Quiet.good (s := stamp e.inst (fun d => { d with execEnd := some t.cycle, write := some t.cycle }) t)
          ⟨fun r => ?_, by simp, fun P hP => ?_, fun P hP => ?_, fun q hq => .inl (by simpa using hq)⟩ hg
        · rw [reg_congr (s := stamp e.inst (fun d => { d with execEnd := some t.cycle, write := some t.cycle }) t)
            (by simp) (by simp)]
        · by_cases e' : P.name = S.name
          · rw [stamp_stations, e1] at hP
            rw [hl.unique hP hS e']
            exact .inr hSd
          · refine .inl ⟨P, ?_, rfl, rfl, rfl⟩
            rw [release_stations]
            exact List.mem_map.2 ⟨P, hP, if_neg (by rw [← hn]; exact e')⟩
        · rw [release_stations] at hP
          obtain ⟨P', hP', rfl⟩ := List.mem_map.1 hP
          split
          · exact .inl rfl
          · exact .inr ⟨P', hP', rfl, rfl, rfl, rfl⟩

theorem stampStart_good {s : State} (h : Good c p s) (e : LsbEntry) : Good c p (stampStart e s) := by
  unfold stampStart
  split
  · exact h
  · exact h.congr (fun r => reg_congr rfl rfl r) rfl rfl rfl

theorem withLsb_good {s : State} (h : Good c p s) (l : List LsbEntry) : Good c p { s with lsb := l } :=
  h.congr (fun r => reg_congr rfl rfl r) rfl rfl rfl

theorem lsbTickFrom_good (kept es : List LsbEntry) (s : State) (h : Linked { s with lsb := kept ++ es }) (hg : Good c p s) :
    Cyc.All (Good c p) (lsbTickFrom kept es s) := by
  induction es generalizing kept s with
  | nil => simpa [lsbTickFrom] using withLsb_good hg _
  | cons e es ih =>
    simp only [lsbTickFrom]
    split
    · exact ih _ s (by simpa using h) hg
    · split
      · obtain ⟨S, hS, hn, hb, hx, hk, hd, ho, -, hl⟩ := h.buffered e (by simp)
        have hsub : Linked { stampStart e s with lsb := kept ++ es } := by
          rw [stampStart_withLsb]
          refine stampStart_linked (h.withLsb (l := kept ++ es) (fun x hx => ⟨x, ?_, rfl, rfl, rfl, rfl, rfl⟩) ?_) e
          · rcases List.mem_append.1 hx with hx | hx <;> simp [hx]
          · exact (List.Sublist.append (List.Sublist.refl _) (List.sublist_cons_self _ _)).map _
        have hq : e.station ∉ s.cdbQueue.map Request.station ++ (kept ++ es).map LsbEntry.station := by
          have := h.once
          dsimp only at this
          have hp : (s.cdbQueue.map Request.station ++ (kept ++ e :: es).map LsbEntry.station).Perm
              (e.station :: (s.cdbQueue.map Request.station ++ (kept ++ es).map LsbEntry.station)) := by
            simp only [List.map_append, List.map_cons]
            rw [← List.append_assoc, ← List.append_assoc]
            exact List.perm_middle
          exact (List.nodup_cons.1 (hp.nodup_iff.1 this)).1
        have hc := commit_linked hsub (e := e.decremented) (S := S) (by simpa using hS) hn hb hx hk hd ho hl
          (by rw [show e.decremented.station = e.station from rfl, stampStart_cdbQueue]; exact hq)
        have hc2 := commit_good (withLsb_good (stampStart_good hg e) (kept ++ es)) hsub (e := e.decremented) (S := S)
          (by simpa using hS) hn hb hk hl hd ho
        split
        · next x he => rw [he] at hc2; exact hc2
        · next t he =>
          rw [he] at hc hc2
          have hc : Linked t ∧ t.lsb = kept ++ es := hc
          refine ih kept t ?_ hc2
          rw [← hc.2]
          exact hc.1
      · refine ih _ _ ?_ (stampStart_good hg e)
        rw [stampStart_withLsb]
        refine stampStart_linked (h.withLsb (l := kept ++ [e.decremented] ++ es) ?_ ?_) e
        · intro x hx
          simp only [List.append_assoc, List.cons_append, List.nil_append, List.mem_append, List.mem_cons] at hx
          rcases hx with hx | rfl | hx
          · exact ⟨x, by simp [hx], rfl, rfl, rfl, rfl, rfl⟩
          · exact ⟨e, by simp, rfl, rfl, rfl, rfl, rfl⟩
          · exact ⟨x, by simp [hx], rfl, rfl, rfl, rfl, rfl⟩
        · simp [LsbEntry.decremented]

theorem handover_good {s : State} (h : Good c p s) (T : Tag) : Cyc.All (Good c p) (handover T s) := by
  obtain ⟨r, hc⟩ | ⟨f, -, hc⟩ | ⟨P, o, base, off, inst, b, ea, data, hP, ho, hv, ha, hi, -, -, -, -, -, -, hc⟩ :=
    handover_cases (T := T) (s := s) rfl <;> rw [hc]
  · trivial
  · exact h.congr (fun r => reg_congr rfl rfl r) rfl rfl rfl
  · have : Good c p (updStation (lsbEntry P o ea inst data s).station (fun S => { S with execStarted := true }) s) :=

      Quiet.good (Quiet.of_upd (by intro S; exact ⟨rfl, rfl, rfl, rfl, rfl, rfl⟩)) h
    exact this.congr (fun r => reg_congr rfl rfl r) rfl rfl rfl

theorem deferredPhase_good {s : State} (h : Good c p s) : Cyc.All (Good c p) (deferredPhase s) :=
  forEach_all (fun S _ t ht => by
    unfold handoverIfRoom
    split
    · exact ht
    · exact handover_good ht _) h

/-- A busy station other than the producer stays busy through a broadcast. -/
theorem busy_broadcastCore {s : State} {q : Request} {rest : List Request} {P : Station} (hP : P ∈ s.stations)
    (hn : P.name ≠ q.station) (hb : P.busy = true) :
    ∃ P' ∈ (broadcastCore q { s with cdbQueue := rest }).stations,
      P'.name = P.name ∧ P'.dest = P.dest ∧ P'.busy = true :=
  ⟨_, forwarded_mem_broadcastCore (s := { s with cdbQueue := rest }) hP hn hb, rfl, rfl, hb⟩

theorem broadcastCore_inFlight {s : State} {q : Request} {rest : List Request} (hk : q.station.kind ≠ .branch)
    (hb : BranchInFlight s) : BranchInFlight (broadcastCore q { s with cdbQueue := rest }) := fun hp => by
  obtain ⟨P, hP, hPk, hPb⟩ := hb (by simpa [broadcastCore] using hp)
  obtain ⟨X, hX, hXn, -, hXb⟩ := busy_broadcastCore hP (fun e => hk (by rw [← e]; exact hPk)) hPb
  exact ⟨X, hX, by rw [Station.kind, hXn]; exact hPk, hXb⟩

/-- The broadcast: the value that reaches an integer register or a slot that waits for one is integer-valued. -/
theorem broadcastCore_integer {s : State} (h : Linked s) (hi : IntegerValued s) {q : Request} {rest : List Request}
    (hq : q ∈ s.cdbQueue) (hrest : ∀ p ∈ rest, p ∈ s.cdbQueue) :
    IntegerValued (broadcastCore q { s with cdbQueue := rest }) := by
  obtain ⟨Q, hQ, hQn, hQb, -, -, hQd⟩ := h.queued q hq
  have hint : ∀ i, q.dest = some (.r i) → Integral q.value := hi.queued q hq
  have hfield : ∀ P' : Station, ∀ P,
      (P = if P'.busy then forwardK q.station q.value s.cycle (forwardJ q.station q.value s.cycle P') else P') →
      P.name = P'.name ∧ P.op = P'.op ∧ P.dest = P'.dest ∧ P.busy = P'.busy ∧ (∀ U, P.qj = some U → P'.qj = some U) ∧
      (∀ v, P.vj = some v → P'.vj = some v ∨ (P'.qj = some q.station ∧ v = q.value)) := by
    rintro P' P rfl
    split
    · rw [forwardJK_eq]
      refine ⟨rfl, rfl, rfl, rfl, fun U hU => ?_, fun v hv => ?_⟩
      · dsimp only at hU; split at hU
        · cases hU
        · exact hU
      · dsimp only at hv; split at hv
        · next e => cases hv; exact .inr ⟨e, rfl⟩
        · exact .inl hv
    · exact ⟨rfl, rfl, rfl, rfl, fun U h => h, fun v h => .inl h⟩
  refine ⟨fun i => ?_, fun p hp i hd => ?_, fun S hS o v ho hr hv => ?_, fun S hS o T ho hr hT => ?_,
    fun S hS o r ho hd => ?_⟩
  · rw [reg_broadcastCore]
    by_cases hd : q.dest = some (.r i)
    · simp only [hd, regWrite]
      have := hint i hd
      have hru : ∀ r, ({ s with cdbQueue := rest } : State).reg r = s.reg r := fun r => reg_congr rfl rfl r
      cases hqi : (({ s with cdbQueue := rest } : State).reg (.r i)).qi with
      | none => simpa using this
      | some U =>
        dsimp only
        split
        · simpa using this
        · rw [hru]; exact hi.regs i
    · rw [reg_regWrite_ne hd]
      exact hi.regs i
  · have : p ∈ rest := by simpa [broadcastCore] using hp
    exact hi.queued p (hrest p this) i hd
  · rcases mem_broadcastCore hS with rfl | ⟨P', hP', hn, he⟩
    · cases ho
    · obtain ⟨e1, e2, e3, e4, e5, e6⟩ := hfield P' S he
      rw [e2] at ho
      rcases e6 v hv with hv' | ⟨hj, rfl⟩
      · exact hi.captured P' hP' o v ho hr hv'
      · obtain ⟨P, hP, hPn, i, hPd⟩ := hi.awaited P' hP' o _ ho hr hj
        rw [h.unique hP hQ (hPn.trans hQn.symm), hQd] at hPd
        exact hint i hPd
  · rcases mem_broadcastCore hS with rfl | ⟨P', hP', hn, he⟩
    · cases ho
    · obtain ⟨e1, e2, e3, e4, e5, e6⟩ := hfield P' S he
      rw [e2] at ho
      have hj := e5 T hT
      obtain ⟨P, hP, hPn, i, hPd⟩ := hi.awaited P' hP' o T ho hr hj
      obtain ⟨hne, R, hR, hRn, hRb, -⟩ := h.slotTag P' hP' T (.inl hj)
      have hPR := h.unique hR hP (hRn.trans hPn.symm)
      subst hPR
      have hTq : T ≠ q.station := by
        rintro rfl
        have hb' : P'.busy = true := by
          by_contra hb; rw [h.free P' hP' (by simpa using hb)] at hj; cases hj
        rw [he, hb'] at hT
        simp [forwardJK_eq, hj] at hT
      obtain ⟨X, hX, hXn, hXd, -⟩ := busy_broadcastCore hR (by rw [hPn]; exact hTq) hRb
      exact ⟨X, hX, hXn.trans hPn, i, hXd.trans hPd⟩
  · rcases mem_broadcastCore hS with rfl | ⟨P', hP', hn, he⟩
    · cases ho
    · obtain ⟨e1, e2, e3, e4, e5, e6⟩ := hfield P' S he
      exact hi.destClass P' hP' o r (by rw [← e2]; exact ho) (by rw [← e3]; exact hd)

theorem writePhase_good {s : State} (h : Linked s) (hg : Good c p s) : Cyc.All (Good c p) (writePhase s) := by
  obtain ⟨h', hc⟩ | ⟨q, rest, hs, ⟨hk, hc⟩ | ⟨hk, ⟨i, hi, hc⟩ | ⟨hi, hc⟩⟩⟩ := writePhase_cases (s := s) rfl <;> rw [hc]
  · exact hg
  · exact ⟨fun hc => broadcastCore_integer h (hg.1 hc) (selectRequest_eq_some hs).2.1 (selectRequest_eq_some hs).2.2,
      fun hp => broadcastCore_inFlight hk (hg.2 hp)⟩
  · obtain ⟨d, r, ins, rs, rt, tg, -, -, -, -, b, hb, hL, hst, hcq, -⟩ := resolve_linked h (selectRequest_perm hs) hk hi
    rw [hb]
    refine ⟨fun hc => ?_, fun _ hp => ?_⟩
    · have hi2 := broadcastCore_integer h (hg.1 hc) (selectRequest_eq_some hs).2.1 (selectRequest_eq_some hs).2.2
      have hg0 : Good True True { broadcastCore q { s with cdbQueue := rest } with branchPending := false } :=
        ⟨fun _ => ⟨hi2.regs, hi2.queued, hi2.captured, hi2.awaited, hi2.destClass⟩, fun _ h => by cases h⟩
      refine (hg0.congr (fun r => ?_) ?_ hst hcq).1 trivial
      · unfold settle; cases b <;> exact reg_congr rfl rfl r
      · unfold settle; cases b <;> rfl
    · unfold settle at hp; cases b <;> cases hp
  · trivial

theorem captured_integer {s : State} (h : Linked s) (hi : IntegerValued s) {T : Tag} {o : OpCode} {d : Option Reg}
    {j : Reg} {k : Option Reg} {a : Option I32} (hT : allocate (opKind o) s = some T)
    (hd : ∀ r, d = some r → Reg.cls r = o.dataClass)
    (hj : readsIntJ o = true → ∃ i, j = .r i) :
    IntegerValued (captured T o d j k a s) := by
  obtain ⟨F, hF, hFn, hFk, hFb⟩ := mem_of_allocate hT
  have hFT : ∀ P ∈ s.stations, P.name = T → P.busy = false := fun P hP e => by
    rw [h.unique hP hF (e.trans hFn.symm)]; exact hFb
  have hval : ∀ r, ((captured T o d j k a s).reg r).value = (s.reg r).value := by
    intro r
    by_cases hr : d = some r
    · subst hr; rw [reg_captured_dest]
    · rw [reg_captured_ne hr]
  have hback : ∀ P ∈ s.stations, P.busy = true → P ∈ (captured T o d j k a s).stations := by
    intro P hP hPb
    rw [captured_stations]
    refine List.mem_map.2 ⟨P, hP, if_neg fun e => ?_⟩
    rw [hFT P hP e] at hPb
    cases hPb
  have hmem : ∀ P ∈ (captured T o d j k a s).stations,
      P = filledStation T o d j k a s.instances.length s ∨ (P ∈ s.stations ∧ P.name ≠ T) := by
    intro P hP
    rw [captured_stations] at hP
    obtain ⟨P', hP', rfl⟩ := List.mem_map.1 hP
    by_cases e : P'.name = T
    · rw [if_pos e]; exact .inl rfl
    · rw [if_neg e]; exact .inr ⟨hP', e⟩
  refine ⟨fun i => by rw [hval]; exact hi.regs i, fun q hq i hd => hi.queued q (by simpa using hq) i hd,
    fun S hS o' v ho hr hv => ?_, fun S hS o' U ho hr hU => ?_, fun S hS o' r ho hd' => ?_⟩
  · rcases hmem S hS with rfl | ⟨hS', -⟩
    · cases ho
      obtain ⟨i, rfl⟩ := hj hr
      have : v = (s.reg (.r i)).value := by
        change (capture (.r i) s).1 = some v at hv
        unfold capture at hv
        split at hv
        · cases hv; rfl
        · cases hv
      rw [this]; exact hi.regs i
    · exact hi.captured S hS' o' v ho hr hv
  · rcases hmem S hS with rfl | ⟨hS', -⟩
    · cases ho
      obtain ⟨i, rfl⟩ := hj hr
      have : (s.reg (.r i)).qi = some U := by
        rw [← capture_tag]; exact hU
      obtain ⟨P, hP, hn, hPb, hPd⟩ := h.regTag _ _ this
      exact ⟨P, hback P hP hPb, hn, i, hPd⟩
    · obtain ⟨P, hP, hn, i, hPd⟩ := hi.awaited S hS' o' U ho hr hU
      obtain ⟨hne, R, hR, hRn, hRb, -⟩ := h.slotTag S hS' U (.inl hU)
      have hPR := h.unique hR hP (hRn.trans hn.symm)
      subst hPR
      exact ⟨R, hback R hR hRb, hn, i, hPd⟩
  · rcases hmem S hS with rfl | ⟨hS', -⟩
    · cases ho
      exact hd r hd'
    · exact hi.destClass S hS' o' r ho hd'

theorem issueRecord_good {s t : State} (h : Linked s) (hg : Good c p s) {o : OpCode} {d : Option Reg}
    {j : Reg} {k : Option Reg} {a : Option I32} (hd : ∀ r, d = some r → Reg.cls r = o.dataClass)
    (hj : readsIntJ o = true → ∃ i, j = .r i) (hi : issueRecord o d j k a s = .next t) : Good c p t := by
  obtain h' | ⟨T, hb, hT, h'⟩ := issueRecord_cases o d j k a s
  · rw [h'] at hi; cases hi; exact hg
  · have hci := fun hc => captured_integer (k := k) (a := a) h (hg.1 hc) hT hd hj
    have hgc : Good c p (captured T o d j k a s) := ⟨hci, fun _ hp => by simp [hb] at hp⟩
    obtain ⟨hm, h'⟩ | ⟨hm, hlt, hr, h'⟩ | ⟨hm, hlt, hr, h'⟩ := h' <;> rw [h'] at hi
    · cases hi
      by_cases hkb : opKind o = .branch
      · rw [if_pos hkb]
        refine ⟨fun hc => have h := hci hc; ⟨h.regs, h.queued, h.captured, h.awaited, h.destClass⟩, fun _ _ => ?_⟩
        refine ⟨_, station?_mem (station?_fill (dest := d) (j := j) (k := k) (a := a) (o := o) (tags_of_allocate hT)),
          ?_, rfl⟩
        show T.kind = _
        rw [kind_of_allocate hT, hkb]
      · rw [if_neg hkb]
        exact hgc.congr (fun r => reg_congr rfl rfl r) rfl rfl rfl
    · cases hi
      exact hgc.congr (fun r => reg_congr rfl rfl r) rfl rfl rfl
    · have hh := handover_good hgc T
      split at hi
      · next u he =>
        cases hi; rw [he] at hh
        have hh : Good c p u := hh
        exact hh.congr (fun r => reg_congr rfl rfl r) rfl rfl rfl
      · next u he => cases hi; rw [he] at hh; exact hh
      · cases hi

theorem issuePhase_good {s t : State} (h : Linked s) (hg : Good c p s) (hi : issuePhase s = .next t) : Good c p t := by
  unfold issuePhase at hi
  split at hi
  · cases hi; exact hg
  · cases hi
  · next i _ =>
    cases i <;>
      exact issueRecord_good h hg (by rintro r ⟨⟩ <;> rfl) (fun e => by first | exact ⟨_, rfl⟩ | cases e) hi

end Sys2Proof.Machine
end

