-- ==== Sys2Proof/Laws/Pool.lean ====
section
/-! SUPPORT. What the Execute phase does over the whole pool: one lemma for a loop that touches each station once, and the two
loops of the phase (40_cycle_engine.md R141, R151–R153). -/

namespace Sys2Proof.Machine

/-- A running compute station has a result (R155). -/
theorem stationResult_isSome {s : State} (h : Linked s) {S : Station} (hS : S ∈ s.stations) (hr : S.running = true) :
    ∃ o v, S.op = some o ∧ stationResult o S = some v := by
  simp only [Station.running, Bool.and_eq_true, Bool.not_eq_true', decide_eq_true_eq] at hr
  obtain ⟨⟨⟨hk, hb⟩, he⟩, hpos⟩ := hr
  obtain ⟨o, i, d, ho, hko, hi, -, -, -, hsl⟩ := h.bound S hS hb
  obtain ⟨-, hj, hq⟩ := h.started S hS he
  have hqk : S.qk = none := by
    rcases hq with hq | hq
    · rw [hq] at hk; cases hk
    · exact hq
  refine ⟨o, ?_⟩
  have hvj : ∃ x, S.vj = some x := Option.isSome_iff_exists.1 (by rw [hsl.j, hj]; rfl)
  obtain ⟨x, hx⟩ := hvj
  have hkk := hsl.k
  have ha := hsl.a
  rw [← hko] at hk
  cases o <;> simp only [opKind, kindIsMem, reduceCtorEq] at hk <;>
    simp only [usesK, usesA, OpCode.format, if_true, hqk] at hkk ha <;>
    simp only [stationResult, resultFr, resultIi, hx, hi, ho, true_and]
  all_goals first
   | exact ⟨_, rfl⟩
   | (obtain ⟨y, hy⟩ := Option.isSome_iff_exists.1 (hkk.trans rfl); rw [hy]; exact ⟨_, rfl⟩)
   | (obtain ⟨y, hy⟩ := Option.isSome_iff_exists.1 ha; rw [hy]; exact ⟨_, rfl⟩)

/-! ### A loop over the stations -/

/-- The step of a loop at station S: S becomes `S'`, its instance is `f`'d, the requests `new` are queued, and nothing else
changes. -/
structure Touched (S S' : Station) (f : DynInst → DynInst) (new : List Request) (s t : State) : Prop where
  stations : t.stations = s.stations.map fun P => if P.name = S.name then S' else P
  instances : t.instances = match S.instruction with
    | some i => s.instances.modify i f
    | none => s.instances
  queue : t.cdbQueue = s.cdbQueue ++ new
  rest : t = { s with stations := t.stations, instances := t.instances, cdbQueue := t.cdbQueue }

theorem Touched.same {S : Station} {s : State} {f : DynInst → DynInst} (h : Linked s) (hS : S ∈ s.stations)
    (hf : ∀ d, f d = d) : Touched S S f [] s s where
  stations := by
    conv_lhs => rw [← List.map_id s.stations]
    refine List.map_congr_left fun P hP => ?_
    split
    · next e => exact h.unique hP hS e
    · rfl
  instances := by
    rw [show f = id from funext hf]
    split
    · rw [List.modify_id]
    · rfl
  queue := by simp
  rest := rfl

/-- An instance of no station that is touched is as it was. -/
theorem Touched.other {S S' : Station} {f : DynInst → DynInst} {new : List Request} {s t : State}
    (h : Touched S S' f new s t) {i : Nat} (hi : S.instruction ≠ some i) : t.instances[i]? = s.instances[i]? := by
  rw [h.instances]
  split
  · next j hj =>
    rw [List.getElem?_modify]
    have : j ≠ i := fun e => hi (e ▸ hj)
    simp [this]
  · rfl

/-- Everything a loop over the stations does. -/
structure Toured (l : List Station) (G : Station → Station) (F : Station → DynInst → DynInst)
    (R : Station → List Request → Prop) (s t : State) : Prop where
  stations : ∀ pre, s.stations = pre ++ l → t.stations = pre ++ l.map G
  bound : ∀ S ∈ l, ∀ i, S.instruction = some i → t.instances[i]? = (s.instances[i]?).map (F S)
  unbound : ∀ i, (∀ S ∈ l, S.instruction ≠ some i) → t.instances[i]? = s.instances[i]?
  queue : ∃ news, t.cdbQueue = s.cdbQueue ++ news.flatten ∧ List.Forall₂ R l news
  rest : t = { s with stations := t.stations, instances := t.instances, cdbQueue := t.cdbQueue }

/-- A loop whose body touches the station it is given touches each station once, in order. -/
theorem forEach_toured {g : Tag → State → Cyc} {G : Station → Station} {F : Station → DynInst → DynInst}
    {R : Station → List Request → Prop} {P : State → Prop} (hP : ∀ s, P s → Linked s)
    (hg : ∀ s, P s → ∀ S ∈ s.stations, ∃ t new, g S.name s = .ok t ∧ P t ∧ Touched S (G S) (F S) new s t ∧ R S new)
    (l pre : List Station) (s : State) (hs : P s) (hl : s.stations = pre ++ l) :
    ∃ t, forEach g (l.map Station.name) s = .ok t ∧ P t ∧ Toured l G F R s t := by
  induction l generalizing pre s with
  | nil =>
    exact ⟨s, rfl, hs, fun p h => by simpa using h, fun S hS => (by cases hS), fun _ _ => rfl, ⟨[], by simp, .nil⟩, rfl⟩
  | cons S l ih =>
    have hL := hP s hs
    have hS : S ∈ s.stations := by rw [hl]; simp
    obtain ⟨u, new, hu, hPu, hT, hR⟩ := hg s hs S hS
    have hnd : (s.stations.map Station.name).Nodup := hL.names
    have hstep : ∀ p, s.stations = p ++ S :: l → u.stations = p ++ G S :: l := by
      intro p hp
      rw [hp, List.map_append, List.map_cons] at hnd
      obtain ⟨-, h2, h3⟩ := List.nodup_append.1 hnd
      rw [hT.stations, hp, List.map_append, List.map_cons, if_pos rfl]
      congr 1
      · conv_rhs => rw [← List.map_id p]
        exact List.map_congr_left fun P hP => if_neg (h3 _ (List.mem_map.2 ⟨P, hP, rfl⟩) _ (by simp))
      · congr 1
        conv_rhs => rw [← List.map_id l]
        exact List.map_congr_left fun P hP => if_neg fun e => (List.nodup_cons.1 h2).1 (List.mem_map.2 ⟨P, hP, e⟩)
    obtain ⟨t, ht, hPt, hI⟩ := ih (pre ++ [G S]) u hPu (by rw [hstep pre hl]; simp)
    have hdiff : ∀ P ∈ l, ∀ i, S.instruction = some i → P.instruction ≠ some i := by
      intro P hPl i hi hPi
      have := hL.unique_instruction hS (by rw [hl]; simp [hPl]) hi hPi
      subst this
      rw [hl, List.map_append, List.map_cons] at hnd
      exact (List.nodup_cons.1 (List.nodup_append.1 hnd).2.1).1 (List.mem_map.2 ⟨_, hPl, rfl⟩)
    obtain ⟨news, hq, hf⟩ := hI.queue
    refine ⟨t, by simp only [List.map_cons, forEach, hu]; exact ht, hPt, fun p hp => ?_, fun P hPl i hi => ?_,
      fun i hi => ?_, ⟨new :: news, by rw [hq, hT.queue]; simp, .cons hR hf⟩, ?_⟩
    · rw [hI.stations (p ++ [G S]) (by rw [hstep p hp]; simp)]
      simp
    · rcases List.mem_cons.1 hPl with rfl | hPl
      · rw [hI.unbound i fun Q hQ => hdiff Q hQ i hi, hT.instances, hi]
        simp
      · rw [hI.bound P hPl i hi, hT.other fun e => hdiff P hPl i e hi]
    · rw [hI.unbound i fun Q hQ => hi Q (by simp [hQ]), hT.other (hi S (by simp))]
    · rw [hI.rest]
      rw [hT.rest]

/-! ### The two loops of the Execute phase -/

/-- The last cycle of a countdown. -/
def Station.finishing (S : Station) : Bool := S.running && decide (S.remainingCycles = 1)

/-- A station after the countdowns. -/
def Station.counted (S : Station) : Station :=
  if S.running then { S with remainingCycles := S.remainingCycles - 1 } else S

/-- The requests of a station's countdown (R152). -/
def Answers (C : Nat) (S : Station) (new : List Request) : Prop :=
  if S.finishing then ∃ o v, S.op = some o ∧ stationResult o S = some v ∧ new = [⟨S.name, v, S.dest, o, C + 1⟩]
  else new = []

/-- A countdown touches its station (R151, R152). -/
theorem countDown_touched {s : State} (h : Linked s) {S : Station} (hS : S ∈ s.stations) :
    ∃ t new, countDown S.name s = .ok t ∧
      Touched S S.counted (fun d => if S.finishing then { d with execEnd := some s.cycle } else d) new s t ∧
      Answers s.cycle S new := by
  have hf := station?_of_mem h.names hS
  have hupd : (updStation S.name (fun S => { S with remainingCycles := S.remainingCycles - 1 }) s).stations =
      s.stations.map fun P => if P.name = S.name then { S with remainingCycles := S.remainingCycles - 1 } else P := by
    rw [updStation_stations]
    refine List.map_congr_left fun P hP => ?_
    by_cases e : P.name = S.name
    · rw [h.unique hP hS e]
    · rw [if_neg e, if_neg e]
  by_cases hr : S.running = true
  · obtain ⟨o, v, ho, hv⟩ := stationResult_isSome h hS hr
    by_cases h1 : S.remainingCycles = 1
    · have hfin : S.finishing = true := by simp [Station.finishing, hr, h1]
      refine ⟨_, [⟨S.name, v, S.dest, o, s.cycle + 1⟩], countDown_completes hf hr h1 ho hv, ⟨?_, ?_, by simp, ?_⟩, ?_⟩
      · simpa [Station.counted, hr] using hupd
      · cases hi : S.instruction <;> simp [stampBound, hi, hfin]
      · unfold stampBound
        split <;> rfl
      · simp only [Answers, hfin, if_true]
        exact ⟨o, v, ho, hv, rfl⟩
    · have hfin : S.finishing = false := by simp [Station.finishing, h1]
      refine ⟨_, [], countDown_runs hf hr h1, ⟨?_, ?_, by simp, rfl⟩, by simp [Answers, hfin]⟩
      · simpa [Station.counted, hr] using hupd
      · simp only [hfin, Bool.false_eq_true, if_false, updStation_instances]
        cases S.instruction with
        | none => rfl
        | some i => exact (List.modify_id _ _).symm
  · have hfin : S.finishing = false := by simp [Station.finishing, hr]
    rw [show S.counted = S by simp [Station.counted, hr]]
    exact ⟨s, [], countDown_idle hf (by simpa using hr), .same h hS (by simp [hfin]), by simp [Answers, hfin]⟩

/-- The latency a station starts with, if it starts in cycle `C` (R153, R154). -/
def Station.starting (C : Nat) (c : Config) (S : Station) : Option Nat :=
  if S.startable C then startLatency c S else none

/-- A station after the starts. -/
def Station.started (C : Nat) (c : Config) (S : Station) : Station :=
  match S.starting C c with
  | some l => { S with execStarted := true, remainingCycles := l }
  | none => S

/-- A start touches its station (R153). -/
theorem startStation_touched {s : State} (h : Linked s) {S : Station} (hS : S ∈ s.stations) :
    ∃ t, startStation S.name s = .ok t ∧ Touched S (S.started s.cycle s.cfg)
      (fun d => if (S.starting s.cycle s.cfg).isSome then { d with execStart := some s.cycle } else d) [] s t := by
  have hf := station?_of_mem h.names hS
  by_cases hr : S.startable s.cycle = true
  · cases hl : startLatency s.cfg S with
    | none =>
      have hn : S.starting s.cycle s.cfg = none := by simp [Station.starting, hl]
      rw [show S.started s.cycle s.cfg = S by simp [Station.started, hn]]
      exact ⟨s, by simp only [startStation, hf, hr, hl, if_true], .same h hS (by simp [hn])⟩
    | some l =>
      have hn : S.starting s.cycle s.cfg = some l := by simp [Station.starting, hr, hl]
      refine ⟨_, startStation_starts hf hr hl, ?_, ?_, by simp, ?_⟩
      · rw [stampBound_stations, updStation_stations]
        refine List.map_congr_left fun P hP => ?_
        by_cases e : P.name = S.name
        · rw [if_pos e, if_pos e, h.unique hP hS e]
          simp [Station.started, hn]
        · rw [if_neg e, if_neg e]
      · cases hi : S.instruction <;> simp [stampBound, hi, hn]
      · unfold stampBound
        split <;> rfl
  · have hn : S.starting s.cycle s.cfg = none := by simp [Station.starting, hr]
    rw [show S.started s.cycle s.cfg = S by simp [Station.started, hn]]
    exact ⟨s, startStation_idle hf (by simpa using hr), .same h hS (by simp [hn])⟩

/-- A station that counted does not start in the same cycle, and one that did not is the same for the start. -/
theorem Station.starting_counted (C : Nat) (c : Config) (S : Station) :
    S.counted.starting C c = if S.running then none else S.starting C c := by
  unfold Station.counted
  split
  · next hr =>
    have he : S.execStarted = true := by
      simp only [Station.running, Bool.and_eq_true] at hr
      exact hr.1.2
    simp [Station.starting, Station.startable, Station.ready, he]
  · rfl

/-- The Execute phase with linked tags: the countdowns in pool order, then the starts. -/
theorem executePhase_toured {s : State} (h : Linked s) : ∃ u t, executePhase s = .ok t ∧
    Toured s.stations Station.counted (fun S d => if S.finishing then { d with execEnd := some s.cycle } else d)
      (Answers s.cycle) s u ∧
    Toured u.stations (Station.started s.cycle s.cfg)
      (fun S d => if (S.starting s.cycle s.cfg).isSome then { d with execStart := some s.cycle } else d)
      (fun _ new => new = []) u t := by
  have hfr : ∀ {S S' f new} {a b : State}, Touched S S' f new a b → b.cycle = a.cycle ∧ b.cfg = a.cfg := fun hT => by
    rw [hT.rest]; exact ⟨rfl, rfl⟩
  obtain ⟨u, hu, ⟨hLu, hcu, hfu⟩, hTu⟩ := forEach_toured (g := countDown) (G := Station.counted)
    (F := fun S d => if S.finishing then { d with execEnd := some s.cycle } else d) (R := Answers s.cycle)
    (P := fun t => Linked t ∧ t.cycle = s.cycle ∧ t.cfg = s.cfg) (fun _ h => h.1) (fun a ⟨hL, hc, hf⟩ S hS => by
      obtain ⟨b, new, hb, hT, hA⟩ := countDown_touched hL hS
      have hLb := countDown_linked hL S.name
      rw [hb] at hLb
      rw [hc] at hT hA
      exact ⟨b, new, hb, ⟨hLb, (hfr hT).1.trans hc, (hfr hT).2.trans hf⟩, hT, hA⟩) s.stations [] s ⟨h, rfl, rfl⟩ rfl
  obtain ⟨t, ht, -, hTt⟩ := forEach_toured (g := startStation) (G := Station.started s.cycle s.cfg)
    (F := fun S d => if (S.starting s.cycle s.cfg).isSome then { d with execStart := some s.cycle } else d)
    (R := fun _ new => new = [])
    (P := fun t => Linked t ∧ t.cycle = s.cycle ∧ t.cfg = s.cfg) (fun _ h => h.1) (fun a ⟨hL, hc, hf⟩ S hS => by
      obtain ⟨b, hb, hT⟩ := startStation_touched hL hS
      have hLb := startStation_linked hL S.name
      rw [hb] at hLb
      rw [hc, hf] at hT
      exact ⟨b, [], hb, ⟨hLb, (hfr hT).1.trans hc, (hfr hT).2.trans hf⟩, hT, rfl⟩) u.stations [] u ⟨hLu, hcu, hfu⟩ rfl
  refine ⟨u, t, ?_, hTu, hTt⟩
  unfold executePhase
  rw [show s.tags = s.stations.map Station.name from rfl, hu]
  exact ht

end Sys2Proof.Machine
end

