-- ==== Sys2Proof/Laws/NoRefusal.lean ====
section
/-! SUPPORT. No phase of a well-formed machine refuses anything but the 2^32-th handover (20_memory.md R96, log 9,
log 10). -/

namespace Sys2Proof.Machine

/-- A phase that does not refuse, but for the 2^32-th handover, and leaves `P` when it goes through. -/
def Fine (P : State → Prop) : Cyc → Prop
  | .ok s => P s
  | .error (.fatal _) => True
  | .error (.refuse r) => r = .seqOverflow

theorem forEach_fine {α : Type} {P : State → Prop} {f : α → State → Cyc} (xs : List α) (s : State)
    (hf : ∀ x ∈ xs, ∀ t, P t → Fine P (f x t)) (hs : P s) : Fine P (forEach f xs s) := by
  induction xs generalizing s with
  | nil => exact hs
  | cons x xs ih =>
    have h1 := hf x (by simp) s hs
    simp only [forEach]
    split
    · next e => rw [e] at h1; exact ih _ (fun y hy => hf y (by simp [hy])) h1
    · next e => rw [e] at h1; exact h1

/-- What the phases need in order not to refuse. -/
structure Sound (s : State) : Prop where
  sh : Shaped s
  li : Linked s
  iv : Good True False s
  pr : programOk s.prog = true

theorem Fine.of {P : State → Prop} {c : Cyc} (h : Cyc.All P c) (hn : ∀ r, c = .error (.refuse r) → r = .seqOverflow) :
    Fine P c := by
  cases c with
  | ok s => exact h
  | error e => cases e with
    | fatal s => trivial
    | refuse r => exact hn r rfl

theorem countDown_fine {s : State} (h : Sound s) {T : Tag} (hT : T ∈ s.tags) :
    Fine (fun t => Sound t ∧ t.tags = s.tags) (countDown T s) := by
  refine Fine.of ?_ ?_
  · have h1 := ((countDown_shaped h.sh T).and (countDown_linked h.li T)).and
      ((countDown_good h.iv T).and (countDown_frame T s))
    have h2 : Cyc.All (fun t => t.tags = s.tags) (countDown T s) := by
      obtain ⟨r, hc⟩ | ⟨S, hS, ⟨-, hc⟩ | ⟨hr, h1, hc⟩ | ⟨o, v, hr, h1, ho, hv, hc⟩⟩ :=
        countDown_cases (T := T) (s := s) rfl <;> rw [hc]
      · trivial
      · exact rfl
      · exact tags_updStation (by intro S hn; exact hn) s
      · show State.tags _ = _
        simp only [State.tags, stampBound_stations, enqueue_stations]
        exact tags_updStation (by intro S hn; exact hn) s
    exact (h1.and h2).mono fun t ⟨⟨⟨a, b⟩, c, d⟩, e⟩ => ⟨⟨a, b, c, by rw [d.prog]; exact h.pr⟩, e⟩
  · intro r hr
    exfalso
    obtain ⟨S, hS⟩ := station?_isSome hT
    by_cases hrun : S.running = true
    · obtain ⟨o, v, ho, hv⟩ := stationResult_isSome h.li (station?_mem hS) hrun
      by_cases h1 : S.remainingCycles = 1
      · rw [countDown_completes hS hrun h1 ho hv] at hr; cases hr
      · rw [countDown_runs hS hrun h1] at hr; cases hr
    · rw [countDown_idle hS (by simpa using hrun)] at hr; cases hr

theorem startStation_fine {s : State} (h : Sound s) {T : Tag} (hT : T ∈ s.tags) :
    Fine (fun t => Sound t ∧ t.tags = s.tags) (startStation T s) := by
  refine Fine.of ?_ ?_
  · have h1 := ((startStation_shaped h.sh T).and (startStation_linked h.li T)).and
      ((startStation_good h.iv T).and (startStation_frame T s))
    have h2 : Cyc.All (fun t => t.tags = s.tags) (startStation T s) := by
      obtain ⟨r, hc⟩ | ⟨S, hS, hc | ⟨l, hr, hl, hc⟩⟩ := startStation_cases (T := T) (s := s) rfl <;> rw [hc]
      · trivial
      · exact rfl
      · show State.tags _ = _
        simp only [State.tags, stampBound_stations]
        exact tags_updStation (by intro S hn; exact hn) s
    exact (h1.and h2).mono fun t ⟨⟨⟨a, b⟩, c, d⟩, e⟩ => ⟨⟨a, b, c, by rw [d.prog]; exact h.pr⟩, e⟩
  · intro r hr
    exfalso
    obtain ⟨S, hS⟩ := station?_isSome hT
    unfold startStation at hr
    simp only [hS] at hr
    split at hr
    · split at hr <;> cases hr
    · cases hr

theorem Fine.mono {P Q : State → Prop} (h : ∀ s, P s → Q s) {c : Cyc} (hc : Fine P c) : Fine Q c := by
  cases c with
  | ok s => exact h _ hc
  | error e => cases e with
    | fatal u => trivial
    | refuse r => exact hc

theorem executePhase_fine {s : State} (h : Sound s) : Fine Sound (executePhase s) := by
  have h1 : Fine (fun t => Sound t ∧ t.tags = s.tags) (forEach countDown s.tags s) :=
    forEach_fine _ _ (fun T hT t ht => by
      have := countDown_fine ht.1 (T := T) (by rw [ht.2]; exact hT)
      rw [ht.2] at this; exact this) ⟨h, rfl⟩
  unfold executePhase
  split
  · next e he => rw [he] at h1; exact h1.mono fun _ h => h.1
  · next s' he =>
    rw [he] at h1
    have h1 : Sound s' ∧ s'.tags = s.tags := h1
    have h2 : Fine (fun t => Sound t ∧ t.tags = s'.tags) (forEach startStation s'.tags s') :=
      forEach_fine _ _ (fun T hT t ht => by
        have := startStation_fine ht.1 (T := T) (by rw [ht.2]; exact hT)
        rw [ht.2] at this; exact this) ⟨h1.1, rfl⟩
    exact h2.mono fun _ h => h.1

theorem memoryPhase_fine {s : State} (h : Sound s) : Fine Sound (memoryPhase s) := by
  obtain ⟨t, ht, hs⟩ := memoryPhase_shaped h.sh
  have h1 := memoryPhase_linked h.li
  have h2 : Cyc.All (Good True False) (memoryPhase s) := lsbTickFrom_good [] s.lsb s h.li h.iv
  have h3 := memoryPhase_frame s
  rw [ht] at h1 h2 h3 ⊢
  exact ⟨hs, h1, h2, by rw [Frame.prog h3]; exact h.pr⟩

/-- The handover of a ready station refuses nothing but the 2^32-th (20_memory.md R96, R102). -/
theorem handover_refuses {s : State} (h : Sound s) {S : Station} (hS : S ∈ s.stations) (hr : S.ready = true)
    (hk : kindIsMem S.kind = true) (r : Refusal) (hc : handover S.name s = .error (.refuse r)) : r = .seqOverflow := by
  simp only [Station.ready, Bool.and_eq_true, Bool.not_eq_true', Bool.or_eq_true, beq_iff_eq,
    Option.isNone_iff_eq_none] at hr
  obtain ⟨⟨⟨hb, he⟩, hj⟩, hq⟩ := hr
  have hf := station?_of_mem h.li.names hS
  obtain ⟨o, i, d, ho, hko, hi, -, -, -, hsl⟩ := h.li.bound S hS hb
  obtain ⟨x, hx⟩ : ∃ x, S.vj = some x := Option.isSome_iff_exists.1 (by rw [hsl.j, hj]; rfl)
  have hint : readsIntJ o = true ∧ usesA o = true := by
    rw [← hko] at hk
    cases o <;> simp [opKind, kindIsMem, readsIntJ, usesA, OpCode.format] at hk ⊢
  obtain ⟨a, ha⟩ : ∃ x, S.a = some x := Option.isSome_iff_exists.1 (by rw [hsl.a, hint.2])
  obtain ⟨b, hbb⟩ := Option.isSome_iff_exists.1 ((h.iv.1 trivial).captured S hS o x ho hint.1 hx)
  unfold handover at hc
  simp only [hf, ho, hx, ha, hi, hbb] at hc
  split at hc
  · next e hce =>
    exfalso
    unfold checkAddress raise at hce
    split at hce
    · cases hce; cases hc
    · split at hce
      · cases hce; cases hc
      · cases hce
  · split at hc
    · next e hce =>
      exfalso
      unfold storeData at hce
      split at hce
      · next hst =>
        have : ∃ enc, storeCodec o = some enc := by
          rw [hst] at hko
          cases o <;> simp [opKind, storeCodec] at hko ⊢
        obtain ⟨enc, henc⟩ := this
        have hqk : S.qk = none := by
          rcases hq with hq | hq
          · rw [hst] at hq; cases hq
          · exact hq
        have hus : usesK o = true := by
          rw [hst] at hko
          cases o <;> simp [opKind, usesK, OpCode.format] at hko ⊢
        obtain ⟨y, hy⟩ : ∃ x, S.vk = some x := Option.isSome_iff_exists.1 (by
          have := hsl.k; rw [if_pos hus, hqk] at this; exact this)
        rw [henc, hy] at hce
        dsimp only at hce
        split at hce
        · cases hce
        · unfold raise at hce; cases hce; cases hc
      · cases hce
    · split at hc
      · cases hc
      · cases hc; rfl

theorem handover_fine {s : State} (h : Sound s) (hr2 : s.lsb.length < s.cfg.lsbMax) {S : Station} (hS : S ∈ s.stations)
    (hr : S.ready = true) (hk : kindIsMem S.kind = true) :
    Fine (fun t => Sound t ∧ ∀ P ∈ s.stations, P.name ≠ S.name → P ∈ t.stations) (handover S.name s) := by
  refine Fine.of ?_ (handover_refuses h hS hr hk)
  have h1 := ((handover_shaped h.sh (T := S.name) hk hr2).and (handover_linked h.li hS hr hk)).and
    ((handover_good h.iv S.name).and (handover_frame S.name s))
  exact h1.mono fun t ⟨⟨a, b, e⟩, c, d⟩ => ⟨⟨a, b, c, by rw [d.prog]; exact h.pr⟩, e⟩

theorem deferredPhase_fine {s : State} (h : Sound s) : Fine Sound (deferredPhase s) := by
  have key : ∀ (l : List Station) (t : State), Sound t → (l.map Station.name).Nodup →
      (∀ S ∈ l, S ∈ t.stations ∧ kindIsMem S.kind = true ∧ S.ready = true) →
      Fine Sound (forEach handoverIfRoom l t) := by
    intro l
    induction l with
    | nil => intro t ht _ _; exact ht
    | cons S l ih =>
      intro t ht hn hl
      obtain ⟨hS, hk, hr⟩ := hl S (by simp)
      simp only [List.map_cons, List.nodup_cons] at hn
      have h1 : Fine (fun u => Sound u ∧ ∀ P ∈ t.stations, P.name ≠ S.name → P ∈ u.stations)
          (handoverIfRoom S t) := by
        unfold handoverIfRoom
        split
        · exact ⟨ht, fun P hP _ => hP⟩
        · next hfull => exact handover_fine ht (by simpa [State.lsbFull] using hfull) hS hr hk
      simp only [forEach]
      split
      · next u hu =>
        rw [hu] at h1
        have h1 : Sound u ∧ ∀ P ∈ t.stations, P.name ≠ S.name → P ∈ u.stations := h1
        refine ih u h1.1 hn.2 fun P hP => ?_
        obtain ⟨hP', hPk, hPr⟩ := hl P (by simp [hP])
        exact ⟨h1.2 P hP' fun e => hn.1 (List.mem_map.2 ⟨P, hP, e⟩), hPk, hPr⟩
      · next e he =>
        rw [he] at h1
        cases e with
        | fatal u => trivial
        | refuse r => exact h1
  exact key _ s h (nodup_deferred h.li) fun S hS => mem_deferred.1 hS

theorem writePhase_fine {s : State} (h : Sound s) : Fine Sound (writePhase s) := by
  refine Fine.of ?_ ?_
  · have h1 := ((writePhase_shaped h.sh).and (writePhase_linked h.li)).and (writePhase_good h.li h.iv)
    have h2 : Cyc.All (fun t => t.prog = s.prog) (writePhase s) := by
      obtain ⟨h', hc⟩ | ⟨q, rest, hs, ⟨hk, hc⟩ | ⟨hk, ⟨i, hi, hc⟩ | ⟨hi, hc⟩⟩⟩ :=
        writePhase_cases (s := s) rfl <;> rw [hc]
      · exact rfl
      · show State.prog _ = _
        simp [broadcastCore]
      · obtain ⟨d, r, ins, rs, rt, tg, -, -, -, -, b, hb, hL, -⟩ :=
          resolve_linked h.li (selectRequest_perm hs) hk hi
        rw [hb]
        show State.prog _ = _
        unfold settle; cases b <;> simp [broadcastCore, flush]
      · trivial
    exact (h1.and h2).mono fun t ⟨⟨⟨a, b⟩, c⟩, d⟩ => ⟨a, b, c, by rw [d]; exact h.pr⟩
  · intro r hr
    exfalso
    obtain ⟨h', hc⟩ | ⟨q, rest, hs, ⟨hk, hc⟩ | ⟨hk, ⟨i, hi, hc⟩ | ⟨hi, hc⟩⟩⟩ :=
      writePhase_cases (s := s) rfl <;> rw [hc] at hr
    · cases hr
    · cases hr
    · obtain ⟨d, r, ins, rs, rt, tg, -, -, -, -, b, hb, hL, -⟩ := resolve_linked h.li (selectRequest_perm hs) hk hi
      rw [hb] at hr; cases hr
    · obtain ⟨S, hS, hSb, -⟩ := h.li.ofQueued (selectRequest_eq_some hs).2.1
      obtain ⟨o, i, d, ho, hko, hi', -⟩ := h.li.bound S (station?_mem hS) hSb
      rw [State.instanceAt, hS] at hi
      simp [hi'] at hi

theorem earlyPhases_fine {s : State} (h : Sound s) : Fine Sound (earlyPhases s) := by
  unfold earlyPhases
  have h1 := writePhase_fine h
  split
  · next e he => rw [he] at h1; exact h1
  · next s1 he =>
    rw [he] at h1
    have h2 := executePhase_fine h1
    split
    · next e he => rw [he] at h2; exact h2
    · next s2 he =>
      rw [he] at h2
      have h3 := memoryPhase_fine h2
      split
      · next e he => rw [he] at h3; exact h3
      · next s3 he =>
        rw [he] at h3
        exact deferredPhase_fine h3

/-- Every record of a checked program passes its checks (30_encoding.md R127). -/
theorem checkRecord_of_firstBadRecord {n i : Nat} {rs : List Record} (h : firstBadRecord n i rs = none) (j : Nat)
    (r : Record) (hj : rs[j]? = some r) : ∃ ins, checkRecord n (i + j) r = .ok ins := by
  induction rs generalizing i j with
  | nil => simp at hj
  | cons a rs ih =>
    simp only [firstBadRecord] at h
    split at h
    · cases h
    · next ins hi =>
      cases j with
      | zero => simp at hj; subst hj; exact ⟨_, by simpa using hi⟩
      | succ j =>
        have := ih h j (by simpa using hj)
        rw [show i + (j + 1) = i + 1 + j by omega]; exact this

end Sys2Proof.Machine
end

