-- ==== Sys2Proof/Laws/PerInstr.lean ====
section
/-! SUPPORT. The statements made per instruction. -/

namespace Sys2Proof.Laws

/-- The record of an instruction, loaded at any index, decodes to the instruction (30_encoding.md R122, R124). -/
def RecordRoundTrip.Statement (i : Instr) : Prop := ∀ id : Nat, decodeRecord (encodeRecord id i) = .ok i

/-- The index of a present field that `encodeRecord` made. -/
theorem index_ofIndex (c : RegClass) (i : Fin 32) : RegField.index (RegField.ofIndex (some c) i) = i := by
  simp [RegField.index, RegField.ofIndex, Fin.ofNat, Nat.mod_eq_of_lt i.isLt]

/-- A field that `encodeRecord` made names a register. -/
theorem named_ofIndex (want : Option RegClass) (i : Fin 32) : RegField.named (RegField.ofIndex want i) = true := by
  cases want <;> simp [RegField.named, RegField.ofIndex]; omega

/-- It stands where the format wants it. -/
theorem placed_ofIndex (want : Option RegClass) (i : Fin 32) :
    RegField.placed want (RegField.ofIndex want i) = true := by
  cases want <;> simp [RegField.placed, RegField.ofIndex]

/-- It has the class the op asks for. -/
theorem classed_ofIndex (want : Option RegClass) (i : Fin 32) :
    RegField.classed want (RegField.ofIndex want i) = true := by
  cases want <;> simp [RegField.classed, RegField.ofIndex]

/-- A code names its op. -/
theorem ofCode_code (o : OpCode) : OpCode.ofCode o.code = some o := by cases o <;> rfl

/-- A made record decodes to what its op builds from it. -/
theorem decodeRecord_make (id : Nat) (o : OpCode) (d s1 s2 b : Fin 32) (off imm : I32) :
    decodeRecord (Record.make id o d s1 s2 b off imm) = .ok ((Record.make id o d s1 s2 b off imm).build o) := by
  simp [decodeRecord, Record.make, ofCode_code, Record.regNamesOk, Record.fieldsOk, Record.classesOk,
    named_ofIndex, placed_ofIndex, classed_ofIndex]

theorem RecordRoundTrip.daddi (a b : Fin 32) (c : I32) :
    RecordRoundTrip.Statement (.daddi a b c) := fun id =>
  (decodeRecord_make id .daddi ..).trans (by
    simp only [Record.build, Record.make, OpCode.destClass, OpCode.src1Class, OpCode.src2Class, OpCode.baseClass,
      OpCode.format, OpCode.dataClass, index_ofIndex])

theorem RecordRoundTrip.dsubi (a b : Fin 32) (c : I32) :
    RecordRoundTrip.Statement (.dsubi a b c) := fun id =>
  (decodeRecord_make id .dsubi ..).trans (by
    simp only [Record.build, Record.make, OpCode.destClass, OpCode.src1Class, OpCode.src2Class, OpCode.baseClass,
      OpCode.format, OpCode.dataClass, index_ofIndex])

theorem RecordRoundTrip.lw (a b : Fin 32) (c : I32) :
    RecordRoundTrip.Statement (.lw a b c) := fun id =>
  (decodeRecord_make id .lw ..).trans (by
    simp only [Record.build, Record.make, OpCode.destClass, OpCode.src1Class, OpCode.src2Class, OpCode.baseClass,
      OpCode.format, OpCode.dataClass, index_ofIndex])

theorem RecordRoundTrip.ld (a b : Fin 32) (c : I32) :
    RecordRoundTrip.Statement (.ld a b c) := fun id =>
  (decodeRecord_make id .ld ..).trans (by
    simp only [Record.build, Record.make, OpCode.destClass, OpCode.src1Class, OpCode.src2Class, OpCode.baseClass,
      OpCode.format, OpCode.dataClass, index_ofIndex])

theorem RecordRoundTrip.ls (a b : Fin 32) (c : I32) :
    RecordRoundTrip.Statement (.ls a b c) := fun id =>
  (decodeRecord_make id .ls ..).trans (by
    simp only [Record.build, Record.make, OpCode.destClass, OpCode.src1Class, OpCode.src2Class, OpCode.baseClass,
      OpCode.format, OpCode.dataClass, index_ofIndex])

theorem RecordRoundTrip.ldd (a b : Fin 32) (c : I32) :
    RecordRoundTrip.Statement (.ldd a b c) := fun id =>
  (decodeRecord_make id .ldd ..).trans (by
    simp only [Record.build, Record.make, OpCode.destClass, OpCode.src1Class, OpCode.src2Class, OpCode.baseClass,
      OpCode.format, OpCode.dataClass, index_ofIndex])

theorem RecordRoundTrip.sw (a b : Fin 32) (c : I32) :
    RecordRoundTrip.Statement (.sw a b c) := fun id =>
  (decodeRecord_make id .sw ..).trans (by
    simp only [Record.build, Record.make, OpCode.destClass, OpCode.src1Class, OpCode.src2Class, OpCode.baseClass,
      OpCode.format, OpCode.dataClass, index_ofIndex])

theorem RecordRoundTrip.sd (a b : Fin 32) (c : I32) :
    RecordRoundTrip.Statement (.sd a b c) := fun id =>
  (decodeRecord_make id .sd ..).trans (by
    simp only [Record.build, Record.make, OpCode.destClass, OpCode.src1Class, OpCode.src2Class, OpCode.baseClass,
      OpCode.format, OpCode.dataClass, index_ofIndex])

theorem RecordRoundTrip.ss (a b : Fin 32) (c : I32) :
    RecordRoundTrip.Statement (.ss a b c) := fun id =>
  (decodeRecord_make id .ss ..).trans (by
    simp only [Record.build, Record.make, OpCode.destClass, OpCode.src1Class, OpCode.src2Class, OpCode.baseClass,
      OpCode.format, OpCode.dataClass, index_ofIndex])

theorem RecordRoundTrip.sdd (a b : Fin 32) (c : I32) :
    RecordRoundTrip.Statement (.sdd a b c) := fun id =>
  (decodeRecord_make id .sdd ..).trans (by
    simp only [Record.build, Record.make, OpCode.destClass, OpCode.src1Class, OpCode.src2Class, OpCode.baseClass,
      OpCode.format, OpCode.dataClass, index_ofIndex])

theorem RecordRoundTrip.addS (a b : Fin 32) (c : Fin 32) :
    RecordRoundTrip.Statement (.addS a b c) := fun id =>
  (decodeRecord_make id .addS ..).trans (by
    simp only [Record.build, Record.make, OpCode.destClass, OpCode.src1Class, OpCode.src2Class, OpCode.baseClass,
      OpCode.format, OpCode.dataClass, index_ofIndex])

theorem RecordRoundTrip.addD (a b : Fin 32) (c : Fin 32) :
    RecordRoundTrip.Statement (.addD a b c) := fun id =>
  (decodeRecord_make id .addD ..).trans (by
    simp only [Record.build, Record.make, OpCode.destClass, OpCode.src1Class, OpCode.src2Class, OpCode.baseClass,
      OpCode.format, OpCode.dataClass, index_ofIndex])

theorem RecordRoundTrip.subS (a b : Fin 32) (c : Fin 32) :
    RecordRoundTrip.Statement (.subS a b c) := fun id =>
  (decodeRecord_make id .subS ..).trans (by
    simp only [Record.build, Record.make, OpCode.destClass, OpCode.src1Class, OpCode.src2Class, OpCode.baseClass,
      OpCode.format, OpCode.dataClass, index_ofIndex])

theorem RecordRoundTrip.subD (a b : Fin 32) (c : Fin 32) :
    RecordRoundTrip.Statement (.subD a b c) := fun id =>
  (decodeRecord_make id .subD ..).trans (by
    simp only [Record.build, Record.make, OpCode.destClass, OpCode.src1Class, OpCode.src2Class, OpCode.baseClass,
      OpCode.format, OpCode.dataClass, index_ofIndex])

theorem RecordRoundTrip.mulS (a b : Fin 32) (c : Fin 32) :
    RecordRoundTrip.Statement (.mulS a b c) := fun id =>
  (decodeRecord_make id .mulS ..).trans (by
    simp only [Record.build, Record.make, OpCode.destClass, OpCode.src1Class, OpCode.src2Class, OpCode.baseClass,
      OpCode.format, OpCode.dataClass, index_ofIndex])

theorem RecordRoundTrip.mulD (a b : Fin 32) (c : Fin 32) :
    RecordRoundTrip.Statement (.mulD a b c) := fun id =>
  (decodeRecord_make id .mulD ..).trans (by
    simp only [Record.build, Record.make, OpCode.destClass, OpCode.src1Class, OpCode.src2Class, OpCode.baseClass,
      OpCode.format, OpCode.dataClass, index_ofIndex])

theorem RecordRoundTrip.divS (a b : Fin 32) (c : Fin 32) :
    RecordRoundTrip.Statement (.divS a b c) := fun id =>
  (decodeRecord_make id .divS ..).trans (by
    simp only [Record.build, Record.make, OpCode.destClass, OpCode.src1Class, OpCode.src2Class, OpCode.baseClass,
      OpCode.format, OpCode.dataClass, index_ofIndex])

theorem RecordRoundTrip.divD (a b : Fin 32) (c : Fin 32) :
    RecordRoundTrip.Statement (.divD a b c) := fun id =>
  (decodeRecord_make id .divD ..).trans (by
    simp only [Record.build, Record.make, OpCode.destClass, OpCode.src1Class, OpCode.src2Class, OpCode.baseClass,
      OpCode.format, OpCode.dataClass, index_ofIndex])

theorem RecordRoundTrip.beq (a b : Fin 32) (c : I32) :
    RecordRoundTrip.Statement (.beq a b c) := fun id =>
  (decodeRecord_make id .beq ..).trans (by
    simp only [Record.build, Record.make, OpCode.destClass, OpCode.src1Class, OpCode.src2Class, OpCode.baseClass,
      OpCode.format, OpCode.dataClass, index_ofIndex])

theorem RecordRoundTrip.bne (a b : Fin 32) (c : I32) :
    RecordRoundTrip.Statement (.bne a b c) := fun id =>
  (decodeRecord_make id .bne ..).trans (by
    simp only [Record.build, Record.make, OpCode.destClass, OpCode.src1Class, OpCode.src2Class, OpCode.baseClass,
      OpCode.format, OpCode.dataClass, index_ofIndex])

end Sys2Proof.Laws
end

