-- ==== Sys2Proof/Laws/Reset.lean ====
section
/-! SUPPORT. What the checks of a reset say when they pass, and the state they leave (70_reset_and_hazards.md R330 to
R334). -/

namespace Sys2Proof.Machine

/-- The parts of a check that passes. -/
theorem bind_ok {α β : Type} {x : Except ResetError α} {f : α → Except ResetError β} {b : β} (h : (x >>= f) = .ok b) :
    ∃ a, x = .ok a ∧ f a = .ok b := by
  cases x with
  | error e => cases h
  | ok a => exact ⟨a, rfl, h⟩

/-- A reset that succeeds: every check passes, and the state is the fresh one with the preload and the image. -/
theorem hostReset_ok {inp : ResetInput} {s : State} (h : hostReset inp = .ok s) : ∃ c ps cs,
    checkConfig inp.cfg = .ok c ∧ checkPreload [] inp.preload = .ok ps ∧ checkImage inp.image = .ok cs ∧
    checkProgram inp.prog = .ok () ∧ checkLatencies inp.cfg inp.prog = .ok () ∧
    s = loadImage cs (preloadRegs ps (State.fresh c inp.prog)) := by
  unfold hostReset at h
  obtain ⟨c, hc, h⟩ := bind_ok h
  obtain ⟨ps, hps, h⟩ := bind_ok h
  obtain ⟨cs, hcs, h⟩ := bind_ok h
  obtain ⟨⟨⟩, hp, h⟩ := bind_ok h
  obtain ⟨⟨⟩, hl, h⟩ := bind_ok h
  cases h
  exact ⟨c, ps, cs, hc, hps, hcs, hp, hl, rfl⟩

/-- The latencies that are given are at least 1 when their check passes. -/
theorem checkGivenLatencies_ok {c : RawConfig} {os : List OpCode} (h : checkGivenLatencies c os = .ok ()) :
    ∀ o ∈ os, ∀ l, rawLat c o = some l → 1 ≤ l := by
  induction os with
  | nil => simp
  | cons o os ih =>
    intro p hp l hl
    simp only [checkGivenLatencies] at h
    rcases List.mem_cons.1 hp with rfl | hp
    · rw [hl] at h; dsimp only at h
      split at h
      · assumption
      · cases h
    · split at h
      · exact ih h p hp l hl
      · split at h
        · exact ih h p hp l hl
        · cases h

/-- The configured latency of an op is the host's. -/
theorem latOf_latencies {c : Config} {r : RawConfig} (h : c.lat = latencies r) {o : OpCode} :
    latOf c o = if o ∈ computeOps then (rawLat r o).map Int.toNat else none := by
  cases o <;> simp [latOf, h, latencies, computeOps]

/-- A required number that passes its check is the host's, within its bound. -/
theorem need_ok {item : ConfigItem} {lo : Int} {x : Option Int} {n : Nat} (h0 : 0 ≤ lo) (h : need item lo x = .ok n) :
    x = some (n : Int) ∧ lo ≤ n := by
  unfold need at h
  split at h
  · split at h
    · cases h
      rw [Int.toNat_of_nonneg (by omega)]
      exact ⟨rfl, by assumption⟩
    · cases h
  · cases h

/-- An optional number that passes its check is the host's, within its bound. -/
theorem optional_ok {item : ConfigItem} {lo : Int} {x : Option Int} {o : Option Nat} (h0 : 0 ≤ lo)
    (h : optional item lo x = .ok o) : x = o.map Int.ofNat ∧ ∀ n, o = some n → lo ≤ n := by
  unfold optional at h
  split at h
  · split at h
    · cases h
      refine ⟨congrArg some (Int.toNat_of_nonneg (by omega)).symm, ?_⟩
      rintro n hn
      cases hn
      omega
    · cases h
  · cases h; simp

/-- A configuration that passes its checks is the host's (00_scope.md R8). -/
theorem checkConfig_ok {r : RawConfig} {c : Config} (h : checkConfig r = .ok c) :
    ConfigGiven r c ∧ blockSizeOk c.blockSize = true ∧ c.lat = latencies r ∧
    ∀ o ∈ computeOps, ∀ l, rawLat r o = some l → 1 ≤ l := by
  unfold checkConfig at h
  obtain ⟨_, h1, h⟩ := bind_ok h
  obtain ⟨_, h2, h⟩ := bind_ok h
  obtain ⟨_, h3, h⟩ := bind_ok h
  obtain ⟨_, h4, h⟩ := bind_ok h
  obtain ⟨_, h5, h⟩ := bind_ok h
  obtain ⟨_, h6, h⟩ := bind_ok h
  obtain ⟨_, h7, h⟩ := bind_ok h
  obtain ⟨_, h8, h⟩ := bind_ok h
  obtain ⟨_, h9, h⟩ := bind_ok h
  obtain ⟨cs, h10, h⟩ := bind_ok h
  obtain ⟨bs, h11, h⟩ := bind_ok h
  dsimp only at h
  split at h
  · cases h
  · next hn =>
    split at h
    · cases h
    · next hm =>
      obtain ⟨_, h12, h⟩ := bind_ok h
      obtain ⟨_, h13, h⟩ := bind_ok h
      obtain ⟨_, h14, h⟩ := bind_ok h
      obtain ⟨_, h15, h⟩ := bind_ok h
      obtain ⟨⟨⟩, hl, h⟩ := bind_ok h
      obtain ⟨_, h16, h⟩ := bind_ok h
      cases h
      simp at hn hm
      obtain ⟨⟨⟨hb4, hbm⟩, hbp⟩, -⟩ : ((4 ≤ bs ∧ bs ≤ memSize) ∧ bs = 2 ^ bs.log2) ∧ True := by
        simpa [blockSizeOk] using hn.1
      have one {item x n} (h : need item 1 x = .ok n) : x = some (n : Int) ∧ 1 ≤ n := by
        have := need_ok (by omega) h
        exact ⟨this.1, by omega⟩
      refine ⟨⟨one h1, one h2, one h3, one h4, one h5, one h6, one h7, (optional_ok (by omega) h8).1, one h9,
        ⟨(one h10).1, (one h10).2, hm⟩, ⟨(one h11).1, ⟨_, hbp⟩, hb4, hn.2, hbm⟩, (need_ok (by omega) h12).1,
        (need_ok (by omega) h13).1, one h14, one h15, (optional_ok (by omega) h16).1, fun m hm => ?_⟩, hn.1, rfl,
        checkGivenLatencies_ok hl⟩
      have := (optional_ok (by omega) h16).2 m hm
      omega

/-- The latency a host gives an op is one of its list. -/
theorem rawLat_mem {r : RawConfig} {o : OpCode} {l : Int} (h : rawLat r o = some l) : (o, l) ∈ r.lats := by
  obtain ⟨p, hp, rfl⟩ := Option.map_eq_some_iff.1 h
  have e : p.1 = o := by simpa using List.find?_some hp
  exact e ▸ List.mem_of_find?_eq_some hp

/-- A host that lists no op twice gives each the latency of its pair. -/
theorem rawLat_of_mem {r : RawConfig} {o : OpCode} {l : Int} (hn : (r.lats.map Prod.fst).Nodup) (h : (o, l) ∈ r.lats) :
    rawLat r o = some l := by
  unfold rawLat
  generalize r.lats = L at *
  induction L with
  | nil => cases h
  | cons p L ih =>
    obtain ⟨n1, n2⟩ := List.nodup_cons.1 hn
    rcases List.mem_cons.1 h with rfl | h
    · simp
    · rw [List.find?_cons_of_neg]
      · exact ih n2 h
      · simp only [beq_iff_eq]
        rintro rfl
        exact n1 (List.mem_map.2 ⟨_, h, rfl⟩)

/-- Every latency of a configuration that passes the checks is at least 1 (00_scope.md R8). -/
theorem latOf_pos {r : RawConfig} {c : Config} (h : checkConfig r = .ok c) (o : OpCode) (l : Nat)
    (hl : latOf c o = some l) : 1 ≤ l := by
  obtain ⟨-, -, hlat, hgiven⟩ := checkConfig_ok h
  rw [latOf_latencies hlat] at hl
  split at hl
  · next hm =>
    obtain ⟨z, hz, rfl⟩ := Option.map_eq_some_iff.1 hl
    have := hgiven o hm z hz
    omega
  · cases hl

/-! ## The preload -/

/-- The preload touches registers only. -/
theorem preloadRegs_frame (ps : List (Reg × F64)) (s : State) :
    ∃ ir fr, preloadRegs ps s = { s with intRegs := ir, fpRegs := fr } := by
  unfold preloadRegs
  induction ps generalizing s with
  | nil => exact ⟨s.intRegs, s.fpRegs, rfl⟩
  | cons p ps ih =>
    obtain ⟨a, b, h⟩ := ih (s.setReg p.1 ⟨p.2, none⟩)
    refine ⟨a, b, ?_⟩
    simp only [List.foldl_cons, h]
    cases p.1 <;> rfl

theorem preloadRegs_qi (ps : List (Reg × F64)) (s : State) (hs : ∀ r, (s.reg r).qi = none) (r : Reg) :
    ((preloadRegs ps s).reg r).qi = none := by
  unfold preloadRegs
  induction ps generalizing s with
  | nil => exact hs r
  | cons p ps ih =>
    refine ih _ fun r => ?_
    by_cases e : r = p.1
    · subst e; simp
    · rw [reg_setReg_ne e]; exact hs r

theorem preloadRegs_value (ps : List (Reg × F64)) (s : State) (P : Reg → F64 → Prop) (hs : ∀ r, P r (s.reg r).value)
    (hp : ∀ p ∈ ps, P p.1 p.2) (r : Reg) : P r ((preloadRegs ps s).reg r).value := by
  unfold preloadRegs
  induction ps generalizing s with
  | nil => exact hs r
  | cons p ps ih =>
    refine ih _ (fun r => ?_) (fun q hq => hp q (by simp [hq]))
    by_cases e : r = p.1
    · subst e; simpa using hp p (by simp)
    · rw [reg_setReg_ne e]; exact hs r

theorem preloadRegs_absent (ps : List (Reg × F64)) (s : State) (r : Reg) (h : ∀ p ∈ ps, p.1 ≠ r) :
    (preloadRegs ps s).reg r = s.reg r := by
  unfold preloadRegs
  induction ps generalizing s with
  | nil => rfl
  | cons p ps ih =>
    simp only [List.foldl_cons]
    rw [ih _ (fun q hq => h q (by simp [hq])), reg_setReg_ne (Ne.symm (h p (by simp)))]

theorem preloadRegs_given (ps : List (Reg × F64)) (s : State) (hn : (ps.map Prod.fst).Nodup) (p : Reg × F64) (hp : p ∈ ps) :
    ((preloadRegs ps s).reg p.1).value = p.2 := by
  unfold preloadRegs
  induction ps generalizing s with
  | nil => cases hp
  | cons q ps ih =>
    simp only [List.map_cons, List.nodup_cons] at hn
    rcases List.mem_cons.1 hp with rfl | hp
    · have := preloadRegs_absent ps (s.setReg p.1 ⟨p.2, none⟩) p.1 (fun q hq e => hn.1 (List.mem_map.2 ⟨q, hq, e⟩))
      unfold preloadRegs at this
      simp only [List.foldl_cons, this, reg_setReg_same]
    · exact ih _ hn.2 hp

/-- A preload that passes (R332). -/
theorem checkPreload_ok {seen : List Reg} {l : List (RegText × F64)} {ps : List (Reg × F64)}
    (h : checkPreload seen l = .ok ps) :
    (∀ p ∈ l, ∃ r, parseReg p.1 = some r ∧ (r, p.2) ∈ ps ∧ preloadValueOk r p.2 = true) ∧
    (∀ q ∈ ps, ∃ p ∈ l, parseReg p.1 = some q.1 ∧ p.2 = q.2) ∧ (ps.map Prod.fst).Nodup ∧
    ∀ r ∈ seen, r ∉ ps.map Prod.fst := by
  induction l generalizing seen ps with
  | nil => cases h; simp
  | cons p l ih =>
    obtain ⟨t, v⟩ := p
    simp only [checkPreload] at h
    split at h
    · cases h
    · next r hr =>
      split at h
      · cases h
      · next hbad =>
        simp at hbad
        split at h
        · cases h
        · next ps' hps =>
          cases h
          obtain ⟨h1, h2, h3, h4⟩ := ih hps
          refine ⟨?_, ?_, ?_, ?_⟩
          · intro p hp
            rcases List.mem_cons.1 hp with rfl | hp
            · exact ⟨r, hr, by simp, hbad.2⟩
            · obtain ⟨r', a, b, c⟩ := h1 p hp
              exact ⟨r', a, by simp [b], c⟩
          · intro q hq
            rcases List.mem_cons.1 hq with rfl | hq
            · exact ⟨(t, v), by simp, hr, rfl⟩
            · obtain ⟨p, hp, a, b⟩ := h2 q hq
              exact ⟨p, by simp [hp], a, b⟩
          · simp only [List.map_cons, List.nodup_cons]
            exact ⟨h4 r (by simp), h3⟩
          · intro r' hr' hc
            simp only [List.map_cons, List.mem_cons] at hc
            rcases hc with rfl | hc
            · exact hbad.1 hr'
            · exact h4 r' (by simp [hr']) hc

/-! ## The image -/

/-- An image that passes (R333). -/
theorem checkImage_ok {l : List (Int × Int)} {cs : List (Nat × Byte)} (h : checkImage l = .ok cs) :
    cs = l.map (fun p => (p.1.toNat, BitVec.ofNat 8 p.2.toNat)) ∧
    ∀ p ∈ l, 0 ≤ p.1 ∧ p.1 < memSize ∧ 0 ≤ p.2 ∧ p.2 ≤ 255 := by
  induction l generalizing cs with
  | nil => cases h; simp
  | cons p l ih =>
    obtain ⟨a, v⟩ := p
    simp only [checkImage] at h
    split at h
    · next hok =>
      split at h
      · cases h
      · next cs' hcs =>
        cases h
        obtain ⟨h1, h2⟩ := ih hcs
        refine ⟨by rw [h1]; rfl, fun p hp => ?_⟩
        rcases List.mem_cons.1 hp with rfl | hp
        · exact hok
        · exact h2 p hp
    · cases h

theorem image_wf (cs : List (Nat × Byte)) (m : Memory) (hm : m.wf) (h : ∀ c ∈ cs, c.1 < memSize) :
    (cs.foldl (fun m c => m.write c.1 c.2) m).wf := by
  induction cs generalizing m with
  | nil => exact hm
  | cons c cs ih => exact ih _ (Memory.wf_write _ (h c (by simp)) hm) (fun d hd => h d (by simp [hd]))

theorem image_absent (cs : List (Nat × Byte)) (m : Memory) (x : Nat) (h : ∀ c ∈ cs, c.1 ≠ x) :
    (cs.foldl (fun m c => m.write c.1 c.2) m).read x = m.read x := by
  induction cs generalizing m with
  | nil => rfl
  | cons c cs ih =>
    simp only [List.foldl_cons]
    rw [ih _ (fun d hd => h d (by simp [hd])), Memory.read_write_ne (Ne.symm (h c (by simp)))]

theorem image_given (cs : List (Nat × Byte)) (m : Memory) (hm : m.wf) (hh : ∀ c ∈ cs, c.1 < memSize)
    (hn : (cs.map Prod.fst).Nodup) (c : Nat × Byte) (hc : c ∈ cs) :
    (cs.foldl (fun m c => m.write c.1 c.2) m).read c.1 = c.2 := by
  induction cs generalizing m with
  | nil => cases hc
  | cons d cs ih =>
    simp only [List.map_cons, List.nodup_cons] at hn
    simp only [List.foldl_cons]
    rcases List.mem_cons.1 hc with rfl | hc
    · rw [image_absent _ _ _ (fun q hq e => hn.1 (List.mem_map.2 ⟨q, hq, e⟩)), Memory.read_write_same _ _ hm.1]
    · exact ih _ (Memory.wf_write _ (hh d (by simp)) hm) (fun e he => hh e (by simp [he])) hn.2 hc

/-! ## The fresh state -/

theorem reg_fresh (c : Config) (p : List Record) (r : Reg) : (State.fresh c p).reg r = ⟨0, none⟩ := by
  cases r <;> simp [State.fresh, State.reg]

theorem mem_freePool {c : Config} {S : Station} (h : S ∈ freePool c) : S = Station.free S.name := by
  simp only [freePool, freeBank, List.mem_flatMap, List.mem_map] at h
  obtain ⟨k, -, i, -, rfl⟩ := h; rfl

theorem nodup_freePool (c : Config) : ((freePool c).map Station.name).Nodup := by
  have hb : ∀ k, ((freeBank c k).map Station.name) =
      (List.range (stationCount c k)).map fun i => (⟨k, i + 1⟩ : Tag) := by
    intro k; simp [freeBank, Station.free, Function.comp_def]
  unfold freePool
  rw [List.map_flatMap]
  refine List.nodup_flatMap.2 ⟨fun k _ => ?_, ?_⟩
  · rw [hb]
    refine List.Nodup.map ?_ List.nodup_range
    intro a b h; simpa using h
  · have : kindsInOrder.Nodup := by decide
    refine this.imp ?_
    intro a b hab
    simp only [Function.onFun]
    rw [hb, hb, List.disjoint_left]
    rintro x hx hy
    simp only [List.mem_map] at hx hy
    obtain ⟨i, -, rfl⟩ := hx
    obtain ⟨j, -, h⟩ := hy
    exact hab (by cases h; rfl)

theorem shaped_fresh {c : Config} (hb : blockSizeOk c.blockSize = true) (hc : c.blockSize ≤ c.cacheSize) {s : State}
    (hcfg : s.cfg = c) (hl : s.lines = List.replicate (c.cacheSize / c.blockSize) (CacheLine.invalid c.blockSize))
    (hm : s.mem.wf) (hst : s.stations = freePool c) (hq : s.lsb = []) (hn : s.nextSeq = 0) : Shaped s := by
  have hb4 := (blockSize_dvd hb).1
  refine ⟨by rw [hcfg]; exact hb, ?_, ?_, ?_, hm, ?_, by simp [hq], by simp [hq], by simp [hq], by simp [hn],
    by simp [hq]⟩
  · rw [hcfg]; exact Nat.div_pos hc (by omega)
  · rw [hl, hcfg]; simp [numLines]
  · intro i L hL
    rw [hl] at hL
    have : L = CacheLine.invalid c.blockSize := by
      have := List.mem_of_getElem? hL
      exact List.eq_of_mem_replicate this
    subst this
    exact ⟨by simp [CacheLine.invalid, hcfg], fun h => (nomatch h), fun h => (nomatch h)⟩
  · intro S hS o ho
    rw [hst] at hS
    rw [mem_freePool hS] at ho; cases ho

theorem linked_fresh {s : State} {c : Config} (hst : s.stations = freePool c) (hq : s.lsb = []) (hcq : s.cdbQueue = [])
    (hr : ∀ r, (s.reg r).qi = none) : Linked s := by
  have hf : ∀ S ∈ s.stations, S = Station.free S.name := fun S hS => mem_freePool (by rw [← hst]; exact hS)
  have hnb : ∀ S ∈ s.stations, S.busy = false := fun S hS => by rw [hf S hS]; rfl
  refine ⟨by rw [State.tags, hst]; exact nodup_freePool c, fun S hS _ => hf S hS, fun S hS hb => ?_, fun S hS hb => ?_,
    fun S hS hb => ?_, fun r T h => ?_, fun S hS T h => ?_, by simp [hcq], by simp [hq], by simp [hcq, hq],
    fun S hS hb => ?_⟩
  · rw [hnb S hS] at hb; cases hb
  · rw [hf S hS] at hb; cases hb
  · rw [hf S hS] at hb; exact absurd hb (Nat.lt_irrefl 0)
  · rw [hr] at h; cases h
  · rw [hf S hS] at h; rcases h with h | h <;> cases h
  · rw [hnb S hS] at hb; cases hb

theorem answering_fresh {s : State} {c : Config} (hc : s.cfg = c) (hst : s.stations = freePool c)
    (hl : ∀ o l, latOf c o = some l → 1 ≤ l) : Answering s :=
  ⟨hc ▸ hl, fun S hS he => by
    have hf := mem_freePool (c := c) (S := S) (by rw [← hst]; exact hS)
    rw [hf] at he
    cases he⟩

end Sys2Proof.Machine
end

