-- ==== Sys2Proof/Laws/Solo.lean ====
section
/-! SUPPORT. A machine with one busy station: what a cycle does there, and how countdowns and LSB entries run to their last
cycle (40_cycle_engine.md R151 to R158). -/

namespace Sys2Proof.Machine

/-! ### Runs -/

theorem run_step (M : Host.Core) {k : Nat} {u w : M.State} (h : M.step u = .next w) : M.run (k + 1) u = M.run k w := by
  simp [Host.Core.run, h]

theorem run_cons {k : Nat} {u w : State} {z : Host.Outcome State Fault Refusal} (h : step u = .next w)
    (h' : Sys2Proof.core.run k w = z) : Sys2Proof.core.run (k + 1) u = z :=
  (run_step Sys2Proof.core (u := u) (w := w) h).trans h'

theorem run_add {M : Host.Core} {a b : Nat} {u w z : M.State} (h : M.run a u = .next w) (h' : M.run b w = .next z) :
    M.run (a + b) u = .next z := by
  induction a generalizing u with
  | zero => simp only [Host.Core.run, Host.Outcome.next.injEq] at h; subst h; simpa using h'
  | succ a ih =>
    rw [Nat.add_right_comm]
    simp only [Host.Core.run] at h ⊢
    cases hs : M.step u with
    | next x => rw [hs] at h; exact ih h
    | fault r => rw [hs] at h; cases h
    | refused r => rw [hs] at h; cases h

theorem modify_last {α : Type} (l : List α) (x : α) (f : α → α) : (l ++ [x]).modify l.length f = l ++ [f x] := by
  induction l with
  | nil => rfl
  | cons a l ih => simpa using ih

/-! ### One busy station -/

/-- Every station but T is free, and T is S. -/
structure Solo (u : State) (T : Tag) (S : Station) : Prop where
  nodup : u.tags.Nodup
  here : u.station? T = some S
  others : ∀ P ∈ u.stations, P.name ≠ T → P = Station.free P.name

theorem Solo.other {u : State} {T : Tag} {S : Station} (h : Solo u T S) {U : Tag} (hU : U ∈ u.tags) (hne : U ≠ T) :
    u.station? U = some (Station.free U) := by
  obtain ⟨P, hP⟩ := station?_isSome hU
  rw [hP, h.others P (station?_mem hP) (by rw [station?_name hP]; exact hne), station?_name hP]

theorem Solo.mem {u : State} {T : Tag} {S : Station} (h : Solo u T S) : T ∈ u.tags :=
  List.mem_map.2 ⟨S, station?_mem h.here, station?_name h.here⟩

theorem Solo.congr {u v : State} {T : Tag} {S : Station} (h : Solo u T S) (e : v.stations = u.stations) : Solo v T S where
  nodup := by simpa [State.tags, e] using h.nodup
  here := by simpa [State.station?, e] using h.here
  others := by rw [e]; exact h.others

theorem Solo.update {u : State} {T : Tag} {S : Station} (h : Solo u T S) (f : Station → Station)
    (hf : ∀ P : Station, P.name = T → (f P).name = T) : Solo (updStation T f u) T (f S) where
  nodup := by rw [tags_updStation hf]; exact h.nodup
  here := by rw [station?_updStation_same hf, h.here]; rfl
  others := by
    intro P hP hne
    simp only [updStation_stations, List.mem_map] at hP
    obtain ⟨Q, hQ, rfl⟩ := hP
    split at hne
    · next e => exact absurd (hf Q e) hne
    · next e => rw [if_neg e]; exact h.others Q hQ e

theorem Solo.not_terminated {u : State} {T : Tag} {S : Station} (h : Solo u T S) (hb : S.busy = true) :
    u.terminated = false := by
  simp only [State.terminated, Bool.and_eq_false_iff]
  refine .inl (.inr ?_)
  rw [List.all_eq_false]
  exact ⟨S, station?_mem h.here, by simp [hb]⟩

/-! ### Execute, Memory and deferred handover -/

theorem forEach_same {α : Type} {f : α → State → Cyc} {l : List α} {s : State} (h : ∀ P ∈ l, f P s = .ok s) :
    forEach f l s = .ok s := by
  induction l with
  | nil => rfl
  | cons a l ih => simp only [forEach, h a (by simp)]; exact ih fun P hP => h P (by simp [hP])

theorem forEach_at {α : Type} {f : α → State → Cyc} {l1 l2 : List α} {T : α} {s t : State}
    (h1 : ∀ P ∈ l1, f P s = .ok s) (hT : f T s = .ok t) (h2 : ∀ P ∈ l2, f P t = .ok t) :
    forEach f (l1 ++ T :: l2) s = .ok t := by
  induction l1 with
  | nil => simp only [List.nil_append, forEach, hT]; exact forEach_same h2
  | cons a l ih =>
    simp only [List.cons_append, forEach, h1 a (by simp)]
    exact ih fun P hP => h1 P (by simp [hP])

theorem countDown_free {u : State} {U : Tag} (h : u.station? U = some (Station.free U)) : countDown U u = .ok u :=
  countDown_idle h (by simp [Station.running, Station.free])

theorem startStation_free {u : State} {U : Tag} (h : u.station? U = some (Station.free U)) : startStation U u = .ok u :=
  startStation_idle h (by simp [Station.startable, Station.ready, Station.free])

/-- A pass over the pool is what it does to the one busy station. -/
theorem Solo.pass {f : Tag → State → Cyc} (hf : ∀ (u : State) U, u.station? U = some (Station.free U) → f U u = .ok u)
    {u v : State} {T : Tag} {S S' : Station} (h : Solo u T S) (hv : Solo v T S') (ht : v.tags = u.tags)
    (hT : f T u = .ok v) : forEach f u.tags u = .ok v := by
  obtain ⟨l1, l2, e⟩ := List.append_of_mem h.mem
  have hn := h.nodup
  rw [e] at hn ⊢
  have hd := List.nodup_append.1 hn
  have h2 := List.nodup_cons.1 hd.2.1
  refine forEach_at (fun P hP => hf u P (h.other (by rw [e]; simp [hP]) ?_)) hT
    (fun P hP => hf v P (hv.other (by rw [ht, e]; simp [hP]) ?_))
  · intro e'; exact hd.2.2 P hP T (by simp) e'
  · rintro rfl; exact h2.1 hP

theorem memoryPhase_empty {u : State} (hl : u.lsb = []) : memoryPhase u = .ok u := by
  unfold memoryPhase
  rw [hl, lsbTickFrom, ← hl]

theorem deferredPhase_none {u : State} (h : ∀ S ∈ u.stations, kindIsMem S.kind = false ∨ S.ready = false) :
    deferredPhase u = .ok u := by
  have hd : deferred u = [] := by
    unfold deferred
    have : (u.stations.filter fun S => kindIsMem S.kind && S.ready) = [] := by
      rw [List.filter_eq_nil_iff]
      intro P hP
      rcases h P hP with e | e <;> simp [e]
    rw [this]; rfl
  unfold deferredPhase
  rw [hd]; rfl

theorem Solo.deferredPhase {u : State} {T : Tag} {S : Station} (h : Solo u T S)
    (hr : kindIsMem S.kind = false ∨ S.ready = false) : Sys2Proof.Machine.deferredPhase u = .ok u := by
  refine deferredPhase_none fun P hP => ?_
  by_cases e : P.name = T
  · have hP' : u.station? P.name = some P := station?_of_mem h.nodup hP
    rw [e, h.here] at hP'
    obtain rfl := Option.some.inj hP'
    exact hr
  · rw [h.others P hP e]; exact .inr (by simp [Station.ready, Station.free])

/-- With every station free, Execute, Memory (on an empty LSB) and deferred handover change nothing. -/
theorem phases_allFree {u : State} (hs : ∀ S ∈ u.stations, S = Station.free S.name) (hl : u.lsb = []) :
    executePhase u = .ok u ∧ memoryPhase u = .ok u ∧ deferredPhase u = .ok u := by
  have hf : ∀ U ∈ u.tags, u.station? U = some (Station.free U) := by
    intro U hU
    obtain ⟨P, hP⟩ := station?_isSome (s := u) hU
    have h := hs P (station?_mem hP)
    rw [station?_name hP] at h
    rw [← h]; exact hP
  have e1 : forEach countDown u.tags u = .ok u := forEach_same fun U hU => countDown_free (hf U hU)
  have e2 : forEach startStation u.tags u = .ok u := forEach_same fun U hU => startStation_free (hf U hU)
  refine ⟨by simp only [executePhase, e1, e2], memoryPhase_empty hl, deferredPhase_none fun S hS => ?_⟩
  rw [hs S hS]; exact .inr (by simp [Station.ready, Station.free])

/-- The phases before Issue, with one busy station and an empty LSB. -/
theorem Solo.earlyPhases {u u1 v w : State} {T : Tag} {S S1 S2 : Station} (hw : writePhase u = .ok u1) (h : Solo u1 T S)
    (hv : Solo v T S1) (hw' : Solo w T S2) (ht : v.tags = u1.tags) (ht' : w.tags = v.tags)
    (hc : countDown T u1 = .ok v) (hs : startStation T v = .ok w) (hl : w.lsb = [])
    (hr : kindIsMem S2.kind = false ∨ S2.ready = false) : Sys2Proof.Machine.earlyPhases u = .ok w := by
  have e1 := h.pass (f := countDown) (fun _ _ => countDown_free) hv ht hc
  have e2 := hv.pass (f := startStation) (fun _ _ => startStation_free) hw' ht' hs
  simp only [Sys2Proof.Machine.earlyPhases, hw, executePhase, e1, e2, memoryPhase_empty hl, hw'.deferredPhase hr]

/-- The phases before Issue, with one memory station in flight: what the Memory phase does. -/
theorem Solo.earlyPhases_mem {u z : State} {T : Tag} {S : Station} (hS : Solo u T S) (hm : kindIsMem T.kind = true)
    (hq : u.cdbQueue = []) (hz : memoryPhase (tick u) = .ok z) (hd : Sys2Proof.Machine.deferredPhase z = .ok z) :
    Sys2Proof.Machine.earlyPhases (tick u) = .ok z := by
  have hn := station?_name hS.here
  have hSt : Solo (tick u) T S := hS.congr rfl
  have hc := countDown_idle hSt.here (by simp [Station.running, Station.kind, hn, hm])
  have hss := startStation_idle hSt.here (by simp [Station.startable, Station.kind, hn, hm])
  have e1 := hSt.pass (f := countDown) (fun _ _ => countDown_free) hSt rfl hc
  have e2 := hSt.pass (f := startStation) (fun _ _ => startStation_free) hSt rfl hss
  have hw : writePhase (tick u) = .ok (tick u) := by simp [writePhase, tick, hq, selectRequest]
  simp only [Sys2Proof.Machine.earlyPhases, hw, executePhase, e1, e2, hz, hd]

/-! ### Nothing to issue -/

/-- No record can issue here: there is none, or a branch blocks issue and the record is a good one. -/
structure NoIssue (w : State) : Prop where
  blocked : w.prog[w.cursor]? = none ∨ w.branchPending = true
  checked : ∀ r, w.prog[w.cursor]? = some r → ∃ i, checkRecord w.prog.length w.cursor r = .ok i

theorem NoIssue.congr {u w : State} (h : NoIssue u) (hp : w.prog = u.prog) (hc : w.cursor = u.cursor)
    (hb : w.branchPending = u.branchPending) : NoIssue w :=
  ⟨by rw [hp, hc, hb]; exact h.blocked, by rw [hp, hc]; exact h.checked⟩

theorem exec_blocked {i : Instr} {s : State} (h : s.branchPending = true) : exec i s = .next s := by
  cases i <;> exact issueRecord_stall (.inl h)

theorem step_noIssue {u w : State} (hf : u.fault = none) (ht : u.terminated = false)
    (he : earlyPhases (tick u) = .ok w) (hn : NoIssue w) : step u = .next w := by
  simp only [step, hf, ht, he, issuePhase, State.recordAtCursor]
  cases h : w.prog[w.cursor]? with
  | none => rfl
  | some r =>
    obtain ⟨i, hi⟩ := hn.checked r h
    simp only [hi]
    rcases hn.blocked with hb | hb
    · rw [h] at hb; cases hb
    · exact exec_blocked hb

/-! ### A countdown to its end (R151, R152) -/

/-- What a compute op in flight leaves alone. -/
structure FlightFrame (u w : State) : Prop where
  cfg : w.cfg = u.cfg
  prog : w.prog = u.prog
  intRegs : w.intRegs = u.intRegs
  fpRegs : w.fpRegs = u.fpRegs
  cursor : w.cursor = u.cursor
  branchPending : w.branchPending = u.branchPending
  fault : w.fault = u.fault
  mem : w.mem = u.mem
  lines : w.lines = u.lines
  lsb : w.lsb = u.lsb

theorem FlightFrame.trans {a b c : State} (h : FlightFrame a b) (g : FlightFrame b c) : FlightFrame a c :=
  ⟨g.cfg.trans h.cfg, g.prog.trans h.prog, g.intRegs.trans h.intRegs, g.fpRegs.trans h.fpRegs, g.cursor.trans h.cursor,
    g.branchPending.trans h.branchPending, g.fault.trans h.fault, g.mem.trans h.mem, g.lines.trans h.lines,
    g.lsb.trans h.lsb⟩

theorem FlightFrame.noIssue {u w : State} (g : FlightFrame u w) (h : NoIssue u) : NoIssue w :=
  h.congr g.prog g.cursor g.branchPending

/-- A started station with n + 1 cycles left, alone in the machine, runs to its completion in n + 1 steps. -/
theorem Solo.countdown {T : Tag} {o : OpCode} {v : F64} {i : Nat} (hk : kindIsMem T.kind = false) (n : Nat) (u : State)
    (S : Station) (hS : Solo u T S) (hb : S.busy = true) (he : S.execStarted = true) (hr : S.remainingCycles = n + 1)
    (ho : S.op = some o) (hv : ∀ m, stationResult o { S with remainingCycles := m } = some v)
    (hi : S.instruction = some i) (hq : u.cdbQueue = []) (hl : u.lsb = []) (hf : u.fault = none) (hB : NoIssue u) :
    ∃ w, Sys2Proof.core.run (n + 1) u = .next w ∧ FlightFrame u w ∧
      w.stations = (updStation T (fun _ => { S with remainingCycles := 0 }) u).stations ∧ w.cycle = u.cycle + (n + 1) ∧
      w.cdbQueue = [⟨T, v, S.dest, o, u.cycle + (n + 1) + 1⟩] ∧
      w.instances = u.instances.modify i (fun d => { d with execEnd := some (u.cycle + (n + 1)) }) := by
  induction n generalizing u S with
  | zero =>
    have hn := station?_name hS.here
    have hSt : Solo (tick u) T S := hS.congr rfl
    have hrun : S.running = true := by simp [Station.running, Station.kind, hn, hk, hb, he, hr]
    have hc := countDown_completes hSt.here hrun hr ho (hv S.remainingCycles)
    set f : Station → Station := fun S => { S with remainingCycles := S.remainingCycles - 1 } with hfdef
    have hso : Solo (updStation T f (tick u)) T (f S) := hSt.update f (fun P hP => hP)
    have hso' := hso.congr (v := stampBound S (fun d => { d with execEnd := some (tick u).cycle })
      (enqueue S.name v S.dest o (updStation T f (tick u)))) (by simp)
    have hss := startStation_idle hso'.here (by simp [Station.startable, Station.ready, hfdef, he])
    have htags : (stampBound S (fun d => { d with execEnd := some (tick u).cycle })
        (enqueue S.name v S.dest o (updStation T f (tick u)))).tags = (tick u).tags := by
      rw [State.tags]
      simp only [stampBound_stations, enqueue_stations]
      exact tags_updStation (f := f) (fun P hP => hP) _
    have hE := Solo.earlyPhases (u := tick u) (u1 := tick u) (by simp [writePhase, tick, hq, selectRequest]) hSt hso' hso'
      htags rfl hc hss (by simp [tick, hl]) (.inr (by simp [Station.ready, hfdef, he]))
    have hfr : FlightFrame u (stampBound S (fun d => { d with execEnd := some (tick u).cycle })
        (enqueue S.name v S.dest o (updStation T f (tick u)))) := by constructor <;> simp [tick]
    refine ⟨_, run_cons (step_noIssue hf (hS.not_terminated hb) hE (hfr.noIssue hB)) rfl, hfr, ?_, ?_, ?_, ?_⟩
    · simp only [stampBound_stations, enqueue_stations, updStation_stations]
      refine List.map_congr_left fun P hP => ?_
      split
      · next e =>
        have h := station?_of_mem hSt.nodup hP
        rw [e, hSt.here] at h
        obtain rfl := Option.some.inj h
        simp [hfdef, hr]
      · rfl
    · simp [tick]
    · simp [tick, hq, hn]
    · simp [stampBound, hi, tick]
  | succ n ih =>
    have hn := station?_name hS.here
    have hSt : Solo (tick u) T S := hS.congr rfl
    have hrun : S.running = true := by simp [Station.running, Station.kind, hn, hk, hb, he, hr]
    have hc := countDown_runs hSt.here hrun (by omega)
    set f : Station → Station := fun S => { S with remainingCycles := S.remainingCycles - 1 } with hfdef
    have hso : Solo (updStation T f (tick u)) T (f S) := hSt.update f (fun P hP => hP)
    have hss := startStation_idle hso.here (by simp [Station.startable, Station.ready, hfdef, he])
    have hE := Solo.earlyPhases (u := tick u) (u1 := tick u) (by simp [writePhase, tick, hq, selectRequest]) hSt hso hso
      (tags_updStation (f := f) (fun P hP => hP) _) rfl hc hss (by simp [tick, hl])
      (.inr (by simp [Station.ready, hfdef, he]))
    have hfr : FlightFrame u (updStation T f (tick u)) := by constructor <;> simp [tick]
    obtain ⟨w, h1, h2, h3, h4, h5, h6⟩ := ih (updStation T f (tick u)) (f S) hso hb he (by simp [hfdef, hr]) ho hv hi
      (by simp [tick, hq]) (by simp [tick, hl]) (by simp [tick, hf]) (hfr.noIssue hB)
    refine ⟨w, run_cons (step_noIssue hf (hS.not_terminated hb) hE (hfr.noIssue hB)) h1, hfr.trans h2, ?_, ?_, ?_, ?_⟩
    · rw [h3]
      simp only [updStation_stations, List.map_map]
      refine List.map_congr_left fun P hP => ?_
      simp only [Function.comp, hfdef]
      by_cases e : P.name = T <;> simp [e]
    · rw [h4]; simp [tick]; omega
    · rw [h5]; simp [tick, hfdef]; omega
    · rw [h6]; simp [tick, hfdef]; congr 1; funext d; congr 2; omega

/-! ### An LSB entry to its last cycle (R157, R158) -/

/-- What a memory op in flight leaves alone before it commits. -/
structure BufferFrame (u w : State) : Prop where
  cfg : w.cfg = u.cfg
  prog : w.prog = u.prog
  reg : ∀ r, w.reg r = u.reg r
  cursor : w.cursor = u.cursor
  branchPending : w.branchPending = u.branchPending
  fault : w.fault = u.fault
  mem : w.mem = u.mem
  lines : w.lines = u.lines
  nextSeq : w.nextSeq = u.nextSeq
  stations : w.stations = u.stations
  cdbQueue : w.cdbQueue = u.cdbQueue

theorem BufferFrame.refl (u : State) : BufferFrame u u := ⟨rfl, rfl, fun _ => rfl, rfl, rfl, rfl, rfl, rfl, rfl, rfl, rfl⟩

theorem BufferFrame.trans {a b c : State} (h : BufferFrame a b) (g : BufferFrame b c) : BufferFrame a c :=
  ⟨g.cfg.trans h.cfg, g.prog.trans h.prog, fun r => (g.reg r).trans (h.reg r), g.cursor.trans h.cursor,
    g.branchPending.trans h.branchPending, g.fault.trans h.fault, g.mem.trans h.mem, g.lines.trans h.lines,
    g.nextSeq.trans h.nextSeq, g.stations.trans h.stations, g.cdbQueue.trans h.cdbQueue⟩

theorem BufferFrame.noIssue {u w : State} (g : BufferFrame u w) (h : NoIssue u) : NoIssue w :=
  h.congr g.prog g.cursor g.branchPending

/-- A decrement that is not the last. -/
theorem Solo.decrement {u : State} {T : Tag} {S : Station} (hS : Solo u T S) (hb : S.busy = true)
    (hm : kindIsMem T.kind = true) (he : S.execStarted = true) (hq : u.cdbQueue = []) (hf : u.fault = none)
    (hB : NoIssue u) {e : LsbEntry} (hl : u.lsb = [e]) (hr : 1 < e.remainingCycles) :
    ∃ w, step u = .next w ∧ BufferFrame u w ∧ w.lsb = [e.decremented] ∧ w.cycle = u.cycle + 1 ∧
      w.instances = (if e.started then u.instances
                     else u.instances.modify e.inst (fun d => { d with execStart := some (u.cycle + 1) })) := by
  have hz : memoryPhase (tick u) = .ok { stampStart e (tick u) with lsb := [e.decremented] } := by
    have hl' : (tick u).lsb = [e] := hl
    unfold memoryPhase
    rw [hl']
    have h2 : ¬e.decremented.remainingCycles = 0 := by simp [LsbEntry.decremented]; omega
    simp [lsbTickFrom, h2]
  have hfr : BufferFrame u { stampStart e (tick u) with lsb := [e.decremented] } := by
    constructor <;> (try intro r) <;> unfold stampStart <;> split <;> rfl
  have hSz : Solo { stampStart e (tick u) with lsb := [e.decremented] } T S := hS.congr hfr.stations
  have hE := hS.earlyPhases_mem hm hq hz (hSz.deferredPhase (.inr (by simp [Station.ready, he])))
  refine ⟨_, step_noIssue hf (hS.not_terminated hb) hE (hfr.noIssue hB), hfr, rfl, ?_, ?_⟩
  · unfold stampStart; split <;> rfl
  · unfold stampStart; split <;> rfl

/-- A started entry with n + 1 cycles left reaches its last cycle in n steps. -/
theorem Solo.decrements {T : Tag} (hm : kindIsMem T.kind = true) (n : Nat) (u : State) (S : Station) (e : LsbEntry)
    (hS : Solo u T S) (hb : S.busy = true) (he : S.execStarted = true) (hq : u.cdbQueue = []) (hf : u.fault = none)
    (hB : NoIssue u) (hl : u.lsb = [e]) (hr : e.remainingCycles = n + 1) (hst : e.started = true) :
    ∃ w, Sys2Proof.core.run n u = .next w ∧ BufferFrame u w ∧ w.lsb = [{ e with remainingCycles := 1 }] ∧
      w.cycle = u.cycle + n ∧ w.instances = u.instances := by
  induction n generalizing u e with
  | zero =>
    refine ⟨u, rfl, BufferFrame.refl u, ?_, rfl, rfl⟩
    rw [hl]; cases e; simp_all
  | succ n ih =>
    obtain ⟨w, s1, sm, l1, c1, i1⟩ := hS.decrement hb hm he hq hf hB hl (by omega)
    obtain ⟨z, r2, sm2, l2, c2, i2⟩ := ih w e.decremented (hS.congr sm.stations) (by rw [sm.cdbQueue, hq])
      (by rw [sm.fault, hf]) (sm.noIssue hB) l1 (by simp [LsbEntry.decremented, hr]) rfl
    refine ⟨z, run_cons s1 r2, sm.trans sm2, ?_, ?_, ?_⟩
    · rw [l2]; simp [LsbEntry.decremented, hst]
    · rw [c2, c1]; omega
    · rw [i2, i1, hst]; rfl

/-- A fresh entry with n + 1 cycles left reaches its last cycle in n steps; `b` says whether it has started by then. -/
theorem Solo.toLastCycle {u : State} {T : Tag} {S : Station} (hS : Solo u T S) (hb : S.busy = true)
    (hm : kindIsMem T.kind = true) (he : S.execStarted = true) (hq : u.cdbQueue = []) (hf : u.fault = none)
    (hB : NoIssue u) {e : LsbEntry} (hl : u.lsb = [e]) {n : Nat} (hr : e.remainingCycles = n + 1)
    (hs : e.started = false) :
    ∃ w b, Sys2Proof.core.run n u = .next w ∧ BufferFrame u w ∧
      w.lsb = [{ e with remainingCycles := 1, started := b }] ∧ w.cycle = u.cycle + n ∧
      (if b then w.instances else w.instances.modify e.inst (fun d => { d with execStart := some (w.cycle + 1) })) =
        u.instances.modify e.inst (fun d => { d with execStart := some (u.cycle + 1) }) := by
  cases n with
  | zero =>
    refine ⟨u, false, rfl, BufferFrame.refl u, ?_, rfl, rfl⟩
    rw [hl]; cases e; simp_all
  | succ n =>
    obtain ⟨w, s1, sm, l1, c1, i1⟩ := hS.decrement hb hm he hq hf hB hl (by omega)
    obtain ⟨z, r2, sm2, l2, c2, i2⟩ := Solo.decrements hm n w S e.decremented (hS.congr sm.stations) hb he
      (by rw [sm.cdbQueue, hq]) (by rw [sm.fault, hf]) (sm.noIssue hB) l1 (by simp [LsbEntry.decremented, hr]) rfl
    refine ⟨z, true, run_cons s1 r2, sm.trans sm2, ?_, ?_, ?_⟩
    · rw [l2]; simp [LsbEntry.decremented]
    · rw [c2, c1]; omega
    · rw [i2, i1, hs]; rfl

/-- The Memory phase in the last cycle of the only entry is its commit. -/
theorem memoryPhase_last {u z : State} {e : LsbEntry} (hl : u.lsb = [e]) (hr : e.remainingCycles = 1)
    (hc : commit e.decremented { stampStart e (tick u) with lsb := [] } = .ok z) :
    memoryPhase (tick u) = .ok { z with lsb := [] } := by
  have hl' : (tick u).lsb = [e] := hl
  unfold memoryPhase
  rw [hl']
  have h2 : e.decremented.remainingCycles = 0 := by simp [LsbEntry.decremented, hr]
  simp only [lsbTickFrom, List.any_nil, Bool.false_eq_true, if_false, h2, if_true, List.nil_append]
  rw [hc]

end Sys2Proof.Machine
end

