-- ==== Sys2Proof/Laws/Tick.lean ====
section
/-! SUPPORT. What a tick of the LSB does in a well-formed memory system, over all its entries: which entries leave, and what
the tick makes of the queue, the stations, the log and the coherent view (20_memory.md R98–R100). -/

namespace Sys2Proof.Machine

/-- The entries that leave the buffer in a tick behind the entries `kept`, in order. -/
def leaving : List LsbEntry → List LsbEntry → List LsbEntry
  | _, [] => []
  | kept, e :: es =>
    if stalls kept e then leaving (kept ++ [e]) es
    else if e.decremented.remainingCycles = 0 then e :: leaving kept es
    else leaving (kept ++ [e.decremented]) es

theorem leaving_append (kept l1 l2 : List LsbEntry) :
    leaving kept (l1 ++ l2) = leaving kept l1 ++ leaving (lsbAfter kept l1) l2 := by
  induction l1 generalizing kept with
  | nil => rfl
  | cons e l1 ih =>
    simp only [List.cons_append, leaving, lsbAfter_cons]
    cases stalls kept e
    · by_cases hz : e.decremented.remainingCycles = 0
      · simp [hz, ih]
      · simp [hz, ih]
    · simp [ih]

/-! ### The coherent view after some stores -/

theorem viewAfter_congr {s t : State} (h : ∀ x, t.coherentByte x = s.coherentByte x) (l : List LsbEntry) (x : Nat) :
    viewAfter t l x = viewAfter s l x := by simp only [viewAfter, h]

/-- A commit, and the stores after it. -/
theorem Committed.view {s t : State} {e : LsbEntry} (h : Committed s t e) (l : List LsbEntry) (x : Nat) :
    viewAfter t l x = viewAfter s (e :: l) x := by simp only [viewAfter, List.foldl_cons, h.coherent]

theorem Committed.decremented {s t : State} {e : LsbEntry} (h : Committed s t e.decremented) : Committed s t e :=
  ⟨h.shaped, h.cfg, h.cycle, h.lsb, h.nextSeq, h.reg, h.queue, h.stations, h.instances, h.coherent, h.accesses⟩

/-! ### The tick -/

/-- Everything a tick does but for the log, when the entries `out` leave the buffer. -/
structure Ticked (s t : State) (out : List LsbEntry) : Prop where
  shaped : Shaped t
  cycle : t.cycle = s.cycle
  reg : ∀ r, t.reg r = s.reg r
  view : ∀ x, t.coherentByte x = viewAfter s out x
  stations : t.stations = s.stations.map fun S =>
    if out.any fun e => !e.isLoad && e.station == S.name then Station.free S.name else S
  accesses : Accesses (out.flatMap LsbEntry.words) s t
  queue : ∃ new, t.cdbQueue = s.cdbQueue ++ new ∧
    new.map Request.station = (out.filter LsbEntry.isLoad).map LsbEntry.station ∧
    ∀ l1 e l2, out = l1 ++ e :: l2 → ∀ dec, e.isLoad = true → loadCodec e.op = some dec →
      (⟨e.station, dec e.inst ((List.range e.size).map fun i => viewAfter s l1 (e.address + i)), e.dest, e.op,
        s.cycle + 1⟩ : Request) ∈ new

/-- A tick counts the accesses of the entries that leave. -/
theorem Ticked.count {s t : State} {out : List LsbEntry} (h : Ticked s t out) :
    t.hits + t.misses = s.hits + s.misses + (out.map fun e => if e.size = 8 then 2 else 1).sum := by
  simpa [List.length_flatMap, LsbEntry.length_words] using h.accesses.count

theorem coherentByte_stampStart (e : LsbEntry) (s : State) (l : List LsbEntry) (x : Nat) :
    (stampStart e { s with lsb := l }).coherentByte x = s.coherentByte x :=
  coherentByte_congr (by simp) (by simp) (by simp) x

/-- A tick in a well-formed memory system, but for the log. -/
theorem lsbTickFrom_ticked (kept es : List LsbEntry) (s : State) (hs : Shaped { s with lsb := kept ++ es }) :
    ∃ t, lsbTickFrom kept es s = .ok t ∧ Ticked s t (leaving kept es) := by
  induction es generalizing kept s with
  | nil =>
    exact ⟨_, rfl, by simpa using hs, rfl, fun r => reg_congr rfl rfl r, fun x => coherentByte_congr rfl rfl rfl x,
      by simp [leaving], ⟨rfl, rfl, rfl, rfl, rfl⟩, [], by simp, rfl, fun l1 e l2 h => by simp [leaving] at h⟩
  | cons e es ih =>
    obtain ⟨h0, h⟩ | ⟨h0, hz, u, hC, h⟩ | ⟨h0, hz, h⟩ := lsbTickFrom_cons hs <;> rw [h] <;>
      simp only [leaving, h0, if_true, if_false, Bool.false_eq_true]
    · exact ih _ s (by simpa using hs)
    · rw [if_pos hz]
      have hE : EntryOk e := hs.entry e (by simp)
      obtain ⟨t, ht, hT⟩ := ih kept u (hC.shaped.sameLsb (hC.lsb.trans (by simp)))
      have hv : ∀ l x, viewAfter u l x = viewAfter s (e :: l) x := fun l x =>
        (hC.view l x).trans (viewAfter_congr (coherentByte_stampStart e s _) _ x)
      have hm : (stampStart e { s with lsb := kept ++ es }).memRead e.address e.size =
          (List.range e.size).map fun i => viewAfter s [] (e.address + i) :=
        List.map_congr_left fun i _ => coherentByte_stampStart e s _ _
      obtain ⟨new, hq, hn, hr⟩ := hT.queue
      refine ⟨t, ht, hT.shaped, hT.cycle.trans (hC.cycle.trans (by simp)), fun r => (hT.reg r).trans ((hC.reg r).trans
        (reg_congr (by simp) (by simp) r)), fun x => (hT.view x).trans (hv _ x), ?_, ?_,
        commitRequests e (stampStart e { s with lsb := kept ++ es }) ++ new, ?_, ?_, ?_⟩
      · rw [hT.stations, hC.stations]
        split
        · next hl => simp [hl]
        · next hl =>
          simp only [release_stations, stampStart_stations, List.map_map]
          refine List.map_congr_left fun S _ => ?_
          simp only [Function.comp]
          by_cases hn' : S.name = e.station
          · simp [hn', hl, Station.free]
          · rw [if_neg hn']
            simp [show e.station ≠ S.name from fun h => hn' h.symm]
      · exact (hC.accesses.congr ⟨by simp, by simp, by simp, by simp, by simp⟩ ⟨rfl, rfl, rfl, rfl, rfl⟩).append
          hT.accesses
      · rw [hq, hC.queue]
        simp
      · rw [List.map_append, commitRequests_stations hE, hn]
        cases hl : e.isLoad <;> simp [hl]
      · intro l1 e' l2 hl dec hld hd
        rcases l1 with _ | ⟨a, l1⟩
        · simp only [List.nil_append, List.cons.injEq] at hl
          obtain ⟨rfl, rfl⟩ := hl
          refine List.mem_append.2 (.inl ?_)
          simp only [commitRequests, hld, if_true, hd, hm, stampStart_cycle]
          simp
        · simp only [List.cons_append, List.cons.injEq] at hl
          obtain ⟨rfl, hl⟩ := hl
          have := hr l1 e' l2 hl dec hld hd
          rw [hC.cycle] at this
          refine List.mem_append.2 (.inr ?_)
          simpa [hv] using this
    · rw [if_neg hz]
      obtain ⟨t, ht, hT⟩ := ih _ _ (hs.counted e)
      obtain ⟨new, hq, hn, hr⟩ := hT.queue
      have hv : ∀ l x, viewAfter (stampStart e s) l x = viewAfter s l x := fun l x =>
        viewAfter_congr (fun x => coherentByte_stampStart e s s.lsb x) l x
      refine ⟨t, ht, hT.shaped, hT.cycle.trans (by simp), fun r => (hT.reg r).trans (reg_congr (by simp) (by simp) r),
        fun x => (hT.view x).trans (hv _ x), ?_, ?_, new, ?_, hn, ?_⟩
      · rw [hT.stations, stampStart_stations]
      · exact hT.accesses.congr ⟨by simp, by simp, by simp, by simp, by simp⟩ ⟨rfl, rfl, rfl, rfl, rfl⟩
      · rw [hq, stampStart_cdbQueue]
      · intro l1 e' l2 hl dec hld hd
        simpa [hv] using hr l1 e' l2 hl dec hld hd

/-- What a tick of cycle `C` stamps on the instance of the entry `e` behind the entries `kept` (40_cycle_engine.md R158, R160,
R161): nothing if it is stalled. -/
def tickStamp (C : Nat) (kept : List LsbEntry) (e : LsbEntry) (d : DynInst) : DynInst :=
  if stalls kept e then d
  else { d with
    execStart := if e.started then d.execStart else some C
    execEnd := if e.decremented.remainingCycles = 0 then some C else d.execEnd
    write := if e.decremented.remainingCycles = 0 ∧ e.isLoad = false then some C else d.write }

theorem stampStart_instances (e : LsbEntry) (s : State) : (stampStart e s).instances =
    s.instances.modify e.inst fun d => { d with execStart := if e.started then d.execStart else some s.cycle } := by
  unfold stampStart
  cases e.started with
  | true => exact (List.modify_id _ _).symm
  | false => rfl

/-- What the first entry of a tick does to the log. -/
theorem lsbTickFrom_cons_log {s : State} {kept es : List LsbEntry} {e : LsbEntry}
    (hs : Shaped { s with lsb := kept ++ e :: es }) :
    ∃ kept' u, lsbTickFrom kept (e :: es) s = lsbTickFrom kept' es u ∧ Shaped { u with lsb := kept' ++ es } ∧
      u.cycle = s.cycle ∧ u.instances = s.instances.modify e.inst (tickStamp s.cycle kept e) ∧
      ∀ l, lsbAfter kept (e :: l) = lsbAfter kept' l := by
  obtain ⟨h0, h⟩ | ⟨h0, hz, u, hC, h⟩ | ⟨h0, hz, h⟩ := lsbTickFrom_cons hs
  · refine ⟨_, s, h, by simpa using hs, rfl, ?_, fun l => by simp [lsbAfter_cons, h0]⟩
    rw [show tickStamp s.cycle kept e = id by funext d; simp [tickStamp, h0], List.modify_id]
  · refine ⟨_, u, h, hC.shaped.sameLsb (hC.lsb.trans (by simp)), hC.cycle.trans (by simp), ?_,
      fun l => by simp [lsbAfter_cons, h0, hz]⟩
    rw [hC.instances, stampStart_instances, stampStart_cycle, List.modify_modify_eq]
    congr 1
    funext d
    cases hl : e.isLoad <;> simp [tickStamp, h0, hz, hl]
  · refine ⟨_, _, h, hs.counted e, by simp, ?_, fun l => by simp [lsbAfter_cons, h0, hz]⟩
    rw [stampStart_instances]
    congr 1
    funext d
    simp [tickStamp, h0, hz]

/-- The log after a tick: an instance of no entry is as it was; and where the entries are of different instances, each is
stamped by its own entry alone. -/
theorem lsbTickFrom_log (kept es : List LsbEntry) (s t : State) (hs : Shaped { s with lsb := kept ++ es })
    (ht : lsbTickFrom kept es s = .ok t) :
    (∀ i, (∀ e ∈ es, e.inst ≠ i) → t.instances[i]? = s.instances[i]?) ∧
    ((es.map LsbEntry.inst).Nodup → ∀ l1 e l2, es = l1 ++ e :: l2 →
      t.instances[e.inst]? = (s.instances[e.inst]?).map (tickStamp s.cycle (lsbAfter kept l1) e)) := by
  induction es generalizing kept s with
  | nil =>
    cases ht
    exact ⟨fun _ _ => rfl, fun _ l1 e l2 h => by simp at h⟩
  | cons a es ih =>
    obtain ⟨kept', u, h, hu, hc, hi, hk⟩ := lsbTickFrom_cons_log hs
    rw [h] at ht
    obtain ⟨i1, i2⟩ := ih kept' u hu ht
    have hother : ∀ i, a.inst ≠ i → u.instances[i]? = s.instances[i]? := fun i hne => by
      rw [hi, List.getElem?_modify]
      simp [hne]
    refine ⟨fun i hi => (i1 i fun e he => hi e (by simp [he])).trans (hother i (hi a (by simp))), fun hn l1 e l2 hl => ?_⟩
    obtain ⟨hn1, hn2⟩ := List.nodup_cons.1 hn
    rcases l1 with _ | ⟨b, l1⟩
    · obtain ⟨rfl, rfl⟩ := List.cons.inj hl
      rw [i1 _ fun e he h => hn1 (List.mem_map.2 ⟨e, he, h⟩), hi, List.getElem?_modify]
      simp [lsbAfter]
    · obtain ⟨rfl, hl'⟩ := List.cons.inj hl
      rw [hk, i2 hn2 l1 e l2 hl', hc, hother _ fun h => hn1 (List.mem_map.2 ⟨e, by simp [hl'], h.symm⟩)]

/-! ### Reading a tick from the buffer it leaves -/

/-- An entry that is in the buffer after a tick has the number of one before it. -/
theorem seq_mem_lsbAfter {kept es : List LsbEntry} {k : LsbEntry} (h : k ∈ lsbAfter kept es) :
    ∃ e ∈ kept ++ es, e.seq = k.seq ∧ e.address = k.address ∧ e.size = k.size := by
  rcases mem_lsbAfter h with h | ⟨e, he, rfl | rfl⟩
  · exact ⟨k, by simp [h], rfl, rfl, rfl⟩
  · exact ⟨k, by simp [he], rfl, rfl, rfl⟩
  · exact ⟨e, by simp [he], rfl, rfl, rfl⟩

theorem leftBy_eq_false {e : LsbEntry} {t : State} : e.leftBy t = false ↔ ∃ k ∈ t.lsb, k.seq = e.seq := by
  simp [LsbEntry.leftBy]

/-- An entry, the entries before it, and what a tick leaves: it leaves exactly in its last cycle, unless an earlier one
blocks it; and an earlier one blocks it exactly if it is still in the buffer. -/
theorem leftBy_stalledIn {s t : State} {l1 l2 : List LsbEntry} {e : LsbEntry}
    (ho : s.lsb.Pairwise fun e e' => e.seq < e'.seq) (ht : t.lsb = lsbAfter [] s.lsb)
    (he : s.lsb = l1 ++ e :: l2) :
    e.leftBy t = (!stalls (lsbAfter [] l1) e && decide (e.decremented.remainingCycles = 0)) ∧
    e.stalledIn l1 t = stalls (lsbAfter [] l1) e := by
  rw [he] at ho ht
  have hn : ((l1 ++ e :: l2).map LsbEntry.seq).Nodup := (ho.map LsbEntry.seq fun a b h => h).imp Nat.ne_of_lt
  rw [lsbAfter_append] at ht
  obtain ⟨l, h1, h2⟩ := lsbAfter_eq (lsbAfter [] l1) (e :: l2)
  rw [List.map_append, List.nodup_append] at hn
  obtain ⟨n1, n2, n3⟩ := hn
  have hk : ∀ k ∈ lsbAfter [] l1, k ∈ t.lsb := fun k hk => by rw [ht, h1]; simp [hk]
  constructor
  · have hin : ∀ k, k ∈ t.lsb → k.seq = e.seq → e.leftBy t = false := fun k h hs =>
      leftBy_eq_false.2 ⟨k, h, hs⟩
    cases hst : stalls (lsbAfter [] l1) e with
    | true =>
      refine hin e ?_ rfl
      obtain ⟨l', h', -⟩ := lsbAfter_eq (lsbAfter [] l1 ++ [e]) l2
      rw [ht, lsbAfter_cons, if_pos hst, h']
      simp
    | false =>
      rw [lsbAfter_cons, if_neg (by simp [hst])] at ht
      by_cases hz : e.decremented.remainingCycles = 0
      · rw [if_pos hz] at ht
        simp only [hz, Bool.not_false, decide_true, Bool.and_self]
        rw [← Bool.not_eq_false, leftBy_eq_false]
        rintro ⟨k, hkt, hs⟩
        obtain ⟨l', h', h2'⟩ := lsbAfter_eq (lsbAfter [] l1) l2
        rw [ht, h'] at hkt
        rcases List.mem_append.1 hkt with hkl | hkl
        · obtain ⟨g, hg, q1, -⟩ := seq_mem_lsbAfter hkl
          exact n3 _ (List.mem_map.2 ⟨g, hg, rfl⟩) _ (by simp) (q1.trans hs)
        · exact (List.nodup_cons.1 n2).1 (hs ▸ h2'.subset (List.mem_map.2 ⟨k, hkl, rfl⟩))
      · rw [if_neg hz] at ht
        simp only [hz, decide_false, Bool.and_false]
        refine hin e.decremented ?_ rfl
        obtain ⟨l', h', -⟩ := lsbAfter_eq (lsbAfter [] l1 ++ [e.decremented]) l2
        rw [ht, h']
        simp
  · rw [Bool.eq_iff_iff]
    simp only [LsbEntry.stalledIn, stalls, List.any_eq_true, Bool.and_eq_true, Bool.not_eq_true', leftBy_eq_false]
    constructor
    · rintro ⟨f, hf, hov, k, hkt, hs⟩
      rw [ht, h1] at hkt
      rcases List.mem_append.1 hkt with hkl | hkl
      · obtain ⟨g, hg, q1, q2, q3⟩ := seq_mem_lsbAfter hkl
        obtain rfl := List.inj_on_of_nodup_map n1 hg hf (by omega)
        exact ⟨k, hkl, by simpa [LsbEntry.overlaps, q2, q3] using hov⟩
      · exact absurd hs.symm (n3 _ (List.mem_map.2 ⟨f, hf, rfl⟩) _ (h2.subset (List.mem_map.2 ⟨k, hkl, rfl⟩)))
    · rintro ⟨k, hkl, hov⟩
      obtain ⟨g, hg, q1, q2, q3⟩ := seq_mem_lsbAfter hkl
      exact ⟨g, hg, by simpa [LsbEntry.overlaps, q2, q3] using hov, k, hk k hkl, q1.symm⟩

/-- The entries that leave are those that are in the buffer no longer. -/
theorem leaving_eq_filter {s t : State} {l1 l2 : List LsbEntry} (ho : s.lsb.Pairwise fun e e' => e.seq < e'.seq)
    (ht : t.lsb = lsbAfter [] s.lsb) (he : s.lsb = l1 ++ l2) : leaving [] l1 = l1.filter fun e => e.leftBy t := by
  induction l1 using List.reverseRecOn generalizing l2 with
  | nil => rfl
  | append_singleton l e ih =>
    rw [leaving_append, ih (l2 := e :: l2) (by simp [he]), List.filter_append]
    congr 1
    have h := (leftBy_stalledIn ho ht (l1 := l) (l2 := l2) (e := e) (by simp [he])).1
    simp only [leaving]
    cases hst : stalls (lsbAfter [] l) e <;> by_cases hz : e.decremented.remainingCycles = 0 <;> simp [h, hst, hz]

/-- The entries of the buffer are of different instances. -/
theorem Linked.nodup_inst {s : State} (h : Linked s) : (s.lsb.map LsbEntry.inst).Nodup := by
  have hn : (s.lsb.map LsbEntry.station).Nodup := (List.nodup_append.1 h.once).2.1
  refine List.Nodup.map_on (fun a ha b hb e => ?_) (List.Nodup.of_map _ hn)
  obtain ⟨S, hS, hSn, -, -, -, -, -, hSi, -⟩ := h.buffered a ha
  obtain ⟨P, hP, hPn, -, -, -, -, -, hPi, -⟩ := h.buffered b hb
  have := h.unique_instruction hS hP hSi (e ▸ hPi)
  exact List.inj_on_of_nodup_map hn ha hb (by rw [← hSn, ← hPn, this])

end Sys2Proof.Machine
end

