-- ==== Sys2Proof/Tests/Slice0.lean ====
section
/-! SUPPORT. The model's own tests, and for every obligation with hypotheses a witness that meets them. Expected values
stand in spec/95_test_vectors.md, or in the encoding table of spec/30_encoding.md, as each test's comment says. -/

namespace Sys2Proof.Tests

open Sys2Proof.Machine

-- Kernel evaluation waits for every earlier declaration: one test at a time keeps the threads, and their stacks, few.
set_option Elab.async false

/-! ## Small states -/

/-- Configuration S with a program and some register values. -/
def demo (is : List Instr) (regs : List (Reg × F64)) : State :=
  preloadRegs regs (State.fresh Config.scenario (programOf is))

/-- Whether a step answers a next state. -/
def isNext (o : Host.Outcome State Fault Refusal) : Bool :=
  match o with
  | .next _ => true
  | .fault _ => false
  | .refused _ => false

/-- The numbers of the LSB entries a phase leaves, with their counts. -/
def lsbSeqs (c : Cyc) : Option (List (Nat × Nat)) :=
  match c with
  | .ok t => some (t.lsb.map fun e => (e.seq, e.remainingCycles))
  | .error _ => none

/-- Whether a check passes. -/
def passes {ε α : Type} (x : Except ε α) : Bool :=
  match x with
  | .ok _ => true
  | .error _ => false

theorem isNext_spec {o : Host.Outcome State Fault Refusal} (h : isNext o = true) : ∃ t, o = .next t := by
  cases o with
  | next t => exact ⟨t, rfl⟩
  | fault f => cases h
  | refused r => cases h

theorem passes_spec {ε α : Type} {x : Except ε α} (h : passes x = true) : ∃ t, x = .ok t := by
  cases x with
  | ok t => exact ⟨t, rfl⟩
  | error e => cases h

/-- Whether a phase ends in a fatal error. -/
def isFatal (c : Cyc) : Bool :=
  match c with
  | .error (.fatal _) => true
  | .error (.refuse _) => false
  | .ok _ => false

theorem isFatal_spec {c : Cyc} (h : isFatal c = true) : ∃ t, c = .error (.fatal t) := by
  rcases c with (t | r) | s
  · exact ⟨t, rfl⟩
  · cases h
  · cases h

/-- The value of a field of a next state. -/
def field {α : Type} (f : State → α) (o : Host.Outcome State Fault Refusal) : Option α :=
  match o with
  | .next t => some (f t)
  | .fault _ => none
  | .refused _ => none

/-- 1.0 -/
def one : F64 := 0x3ff0000000000000#64
/-- −1.0 -/
def minusOne : F64 := 0xbff0000000000000#64
/-- 3.0 -/
def three : F64 := 0x4008000000000000#64
/-- −7.0 -/
def minusSeven : F64 := 0xc01c000000000000#64

/-! ## Well-formedness: each check refuses an ill-formed record (30_encoding.md R127) -/

/-- `DADDI R1, R2, 5`, by hand. -/
def goodRecord : Record :=
  { id := 0, op := 0x01, dest := some ⟨.int, 1⟩, src1 := some ⟨.int, 2⟩, src2 := none, base := none, offset := 0,
    immediate := 5 }

/-- `BEQ R1, R2, t`, by hand. -/
def branchRecord (t : I32) : Record :=
  { id := 0, op := 0x30, dest := none, src1 := some ⟨.int, 1⟩, src2 := some ⟨.int, 2⟩, base := none, offset := 0,
    immediate := t }

theorem test_good_record_passes : checkRecord 1 0 goodRecord = .ok (.daddi 1 2 5) := by decide

theorem test_wf_op : checkRecord 1 0 { goodRecord with op := 0x3F } = .error .wfOp := by decide

theorem test_wf_regname : checkRecord 1 0 { goodRecord with dest := some ⟨.int, 32⟩ } = .error .wfRegName := by decide

theorem test_wf_fields_absent : checkRecord 1 0 { goodRecord with src1 := none } = .error .wfFields := by decide

theorem test_wf_fields_extra : checkRecord 1 0 { goodRecord with base := some ⟨.int, 1⟩ } = .error .wfFields := by
  decide

theorem test_wf_class : checkRecord 1 0 { goodRecord with dest := some ⟨.fp, 1⟩ } = .error .wfClass := by decide

theorem test_wf_target : checkRecord 3 0 (branchRecord 7) = .error .wfTarget := by decide

theorem test_wf_target_negative : checkRecord 3 0 (branchRecord (-1)) = .error .wfTarget := by decide

theorem test_wf_target_end : checkRecord 3 0 (branchRecord 3) = .ok (.beq 1 2 3) := by decide

theorem test_wf_id : checkRecord 1 0 { goodRecord with id := 1 } = .error .wfId := by decide

theorem test_instr_wf : (Instr.beq 1 2 4).wf 3 = false ∧ (Instr.bne 1 2 (-1)).wf 3 = false ∧
    (Instr.bne 1 2 3).wf 3 = true := by decide

theorem test_programOk : programOk [{ goodRecord with op := 0x3F }] = false ∧ programOk [goodRecord] = true := by decide

/-! ## Words, written out from 30_encoding.md R122–R124 in the packed form (log 1)

Byte 0 is the op code, bytes 1 to 4 the indexes of dest, src1, src2 and base_reg, bytes 5 to 8 the offset and 9 to 12 the
immediate, least significant byte first. -/

/-- II: dest, src1, immediate. -/
theorem test_words_ii :
    decodeBytes [0x01, 1, 2, 0, 0, 0, 0, 0, 0, 0xF9, 0xFF, 0xFF, 0xFF] = .ok (.daddi 1 2 (-7)) ∧
    decodeBytes [0x02, 31, 30, 0, 0, 0, 0, 0, 0, 0, 0, 0, 0x80] = .ok (.dsubi 31 30 (-2147483648)) := by decide

/-- LDF: dest, base_reg, offset. -/
theorem test_words_ldf :
    decodeBytes [0x10, 1, 0, 0, 2, 0xFC, 0xFF, 0xFF, 0xFF, 0, 0, 0, 0] = .ok (.lw 1 2 (-4)) ∧
    decodeBytes [0x11, 3, 0, 0, 4, 8, 0, 0, 0, 0, 0, 0, 0] = .ok (.ld 3 4 8) ∧
    decodeBytes [0x12, 5, 0, 0, 6, 0, 1, 0, 0, 0, 0, 0, 0] = .ok (.ls 5 6 256) ∧
    decodeBytes [0x13, 6, 0, 0, 2, 8, 0, 0, 0, 0, 0, 0, 0] = .ok (.ldd 6 2 8) := by decide

/-- STF: src1, base_reg, offset. -/
theorem test_words_stf :
    decodeBytes [0x18, 0, 1, 0, 2, 0xFC, 0xFF, 0xFF, 0xFF, 0, 0, 0, 0] = .ok (.sw 1 2 (-4)) ∧
    decodeBytes [0x19, 0, 3, 0, 4, 8, 0, 0, 0, 0, 0, 0, 0] = .ok (.sd 3 4 8) ∧
    decodeBytes [0x1A, 0, 5, 0, 6, 0, 1, 0, 0, 0, 0, 0, 0] = .ok (.ss 5 6 256) ∧
    decodeBytes [0x1B, 0, 6, 0, 2, 8, 0, 0, 0, 0, 0, 0, 0] = .ok (.sdd 6 2 8) := by decide

/-- FR: dest, src1, src2. -/
theorem test_words_fr :
    decodeBytes [0x20, 1, 2, 3, 0, 0, 0, 0, 0, 0, 0, 0, 0] = .ok (.addS 1 2 3) ∧
    decodeBytes [0x21, 6, 8, 2, 0, 0, 0, 0, 0, 0, 0, 0, 0] = .ok (.addD 6 8 2) ∧
    decodeBytes [0x22, 1, 2, 3, 0, 0, 0, 0, 0, 0, 0, 0, 0] = .ok (.subS 1 2 3) ∧
    decodeBytes [0x23, 8, 2, 6, 0, 0, 0, 0, 0, 0, 0, 0, 0] = .ok (.subD 8 2 6) ∧
    decodeBytes [0x24, 1, 2, 3, 0, 0, 0, 0, 0, 0, 0, 0, 0] = .ok (.mulS 1 2 3) ∧
    decodeBytes [0x25, 0, 2, 4, 0, 0, 0, 0, 0, 0, 0, 0, 0] = .ok (.mulD 0 2 4) ∧
    decodeBytes [0x26, 1, 2, 3, 0, 0, 0, 0, 0, 0, 0, 0, 0] = .ok (.divS 1 2 3) ∧
    decodeBytes [0x27, 10, 0, 6, 0, 0, 0, 0, 0, 0, 0, 0, 0] = .ok (.divD 10 0 6) := by decide

/-- BR: src1, src2, immediate. -/
theorem test_words_br :
    decodeBytes [0x30, 0, 1, 2, 0, 0, 0, 0, 0, 4, 0, 0, 0] = .ok (.beq 1 2 4) ∧
    decodeBytes [0x31, 0, 1, 2, 0, 0, 0, 0, 0, 0, 1, 0, 0] = .ok (.bne 1 2 256) := by decide

/-- Bytes that are no instruction are refused by name. -/
theorem test_words_refused :
    decodeBytes [0x3F, 0, 0, 0, 0, 0, 0, 0, 0, 0, 0, 0, 0] = .error (.record .wfOp) ∧
    decodeBytes [0x00, 0, 0, 0, 0, 0, 0, 0, 0, 0, 0, 0, 0] = .error (.record .wfOp) ∧
    decodeBytes [0x01, 32, 0, 0, 0, 0, 0, 0, 0, 0, 0, 0, 0] = .error (.record .wfRegName) ∧
    decodeBytes [0x01, 1, 2, 3, 0, 0, 0, 0, 0, 0, 0, 0, 0] = .error (.record .wfFields) ∧
    decodeBytes [0x41, 1, 2, 0, 0, 0, 0, 0, 0, 0, 0, 0, 0] = .error .padding ∧
    decodeBytes [0x01, 1, 2, 0, 0, 0, 0, 0, 0, 0, 0, 0] = .error .truncated := by decide

/-- The codes of 30_encoding.md R123, in the table's order. -/
def codes : List Nat :=
  [0x01, 0x02, 0x10, 0x11, 0x12, 0x13, 0x18, 0x19, 0x1A, 0x1B] ++
  [0x20, 0x21, 0x22, 0x23, 0x24, 0x25, 0x26, 0x27, 0x30, 0x31]

/-- Every row of the opcode table, with every other bit 0, decodes to its op and is the instruction the first step after
reset runs. -/
theorem test_every_row_runs :
    (codes.map fun w => (decodeTableWord 8 w).map Instr.op) = OpCode.all.map some ∧
    (codes.map fun w => field (fun t => t.instances.map DynInst.op) (step (State.reset.withFetchWord 8 w))) =
      OpCode.all.map fun o => some [o] := by decide +kernel

/-! ## Integer arithmetic (95_test_vectors.md 2.1) -/

/-- A station with captured operands. -/
def operands (x y : F64) (a : I32) : Station :=
  { Station.free ⟨.intAdd, 1⟩ with vj := some x, vk := some y, a := some a, instruction := some 0 }

/-- 3.0 + (−7) = −4.0; 2^53 + 1 is a tie and stays 2^53. -/
theorem test_daddi_result :
    stationResult .daddi (operands three 0 (-7)) = some 0xc010000000000000#64 ∧
    stationResult .daddi (operands 0x4340000000000000#64 0 1) = some 0x4340000000000000#64 := by decide +kernel

/-- −0.0 + 0 = +0.0. -/
theorem test_daddi_zero : stationResult .daddi (operands 0x8000000000000000#64 0 0) = some 0 := by decide +kernel

/-- 0.0 − 1 = −1.0; 0 − (−2147483648) = 2147483648.0. -/
theorem test_dsubi_result :
    stationResult .dsubi (operands 0 0 1) = some minusOne ∧
    stationResult .dsubi (operands 0 0 (-2147483648)) = some 0x41e0000000000000#64 := by decide +kernel

/-- −0.0 − 0 = −0.0. -/
theorem test_dsubi_zero :
    stationResult .dsubi (operands 0x8000000000000000#64 0 0) = some 0x8000000000000000#64 := by decide +kernel

/-! ## FP arithmetic (95_test_vectors.md 2.3) -/

/-- 0.1 + 0.2, without narrowing in .S too. -/
theorem test_addS : stationResult .addS (operands 0x3fb999999999999a#64 0x3fc999999999999a#64 0) =
    some 0x3fd3333333333334#64 := by decide +kernel

theorem test_addD : stationResult .addD (operands 0x3fb999999999999a#64 0x3fc999999999999a#64 0) =
    some 0x3fd3333333333334#64 := by decide +kernel

/-- −0.0 + −0.0 = −0.0. -/
theorem test_addD_zeros : stationResult .addD (operands 0x8000000000000000#64 0x8000000000000000#64 0) =
    some 0x8000000000000000#64 := by decide +kernel

/-- 2.5 − 2.5 = +0.0. -/
theorem test_subS : stationResult .subS (operands 0x4004000000000000#64 0x4004000000000000#64 0) = some 0 := by
  decide +kernel

/-- 2.71 − 3.14. -/
theorem test_subD : stationResult .subD (operands 0x4005ae147ae147ae#64 0x40091eb851eb851f#64 0) =
    some 0xbfdb851eb851eb88#64 := by decide +kernel

/-- 1e308 × 10.0 = +∞. -/
theorem test_mulS : stationResult .mulS (operands 0x7fe1ccf385ebc8a0#64 0x4024000000000000#64 0) =
    some 0x7ff0000000000000#64 := by decide +kernel

/-- 2.71 × 1.5. -/
theorem test_mulD : stationResult .mulD (operands 0x4005ae147ae147ae#64 0x3ff8000000000000#64 0) =
    some 0x4010428f5c28f5c2#64 := by decide +kernel

/-- 1.0 / 0.0 = +0.0. -/
theorem test_divS : stationResult .divS (operands one 0 0) = some 0 := by decide +kernel

/-- 4.0649999999999995 / 3.14. -/
theorem test_divD : stationResult .divD (operands 0x4010428f5c28f5c2#64 0x40091eb851eb851f#64 0) =
    some 0x3ff4b69fcbd2580c#64 := by decide +kernel

/-- −1.0 / −0.0 = +0.0; 5e-324 / 2.0 = +0.0, a tie. -/
theorem test_divD_zero : stationResult .divD (operands minusOne 0x8000000000000000#64 0) = some 0 ∧
    stationResult .divD (operands 1 0x4000000000000000#64 0) = some 0 := by decide +kernel

/-! ## Codecs (95_test_vectors.md 2.2) -/

/-- −7.0 and 2147483647.0; 2147483648.0 cannot be stored. -/
theorem test_sw : encodeSw 0 minusSeven = some [0xff, 0xff, 0xff, 0xf9] ∧
    encodeSw 0 0x41dfffffffc00000#64 = some [0x7f, 0xff, 0xff, 0xff] ∧ encodeSw 0 0x41e0000000000000#64 = none := by
  decide +kernel

theorem test_sd : encodeSd 0 minusOne = some [0xff, 0xff, 0xff, 0xff, 0xff, 0xff, 0xff, 0xff] ∧
    encodeSd 0 0x4340000000000001#64 = some [0x00, 0x20, 0, 0, 0, 0, 0, 2] := by decide +kernel

/-- 0.1, −2.5, and the overflow of 1e39. -/
theorem test_ss : encodeSs 0 0x3fb999999999999a#64 = some [0x3d, 0xcc, 0xcc, 0xcd] ∧
    encodeSs 0 0xc004000000000000#64 = some [0xc0, 0x20, 0, 0] ∧
    encodeSs 0 0x48078287f49c4a1d#64 = some [0x7f, 0x80, 0, 0] := by decide +kernel

theorem test_sdd : encodeSdd 0 0x40091eb851eb851f#64 = some [0x40, 0x09, 0x1e, 0xb8, 0x51, 0xeb, 0x85, 0x1f] := by
  decide +kernel

/-- −7.0, and 42.0's high word read as an integer: 1078263808.0. -/
theorem test_lw : decodeLw 0 [0xff, 0xff, 0xff, 0xf9] = minusSeven ∧
    decodeLw 0 [0x40, 0x45, 0, 0] = 0x41d0114000000000#64 := by decide +kernel

/-- int64 2^53 + 1 rounds to 2^53. -/
theorem test_ld : decodeLd 0 [0x00, 0x20, 0, 0, 0, 0, 0, 1] = 0x4340000000000000#64 := by decide +kernel

/-- −2.5, and the smallest binary32 subnormal, 2^−149. -/
theorem test_ls : decodeLs 0 [0xc0, 0x20, 0, 0] = 0xc004000000000000#64 ∧
    decodeLs 0 [0, 0, 0, 1] = 0x36a0000000000000#64 := by decide +kernel

theorem test_ldd : decodeLdd 0 [0x40, 0x09, 0x1e, 0xb8, 0x51, 0xeb, 0x85, 0x1f] = 0x40091eb851eb851f#64 := by
  decide +kernel

/-! ## Branches (95_test_vectors.md 2.4) -/

theorem test_beq : takenBeq one one = true ∧ takenBeq one three = false ∧ takenBeq 0x8000000000000000#64 0 = true := by
  decide +kernel

theorem test_bne : takenBne one three = true ∧ takenBne one one = false ∧ takenBne 0x8000000000000000#64 0 = false := by
  decide +kernel

/-! ## Reset and errors (95_test_vectors.md 2.6) -/

theorem test_reset_state : State.reset.cycle = 0 ∧ State.reset.cursor = 0 ∧ State.reset.mem = [] ∧
    State.reset.stations.length = 15 ∧ State.reset.lines.length = 16 ∧ State.reset.terminated = true := by decide

/-- The host's configuration S. -/
def rawScenario : RawConfig where
  nFpAdd := some 4
  nFpMul := some 2
  nFpDiv := some 2
  nIntAdd := some 2
  nLoad := some 2
  nStore := some 2
  nBranch := some 1
  nIntMul := none
  lsbMax := some 8
  cacheSize := some 256
  blockSize := some 16
  hitLatency := some 1
  missPenalty := some 10
  loadBaseLatency := some 2
  storeBaseLatency := some 2
  maxCycles := none
  lats := [(.daddi, 1), (.dsubi, 1), (.beq, 1), (.bne, 1)]

/-- A reset input with a preload, an image and a program. -/
def input : ResetInput where
  cfg := rawScenario
  preload := [(['R', '2'], three), (['F', '0', '7'], one)]
  image := [(0, 255), (1048575, 1)]
  prog := programOf [.daddi 1 2 5]

/-- How a reset of an input ends: its error, if it has one. -/
def refusal (inp : ResetInput) : Option ResetError :=
  match hostReset inp with
  | .ok _ => none
  | .error e => some e

theorem test_reset_refusals :
    refusal { input with cfg := { rawScenario with cacheSize := some 100 } } =
      some (.invalidConfiguration .cacheSize) ∧
    refusal { input with cfg := { rawScenario with blockSize := some 2 } } = some (.invalidConfiguration .blockSize) ∧
    refusal { input with prog := programOf [.mulD 0 2 4] } = some (.unconfiguredLatency .mulD) ∧
    refusal { input with preload := [(['R', '3', '2'], one)] } = some (.unknownRegisterName ['R', '3', '2']) ∧
    refusal { input with preload := [(['R', '1'], 0x3ff8000000000000#64)] } =
      some (.invalidConfiguration (.register ['R', '1'])) ∧
    refusal { input with preload := [(['R', '5'], one), (['R', '0', '5'], three)] } =
      some (.invalidConfiguration (.register ['R', '0', '5'])) ∧
    refusal { input with prog := [{ goodRecord with op := 0x3F }] } = some (.invalidProgram 0 .wfOp) := by
  decide +kernel

/-- A latency that is given and below 1 is refused, also of an op that is not in the program (00_scope.md R8); the latency of
a memory op is no parameter. -/
theorem test_reset_refuses_given_latency :
    refusal { input with cfg := { rawScenario with lats := (.mulD, 0) :: rawScenario.lats } } =
      some (.invalidConfiguration (.latency .mulD)) ∧
    refusal { input with cfg := { rawScenario with lats := [(.daddi, -1)] } } =
      some (.invalidConfiguration (.latency .daddi)) ∧
    refusal { input with cfg := { rawScenario with lats := (.lw, 0) :: rawScenario.lats } } = none := by decide +kernel

/-- `SW R3, 0(R2)` with R3 = 2147483648: `Unrepresentable`, the cursor stays, the instance exists. -/
theorem test_unrepresentable_faults :
    field (fun t => (t.fault, t.cursor, t.instances.length, t.cycle))
      (step (demo [.sw 3 2 0] [(.r 2, 0x4072c00000000000#64), (.r 3, 0x41e0000000000000#64)])) =
      some (some (.unrepresentable 0x41e0000000000000#64), 0, 1, 1) := by decide +kernel

/-- `LW R1, 0(R2)` with R2 = 1048574: `BadAddress` before `Misaligned`; the rename of R1 stays. -/
theorem test_badAddress_faults :
    field (fun t => (t.fault, (t.reg (.r 1)).qi)) (step (demo [.lw 1 2 0] [(.r 2, 0x412ffffc00000000#64)])) =
      some (some (.badAddress 1048574), some ⟨.load, 1⟩) := by decide +kernel

/-- `L.D F1, 2(R2)` with R2 = 1000: `Misaligned(1002)`. -/
theorem test_misaligned_faults :
    field State.fault (step (demo [.ldd 1 2 2] [(.r 2, 0x408f400000000000#64)])) = some (some (.misaligned 1002)) := by
  decide +kernel

/-! ## Witnesses: a state and operands that meet the hypotheses of each obligation -/

theorem canIssue_of {s : State} {k : Kind} {T : Tag} (hb : s.branchPending = false) (hT : allocate k s = some T) :
    CanIssue s k T := ⟨hb, allocate_eq_some.1 hT⟩

/-- From reset a record of every kind can issue, and the LSB has room. -/
theorem witness_CanIssue (k : Kind) : CanIssue State.reset k ⟨k, 1⟩ ∧ HasRoom State.reset := by
  refine ⟨canIssue_of rfl ?_, ?_⟩
  · cases k <;> decide
  · unfold HasRoom; decide

/-- `CanIssue` for FpArithmeticIssues, IntegerImmediateIssues and BranchIssuesAndBlocksIssue. -/
theorem witness_Issues : (∀ p ∈ frOps, CanIssue State.reset p.2.1 ⟨p.2.1, 1⟩) ∧
    CanIssue State.reset .intAdd ⟨.intAdd, 1⟩ ∧ CanIssue State.reset .branch ⟨.branch, 1⟩ :=
  ⟨fun p _ => (witness_CanIssue p.2.1).1, (witness_CanIssue .intAdd).1, (witness_CanIssue .branch).1⟩

/-- A record that decodes. -/
theorem witness_DecodedRecord : decodeRecord (encodeRecord 5 (.lw 1 2 3)) = .ok (.lw 1 2 3) := by decide

/-- An op code that is none of the twenty, and one that is. -/
theorem witness_RecordChecks : (∀ o : OpCode, o.code ≠ { goodRecord with op := 0x3F }.op) ∧
    OpCode.daddi.code = goodRecord.op := by
  refine ⟨fun o => ?_, rfl⟩
  cases o <;> decide

/-- StepIssuesTheRecordAtTheCursor: a record at the cursor; and a state past the end that has not terminated. -/
def afterIssue : State :=
  { (demo [.daddi 1 2 5] []) with
    cursor := 1, cycle := 1
    instances := [⟨0, .daddi, ⟨.intAdd, 1⟩, some 1, none, none, none, none⟩] }

theorem witness_StepIssues :
    ((demo [.daddi 1 2 5] []).fault = none ∧ (demo [.daddi 1 2 5] []).terminated = false ∧
      (∀ f ∈ [writePhase, executePhase, memoryPhase, deferredPhase],
        f (tick (demo [.daddi 1 2 5] [])) = .ok (tick (demo [.daddi 1 2 5] []))) ∧
      (tick (demo [.daddi 1 2 5] [])).prog[0]? = some (encodeRecord 0 (.daddi 1 2 5)) ∧
      checkRecord 1 0 (encodeRecord 0 (.daddi 1 2 5)) = .ok (.daddi 1 2 5)) ∧
    (afterIssue.fault = none ∧ afterIssue.terminated = false ∧
      (∀ f ∈ [writePhase, executePhase, memoryPhase, deferredPhase], f (tick afterIssue) = .ok (tick afterIssue)) ∧
      afterIssue.prog.length ≤ afterIssue.cursor) := by
  decide +kernel

/-- FaultedOrTerminatedTakesNoStep: a faulted state; and a terminated one. -/
theorem witness_NoStep : { State.reset with fault := some (.badAddress (-4)) }.fault = some (.badAddress (-4)) ∧
    (State.reset.fault = none ∧ State.reset.prog.length ≤ State.reset.cursor ∧
      (∀ d ∈ State.reset.instances, d.write ≠ none) ∧ (∀ S ∈ State.reset.stations, S.busy = false) ∧
      State.reset.lsb = []) := by decide

/-- A step that goes on, for StepCountsOneCycleAndKeepsTheProgram, AtMostOneIssuePerCycle and
CursorStaysInTheProgram. -/
theorem witness_Step : (∃ t, step (demo [.daddi 1 2 5] []) = .next t) ∧ (demo [.daddi 1 2 5] []).terminated = false ∧
    (demo [.daddi 1 2 5] []).cursor ≤ (demo [.daddi 1 2 5] []).prog.length :=
  ⟨isNext_spec (by decide +kernel), by decide, by decide⟩

/-- A broadcast into R3 that is ready in the first cycle. -/
def broadcasting : State :=
  { (demo [.daddi 1 2 5] []) with cdbQueue := [⟨⟨.intAdd, 1⟩, one, some (.r 3), .daddi, 0⟩] }

theorem witness_RegisterValues : ∃ t, step broadcasting = .next t ∧ (t.reg (.r 3)).value ≠ (broadcasting.reg (.r 3)).value := by
  obtain ⟨t, h⟩ := isNext_spec (o := step broadcasting) (by decide +kernel)
  have hf : field (fun t => (t.reg (.r 3)).value) (step broadcasting) = some one := by decide +kernel
  rw [h] at hf
  refine ⟨t, h, ?_⟩
  have : (t.reg (.r 3)).value = one := Option.some.inj hf
  rw [this]
  decide +kernel

/-- Loads: base 0 with offset 0, and the last word and doubleword of memory. -/
def withBase (v : F64) : State := demo [] [(.r 2, v)]

theorem witness_LoadIssues : CanIssue (withBase 0) .load ⟨.load, 1⟩ ∧ HasRoom (withBase 0) ∧
    ((withBase 0).reg (.r 2)).qi = none ∧ F64.toInt? ((withBase 0).reg (.r 2)).value = some 0 ∧
    (∀ p ∈ loadOps, AddressOk (0 + (0 : I32).toInt) p.2.2.2 ∧ AddressOk (0 + (2 ^ 20 - 8 : I32).toInt) p.2.2.2) ∧
    AddressOk (0 + (2 ^ 20 - 4 : I32).toInt) 4 ∧ (withBase 0).nextSeq + 1 < 2 ^ 32 := by
  refine ⟨canIssue_of rfl (by decide), by unfold HasRoom; decide, by decide, by decide +kernel, ?_, ?_, by decide⟩
  · unfold AddressOk; decide +kernel
  · unfold AddressOk; decide

/-- The last number the LSB gives. -/
theorem witness_LastSeq : { (withBase 0) with nextSeq := 2 ^ 32 - 2 }.nextSeq + 1 < 2 ^ 32 := by decide

/-- Stores: the same addresses, and 1.0 as the data. -/
def withData (b d : F64) : State := demo [] [(.r 2, b), (.r 3, d), (.f 3, d)]

theorem witness_StoreIssues : CanIssue (withData 0 one) .store ⟨.store, 1⟩ ∧ HasRoom (withData 0 one) ∧
    ((withData 0 one).reg (.r 2)).qi = none ∧ F64.toInt? ((withData 0 one).reg (.r 2)).value = some 0 ∧
    (∀ p ∈ storeOps, ((withData 0 one).reg (p.2.2.1 3)).qi = none ∧ AddressOk (0 + (0 : I32).toInt) p.2.2.2.1 ∧
      AddressOk (0 + (2 ^ 20 - 8 : I32).toInt) p.2.2.2.1 ∧
      ∃ bs, p.2.2.2.2 0 ((withData 0 one).reg (p.2.2.1 3)).value = some bs) ∧
    (withData 0 one).instances.length = 0 ∧ (withData 0 one).nextSeq + 1 < 2 ^ 32 := by
  refine ⟨canIssue_of rfl (by decide), by unfold HasRoom; decide, by decide, by decide +kernel, ?_, by decide, by decide⟩
  have h : ∀ p ∈ storeOps, ((withData 0 one).reg (p.2.2.1 3)).qi = none ∧
      (p.2.2.2.2 0 ((withData 0 one).reg (p.2.2.1 3)).value).isSome = true ∧
      (0 ≤ (0 : Int) + (0 : I32).toInt ∧ (0 : Int) + (0 : I32).toInt + p.2.2.2.1 ≤ 2 ^ 20 ∧
        ((0 : Int) + (0 : I32).toInt) % 4 = 0) ∧
      (0 ≤ (0 : Int) + (2 ^ 20 - 8 : I32).toInt ∧ (0 : Int) + (2 ^ 20 - 8 : I32).toInt + p.2.2.2.1 ≤ 2 ^ 20 ∧
        ((0 : Int) + (2 ^ 20 - 8 : I32).toInt) % 4 = 0) := by decide +kernel
  exact fun p hp => ⟨(h p hp).1, (h p hp).2.2.1, (h p hp).2.2.2, Option.isSome_iff_exists.1 (h p hp).2.1⟩

/-- Pending base, pending data. -/
theorem witness_Pending : CanIssue (setQi (.r 2) ⟨.intAdd, 1⟩ (withBase 0)) .load ⟨.load, 1⟩ ∧
    HasRoom (setQi (.r 2) ⟨.intAdd, 1⟩ (withBase 0)) ∧ ((setQi (.r 2) ⟨.intAdd, 1⟩ (withBase 0)).reg (.r 2)).qi ≠ none ∧
    CanIssue (setQi (.f 3) ⟨.fpAdd, 1⟩ (withData 0 one)) .store ⟨.store, 1⟩ ∧
    HasRoom (setQi (.f 3) ⟨.fpAdd, 1⟩ (withData 0 one)) ∧
    ((setQi (.f 3) ⟨.fpAdd, 1⟩ (withData 0 one)).reg (.f 3)).qi ≠ none :=
  ⟨canIssue_of rfl (by decide), by unfold HasRoom; decide, by decide, canIssue_of rfl (by decide),
    by unfold HasRoom; decide, by decide⟩

/-- Each of the three stalls. -/
theorem witness_Stall : { State.reset with branchPending := true }.branchPending = true ∧
    (∀ S ∈ { State.reset with stations := [] }.stations, S.kind = opKind (Instr.addD 1 2 3).op → S.busy = true) ∧
    { State.reset with cfg := { Config.scenario with lsbMax := 0 } }.cfg.lsbMax ≤ State.reset.lsb.length ∧
    opKind (Instr.lw 1 2 0).op = .load := by decide

/-- Bad addresses: below memory, past it, and inside it but no multiple of 4. -/
theorem witness_BadAddress : CanIssue (withBase 0) .load ⟨.load, 1⟩ ∧ HasRoom (withBase 0) ∧
    F64.toInt? ((withBase 0).reg (.r 2)).value = some 0 ∧
    ∀ p ∈ loadOps, ¬AddressOk (0 + (-4 : I32).toInt) p.2.2.2 ∧ ¬AddressOk (0 + (2 ^ 20 : I32).toInt) p.2.2.2 ∧
      ¬AddressOk (0 + (2 : I32).toInt) p.2.2.2 := by
  refine ⟨canIssue_of rfl (by decide), by unfold HasRoom; decide, by decide +kernel, ?_⟩
  unfold AddressOk; decide +kernel

/-- Stores: the same addresses; and 2^31 in SW, 2^63 in SD. -/
theorem witness_BadStore : CanIssue (withData 0 one) .store ⟨.store, 1⟩ ∧ HasRoom (withData 0 one) ∧
    (∀ p ∈ storeOps, ¬AddressOk (0 + (-4 : I32).toInt) p.2.2.2.1 ∧ ¬AddressOk (0 + (2 ^ 20 : I32).toInt) p.2.2.2.1 ∧
      ¬AddressOk (0 + (2 : I32).toInt) p.2.2.2.1) ∧
    encodeSw 0 ((withData 0 0x41e0000000000000#64).reg (.r 3)).value = none ∧
    encodeSd 0 ((withData 0 0x43e0000000000000#64).reg (.r 3)).value = none := by
  refine ⟨canIssue_of rfl (by decide), by unfold HasRoom; decide, ?_, by decide +kernel, by decide +kernel⟩
  unfold AddressOk; decide +kernel

/-- A LOAD or STORE station that is ready for its handover: base 0, offset a, data v. -/
def handing (k : Kind) (o : OpCode) (i a : Nat) (v : F64) : Station :=
  { Station.free ⟨k, i⟩ with
    busy := true, op := some o, vj := some 0, vk := some v, a := some (BitVec.ofNat 32 a), instruction := some (5 - i)
    dest := if k = .load then some (.f 1) else none, effCycle := 1, issueCycle := 1 }

/-- A machine with these stations and instances. -/
def deferring (l : List Station) : State :=
  { State.reset with
    stations := l, cycle := 4
    instances := l.map fun S => ⟨0, .ldd, S.name, some 1, none, none, none, none⟩ }

/-- DeferredStationsEnterTheLsbInOrder: a load and a store, each with a good address, with bad ones, and a value SW cannot
store; and a full LSB. -/
theorem witness_Deferred :
    (∀ p ∈ loadOps, (deferring [handing .load p.1 1 8 0]).station? ⟨.load, 1⟩ = some (handing .load p.1 1 8 0) ∧
      HasRoom (deferring [handing .load p.1 1 8 0]) ∧ AddressOk (0 + (8 : I32).toInt) p.2.2.2 ∧
      ¬AddressOk (0 + (2 : I32).toInt) p.2.2.2) ∧
    (∀ p ∈ storeOps, (deferring [handing .store p.1 1 8 one]).station? ⟨.store, 1⟩ = some (handing .store p.1 1 8 one) ∧
      HasRoom (deferring [handing .store p.1 1 8 one]) ∧ AddressOk (0 + (8 : I32).toInt) p.2.2.2.1 ∧
      ¬AddressOk (0 + (2 : I32).toInt) p.2.2.2.1 ∧ (p.2.2.2.2 4 one).isSome = true) ∧
    F64.toInt? (0 : F64) = some 0 ∧ encodeSw 4 0x41e0000000000000#64 = none ∧ encodeSd 4 0x43e0000000000000#64 = none ∧
    ¬HasRoom { State.reset with cfg := { Config.scenario with lsbMax := 0 } } := by
  unfold HasRoom AddressOk; decide +kernel

/-- Two candidates whose stations stand against their issue order enter in issue order (40_cycle_engine.md R163), and a
deferred load is handed over as a miss (95_test_vectors.md 2.5e). -/
theorem test_deferred_order :
    (match deferredPhase (deferring [handing .load .ldd 1 104 0, handing .load .lw 2 8 0]) with
      | .ok t => t.lsb.map (fun e => (e.seq, e.op, e.address, e.remainingCycles, e.inst))
      | .error _ => []) = [(0, .lw, 8, 12, 3), (1, .ldd, 104, 12, 4)] := by decide +kernel

/-- A station of kind k that is about to finish op o. -/
def finishing (k : Kind) (o : OpCode) : Station :=
  { Station.free ⟨k, 1⟩ with
    busy := true, op := some o, vj := some three, vk := some one, a := some 1, instruction := some 0
    execStarted := true, remainingCycles := 1, dest := some (.f 1), effCycle := 1, issueCycle := 1 }

/-- A machine with this station and nothing else. -/
def holding (S : Station) : State :=
  { State.reset with
    stations := [S], cycle := 4
    instances := [⟨0, .addD, S.name, some 1, some 2, none, none, none⟩] }

theorem witness_FpResult : ∀ p ∈ frOps, (holding (finishing p.2.1 p.1)).station? ⟨p.2.1, 1⟩ =
      some (finishing p.2.1 p.1) ∧ (finishing p.2.1 p.1).busy = true ∧ (finishing p.2.1 p.1).execStarted = true ∧
    (finishing p.2.1 p.1).remainingCycles = 1 ∧ (finishing p.2.1 p.1).op = some p.1 ∧
    (finishing p.2.1 p.1).vj = some three ∧ (finishing p.2.1 p.1).vk = some one ∧
    (finishing p.2.1 p.1).instruction = some 0 := by decide +kernel

theorem witness_IntegerAndBranchResults : (∀ p ∈ iiOps, (holding (finishing .intAdd p.1)).station? ⟨.intAdd, 1⟩ =
      some (finishing .intAdd p.1) ∧ (finishing .intAdd p.1).op = some p.1 ∧
    (finishing .intAdd p.1).vj = some three ∧ (finishing .intAdd p.1).a = some 1) ∧
    ∀ p ∈ brOps, (holding (finishing .branch p.1)).station? ⟨.branch, 1⟩ = some (finishing .branch p.1) ∧
      (finishing .branch p.1).op = some p.1 ∧ (finishing .branch p.1).remainingCycles = 1 ∧
      (finishing .branch p.1).instruction = some 0 := by decide +kernel

/-- A station ready to start, and each reason not to. -/
def waiting (k : Kind) (o : OpCode) : Station :=
  { finishing k o with execStarted := false, remainingCycles := 0 }

theorem witness_Start : (holding (waiting .fpAdd .addD)).station? ⟨.fpAdd, 1⟩ = some (waiting .fpAdd .addD) ∧
    kindIsMem Kind.fpAdd = false ∧ (waiting .fpAdd .addD).busy = true ∧ (waiting .fpAdd .addD).execStarted = false ∧
    (waiting .fpAdd .addD).qj = none ∧ (waiting .fpAdd .addD).qk = none ∧
    (waiting .fpAdd .addD).effCycle < (holding (waiting .fpAdd .addD)).cycle ∧
    (waiting .fpAdd .addD).op = some .addD ∧ latOf (holding (waiting .fpAdd .addD)).cfg .addD = some 2 ∧
    (waiting .fpAdd .addD).instruction = some 0 ∧
    ((holding { waiting .fpAdd .addD with effCycle := 4 }).cycle : Int) ≤ { waiting .fpAdd .addD with effCycle := 4 }.effCycle ∧
    { waiting .fpAdd .addD with qj := some ⟨.fpMul, 1⟩ }.qj ≠ none := by decide

/-- The largest finite value. -/
def largest : F64 := 0x7fefffffffffffff#64

/-- 2^970, half the last place of `largest`. -/
def halfPlace : F64 := 0x7c90000000000000#64

/-- The overflow bound of `CorrectlyRounded`. -/
def bound : Int := (2 ^ 1024 - 2 ^ 970) * 2 ^ 1074

/-- Finite operands on both sides of the overflow bound, for each operation: the sum of `largest` and 2^970 is the bound
itself; below it `largest` and 1; the products and quotients by a value below and above 1. -/
theorem witness_Rounding : F64.isFinite one = true ∧ F64.isFinite largest = true ∧ F64.isFinite halfPlace = true ∧
    F64.scaled largest + F64.scaled halfPlace = bound ∧ F64.scaled largest - F64.scaled (F64.neg halfPlace) = bound ∧
    |F64.scaled largest + F64.scaled one| < bound ∧ |F64.scaled largest - F64.scaled one| < bound ∧
    |F64.scaled one * F64.scaled three| < bound * |2 ^ 1074| ∧
    bound * |2 ^ 1074| ≤ |F64.scaled largest * F64.scaled three| ∧ F64.isZero three = false ∧
    |F64.scaled one * 2 ^ 1074| < bound * |F64.scaled three| ∧
    F64.isZero (1 : F64) = false ∧ bound * |F64.scaled (1 : F64)| ≤ |F64.scaled largest * 2 ^ 1074| := by
  decide +kernel

/-- At the bound the result is the infinity, just below it `largest` (43_fp_arith.md R242, G4). -/
theorem test_overflow : F64.add ⟨false, 0⟩ largest halfPlace = F64.infinity false ∧
    F64.add ⟨false, 0⟩ largest 0x7c8fffffffffffff#64 = largest := by decide +kernel

/-- The operands of each clause of SpecialValuesFollowIeee: NaN, infinities of either sign, zeros, finite values, a sum and
a difference of nonzero ones that are exactly 0, and a product and a quotient that underflow. -/
theorem witness_Special : F64.isNaN 0x7ff8000000000000#64 = true ∧ F64.isInf (F64.infinity true) = true ∧
    F64.isFinite minusOne = true ∧ F64.isZero minusOne = false ∧ F64.scaled one + F64.scaled minusOne = 0 ∧
    F64.scaled minusOne - F64.scaled minusOne = 0 ∧ F64.isZero (F64.zero false) = true ∧
    F64.sign (F64.infinity true) = true ∧ F64.isInf (F64.infinity false) = true ∧ F64.isZero (F64.zero true) = true ∧
    F64.isFinite one = true ∧ F64.isZero one = false ∧ F64.isZero (F64.mul ⟨false, 0⟩ 1 1) = true ∧
    F64.isZero (F64.div ⟨false, 0⟩ 1 0x7fe1ccf385ebc8a0#64) = true := by decide +kernel

/-- Integer-valued operands, with results at 2^53. -/
theorem witness_Integer : F64.toInt? three = some 3 ∧ Integral three ∧
    F64.toInt? 0x433fffffffffffff#64 = some (2 ^ 53 - 1) ∧ |(2 ^ 53 - 1 : Int) + (1 : I32).toInt| ≤ 2 ^ 53 ∧
    |(2 ^ 53 - 1 : Int) - (-1 : I32).toInt| ≤ 2 ^ 53 := by
  refine ⟨by decide +kernel, ?_, by decide +kernel, by decide, by decide⟩
  unfold Integral; decide +kernel

/-- A queue whose first request is not ready and whose second is; and one with none ready. -/
theorem witness_Select : selectRequest 4 [⟨⟨.load, 1⟩, one, none, .lw, 5⟩, ⟨⟨.load, 2⟩, one, none, .lw, 4⟩] =
      some (⟨⟨.load, 2⟩, one, none, .lw, 4⟩, [⟨⟨.load, 1⟩, one, none, .lw, 5⟩]) ∧
    selectRequest 4 [⟨⟨.load, 1⟩, one, none, .lw, 5⟩] = none := by decide

/-- A register that waits for T, one that is ready, one renamed to another tag. -/
theorem witness_RegWrite : ((setQi (.r 1) ⟨.load, 1⟩ State.reset).reg (.r 1)).qi = some ⟨.load, 1⟩ ∧
    (State.reset.reg (.r 1)).qi = none ∧ (⟨.load, 1⟩ : Tag) ≠ ⟨.load, 2⟩ := by decide

/-- A broadcast that a waiting station takes. -/
def forwarding : State :=
  { holding (finishing .fpAdd .addD) with
    stations := [{ finishing .fpAdd .addD with remainingCycles := 0 },
      { waiting .fpMul .mulD with vj := none, qj := some ⟨.fpAdd, 1⟩ }]
    cdbQueue := [⟨⟨.fpAdd, 1⟩, three, some (.f 1), .addD, 4⟩] }

theorem witness_Broadcast :
    selectRequest forwarding.cycle forwarding.cdbQueue = some (⟨⟨.fpAdd, 1⟩, three, some (.f 1), .addD, 4⟩, []) ∧
    forwarding.station? ⟨.fpAdd, 1⟩ = some { finishing .fpAdd .addD with remainingCycles := 0 } ∧
    (finishing .fpAdd .addD).instruction = some 0 ∧ Kind.fpAdd ≠ .branch ∧
    forwarding.station? ⟨.fpMul, 1⟩ = some { waiting .fpMul .mulD with vj := none, qj := some ⟨.fpAdd, 1⟩ } := by
  decide

/-- A branch instance, with ready registers, and with each of them pending. -/
def branching (i : Instr) : State :=
  { demo [i] [] with cursor := 1, instances := [⟨0, i.op, ⟨.branch, 1⟩, some 1, some 2, some 3, none, none⟩] }

theorem witness_Resolve : ∀ p ∈ brOps,
    (branching (p.2.1 1 2 1)).instances[0]? =
      some ⟨0, (p.2.1 1 2 1).op, ⟨.branch, 1⟩, some 1, some 2, some 3, none, none⟩ ∧
    (branching (p.2.1 1 2 1)).prog[0]? = some (encodeRecord 0 (p.2.1 1 2 1)) ∧
    checkRecord (branching (p.2.1 1 2 1)).prog.length 0 (encodeRecord 0 (p.2.1 1 2 1)) = .ok (p.2.1 1 2 1) ∧
    ((branching (p.2.1 1 2 1)).reg (.r 1)).qi = none ∧ ((branching (p.2.1 1 2 1)).reg (.r 2)).qi = none ∧
    ((setQi (.r 1) ⟨.load, 1⟩ (branching (p.2.1 1 2 1))).reg (.r 1)).qi ≠ none ∧
    ((setQi (.r 2) ⟨.load, 1⟩ (branching (p.2.1 1 2 1))).reg (.r 2)).qi ≠ none := by decide +kernel

/-- A machine whose branch station's request is queued and ready; of the two branches BEQ is taken, R1 and R2 being 0. -/
def resolving (p : OpCode × (Fin 32 → Fin 32 → I32 → Instr) × (F64 → F64 → Bool)) : State :=
  { branching (p.2.1 1 2 1) with
    stations := [{ finishing .branch p.1 with remainingCycles := 0, dest := none }]
    cdbQueue := [⟨⟨.branch, 1⟩, 0, none, p.1, 4⟩], cycle := 4, branchPending := true }

/-- BranchResolvesOnRegisterValues, its clause on the Write phase. -/
theorem witness_BranchWrite : ∀ p ∈ brOps, Linked (resolving p) ∧
    selectRequest (resolving p).cycle (resolving p).cdbQueue = some (⟨⟨.branch, 1⟩, 0, none, p.1, 4⟩, []) := by
  intro p hp
  have hr : ∀ r, ((resolving p).reg r).qi = none := fun r =>
    congrArg RegCell.qi (reg_fresh Config.scenario (programOf [p.2.1 1 2 1]) r)
  have hop : (p.2.1 1 2 1).op = p.1 ∧ opKind p.1 = .branch ∧ SlotsOk p.1 { finishing .branch p.1 with
      remainingCycles := 0, dest := none } ∧ (p.2.1 1 2 1 = .beq 1 2 1 ∨ p.2.1 1 2 1 = .bne 1 2 1) := by
    simp only [brOps, List.mem_cons, List.not_mem_nil, or_false] at hp
    rcases hp with rfl | rfl
    · exact ⟨rfl, rfl, ⟨rfl, rfl, rfl, rfl⟩, .inl rfl⟩
    · exact ⟨rfl, rfl, ⟨rfl, rfl, rfl, rfl⟩, .inr rfl⟩
  have hrec := (witness_Resolve p hp).2.2.1
  refine ⟨⟨(by decide : [(⟨.branch, 1⟩ : Tag)].Nodup), fun S hS hb => ?_, fun S hS _ => ?_, fun S hS _ => ?_,
    fun S hS h => ?_, fun r T h => ?_, fun S hS T h => ?_, fun q h => ?_, fun e he => (by cases he),
    (by decide : [(⟨.branch, 1⟩ : Tag)].Nodup), fun S hS _ _ => ?_⟩, rfl⟩
  · obtain rfl := List.mem_singleton.1 hS; cases hb
  · obtain rfl := List.mem_singleton.1 hS
    exact ⟨p.1, 0, _, rfl, hop.2.1, rfl, (witness_Resolve p hp).1, rfl, hop.1, hop.2.2.1⟩
  · obtain rfl := List.mem_singleton.1 hS; exact ⟨rfl, rfl, .inr rfl⟩
  · obtain rfl := List.mem_singleton.1 hS; exact absurd h (Nat.lt_irrefl 0)
  · rw [hr] at h; cases h
  · obtain rfl := List.mem_singleton.1 hS; rcases h with h | h <;> cases h
  · obtain rfl := List.mem_singleton.1 h; exact ⟨_, List.mem_singleton.2 rfl, rfl, rfl, rfl, rfl, rfl⟩
  · obtain rfl := List.mem_singleton.1 hS
    exact ⟨rfl, rfl, 0, _, _, _, 1, 2, 1, rfl, (witness_Resolve p hp).1, (witness_Resolve p hp).2.1, hrec, hop.2.2.2,
      (hr _).symm, (hr _).symm⟩

/-- Operands of BranchEqualityIsIeee. -/
theorem witness_Equality : F64.isNaN 0x7ff8000000000000#64 = true ∧ F64.isFinite one = true ∧
    F64.isInf (F64.infinity false) = true ∧ F64.isInf (F64.infinity true) = true := by decide

/-- A binary32 number, infinity and NaN, and binary64 values on both sides of the overflow bound. -/
theorem witness_Single : F32.expo 0x3f800000#32 < 255 ∧ F32.isInf 0x7f800000#32 = true ∧ F32.isNaN 0x7fc00000#32 = true ∧
    F64.isFinite 0x47efffffefffffff#64 = true ∧ F64.isFinite 0x47effffff0000000#64 = true ∧
    F64.scaledMag 0x47efffffefffffff#64 < (2 ^ 128 - 2 ^ 103) * 2 ^ 1074 ∧
    (2 ^ 128 - 2 ^ 103) * 2 ^ 1074 ≤ F64.scaledMag 0x47effffff0000000#64 := by decide +kernel

/-- Values every store encodes, the ends of the ranges of SW and SD that binary64 holds, and a NaN. -/
theorem witness_Codec : F64.toInt? 0xc1e0000000000000#64 = some (-2 ^ 31) ∧
    F64.toInt? 0x41dfffffffc00000#64 = some (2 ^ 31 - 1) ∧ F64.toInt? 0xc3e0000000000000#64 = some (-2 ^ 63) ∧
    F64.toInt? 0x43dfffffffffffff#64 = some (2 ^ 63 - 1024) ∧
    (encodeSw 0 minusSeven).isSome = true ∧ (encodeSd 0 minusSeven).isSome = true ∧
    (encodeSs 0 minusSeven).isSome = true ∧ (encodeSdd 0 minusSeven).isSome = true ∧ F64.isNaN minusSeven = false ∧
    (encodeSs 0 0x7ff8000000000000#64).isSome = true ∧ F64.isNaN 0x7ff8000000000000#64 = true := by decide +kernel

/-! ### Well-formed states -/

theorem shaped_demo (is : List Instr) (regs : List (Reg × F64)) : Shaped (demo is regs) := by
  obtain ⟨ir, fr, h⟩ := preloadRegs_frame regs (State.fresh Config.scenario (programOf is))
  rw [demo, h]
  exact shaped_fresh (c := Config.scenario) (by decide) (by decide) rfl rfl
    ⟨List.Pairwise.nil, fun c hc => (by cases hc)⟩ rfl rfl rfl

theorem linked_demo (is : List Instr) (regs : List (Reg × F64)) : Linked (demo is regs) ∧
    BranchInFlight (demo is regs) ∧ Idle (demo is regs) := by
  have hq : ∀ r, ((demo is regs).reg r).qi = none := preloadRegs_qi regs _ (fun r => by rw [reg_fresh])
  obtain ⟨ir, fr, h⟩ := preloadRegs_frame regs (State.fresh Config.scenario (programOf is))
  rw [demo, h] at hq ⊢
  refine ⟨linked_fresh (c := Config.scenario) rfl rfl rfl hq, fun hb => Bool.noConfusion (show false = true from hb),
    ⟨rfl, ?_, fun S hS => mem_freePool (c := Config.scenario) hS, rfl, rfl, rfl⟩⟩
  exact nodup_freePool Config.scenario

theorem answering_demo (is : List Instr) (regs : List (Reg × F64)) : Answering (demo is regs) := by
  obtain ⟨ir, fr, h⟩ := preloadRegs_frame regs (State.fresh Config.scenario (programOf is))
  rw [demo, h]
  refine answering_fresh (c := Config.scenario) rfl rfl fun o l => ?_
  cases o <;> simp [latOf, Config.scenario] <;> omega

theorem integer_demo (is : List Instr) (regs : List (Reg × F64))
    (hr : ∀ i : Fin 32, Integral ((demo is regs).reg (.r i)).value) : IntegerValued (demo is regs) := by
  obtain ⟨ir, fr, h⟩ := preloadRegs_frame regs (State.fresh Config.scenario (programOf is))
  rw [demo, h] at hr ⊢
  have hf : ∀ S ∈ freePool Config.scenario, S = Station.free S.name := fun S => mem_freePool
  refine ⟨hr, fun q hq => (by cases hq), fun S hS o v ho => ?_, fun S hS o T ho => ?_, fun S hS o r ho => ?_⟩ <;>
    · rw [hf S hS] at ho; cases ho

/-- Premises of the invariants, and a step that goes on. -/
theorem witness_Invariants : Shaped (demo [.daddi 1 2 5] []) ∧ Linked (demo [.daddi 1 2 5] []) ∧
    BranchInFlight (demo [.daddi 1 2 5] []) ∧ IntegerValued (demo [.daddi 1 2 5] []) ∧
    Answering (demo [.daddi 1 2 5] []) ∧ ∃ t, step (demo [.daddi 1 2 5] []) = .next t := by
  refine ⟨shaped_demo _ _, (linked_demo _ _).1, (linked_demo _ _).2.1, integer_demo _ _ ?_,
    answering_demo _ _, isNext_spec (by decide +kernel)⟩
  unfold Integral; decide +kernel

/-- A machine with one busy station that has or has not started, with n cycles left; once started, with none left, its
request is queued. -/
def oneBusy (started : Bool) (n : Nat) : State :=
  { holding { finishing .fpAdd .addD with execStarted := started, remainingCycles := n, a := none } with
    cdbQueue := if started && n == 0 then [⟨⟨.fpAdd, 1⟩, three, some (.f 1), .addD, 4⟩] else [] }

theorem linked_oneBusy {b : Bool} {n : Nat} (hn : 0 < n → b = true) : Linked (oneBusy b n) := by
  have hr : ∀ r, ((oneBusy b n).reg r).qi = none := fun r =>
    (congrArg RegCell.qi (reg_fresh Config.scenario [] r) : _)
  have hq : ∀ q ∈ (oneBusy b n).cdbQueue, b = true ∧ n = 0 ∧ q = ⟨⟨.fpAdd, 1⟩, three, some (.f 1), .addD, 4⟩ := fun q h => by
    simp only [oneBusy] at h
    split at h
    · next hb =>
      obtain ⟨h1, h2⟩ := Bool.and_eq_true_iff.1 hb
      exact ⟨h1, eq_of_beq h2, List.mem_singleton.1 h⟩
    · cases h
  refine ⟨(by decide : [(⟨.fpAdd, 1⟩ : Tag)].Nodup), fun S hS hb => ?_, fun S hS _ => ?_, fun S hS _ => ?_,
    fun S hS h => ?_, fun r T h => ?_, fun S hS T h => ?_, fun q h => ?_, fun e he => (by cases he), ?_,
    fun S hS _ hk => ?_⟩
  · obtain rfl := List.mem_singleton.1 hS; cases hb
  · obtain rfl := List.mem_singleton.1 hS
    exact ⟨.addD, 0, ⟨0, .addD, ⟨.fpAdd, 1⟩, some 1, some 2, none, none, none⟩, rfl, rfl, rfl, rfl, rfl, rfl, rfl, rfl,
      rfl, rfl⟩
  · obtain rfl := List.mem_singleton.1 hS; exact ⟨rfl, rfl, .inr rfl⟩
  · obtain rfl := List.mem_singleton.1 hS; exact ⟨hn h, rfl⟩
  · rw [hr r] at h; cases h
  · obtain rfl := List.mem_singleton.1 hS; rcases h with h | h <;> cases h
  · obtain ⟨hb, h0, rfl⟩ := hq q h; exact ⟨_, List.mem_singleton.2 rfl, rfl, rfl, hb, h0, rfl⟩
  · simp only [oneBusy]
    split
    · exact (by decide : [(⟨.fpAdd, 1⟩ : Tag)].Nodup)
    · exact List.nodup_nil
  · obtain rfl := List.mem_singleton.1 hS; cases hk

/-- A machine with one busy station whose request is queued. -/
def inFlight : State := oneBusy true 0

theorem linked_inFlight : Linked inFlight := linked_oneBusy fun _ => rfl

/-- ExecutePhaseServesEveryStation: a station that counts, one that completes, one that starts. -/
theorem witness_Execute : (Linked (oneBusy true 3) ∧ (oneBusy true 3).stations.map counting = [true]) ∧
    (Linked (oneBusy true 1) ∧ (oneBusy true 1).stations.map completing = [true]) ∧
    (Linked (oneBusy false 0) ∧ (oneBusy false 0).stations.map (startsWith (oneBusy false 0)) = [some 2]) :=
  ⟨⟨linked_oneBusy fun _ => rfl, by decide⟩, ⟨linked_oneBusy fun _ => rfl, by decide⟩,
    ⟨linked_oneBusy fun h => (by cases h), by decide⟩⟩

/-- Two stations count and two start in one Execute phase, in pool order; of the first, one completes (R151–R153). -/
theorem test_execute_all :
    (match executePhase { holding (finishing .fpAdd .addD) with
        stations := [{ finishing .fpAdd .addD with remainingCycles := 3 }, waiting .fpMul .mulD, finishing .intAdd .daddi,
          waiting .branch .beq] } with
      | .ok t => (t.stations.map fun S => (S.execStarted, S.remainingCycles), t.cdbQueue.map Request.station)
      | .error _ => ([], [])) = ([(true, 2), (true, 10), (true, 0), (true, 1)], [⟨.intAdd, 1⟩]) := by decide +kernel

/-- A terminated machine, and one with a queued request (TerminatedMachineIsQuiet). -/
theorem witness_Terminated : (Linked (demo [] []) ∧ BranchInFlight (demo [] []) ∧ (demo [] []).terminated = true) ∧
    (Linked inFlight ∧ BranchInFlight inFlight ∧ inFlight.cdbQueue ≠ []) :=
  ⟨⟨(linked_demo _ _).1, (linked_demo _ _).2.1, by decide⟩,
    ⟨linked_inFlight, fun hb => Bool.noConfusion (show false = true from hb), by decide⟩⟩

/-- A well-formed machine at the 2^32-th handover. -/
def lastHandover : State := { (demo [.lw 1 0 0] []) with nextSeq := 2 ^ 32 - 1 }

theorem witness_NotRefused : WellFormed lastHandover ∧ step lastHandover = .refused .seqOverflow := by
  have hs := shaped_demo [.lw 1 0 0] []
  have hl := (linked_demo [.lw 1 0 0] []).1
  have ha := answering_demo [.lw 1 0 0] []
  have hi := integer_demo [.lw 1 0 0] [] (by unfold Integral; decide +kernel)
  refine ⟨⟨⟨hs.block, hs.someLine, hs.lineCount, fun i L h => ?_, hs.memory, hs.stationOp, fun e he => (by cases he),
      List.Pairwise.nil, fun e he => (by cases he), by decide, hs.capacity⟩,
    ⟨hl.names, hl.free, hl.bound, hl.started, hl.counting, hl.regTag, hl.slotTag, hl.queued, hl.buffered, hl.once,
      fun S hS hb => absurd hb (by rw [(linked_demo [.lw 1 0 0] []).2.2.stations S hS]; exact Bool.noConfusion)⟩,
    fun hb => (linked_demo [.lw 1 0 0] []).2.1 hb,
    ⟨ha.latency, ha.answer⟩, ⟨hi.regs, hi.queued, hi.captured, hi.awaited, hi.destClass⟩, by decide +kernel⟩, ?_⟩
  · exact ⟨(hs.line i L h).size, (hs.line i L h).inside, (hs.line i L h).clean⟩
  · have h : (match step lastHandover with
        | .refused r => decide (r = .seqOverflow)
        | .next _ => false
        | .fault _ => false) = true := by decide +kernel
    revert h
    cases step lastHandover with
    | next t => intro h; cases h
    | fault f => intro h; cases h
    | refused r => intro h; simpa using h

/-! ### Memory -/

/-- Word addresses at both ends of memory. -/
theorem witness_Cache : Shaped (demo [] []) ∧ 0 % 4 = 0 ∧ 0 + 4 ≤ 2 ^ 20 ∧ (2 ^ 20 - 4) % 4 = 0 ∧
    2 ^ 20 - 4 + 4 ≤ 2 ^ 20 ∧ ([1, 2, 3, 4] : List Byte).length = 4 :=
  ⟨shaped_demo _ _, by decide, by decide, by decide, by decide, rfl⟩

/-- CacheReadGivesTheCoherentView and CacheWriteChangesOnlyItsWord: a state in which word 0 hits, and word 256 misses on a
victim that is valid and dirty. (In `demo` every access misses on a line that is not valid.) -/
theorem witness_Victim : ∃ t, Shaped t ∧ t.isHit 0 = true ∧ t.isHit 256 = false ∧
    ∃ L, t.lines[indexOf t.cfg 256]? = some L ∧ L.valid = true ∧ L.dirty = true := by
  obtain ⟨t, h, -, ht, -, hA⟩ := cacheWriteWord_spec (shaped_demo [] []) (a := 0) (bs := [1, 2, 3, 4]) rfl (by decide) rfl
  have h2 : (match cacheWriteWord 0 [1, 2, 3, 4] (demo [] []) with
      | .ok t => !t.isHit 256 && (t.lines[indexOf t.cfg 256]?).any fun L => L.valid && L.dirty
      | .error _ => false) = true := by decide +kernel
  rw [h] at h2
  obtain ⟨h3, h4⟩ := Bool.and_eq_true_iff.1 h2
  obtain ⟨L, hL, h5⟩ := (Option.any_eq_true _ _).1 h4
  exact ⟨t, ht, hA.isHit, by simpa using h3, L, hL, (Bool.and_eq_true_iff.1 h5).1, (Bool.and_eq_true_iff.1 h5).2⟩

/-- A written word stands in the cache, not in ByteMemory, until its line is evicted (R87, R89, R112): bytes 0 and 1 of
ByteMemory after a write at 0, and after a read at 256, which has the same line; two misses. -/
theorem test_write_back :
    (match cacheWriteWord 0 [1, 2, 3, 4] (demo [] []) with
      | .ok t =>
        (match cacheReadWord 256 t with
          | .ok (_, u) => ([t.mem.read 0, t.mem.read 1, u.mem.read 0, u.mem.read 1], u.hits, u.misses)
          | .error _ => ([], 0, 0))
      | .error _ => ([], 0, 0)) = ([0, 0, 1, 2], 0, 2) := by decide +kernel

/-- An entry of op o at address a. -/
def entryAt (o : OpCode) (a seq : Nat) : LsbEntry where
  seq := seq
  op := o
  address := a
  size := opSize o
  value := if opKind o = .store then some (List.replicate (opSize o) 7) else none
  remainingCycles := 3
  isLoad := opKind o == .load
  dest := none
  station := ⟨opKind o, 1⟩
  inst := 0
  started := false

theorem witness_Commit : Shaped (demo [] []) ∧
    (∀ o ∈ [OpCode.lw, .ld, .ls, .ldd], EntryOk (entryAt o (2 ^ 20 - 8) 0) ∧ (entryAt o 0 0).isLoad = true) ∧
    ∀ o ∈ [OpCode.sw, .sd, .ss, .sdd], EntryOk (entryAt o (2 ^ 20 - 8) 0) ∧ (entryAt o 0 0).isLoad = false ∧
      ∃ bs, (entryAt o 0 0).value = some bs := by
  refine ⟨shaped_demo _ _, fun o ho => ?_, fun o ho => ?_⟩ <;>
    simp only [List.mem_cons, List.not_mem_nil, or_false] at ho <;>
    rcases ho with rfl | rfl | rfl | rfl <;>
    first
      | exact ⟨⟨by decide, by decide, by decide, by decide, by decide, fun h => (by cases h)⟩, by decide⟩
      | exact ⟨⟨by decide, by decide, by decide, by decide, by decide, fun _ => ⟨_, rfl, by decide⟩⟩, by decide,
          ⟨_, rfl⟩⟩

/-- A machine whose LSB holds these entries. -/
def buffered (l : List LsbEntry) (n : Nat) : State := { (demo [] []) with lsb := l, nextSeq := n, cycle := 2 }

theorem shaped_buffered {l : List LsbEntry} {n : Nat} (he : ∀ e ∈ l, EntryOk e)
    (ho : l.Pairwise fun e e' => e.seq < e'.seq) (hb : ∀ e ∈ l, e.seq < n) (hn : n < 2 ^ 32) (hc : l.length ≤ 8) :
    Shaped (buffered l n) := by
  have hs := shaped_demo [] []
  exact ⟨hs.block, hs.someLine, hs.lineCount,
    fun i L h => ⟨(hs.line i L h).size, (hs.line i L h).inside, (hs.line i L h).clean⟩, hs.memory, hs.stationOp,
    he, ho, hb, hn, hc⟩

/-- An entry of `entryAt` with n cycles left is well-formed. -/
theorem entryOk_cycles {e : LsbEntry} (h : EntryOk e) (n : Nat) : EntryOk { e with remainingCycles := n } :=
  ⟨h.size, h.wide, h.aligned, h.inside, h.kind, h.data⟩

theorem entryOk_sdd : EntryOk (entryAt .sdd 0 0) :=
  ⟨by decide, by decide, by decide, by decide, by decide, fun _ => ⟨_, rfl, by decide⟩⟩

theorem entryOk_ldd : EntryOk (entryAt .ldd 4 1) :=
  ⟨by decide, by decide, by decide, by decide, by decide, fun h => (by cases h)⟩

theorem entryOk_lw : EntryOk (entryAt .lw 8 2) :=
  ⟨by decide, by decide, by decide, by decide, by decide, fun h => (by cases h)⟩

/-- `S.D` on bytes 0 to 7, `L.D` on 4 to 11, `LW` on 8 to 11; the loads at their last cycle, the store with n left. -/
def overlapping (n : Nat) : List LsbEntry :=
  [{ entryAt .sdd 0 0 with remainingCycles := n }, { entryAt .ldd 4 1 with remainingCycles := 1 },
    { entryAt .lw 8 2 with remainingCycles := 1 }]

/-- TickStallsCountsAndCommits: the `L.D` waits for the store that counts, the `LW` for the stalled `L.D`. -/
theorem witness_Overlap (n : Nat) : Shaped (buffered (overlapping n) 3) := by
  refine shaped_buffered (fun e he => ?_) ?_ (fun e he => ?_) (by decide) (by decide : 3 ≤ 8)
  · simp only [overlapping, List.mem_cons, List.not_mem_nil, or_false] at he
    rcases he with rfl | rfl | rfl
    · exact entryOk_cycles entryOk_sdd n
    · exact entryOk_cycles entryOk_ldd 1
    · exact entryOk_cycles entryOk_lw 1
  · simp [overlapping, entryAt]
  · simp only [overlapping, List.mem_cons, List.not_mem_nil, or_false] at he
    rcases he with rfl | rfl | rfl
    · exact (by decide : 0 < 3)
    · exact (by decide : 1 < 3)
    · exact (by decide : 2 < 3)

/-- A tick with the store counting stalls both loads; with the store at its last cycle it commits all three, since each
that commits blocks nothing (D13). -/
theorem test_tick_overlap : lsbSeqs (memoryPhase (buffered (overlapping 3) 3)) = some [(0, 2), (1, 1), (2, 1)] ∧
    lsbSeqs (memoryPhase (buffered (overlapping 1) 3)) = some [] := by decide +kernel

/-- An entry at its last cycle commits behind one that still counts, when they do not overlap (R98): here the `LW` behind
an `S.D`. -/
theorem test_tick_passes :
    (match memoryPhase (buffered [entryAt .sdd 0 0, { entryAt .lw 8 2 with remainingCycles := 1 }] 3) with
      | .ok t => (t.lsb.map LsbEntry.seq, t.cdbQueue.map fun q => (q.station, q.readyCycle))
      | .error _ => ([], [])) = ([0], [(⟨.load, 1⟩, 3)]) := by decide +kernel

/-- TickStallsCountsAndCommits: a linked machine with an entry in its buffer, one step from `LW R1, 0(R2)`. -/
theorem witness_Tick : ∃ t, step (demo [.lw 1 2 0] []) = .next t ∧ Shaped t ∧ Linked t ∧ t.lsb ≠ [] := by
  obtain ⟨t, h⟩ := isNext_spec (o := step (demo [.lw 1 2 0] [])) (by decide +kernel)
  have hf : field (fun t => t.lsb.length) (step (demo [.lw 1 2 0] [])) = some 1 := by decide +kernel
  have hs : earlyPhases (tick (demo [.lw 1 2 0] [])) = .ok (tick (demo [.lw 1 2 0] [])) := by decide +kernel
  rw [h] at hf
  have hi : issuePhase (tick (demo [.lw 1 2 0] [])) = .next t := by
    obtain ⟨-, ⟨-, e⟩ | ⟨-, e | ⟨u, hu, hI⟩⟩⟩ := step_next_cases h
    · subst e; cases Option.some.inj hf
    · rw [hs] at e; cases e
    · rw [hs] at hu; cases hu; exact hI
  have hd : Shaped (tick (demo [.lw 1 2 0] [])) :=
    (shaped_demo [.lw 1 2 0] []).congr rfl rfl rfl rfl rfl (shaped_demo [.lw 1 2 0] []).stationOp
  have hl : Linked (tick (demo [.lw 1 2 0] [])) :=
    (linked_demo [.lw 1 2 0] []).1.congr rfl (fun _ => reg_congr rfl rfl _) rfl (.of_eq rfl) rfl rfl rfl
  have hrec : (tick (demo [.lw 1 2 0] [])).recordAtCursor = some (.ok (.lw 1 2 0)) := by decide +kernel
  refine ⟨t, h, ?_, issuePhase_linked hl hi, fun e => by simp [field, e] at hf⟩
  rw [issuePhase, hrec] at hi
  exact issueRecord_shaped (o := .lw) (d := some (.r 1)) (j := .r 2) (k := none) (a := some 0) hd hi

/-- StepIssuesTheRecordAtTheCursor: a fatal error in the Write phase, in the Memory phase and in the deferred handover. -/
def busySource : State :=
  { setQi (.r 1) ⟨.load, 1⟩ (branching (.beq 1 2 1)) with
    stations := [finishing .branch .beq], cdbQueue := [⟨⟨.branch, 1⟩, 0, none, .beq, 0⟩] }

def pastMemory : State := { State.reset with lsb := [{ entryAt .lw (2 ^ 20) 0 with remainingCycles := 1 }] }

theorem witness_StepFatal :
    (busySource.fault = none ∧ busySource.terminated = false ∧ ∃ t, writePhase (tick busySource) = .error (.fatal t)) ∧
    (pastMemory.fault = none ∧ pastMemory.terminated = false ∧ writePhase (tick pastMemory) = .ok (tick pastMemory) ∧
      executePhase (tick pastMemory) = .ok (tick pastMemory) ∧
      ∃ t, memoryPhase (tick pastMemory) = .error (.fatal t)) ∧
    ((deferring [handing .load .lw 1 2 0]).fault = none ∧ (deferring [handing .load .lw 1 2 0]).terminated = false ∧
      (∀ f ∈ [writePhase, executePhase, memoryPhase],
        f (tick (deferring [handing .load .lw 1 2 0])) = .ok (tick (deferring [handing .load .lw 1 2 0]))) ∧
      ∃ t, deferredPhase (tick (deferring [handing .load .lw 1 2 0])) = .error (.fatal t)) :=
  ⟨⟨by decide +kernel, by decide +kernel, isFatal_spec (by decide +kernel)⟩,
    ⟨by decide +kernel, by decide +kernel, by decide +kernel, by decide +kernel, isFatal_spec (by decide +kernel)⟩,
    by decide +kernel, by decide +kernel, by decide +kernel, isFatal_spec (by decide +kernel)⟩

/-- OldestEntryCountsDown: the oldest entry of a buffer, with entries behind it and alone, at any count. -/
theorem witness_Oldest (n : Nat) : (∃ e l, l ≠ [] ∧ Shaped (buffered (overlapping n) 3) ∧
      (buffered (overlapping n) 3).lsb = e :: l ∧ e.remainingCycles = n) ∧
    Shaped (buffered [{ entryAt .ldd 4 1 with remainingCycles := n }] 2) := by
  refine ⟨⟨_, _, by simp, witness_Overlap n, rfl, rfl⟩,
    shaped_buffered (fun e he => ?_) (List.pairwise_singleton _ _) (fun e he => ?_) (by decide) (by decide : 1 ≤ 8)⟩
  · obtain rfl := List.mem_singleton.1 he
    exact entryOk_cycles entryOk_ldd n
  · obtain rfl := List.mem_singleton.1 he
    exact (by decide : 1 < 2)

/-! ### Reset and run -/

/-- A reset that succeeds, with a preload, an image without rivals, and a compute op. -/
theorem witness_Reset : (∃ s, hostReset input = .ok s) ∧ (input.image.map Prod.fst).Nodup ∧
    parseReg ['R', '2'] = some (.r 2) ∧ parseReg ['F', '0', '7'] = some (.f 7) ∧
    (∀ p ∈ input.preload, parseReg p.1 ≠ some (.r 3)) ∧ (∀ p ∈ input.image, p.1 ≠ ((7 : Nat) : Int)) ∧
    encodeRecord 0 (.daddi 1 2 5) ∈ input.prog ∧ OpCode.ofCode (encodeRecord 0 (.daddi 1 2 5)).op = some .daddi ∧
    opKind .daddi ≠ .load ∧ opKind .daddi ≠ .store ∧ rawLat input.cfg .daddi = some 1 ∧
    (input.cfg.lats.map Prod.fst).Nodup ∧ (OpCode.daddi, (1 : Int)) ∈ input.cfg.lats ∧
    (match hostReset input with | .ok s => latOf s.cfg .daddi | .error _ => none) = some 1 ∧
    (match hostReset input with | .ok s => [s.cfg.nLoad, s.cfg.lsbMax, s.cfg.missPenalty] | .error _ => []) = [2, 8, 10] :=
  ⟨passes_spec (by decide +kernel), by decide, by decide, by decide, by decide, by decide, by decide, by decide,
    by decide, by decide, by decide, by decide, by decide, by decide +kernel, by decide +kernel⟩

/-- A run at its bound. -/
theorem witness_CycleBound :
    { State.reset with cfg := { Config.scenario with maxCycles := some 1 }, cycle := 1 }.cfg.maxCycles = some 1 ∧
    1 ≤ { State.reset with cfg := { Config.scenario with maxCycles := some 1 }, cycle := 1 }.cycle ∧
    State.reset.fault = none := by decide

/-! ### Whole lifetimes -/

/-- One record in an idle machine whose registers are all ready. -/
theorem idle_demo (i : Instr) : Idle (demo [i] []) ∧ Shaped (demo [i] []) ∧
    (demo [i] []).cursor + 1 = (demo [i] []).prog.length ∧ ∀ r, ((demo [i] []).reg r).qi = none :=
  ⟨(linked_demo _ _).2.2, shaped_demo _ _, by simp [demo, preloadRegs, State.fresh, programOf],
    preloadRegs_qi [] _ fun r => by rw [reg_fresh]⟩

/-- One compute or branch record, the last one, everything ready: with `idle_demo`, every hypothesis of
IsolatedFpOpRunsToItsResult, IsolatedIntegerOpRunsToItsResult and IsolatedBranchResolves. -/
theorem witness_Isolated : (∀ p ∈ frOps, Idle (demo [p.2.2.1 1 2 3] []) ∧
      (demo [p.2.2.1 1 2 3] []).recordAtCursor = some (.ok (p.2.2.1 1 2 3)) ∧
      (demo [p.2.2.1 1 2 3] []).cursor + 1 = (demo [p.2.2.1 1 2 3] []).prog.length ∧
      FirstFree (demo [p.2.2.1 1 2 3] []) p.2.1 ⟨p.2.1, 1⟩ ∧
      (∃ L, latOf (demo [p.2.2.1 1 2 3] []).cfg p.1 = some L ∧ 1 ≤ L) ∧
      ((demo [p.2.2.1 1 2 3] []).reg (.f 2)).qi = none ∧ ((demo [p.2.2.1 1 2 3] []).reg (.f 3)).qi = none) ∧
    (∀ p ∈ iiOps, Idle (demo [p.2.1 1 2 3] []) ∧
      (demo [p.2.1 1 2 3] []).recordAtCursor = some (.ok (p.2.1 1 2 3)) ∧
      (demo [p.2.1 1 2 3] []).cursor + 1 = (demo [p.2.1 1 2 3] []).prog.length ∧
      FirstFree (demo [p.2.1 1 2 3] []) .intAdd ⟨.intAdd, 1⟩ ∧ latOf (demo [p.2.1 1 2 3] []).cfg p.1 = some 1 ∧
      ((demo [p.2.1 1 2 3] []).reg (.r 2)).qi = none) ∧
    ∀ p ∈ brOps, Idle (demo [p.2.1 1 2 1] []) ∧ programOk (demo [p.2.1 1 2 1] []).prog = true ∧
      (demo [p.2.1 1 2 1] []).recordAtCursor = some (.ok (p.2.1 1 2 1)) ∧
      FirstFree (demo [p.2.1 1 2 1] []) .branch ⟨.branch, 1⟩ ∧ latOf (demo [p.2.1 1 2 1] []).cfg p.1 = some 1 ∧
      ((demo [p.2.1 1 2 1] []).reg (.r 1)).qi = none ∧ ((demo [p.2.1 1 2 1] []).reg (.r 2)).qi = none := by
  have hf : ∀ p ∈ frOps, (demo [p.2.2.1 1 2 3] []).recordAtCursor = some (.ok (p.2.2.1 1 2 3)) ∧
      allocate p.2.1 (demo [p.2.2.1 1 2 3] []) = some ⟨p.2.1, 1⟩ ∧
      (latOf (demo [p.2.2.1 1 2 3] []).cfg p.1).any (fun L => decide (1 ≤ L)) = true := by decide +kernel
  have hi : ∀ p ∈ iiOps, (demo [p.2.1 1 2 3] []).recordAtCursor = some (.ok (p.2.1 1 2 3)) ∧
      allocate .intAdd (demo [p.2.1 1 2 3] []) = some ⟨.intAdd, 1⟩ ∧ latOf (demo [p.2.1 1 2 3] []).cfg p.1 = some 1 := by
    decide +kernel
  have hb : ∀ p ∈ brOps, (demo [p.2.1 1 2 1] []).recordAtCursor = some (.ok (p.2.1 1 2 1)) ∧
      allocate .branch (demo [p.2.1 1 2 1] []) = some ⟨.branch, 1⟩ ∧ latOf (demo [p.2.1 1 2 1] []).cfg p.1 = some 1 ∧
      programOk (demo [p.2.1 1 2 1] []).prog = true := by
    decide +kernel
  refine ⟨fun p hp => ?_, fun p hp => ?_, fun p hp => ?_⟩
  · obtain ⟨h1, -, h3, h4⟩ := idle_demo (p.2.2.1 1 2 3)
    refine ⟨h1, (hf p hp).1, h3, allocate_eq_some.1 (hf p hp).2.1, ?_, h4 _, h4 _⟩
    have h := (hf p hp).2.2
    revert h
    cases latOf (demo [p.2.2.1 1 2 3] []).cfg p.1 with
    | none => intro h; cases h
    | some L => intro h; exact ⟨L, rfl, by simpa using h⟩
  · obtain ⟨h1, -, h3, h4⟩ := idle_demo (p.2.1 1 2 3)
    exact ⟨h1, (hi p hp).1, h3, allocate_eq_some.1 (hi p hp).2.1, (hi p hp).2.2, h4 _⟩
  · obtain ⟨h1, -, -, h4⟩ := idle_demo (p.2.1 1 2 1)
    exact ⟨h1, (hb p hp).2.2.2, (hb p hp).1, allocate_eq_some.1 (hb p hp).2.1, (hb p hp).2.2.1, h4 _, h4 _⟩

/-- One memory record, the last one, with base 0 and offset 8, everything ready. -/
theorem witness_IsolatedMemory :
    (∀ p ∈ loadOps, Idle (demo [p.2.1 1 2 8] []) ∧ Shaped (demo [p.2.1 1 2 8] []) ∧
      (demo [p.2.1 1 2 8] []).recordAtCursor = some (.ok (p.2.1 1 2 8)) ∧
      (demo [p.2.1 1 2 8] []).cursor + 1 = (demo [p.2.1 1 2 8] []).prog.length ∧
      FirstFree (demo [p.2.1 1 2 8] []) .load ⟨.load, 1⟩ ∧ 1 ≤ (demo [p.2.1 1 2 8] []).cfg.lsbMax ∧
      (demo [p.2.1 1 2 8] []).nextSeq + 1 < 2 ^ 32 ∧ ((demo [p.2.1 1 2 8] []).reg (.r 2)).qi = none ∧
      F64.toInt? ((demo [p.2.1 1 2 8] []).reg (.r 2)).value = some 0 ∧ AddressOk (0 + (8 : I32).toInt) p.2.2.2 ∧
      1 ≤ frozenLatency (demo [p.2.1 1 2 8] []) 2 8 p.2.2.2) ∧
    ∀ p ∈ storeOps, Idle (demo [p.2.1 1 2 8] []) ∧ Shaped (demo [p.2.1 1 2 8] []) ∧
      (demo [p.2.1 1 2 8] []).recordAtCursor = some (.ok (p.2.1 1 2 8)) ∧
      (demo [p.2.1 1 2 8] []).cursor + 1 = (demo [p.2.1 1 2 8] []).prog.length ∧
      FirstFree (demo [p.2.1 1 2 8] []) .store ⟨.store, 1⟩ ∧ 1 ≤ (demo [p.2.1 1 2 8] []).cfg.lsbMax ∧
      (demo [p.2.1 1 2 8] []).nextSeq + 1 < 2 ^ 32 ∧ ((demo [p.2.1 1 2 8] []).reg (.r 2)).qi = none ∧
      ((demo [p.2.1 1 2 8] []).reg (p.2.2.1 1)).qi = none ∧
      F64.toInt? ((demo [p.2.1 1 2 8] []).reg (.r 2)).value = some 0 ∧ AddressOk (0 + (8 : I32).toInt) p.2.2.2.1 ∧
      (∃ bs, p.2.2.2.2 (demo [p.2.1 1 2 8] []).instances.length ((demo [p.2.1 1 2 8] []).reg (p.2.2.1 1)).value =
        some bs) ∧ 1 ≤ frozenLatency (demo [p.2.1 1 2 8] []) 2 8 p.2.2.2.1 := by
  have hl : ∀ p ∈ loadOps, (demo [p.2.1 1 2 8] []).recordAtCursor = some (.ok (p.2.1 1 2 8)) ∧
      allocate .load (demo [p.2.1 1 2 8] []) = some ⟨.load, 1⟩ ∧
      F64.toInt? ((demo [p.2.1 1 2 8] []).reg (.r 2)).value = some 0 ∧
      (0 ≤ (0 : Int) + (8 : I32).toInt ∧ (0 : Int) + (8 : I32).toInt + p.2.2.2 ≤ 2 ^ 20 ∧
        ((0 : Int) + (8 : I32).toInt) % 4 = 0) := by decide +kernel
  have hs : ∀ p ∈ storeOps, (demo [p.2.1 1 2 8] []).recordAtCursor = some (.ok (p.2.1 1 2 8)) ∧
      allocate .store (demo [p.2.1 1 2 8] []) = some ⟨.store, 1⟩ ∧
      F64.toInt? ((demo [p.2.1 1 2 8] []).reg (.r 2)).value = some 0 ∧
      (0 ≤ (0 : Int) + (8 : I32).toInt ∧ (0 : Int) + (8 : I32).toInt + p.2.2.2.1 ≤ 2 ^ 20 ∧
        ((0 : Int) + (8 : I32).toInt) % 4 = 0) ∧
      (p.2.2.2.2 (demo [p.2.1 1 2 8] []).instances.length
        ((demo [p.2.1 1 2 8] []).reg (p.2.2.1 1)).value).isSome = true := by decide +kernel
  have h1 : ∀ i, 1 ≤ (demo [i] []).cfg.lsbMax ∧ (demo [i] []).nextSeq + 1 < 2 ^ 32 := fun i => by
    show 1 ≤ Config.scenario.lsbMax ∧ 0 + 1 < 2 ^ 32
    decide
  refine ⟨fun p hp => ?_, fun p hp => ?_⟩ <;> obtain ⟨g1, g2, g3, g4⟩ := idle_demo (p.2.1 1 2 8)
  · exact ⟨g1, g2, (hl p hp).1, g3, allocate_eq_some.1 (hl p hp).2.1, (h1 _).1, (h1 _).2, g4 _, (hl p hp).2.2.1,
      (hl p hp).2.2.2, by unfold frozenLatency; omega⟩
  · exact ⟨g1, g2, (hs p hp).1, g3, allocate_eq_some.1 (hs p hp).2.1, (h1 _).1, (h1 _).2, g4 _, g4 _,
      (hs p hp).2.2.1, (hs p hp).2.2.2.1, Option.isSome_iff_exists.1 (hs p hp).2.2.2.2, by unfold frozenLatency; omega⟩

end Sys2Proof.Tests
end

section
/-! ## What a step keeps -/

namespace Sys2Proof.Machine

/-! ### The tag invariants (10_state.md R42, R43, 40_cycle_engine.md R180) -/

theorem tick_linked {s : State} (h : Linked s) : Linked (tick s) :=
  h.congr rfl (fun _ => reg_congr rfl rfl _) rfl (.of_eq rfl) rfl rfl rfl

theorem step_linked {s t : State} (hl : Linked s) (h : step s = .next t) : Linked t :=
  step_keeps (fun _ h => tick_linked h)
    (fun _ h => earlyPhases_all h (fun _ => writePhase_linked) (fun _ => executePhase_linked)
      (fun _ => memoryPhase_linked) (fun _ => deferredPhase_linked))
    (fun _ _ => issuePhase_linked) hl h

/-- A property that every phase keeps of linked states is one that every step keeps of them. -/
theorem step_keeps_linked {P : State → Prop} (hTick : ∀ s, P s → P (tick s))
    (hWrite : ∀ s, Linked s → P s → Cyc.All P (writePhase s))
    (hExecute : ∀ s, Linked s → P s → Cyc.All P (executePhase s))
    (hMemory : ∀ s, Linked s → P s → Cyc.All P (memoryPhase s))
    (hDeferred : ∀ s, Linked s → P s → Cyc.All P (deferredPhase s))
    (hIssue : ∀ s t, Linked s → P s → issuePhase s = .next t → P t)
    {s t : State} (hl : Linked s) (hs : P s) (h : step s = .next t) : P t := by
  refine (step_keeps (P := fun s => Linked s ∧ P s) (fun s h => ⟨tick_linked h.1, hTick s h.2⟩) (fun s h => ?_)
    (fun s t h hI => ⟨issuePhase_linked h.1 hI, hIssue s t h.1 h.2 hI⟩) ⟨hl, hs⟩ h).2
  exact earlyPhases_all h (fun s h => (writePhase_linked h.1).and (hWrite s h.1 h.2))
    (fun s h => (executePhase_linked h.1).and (hExecute s h.1 h.2))
    (fun s h => (memoryPhase_linked h.1).and (hMemory s h.1 h.2))
    (fun s h => (deferredPhase_linked h.1).and (hDeferred s h.1 h.2))

/-- Issue is blocked only while a branch is in flight (10_state.md R53): `Good` without its half about integers. -/
theorem step_inFlight {s t : State} (hl : Linked s) (hb : BranchInFlight s) (h : step s = .next t) :
    BranchInFlight t := by
  refine (step_keeps_linked (P := Good False True)
    (hTick := fun _ h => h.congr (fun _ => reg_congr rfl rfl _) rfl rfl rfl)
    (hWrite := fun _ hl h => writePhase_good hl h)
    (hExecute := fun _ _ h => executePhase_good h)
    (hMemory := fun s hl h => lsbTickFrom_good [] s.lsb s hl h)
    (hDeferred := fun _ _ h => deferredPhase_good h)
    (hIssue := fun _ _ hl h hI => issuePhase_good hl h hI) hl ?_ h).2 trivial
  exact ⟨False.elim, fun _ => hb⟩

theorem issuePhase_shaped {s t : State} (hs : Shaped s) (h : issuePhase s = .next t) : Shaped t := by
  unfold issuePhase at h
  split at h
  · cases h; exact hs
  · cases h
  · next i _ => cases i <;> exact issueRecord_shaped hs h

theorem tick_shaped {s : State} (h : Shaped s) : Shaped (tick s) := h.congr rfl rfl rfl rfl rfl h.stationOp

theorem memoryPhase_shaped_answering {s : State} (hs : Shaped s) (ha : Answering s) :
    Cyc.All (fun t => Shaped t ∧ Answering t) (memoryPhase s) := by
  obtain ⟨t, ht, hst⟩ := memoryPhase_shaped hs
  have hat := memoryPhase_answering hs ha
  rw [ht] at hat ⊢
  exact ⟨hst, hat⟩

/-- Every started station will answer (40_cycle_engine.md R180); the Memory phase keeps that in a well-formed memory
system, which the step therefore carries along. -/
theorem step_answering {s t : State} (hl : Linked s) (hs : Shaped s) (ha : Answering s) (h : step s = .next t) :
    Answering t := by
  refine (step_keeps_linked (P := fun s => Shaped s ∧ Answering s)
    (hTick := fun _ ⟨hs, ha⟩ => ⟨tick_shaped hs, ha.congr rfl rfl rfl rfl⟩)
    (hWrite := fun _ hl ⟨hs, ha⟩ => (writePhase_shaped hs).and (writePhase_answering hl ha))
    (hExecute := fun _ hl ⟨hs, ha⟩ => (executePhase_shaped hs).and (executePhase_answering hl ha))
    (hMemory := fun _ _ ⟨hs, ha⟩ => memoryPhase_shaped_answering hs ha)
    (hDeferred := fun _ _ ⟨hs, ha⟩ => (deferredPhase_shaped hs).and (deferredPhase_answering ha))
    (hIssue := fun _ _ _ ⟨hs, ha⟩ hI => ⟨issuePhase_shaped hs hI, issuePhase_answering ha hI⟩) hl ?_ h).2
  exact ⟨hs, ha⟩

/-- Settles O47: each phase keeps the three invariants on linked states, so each step does. -/
theorem tagInvariantsAreKept : Obligations.TagInvariantsAreKept := fun _ _ hl h =>
  ⟨step_linked hl h, fun hb => step_inFlight hl hb h, fun hs ha => step_answering hl hs ha h⟩

/-! ### The configuration, the program and the cycle number (00_scope.md R8, 30_encoding.md R120) -/

/-- The configuration, the program and the cycle number are those of `s`. -/
structure SameRun (s t : State) : Prop where
  cfg : t.cfg = s.cfg
  prog : t.prog = s.prog
  cycle : t.cycle = s.cycle

theorem SameRun.refl (s : State) : SameRun s s := ⟨rfl, rfl, rfl⟩

theorem SameRun.trans {s t u : State} (h : SameRun s t) (h' : SameRun t u) : SameRun s u :=
  ⟨h'.cfg.trans h.cfg, h'.prog.trans h.prog, h'.cycle.trans h.cycle⟩

theorem Frame.sameRun {s t : State} (h : Frame s t) : SameRun s t := ⟨h.cfg, h.prog, h.cycle⟩

theorem broadcastCore_sameRun (q : Request) (rest : List Request) (s : State) :
    SameRun s (broadcastCore q { s with cdbQueue := rest }) := ⟨by simp, by simp, by simp⟩

theorem resolve_sameRun (i : Nat) (s : State) : Cyc.All (SameRun s) (resolve i s) := by
  obtain ⟨r, h⟩ | ⟨_, _, _, _, _, target, -, -, -, -, ⟨x, -, -, h⟩ | ⟨-, -, b, h⟩⟩ :=
    resolve_cases (i := i) (s := s) rfl <;> rw [h]
  · trivial
  · exact ⟨rfl, rfl, rfl⟩
  · exact ⟨by simp, by simp, by simp⟩

theorem writePhase_sameRun (s : State) : Cyc.All (SameRun s) (writePhase s) := by
  obtain ⟨-, h⟩ | ⟨q, rest, -, ⟨-, h⟩ | ⟨-, ⟨i, -, h⟩ | ⟨-, h⟩⟩⟩ := writePhase_cases (s := s) rfl <;> rw [h]
  · exact .refl s
  · exact broadcastCore_sameRun q rest s
  · exact (resolve_sameRun i _).mono fun _ h => (broadcastCore_sameRun q rest s).trans h
  · trivial

theorem earlyPhases_sameRun (s : State) : Cyc.All (SameRun s) (earlyPhases s) :=
  earlyPhases_frame (writePhase_sameRun s) fun _ _ h h' => h.trans h'.sameRun

theorem captured_sameRun (T : Tag) (o : OpCode) (d : Option Reg) (j : Reg) (k : Option Reg) (a : Option I32)
    (s : State) : SameRun s (captured T o d j k a s) := ⟨by simp, by simp, by simp⟩

theorem issueRecord_sameRun {s t : State} {o : OpCode} {d : Option Reg} {j : Reg} {k : Option Reg} {a : Option I32}
    (h : issueRecord o d j k a s = .next t) : SameRun s t := by
  obtain h' | ⟨T, -, -, ⟨-, h'⟩ | ⟨-, -, -, h'⟩ | ⟨-, -, -, h'⟩⟩ := issueRecord_cases o d j k a s <;> rw [h'] at h
  · cases h; exact .refl s
  · cases h
    split <;> exact (captured_sameRun T o d j k a s).trans ⟨rfl, rfl, rfl⟩
  · cases h
    exact (captured_sameRun T o d j k a s).trans ⟨rfl, rfl, rfl⟩
  · have hh := handover_frame T (captured T o d j k a s)
    split at h
    · next u he =>
      cases h
      rw [he] at hh
      have hu : SameRun _ u := Frame.sameRun hh
      exact (captured_sameRun T o d j k a s).trans (hu.trans ⟨rfl, rfl, rfl⟩)
    · next u he =>
      cases h
      rw [he] at hh
      exact (captured_sameRun T o d j k a s).trans (Frame.sameRun hh)
    · cases h

theorem issuePhase_sameRun {s t : State} (h : issuePhase s = .next t) : SameRun s t := by
  unfold issuePhase at h
  split at h
  · cases h; exact .refl s
  · cases h
  · next i _ => cases i <;> exact issueRecord_sameRun h

/-- A step of a machine that has not terminated counts one cycle, and its phases leave the run's constants alone. -/
theorem step_sameRun {s t : State} (h : step s = .next t) :
    (s.terminated = true ∧ t = s) ∨ (s.terminated = false ∧ SameRun (tick s) t) := by
  obtain ⟨-, h | ⟨hn, h⟩⟩ := step_next_cases h
  · exact .inl h
  · refine .inr ⟨hn, ?_⟩
    have hE := earlyPhases_sameRun (tick s)
    obtain h | ⟨u, hu, hI⟩ := h
    · rw [h] at hE; exact hE
    · rw [hu] at hE; exact SameRun.trans hE (issuePhase_sameRun hI)

/-- Settles O7: no phase writes the configuration, the program or the cycle number; only `tick` counts. -/
theorem stepCountsOneCycleAndKeepsTheProgram : Obligations.StepCountsOneCycleAndKeepsTheProgram := by
  intro s t h
  obtain ⟨ht, rfl⟩ | ⟨-, h⟩ := step_sameRun h
  · exact ⟨rfl, rfl, fun hn => absurd ht (by simp [hn])⟩
  · exact ⟨h.cfg, h.prog, fun _ => h.cycle⟩

end Sys2Proof.Machine
end

section
/-! ## Arithmetic on exact numbers (00_scope.md R13, 43_fp_arith.md R241, R242) -/

namespace Sys2Proof.Machine

/-! ### Correct rounding -/

/-- The overflow bound over a positive denominator, on naturals and on integers. -/
theorem overflowBound_cast (den : Nat) :
    (((2 ^ 1024 - 2 ^ 970) * 2 ^ 1074 * den : Nat) : Int) = (2 ^ 1024 - 2 ^ 970) * 2 ^ 1074 * |(den : Int)| := by
  have hle : 2 ^ 970 ≤ 2 ^ 1024 := by gcongr <;> omega
  rw [abs_of_nonneg (Int.natCast_nonneg den), Nat.cast_mul, Nat.cast_mul, Nat.cast_sub hle]
  simp only [Nat.cast_pow, Nat.cast_ofNat]

/-- The number of a sign and a magnitude. -/
def signed (s : Bool) (m : Nat) : Int := if s then -(m : Int) else m

theorem abs_signed (s : Bool) (m : Nat) : |signed s m| = m := by cases s <;> simp [signed]

theorem scaled_eq_signed (v : F64) : F64.scaled v = signed (F64.sign v) (F64.scaledMag v) := rfl

theorem signed_natAbs (z : Int) : signed (decide (z < 0)) z.natAbs = z := by
  unfold signed
  split <;> rename_i h <;> simp only [decide_eq_true_eq] at h <;> omega

theorem signed_mul (s : Bool) (m n : Nat) : signed s m * (n : Int) = signed s (m * n) := by
  cases s <;> simp [signed]

theorem signed_mul_signed (s t : Bool) (m n : Nat) : signed s m * signed t n = signed (s != t) (m * n) := by
  cases s <;> cases t <;> simp [signed]

theorem signed_not (s : Bool) (m : Nat) : signed (!s) m = -signed s m := by cases s <;> simp [signed]

/-- A fraction of opposite signs above and below is the same number. -/
theorem CorrectlyRounded.neg_neg {v : F64} {z k : Int} (h : CorrectlyRounded v z k) : CorrectlyRounded v (-z) (-k) := by
  have hd : ∀ w : F64, |F64.scaled w * -k - -z| = |F64.scaled w * k - z| := fun w => by
    rw [← abs_neg]; ring_nf
  unfold CorrectlyRounded at h ⊢
  simpa only [neg_ne_zero, neg_mul_neg, abs_neg, hd] using h

/-- `F64.round` rounds the number of its sign and quotient correctly. -/
theorem correctlyRounded_round (s : Bool) (num : Nat) {den : Nat} (hden : 0 < den) :
    CorrectlyRounded (F64.round s num den) (signed s num) den := by
  have hlt : |signed s num| < (2 ^ 1024 - 2 ^ 970) * 2 ^ 1074 * |(den : Int)| ↔
      F64.isFinite (F64.round s num den) = true := by
    rw [F64.isFinite_round_bound hden, abs_signed, ← overflowBound_cast, Nat.cast_lt]
  refine ⟨fun hz => ?_, fun h => ?_, fun h => ?_⟩
  · have hnum : 0 < num := by
      by_contra h0
      obtain rfl : num = 0 := by omega
      exact hz (by cases s <;> rfl)
    have hpos : 0 < (num : Int) * den := by positivity
    rw [F64.sign_round, signed_mul]
    cases s <;> simp [signed] <;> omega
  · exact ⟨hlt.1 h, fun w _ => F64.round_nearest hden (hlt.1 h) w⟩
  · rw [F64.isInf_round, Bool.not_eq_true', ← Bool.not_eq_true, ← hlt]
    exact not_lt.2 h

/-- A zero of either sign is the exact 0. -/
theorem correctlyRounded_zero (s : Bool) : CorrectlyRounded (F64.zero s) 0 1 := by
  have h := correctlyRounded_round s 0 Nat.one_pos
  rwa [F64.round_nothing, show signed s 0 = 0 by cases s <;> rfl] at h

theorem correctlyRounded_roundInt (z : Int) : CorrectlyRounded (F64.round (decide (z < 0)) z.natAbs 1) z 1 := by
  have h := correctlyRounded_round (decide (z < 0)) z.natAbs Nat.one_pos
  rwa [signed_natAbs] at h

/-! ### The four operations on finite values -/

/-- The units in 1.0, as an integer. -/
theorem unit64_cast : (unit64 : Int) = 2 ^ 1074 := by rw [unit64_eq, Nat.cast_pow, Nat.cast_ofNat]

theorem F64.add_of_finite (n : NaN64) {x y : F64} (hx : F64.isFinite x = true) (hy : F64.isFinite y = true) :
    F64.add n x y = if F64.scaled x + F64.scaled y = 0 then F64.zero (F64.sign x && F64.sign y)
      else F64.round (decide (F64.scaled x + F64.scaled y < 0)) (F64.scaled x + F64.scaled y).natAbs 1 := by
  simp [F64.add, F64.notNaN_of_isFinite hx, F64.notNaN_of_isFinite hy]

theorem F64.mul_of_finite (n : NaN64) {x y : F64} (hx : F64.isFinite x = true) (hy : F64.isFinite y = true) :
    F64.mul n x y = F64.round (F64.sign x != F64.sign y) (F64.scaledMag x * F64.scaledMag y) unit64 := by
  simp [F64.mul, F64.notNaN_of_isFinite hx, F64.notNaN_of_isFinite hy]

theorem F64.div_of_finite (n : NaN64) {x y : F64} (hx : F64.isFinite x = true) (hy : F64.isFinite y = true)
    (h0 : F64.isZero y = false) :
    F64.div n x y = F64.round (F64.sign x != F64.sign y) (F64.scaledMag x * unit64) (F64.scaledMag y) := by
  simp [F64.div, F64.notNaN_of_isFinite hx, F64.notNaN_of_isFinite hy, h0]

theorem F64.add_correctlyRounded (n : NaN64) {x y : F64} (hx : F64.isFinite x = true) (hy : F64.isFinite y = true) :
    CorrectlyRounded (F64.add n x y) (F64.scaled x + F64.scaled y) 1 := by
  rw [F64.add_of_finite n hx hy]
  split
  · next hz => rw [hz]; exact correctlyRounded_zero _
  · exact correctlyRounded_roundInt _

theorem F64.mul_correctlyRounded (n : NaN64) {x y : F64} (hx : F64.isFinite x = true) (hy : F64.isFinite y = true) :
    CorrectlyRounded (F64.mul n x y) (F64.scaled x * F64.scaled y) unit64 := by
  rw [F64.mul_of_finite n hx hy, scaled_eq_signed, scaled_eq_signed, signed_mul_signed]
  exact correctlyRounded_round _ _ unit64_pos

/-- The quotient: the sign of a negative divisor is moved above it. -/
theorem F64.div_correctlyRounded (n : NaN64) {x y : F64} (hx : F64.isFinite x = true) (hy : F64.isFinite y = true)
    (h0 : F64.isZero y = false) : CorrectlyRounded (F64.div n x y) (F64.scaled x * unit64) (F64.scaled y) := by
  have hpos : 0 < F64.scaledMag y := Nat.pos_of_ne_zero fun h => by simp [F64.isZero_iff.2 h] at h0
  have h := correctlyRounded_round (F64.sign x != F64.sign y) (F64.scaledMag x * unit64) hpos
  rw [F64.div_of_finite n hx hy h0, scaled_eq_signed, scaled_eq_signed, signed_mul]
  cases hs : F64.sign y with
  | false => simpa [hs, signed] using h
  | true =>
    rw [hs, Bool.bne_true] at h
    have h := h.neg_neg
    rw [signed_not, neg_neg] at h
    rwa [Bool.bne_true]

/-- Settles O23: the difference is the sum with the second operand's sign changed. -/
theorem sumAndDifferenceAreCorrectlyRounded : Obligations.SumAndDifferenceAreCorrectlyRounded := by
  intro n x y hx hy
  refine ⟨F64.add_correctlyRounded n hx hy, ?_⟩
  have h := F64.add_correctlyRounded n hx ((F64.isFinite_neg y).trans hy)
  rwa [F64.scaled_neg, ← sub_eq_add_neg] at h

/-- Settles O24: product and quotient are one rounding of the exact quotient of naturals, their sign apart. -/
theorem productAndQuotientAreCorrectlyRounded : Obligations.ProductAndQuotientAreCorrectlyRounded := by
  intro n x y hx hy
  rw [← unit64_cast]
  exact ⟨F64.mul_correctlyRounded n hx hy, F64.div_correctlyRounded n hx hy⟩

/-! ### Equality (44_branch.md R272) -/

theorem F64.eq_iff {x y : F64} : F64.eq x y = true ↔
    F64.isNaN x = false ∧ F64.isNaN y = false ∧ (x = y ∨ F64.isZero x = true ∧ F64.isZero y = true) := by
  simp [F64.eq, and_assoc]

/-- Finite values are equal exactly when they are the same number. -/
theorem F64.eq_iff_scaled {x y : F64} (hx : F64.isFinite x = true) (hy : F64.isFinite y = true) :
    F64.eq x y = true ↔ F64.scaled x = F64.scaled y := by
  refine ⟨fun h => ?_, F64.eq_of_scaled hx hy⟩
  obtain ⟨-, -, rfl | ⟨h1, h2⟩⟩ := F64.eq_iff.1 h
  · rfl
  · rw [F64.isZero_iff] at h1 h2
    simp [F64.scaled, h1, h2]

/-- Infinities of one sign are one value. -/
theorem F64.eq_infinity {x : F64} (hx : F64.isInf x = true) : x = F64.infinity (F64.sign x) := by
  have hi := F64.isInf_infinity (F64.sign x)
  simp only [F64.isInf, Bool.and_eq_true, beq_iff_eq] at hx hi
  refine F64.ext_mag (F64.sign_infinity _).symm ?_
  simp only [F64.scaledMag, hx, hi]

/-- Infinities are equal exactly when their signs are. -/
theorem F64.eq_iff_sign {x y : F64} (hx : F64.isInf x = true) (hy : F64.isInf y = true) :
    F64.eq x y = true ↔ F64.sign x = F64.sign y := by
  obtain ⟨nx, -, zx⟩ := F64.notNaN_of_isInf hx
  have ny := (F64.notNaN_of_isInf hy).1
  rw [F64.eq_iff]
  constructor
  · rintro ⟨-, -, rfl | ⟨h, -⟩⟩
    · rfl
    · rw [zx] at h; cases h
  · intro hs
    exact ⟨nx, ny, .inl (by rw [F64.eq_infinity hx, F64.eq_infinity hy, hs])⟩

theorem F64.eq_comm (x y : F64) : F64.eq x y = F64.eq y x := by
  rw [Bool.eq_iff_iff, F64.eq_iff, F64.eq_iff]
  constructor <;> rintro ⟨h1, h2, h | ⟨h3, h4⟩⟩ <;> simp_all

theorem F64.eq_inf_finite {x y : F64} (hx : F64.isInf x = true) (hy : F64.isFinite y = true) : F64.eq x y = false := by
  obtain ⟨-, fx, zx⟩ := F64.notNaN_of_isInf hx
  rw [← Bool.not_eq_true, F64.eq_iff]
  rintro ⟨-, -, rfl | ⟨h, -⟩⟩
  · rw [fx] at hy; cases hy
  · rw [zx] at h; cases h

/-- Settles O34, by the classes of the two values. -/
theorem branchEqualityIsIeee : Obligations.BranchEqualityIsIeee := by
  intro x y
  refine ⟨fun h => ?_, F64.eq_iff_scaled, F64.eq_iff_sign,
    fun hx hy => ⟨F64.eq_inf_finite hx hy, (F64.eq_comm y x).trans (F64.eq_inf_finite hx hy)⟩, by decide⟩
  rcases h with h | h <;> simp [F64.eq, h]

/-! ### Integers and loads (20_memory.md R79) -/

theorem F64.ofInt_correctlyRounded (z : Int) : CorrectlyRounded (F64.ofInt z) (z * 2 ^ 1074) 1 := by
  have h := correctlyRounded_round (decide (z < 0)) (z.natAbs * unit64) Nat.one_pos
  rwa [← signed_mul, signed_natAbs, unit64_cast] at h

/-- The sign extension of a word is its two's-complement reading. -/
theorem signExtend_toNat {w : Nat} (x : BitVec w) : signExtend w x.toNat = x.toInt := by
  unfold signExtend
  rw [BitVec.toInt_eq_toNat_cond]
  cases w with
  | zero => simp [BitVec.of_length_zero (x := x)]
  | succ w =>
    simp only [Nat.add_sub_cancel, Nat.pow_succ']
    split <;> split <;> omega

/-- Settles O36: the bytes, one after the other, are the word that the codec reads. -/
theorem loadsDecodeTheirBytes : Obligations.LoadsDecodeTheirBytes := by
  refine ⟨fun z => ⟨F64.ofInt_correctlyRounded z, fun hz => F64.toInt?_ofInt ?_⟩, ?_, ?_⟩
  · rw [Int.abs_eq_natAbs] at hz
    omega
  · show F64.round false (0 * unit64) 1 = _
    rw [Nat.zero_mul, F64.round_nothing]
    rfl
  · intro i b0 b1 b2 b3 b4 b5 b6 b7
    refine ⟨?_, ?_, ?_⟩
    · rw [decodeLw, ← toNat_append_four, signExtend_toNat]
    · rw [decodeLd, ← toNat_append_eight, signExtend_toNat]
    · rw [decodeLdd, ← toNat_append_eight, BitVec.ofNat_toNat, BitVec.setWidth_eq]

end Sys2Proof.Machine
end

section
/-! ## The reset (70_reset_and_hazards.md R330 to R334) -/

namespace Sys2Proof.Machine

/-! ### Latencies (R331) -/

theorem mem_computeOps {o : OpCode} (h1 : opKind o ≠ .load) (h2 : opKind o ≠ .store) : o ∈ computeOps := by
  cases o <;> simp [computeOps, opKind] at h1 h2 ⊢

theorem kindIsMem_eq_false {k : Kind} (h1 : k ≠ .load) (h2 : k ≠ .store) : kindIsMem k = false := by
  cases k <;> simp [kindIsMem] at h1 h2 ⊢

/-- A compute op that passes the check of its latency has one. -/
theorem checkLatency_ok {c : RawConfig} {o : OpCode} (h : checkLatency c o = .ok ()) (hm : kindIsMem (opKind o) = false) :
    ∃ l, rawLat c o = some l := by
  unfold checkLatency at h
  rw [hm] at h
  split at h
  · next hf => cases hf
  · split at h
    · cases h
    · next l hl => exact ⟨l, hl⟩

/-- When the check of the program's latencies passes, each op that occurs in it passed its own. -/
theorem checkLatencies_ok {c : RawConfig} {rs : List Record} (h : checkLatencies c rs = .ok ()) {r : Record} {o : OpCode}
    (hr : r ∈ rs) (ho : OpCode.ofCode r.op = some o) : checkLatency c o = .ok () := by
  induction rs with
  | nil => cases hr
  | cons a rs ih =>
    simp only [checkLatencies] at h
    rcases List.mem_cons.1 hr with rfl | hr
    · rw [ho] at h
      dsimp only at h
      split at h
      · cases h
      · next hc => exact hc
    · split at h
      · exact ih h hr
      · split at h
        · cases h
        · exact ih h hr

/-- A compute op, and only one, is configured with the latency that the host gave it. -/
theorem latOf_eq_some {r : RawConfig} {c : Config} (h : checkConfig r = .ok c) {o : OpCode} {l : Nat} :
    latOf c o = some l ↔ o ∈ computeOps ∧ rawLat r o = some (l : Int) := by
  obtain ⟨-, -, hlat, hgiven⟩ := checkConfig_ok h
  rw [latOf_latencies hlat]
  split
  · next ho =>
    rw [Option.map_eq_some_iff]
    constructor
    · rintro ⟨z, hz, rfl⟩
      have := hgiven o ho z hz
      exact ⟨ho, by rw [Int.toNat_of_nonneg (by omega), hz]⟩
    · rintro ⟨-, hl⟩
      exact ⟨l, hl, by omega⟩
  · next ho => simp [ho]

/-- The configuration of a reset state has passed its check, and so have the latencies of the program. -/
theorem hostReset_checks {inp : ResetInput} {s : State} (h : hostReset inp = .ok s) :
    checkConfig inp.cfg = .ok s.cfg ∧ checkLatencies inp.cfg inp.prog = .ok () := by
  obtain ⟨c, ps, cs, hc, -, -, -, hl, rfl⟩ := hostReset_ok h
  obtain ⟨ir, fr, hp⟩ := preloadRegs_frame ps (State.fresh c inp.prog)
  rw [hp]
  exact ⟨hc, hl⟩

/-- Settles O54: the configured latency of a compute op is the host's first pair, which the checks have passed. -/
theorem resetDemandsALatencyOfEveryComputeOp : Obligations.ResetDemandsALatencyOfEveryComputeOp := by
  intro inp s h
  obtain ⟨hc, hl⟩ := hostReset_checks h
  have hgiven : ∀ o l, opKind o ≠ .load → opKind o ≠ .store → rawLat inp.cfg o = some l →
      1 ≤ l ∧ latOf s.cfg o = some l.toNat := by
    intro o l h1 h2 hr
    have ho := mem_computeOps h1 h2
    have h1l := (checkConfig_ok hc).2.2.2 o ho l hr
    exact ⟨h1l, (latOf_eq_some hc).2 ⟨ho, by rw [Int.toNat_of_nonneg (by omega), hr]⟩⟩
  refine ⟨fun r o hr ho h1 h2 => ?_, fun o l hol => ?_, fun hn o l hm h1 h2 => ?_, fun o l hol => ?_,
    fun o l h1 h2 hr => (hgiven o l h1 h2 hr).1⟩
  · obtain ⟨l, hrl⟩ := checkLatency_ok (checkLatencies_ok hl hr ho) (kindIsMem_eq_false h1 h2)
    exact ⟨_, (hgiven o l h1 h2 hrl).2⟩
  · exact ⟨latOf_pos hc o l hol, rawLat_mem ((latOf_eq_some hc).1 hol).2⟩
  · exact hgiven o l h1 h2 (rawLat_of_mem hn hm)
  · exact ((latOf_eq_some hc).1 hol).2

/-! ### The reset states -/

/-- With every station free and nothing queued, only the registers have integers to hold. -/
theorem integer_fresh {s : State} {c : Config} (hst : s.stations = freePool c) (hcq : s.cdbQueue = [])
    (hr : ∀ i : Fin 32, Integral (s.reg (.r i)).value) : IntegerValued s := by
  have hop : ∀ S ∈ s.stations, S.op = none := fun S hS => by
    rw [mem_freePool (c := c) (S := S) (hst ▸ hS)]
    rfl
  refine ⟨hr, by simp [hcq], fun S hS o v ho => ?_, fun S hS o T ho => ?_, fun S hS o r ho => ?_⟩ <;>
    simp [hop S hS] at ho

theorem integral_zero : Integral 0 := by unfold Integral; decide

/-- The fresh state with a checked preload, image and program is well-formed. -/
theorem wellFormed_loaded {c : Config} {p : List Record} {ps : List (Reg × F64)} {cs : List (Nat × Byte)}
    (hb : blockSizeOk c.blockSize = true) (hc : c.blockSize ≤ c.cacheSize)
    (hlat : ∀ o l, latOf c o = some l → 1 ≤ l) (hps : ∀ q ∈ ps, ∀ i, q.1 = .r i → Integral q.2)
    (hcs : ∀ q ∈ cs, q.1 < memSize) (hp : programOk p = true) :
    WellFormed (loadImage cs (preloadRegs ps (State.fresh c p))) := by
  have hqi := preloadRegs_qi ps (State.fresh c p) fun r => by rw [reg_fresh]
  have hint := preloadRegs_value ps (State.fresh c p) (fun r v => ∀ i, r = .r i → Integral v)
    (fun r _ _ => by rw [reg_fresh]; exact integral_zero) hps
  obtain ⟨ir, fr, hs⟩ := preloadRegs_frame ps (State.fresh c p)
  rw [hs] at hqi hint ⊢
  exact {
    shaped := shaped_fresh hb hc rfl rfl (image_wf cs [] ⟨.nil, by simp⟩ hcs) rfl rfl rfl
    linked := linked_fresh (c := c) rfl rfl rfl hqi
    inFlight := fun h => absurd h Bool.false_ne_true
    answering := answering_fresh (c := c) rfl rfl hlat
    integer := integer_fresh (c := c) rfl rfl fun i => hint (.r i) i rfl
    program := hp }

/-- A program that passes its check (R330 step 4). -/
theorem checkProgram_ok {p : List Record} (h : checkProgram p = .ok ()) : programOk p = true := by
  unfold checkProgram at h
  split at h
  · next hn => rw [programOk, hn]; rfl
  · cases h
  · cases h

theorem hostReset_wellFormed {inp : ResetInput} {s : State} (h : hostReset inp = .ok s) : WellFormed s := by
  obtain ⟨c, ps, cs, hc, hps, hcs, hp, -, rfl⟩ := hostReset_ok h
  obtain ⟨hgiven, hblock, -, -⟩ := checkConfig_ok hc
  refine wellFormed_loaded hblock hgiven.blockSize.2.2.2.1 (latOf_pos hc) ?_ ?_ (checkProgram_ok hp)
  · intro q hq i hi
    obtain ⟨hin, hout, -, -⟩ := checkPreload_ok hps
    obtain ⟨p, hpl, hpr, hv⟩ := hout q hq
    obtain ⟨r, hr, -, hok⟩ := hin p hpl
    rw [hpr, hi] at hr
    cases hr
    rw [← hv]
    exact hok
  · obtain ⟨rfl, himg⟩ := checkImage_ok hcs
    intro q hq
    obtain ⟨p, hpm, rfl⟩ := List.mem_map.1 hq
    have := himg p hpm
    dsimp only
    omega

/-- Every latency of Configuration S is at least 1 (log 2). -/
theorem latOf_scenario_pos (o : OpCode) (l : Nat) (h : latOf Config.scenario o = some l) : 1 ≤ l := by
  cases o <;> cases h <;> decide

/-- Settles O49: a reset loads a checked preload, image and program into the fresh state of a checked configuration. -/
theorem resetStatesAreWellFormed : Obligations.ResetStatesAreWellFormed :=
  ⟨wellFormed_loaded (ps := []) (cs := []) (by decide) (by decide) latOf_scenario_pos (by simp) (by simp) rfl,
    fun _ _ => hostReset_wellFormed⟩

end Sys2Proof.Machine
end

section
/-! ## Faults, termination, registers and the cursor (10_state.md) -/

namespace Sys2Proof.Machine

/-! ### Integer registers (R33) -/

/-- Every phase keeps the two invariants of `Good` on linked states, so every step does. -/
theorem step_good {c p : Prop} {s t : State} (hl : Linked s) (hg : Good c p s) (h : step s = .next t) : Good c p t :=
  step_keeps_linked
    (hTick := fun _ h => h.congr (fun _ => reg_congr rfl rfl _) rfl rfl rfl)
    (hWrite := fun _ hl h => writePhase_good hl h)
    (hExecute := fun _ _ h => executePhase_good h)
    (hMemory := fun s hl h => lsbTickFrom_good [] s.lsb s hl h)
    (hDeferred := fun _ _ h => deferredPhase_good h)
    (hIssue := fun _ _ hl h hI => issuePhase_good hl h hI) hl hg h

/-- Settles O48: the half of `Good` about integers, carried through the phases of the step. -/
theorem integerRegistersStayIntegerValued : Obligations.IntegerRegistersStayIntegerValued := by
  intro s t hl hi h
  obtain ⟨hint, -⟩ := step_good (c := True) (p := False) hl ⟨fun _ => hi, False.elim⟩ h
  exact hint trivial

/-! ### Faulted and terminated machines (R56, R337) -/

theorem step_of_fault {s : State} {f : Fault} (h : s.fault = some f) : step s = .fault f := by
  simp only [step, h]

theorem step_of_terminated {s : State} (hf : s.fault = none) (ht : s.terminated = true) : step s = .next s := by
  simp only [step, hf, ht, if_true]

theorem terminated_iff {s : State} : s.terminated = true ↔ s.prog.length ≤ s.cursor ∧
    (∀ d ∈ s.instances, d.write ≠ none) ∧ (∀ S ∈ s.stations, S.busy = false) ∧ s.lsb = [] := by
  simp [State.terminated, Option.isSome_iff_ne_none, and_assoc]

/-- Settles O6: `step` asks for a fault first and for termination next. -/
theorem faultedOrTerminatedTakesNoStep : Obligations.FaultedOrTerminatedTakesNoStep :=
  ⟨fun _ _ => step_of_fault, fun _ hf hc hi hs hl => step_of_terminated hf (terminated_iff.2 ⟨hc, hi, hs, hl⟩)⟩

/-! ### A pending register at branch resolution (R36, 60_exceptions.md R301) -/

theorem readValue_ready {r : Reg} {s : State} (h : (s.reg r).qi = none) : readValue r s = .ok (s.reg r).value := by
  simp only [readValue, h]

theorem readValue_pending {r : Reg} {s : State} (h : (s.reg r).qi ≠ none) :
    readValue r s = .error (raise (.registerBusy r) s) := by
  obtain ⟨T, hT⟩ := Option.ne_none_iff_exists'.1 h
  simp only [readValue, hT]

theorem recordOf_checked {s : State} {i : Nat} {d : DynInst} {r : Record} {ins : Instr} (hd : s.instances[i]? = some d)
    (hr : s.prog[d.pc]? = some r) (hc : checkRecord s.prog.length d.pc r = .ok ins) :
    s.recordOf i = .ok (d.station, ins) := by
  simp only [State.recordOf, hd, hr, hc]

/-- A branch resolves with its own comparison (R275, R276). -/
theorem resolve_branch {s : State} {i : Nat} {T : Tag} {rs rt : Fin 32} {target : I32}
    {p : OpCode × (Fin 32 → Fin 32 → I32 → Instr) × (F64 → F64 → Bool)} (hp : p ∈ brOps)
    (h : s.recordOf i = .ok (T, p.2.1 rs rt target)) : resolve i s = resolveWith p.2.2 rs rt target i s := by
  simp only [brOps, List.mem_cons, List.not_mem_nil, or_false] at hp
  obtain rfl | rfl := hp
  · simp only [resolve, h]; rfl
  · simp only [resolve, h]; rfl

/-- Settles O33: resolution reads its first register before its second. -/
theorem pendingRegisterAtResolutionIsBusy : Obligations.PendingRegisterAtResolutionIsBusy := by
  intro p hp s i d r rs rt target hd hr hc
  rw [resolve_branch hp (recordOf_checked hd hr hc)]
  constructor
  · intro h1
    simp only [resolveWith, readValue_pending h1, raise]
  · intro h1 h2
    simp only [resolveWith, readValue_ready h1, readValue_pending h2, raise]

/-! ### What an issue changes (40_cycle_engine.md R164 to R171) -/

/-- Everything an issue can answer as a next state: the stall; or, after capture and rename, what a handover may change, and
then for a completed issue the cursor moved. -/
theorem issueRecord_next_cases {s t : State} {o : OpCode} {d : Option Reg} {j : Reg} {k : Option Reg} {a : Option I32}
    (h : issueRecord o d j k a s = .next t) : t = s ∨ ∃ T u, Frame (captured T o d j k a s) u ∧
      (t = u ∨ t = advance u ∨ t = advance (blockIssue u)) := by
  obtain h' | ⟨T, -, -, ⟨-, h'⟩ | ⟨-, -, -, h'⟩ | ⟨-, -, -, h'⟩⟩ := issueRecord_cases o d j k a s <;> rw [h'] at h
  · cases h; exact .inl rfl
  · cases h
    refine .inr ⟨T, _, .refl _, .inr ?_⟩
    split
    · exact .inr rfl
    · exact .inl rfl
  · cases h; exact .inr ⟨T, _, .refl _, .inr (.inl rfl)⟩
  · have hh := handover_frame T (captured T o d j k a s)
    split at h
    · next u he => cases h; rw [he] at hh; exact .inr ⟨T, u, hh, .inr (.inl rfl)⟩
    · next u he => cases h; rw [he] at hh; exact .inr ⟨T, _, hh, .inl rfl⟩
    · cases h

/-- An instruction's meaning at issue is `issueRecord` of its operands (R167). -/
theorem exec_eq_issueRecord (i : Instr) : ∃ o d j k a, ∀ s, exec i s = issueRecord o d j k a s := by
  cases i <;> exact ⟨_, _, _, _, _, fun _ => rfl⟩

/-- The Issue phase answers the same state, or issues a record that stands at the cursor. -/
theorem issuePhase_next_cases {s t : State} (h : issuePhase s = .next t) :
    t = s ∨ (s.cursor < s.prog.length ∧ ∃ o d j k a, issueRecord o d j k a s = .next t) := by
  unfold issuePhase at h
  split at h
  · cases h; exact .inl rfl
  · cases h
  · next i hi =>
    obtain ⟨o, d, j, k, a, he⟩ := exec_eq_issueRecord i
    refine .inr ⟨?_, o, d, j, k, a, he s ▸ h⟩
    unfold State.recordAtCursor at hi
    split at hi
    · cases hi
    · next hr => exact (List.getElem?_eq_some_iff.1 hr).1

theorem value_captured (T : Tag) (o : OpCode) (d : Option Reg) (j : Reg) (k : Option Reg) (a : Option I32) (s : State)
    (r : Reg) : ((captured T o d j k a s).reg r).value = (s.reg r).value := by
  by_cases hd : d = some r
  · rw [hd, reg_captured_dest]
  · rw [reg_captured_ne hd]

/-- No issue writes a register's value: it only renames (10_state.md R35). -/
theorem issuePhase_value {s t : State} (h : issuePhase s = .next t) (r : Reg) : (t.reg r).value = (s.reg r).value := by
  obtain rfl | ⟨-, o, d, j, k, a, h⟩ := issuePhase_next_cases h
  · rfl
  · obtain rfl | ⟨T, u, hu, ht⟩ := issueRecord_next_cases h
    · rfl
    · have htu : t.reg r = u.reg r := by
        obtain rfl | rfl | rfl := ht <;> exact reg_congr rfl rfl r
      rw [htu, hu.reg, value_captured]

/-- An issue moves the cursor at most past the record it issues (R171). -/
theorem issuePhase_cursor {s t : State} (h : issuePhase s = .next t) :
    t.cursor = s.cursor ∨ (s.cursor < s.prog.length ∧ t.cursor = s.cursor + 1) := by
  obtain rfl | ⟨hlt, o, d, j, k, a, h⟩ := issuePhase_next_cases h
  · exact .inl rfl
  · obtain rfl | ⟨T, u, hu, ht⟩ := issueRecord_next_cases h
    · exact .inl rfl
    · have hc : u.cursor = s.cursor := hu.cursor.trans (captured_cursor ..)
      obtain rfl | rfl | rfl := ht
      · exact .inl hc
      · exact .inr ⟨hlt, congrArg (· + 1) hc⟩
      · exact .inr ⟨hlt, congrArg (· + 1) hc⟩

/-! ### Register values (R34, R146) -/

/-- In `t` a register has its value of `s`, or the CDB selected in cycle `C` a request whose destination it is, and it has
the request's value. -/
def ValueKeptOrBroadcast (C : Nat) (s t : State) (r : Reg) : Prop :=
  (t.reg r).value = (s.reg r).value ∨ ∃ q rest, selectRequest C s.cdbQueue = some (q, rest) ∧ q.dest = some r ∧
    (t.reg r).value = q.value

theorem ValueKeptOrBroadcast.congr {C : Nat} {s t u : State} {r : Reg} (h : ValueKeptOrBroadcast C s t r)
    (hv : (u.reg r).value = (t.reg r).value) : ValueKeptOrBroadcast C s u r := by
  unfold ValueKeptOrBroadcast
  rwa [hv]

/-- A register write leaves a register its value or gives it the broadcast's. -/
theorem value_regWrite (T : Tag) (v : F64) (d : Option Reg) (s : State) (r : Reg) :
    ((regWrite T v d s).reg r).value = (s.reg r).value ∨ (d = some r ∧ ((regWrite T v d s).reg r).value = v) := by
  by_cases hd : d = some r
  · subst hd
    unfold regWrite
    dsimp only
    split
    · exact .inr ⟨rfl, by rw [reg_setReg_same]⟩
    · split
      · exact .inr ⟨rfl, by rw [reg_setReg_same]⟩
      · exact .inl rfl
  · exact .inl (by rw [reg_regWrite_ne hd])

theorem broadcastCore_value {s : State} {q : Request} {rest : List Request}
    (hs : selectRequest s.cycle s.cdbQueue = some (q, rest)) (r : Reg) :
    ValueKeptOrBroadcast s.cycle s (broadcastCore q { s with cdbQueue := rest }) r := by
  unfold ValueKeptOrBroadcast
  rw [reg_broadcastCore]
  obtain hv | ⟨hd, hv⟩ := value_regWrite q.station q.value q.dest { s with cdbQueue := rest } r
  · exact .inl hv
  · exact .inr ⟨q, rest, hs, hd, hv⟩

/-- Resolving a branch writes no register. -/
theorem resolve_reg (i : Nat) (s : State) (r : Reg) : Cyc.All (fun t => t.reg r = s.reg r) (resolve i s) := by
  obtain ⟨_, h⟩ | ⟨_, _, _, _, _, target, -, -, -, -, ⟨x, -, -, h⟩ | ⟨-, -, b, h⟩⟩ :=
    resolve_cases (i := i) (s := s) rfl <;> rw [h]
  · trivial
  · exact reg_congr rfl rfl r
  · exact reg_congr (by simp) (by simp) r

theorem writePhase_value (s : State) (r : Reg) :
    Cyc.All (fun t => ValueKeptOrBroadcast s.cycle s t r) (writePhase s) := by
  obtain ⟨-, h⟩ | ⟨q, rest, hs, ⟨-, h⟩ | ⟨-, ⟨i, -, h⟩ | ⟨-, h⟩⟩⟩ := writePhase_cases (s := s) rfl <;> rw [h]
  · exact .inl rfl
  · exact broadcastCore_value hs r
  · exact (resolve_reg i _ r).mono fun _ ht => (broadcastCore_value hs r).congr (congrArg RegCell.value ht)
  · trivial

theorem earlyPhases_value (s : State) (r : Reg) :
    Cyc.All (fun t => ValueKeptOrBroadcast s.cycle s t r) (earlyPhases s) :=
  earlyPhases_frame (writePhase_value s r) fun _ _ ht hu => ht.congr (congrArg RegCell.value (hu.reg r))

/-- Settles O10: of the five phases only Write writes a register's value. -/
theorem registerValuesChangeOnlyByBroadcast : Obligations.RegisterValuesChangeOnlyByBroadcast := by
  intro s t r h hne
  have hE := earlyPhases_value (tick s) r
  have hkept : ValueKeptOrBroadcast (s.cycle + 1) (tick s) t r := by
    obtain ⟨-, ⟨-, rfl⟩ | ⟨-, h | ⟨u, hu, hI⟩⟩⟩ := step_next_cases h
    · exact absurd rfl hne
    · rw [h] at hE; exact hE
    · rw [hu] at hE; exact ValueKeptOrBroadcast.congr hE (issuePhase_value hI r)
  exact hkept.resolve_left hne

/-! ### The cursor (R51, 30_encoding.md R127) -/

theorem decodeRecord_ok {r : Record} {ins : Instr} (h : decodeRecord r = .ok ins) : ∃ o, ins = r.build o := by
  unfold decodeRecord at h
  repeat' split at h
  all_goals cases h
  exact ⟨_, rfl⟩

theorem checkRecord_ok {n i : Nat} {r : Record} {ins : Instr} (h : checkRecord n i r = .ok ins) :
    decodeRecord r = .ok ins ∧ r.targetOk ins.op n = true ∧ r.idOk i = true := by
  unfold checkRecord at h
  split at h
  · cases h
  · next hd =>
    split at h
    · next ht =>
      split at h
      · next hi => cases h; exact ⟨hd, ht, hi⟩
      · cases h
    · cases h

/-- The target of a branch is its record's immediate (R126). -/
theorem target_of_build {o : OpCode} {r : Record} {rs rt : Fin 32} {target : I32}
    (h : r.build o = .beq rs rt target ∨ r.build o = .bne rs rt target) : target = r.immediate := by
  cases o <;> simp only [Record.build, reduceCtorEq, Instr.beq.injEq, Instr.bne.injEq, or_false, false_or] at h
  all_goals exact h.2.2.symm

/-- A checked branch has a target inside the program (WF_TARGET). -/
theorem checkRecord_target {n i : Nat} {r : Record} {ins : Instr} {rs rt : Fin 32} {target : I32}
    (hc : checkRecord n i r = .ok ins) (hb : ins = .beq rs rt target ∨ ins = .bne rs rt target) :
    target.toInt.toNat ≤ n := by
  obtain ⟨hd, ht, -⟩ := checkRecord_ok hc
  obtain ⟨o, rfl⟩ := decodeRecord_ok hd
  have hbr : (r.build o).op.format = .br := by obtain h | h := hb <;> rw [h] <;> rfl
  simp only [Record.targetOk, hbr, Bool.and_eq_true, decide_eq_true_eq] at ht
  rw [target_of_build hb]
  omega

/-- Resolving a branch leaves the cursor, or puts it on a checked target. -/
theorem resolve_cursor (i : Nat) {s : State} (hs : s.cursor ≤ s.prog.length) :
    Cyc.All (fun t => t.cursor ≤ t.prog.length) (resolve i s) := by
  obtain ⟨_, h⟩ | ⟨_, _, _, _, _, target, -, -, hc, hb, ⟨x, -, -, h⟩ | ⟨-, -, b, h⟩⟩ :=
    resolve_cases (i := i) (s := s) rfl <;> rw [h]
  · trivial
  · exact hs
  · rw [Cyc.all_ok, settle_cursor, settle_prog]
    split
    · exact checkRecord_target hc hb
    · exact hs

theorem writePhase_cursor {s : State} (hs : s.cursor ≤ s.prog.length) :
    Cyc.All (fun t => t.cursor ≤ t.prog.length) (writePhase s) := by
  have hcore : ∀ q rest, (broadcastCore q { s with cdbQueue := rest }).cursor ≤
      (broadcastCore q { s with cdbQueue := rest }).prog.length := fun q rest => by simpa using hs
  obtain ⟨-, h⟩ | ⟨q, rest, -, ⟨-, h⟩ | ⟨-, ⟨i, -, h⟩ | ⟨-, h⟩⟩⟩ := writePhase_cases (s := s) rfl <;> rw [h]
  · exact hs
  · exact hcore q rest
  · exact resolve_cursor i (hcore q rest)
  · trivial

theorem issuePhase_cursor_le {s t : State} (hs : s.cursor ≤ s.prog.length) (h : issuePhase s = .next t) :
    t.cursor ≤ t.prog.length := by
  rw [(issuePhase_sameRun h).prog]
  obtain hc | ⟨hlt, hc⟩ := issuePhase_cursor h <;> omega

/-- Settles O9: a branch jumps to a checked target, and an issue moves past a record that is there. -/
theorem cursorStaysInTheProgram : Obligations.CursorStaysInTheProgram := fun _ _ hs h =>
  step_keeps (P := fun s => s.cursor ≤ s.prog.length) (fun _ hs => hs)
    (fun _ hs => earlyPhases_frame (writePhase_cursor hs) fun t u ht hu => by rw [hu.cursor, hu.prog]; exact ht)
    (fun _ _ => issuePhase_cursor_le) hs h

/-! ### The Execute phase (40_cycle_engine.md R151 to R155) -/

/-- A station of no memory kind (10_state.md R40). -/
theorem kindIsMem_eq_false_iff {k : Kind} : kindIsMem k = false ↔ k ≠ .load ∧ k ≠ .store := by
  cases k <;> simp [kindIsMem]

theorem running_eq_counting (S : Station) : S.running = counting S := by
  rw [Bool.eq_iff_iff]
  simp [Station.running, counting, kindIsMem_eq_false_iff, and_assoc]

theorem finishing_eq_completing (S : Station) : S.finishing = completing S := by
  simp only [Station.finishing, completing, running_eq_counting]

/-- What lets a compute station start in cycle `C` (R44, R153). -/
theorem startable_iff {C : Nat} {S : Station} : S.startable C = true ↔ S.kind ≠ .load ∧ S.kind ≠ .store ∧ S.busy = true ∧
    S.execStarted = false ∧ S.qj = none ∧ S.qk = none ∧ S.effCycle < C := by
  simp only [Station.startable, Station.ready, Bool.and_eq_true, Bool.not_eq_true', kindIsMem_eq_false_iff,
    decide_eq_true_eq, Bool.or_eq_true, beq_iff_eq, Option.isNone_iff_eq_none]
  constructor
  · rintro ⟨⟨⟨hl, hs⟩, ⟨⟨hb, he⟩, hj⟩, hk⟩, hc⟩
    exact ⟨hl, hs, hb, he, hj, hk.resolve_left hl, hc⟩
  · rintro ⟨hl, hs, hb, he, hj, hk, hc⟩
    exact ⟨⟨⟨hl, hs⟩, ⟨⟨hb, he⟩, hj⟩, .inr hk⟩, hc⟩

theorem starting_eq_startsWith (s : State) (S : Station) : S.starting s.cycle s.cfg = startsWith s S := by
  simp only [Station.starting, startsWith, startable_iff, startLatency]

/-- A station that counts has started, so it does not start again. -/
theorem startsWith_of_counting {s : State} {S : Station} (h : counting S = true) : startsWith s S = none := by
  simp only [counting, decide_eq_true_eq] at h
  obtain ⟨-, -, -, he, -⟩ := h
  simp [startsWith, he]

/-- Countdown and start together make of a station what the statement says. -/
theorem started_counted (s : State) (S : Station) : S.counted.started s.cycle s.cfg = afterExecute s S := by
  unfold Station.started afterExecute
  rw [Station.starting_counted, starting_eq_startsWith, Station.counted, running_eq_counting]
  cases counting S with
  | true => rfl
  | false => cases startsWith s S <;> rfl

theorem instruction_counted (S : Station) : S.counted.instruction = S.instruction := by
  unfold Station.counted
  split <;> rfl

/-- The two stamps of one station: `exec_end` of a countdown's last cycle, else `exec_start` of a start. -/
theorem stamps_counted (s : State) (S : Station) (d : DynInst) :
    (if (S.counted.starting s.cycle s.cfg).isSome then
      { (if S.finishing then { d with execEnd := some s.cycle } else d) with execStart := some s.cycle }
      else if S.finishing then { d with execEnd := some s.cycle } else d) =
    if completing S then { d with execEnd := some s.cycle }
      else if (startsWith s S).isSome then { d with execStart := some s.cycle } else d := by
  rw [Station.starting_counted, starting_eq_startsWith, finishing_eq_completing, running_eq_counting]
  cases hc : counting S with
  | true => simp [startsWith_of_counting hc]
  | false => simp [completing, hc]

theorem resultFr_eq_some {f : NaN64 → F64 → F64 → F64} {o : OpCode} {S : Station} {v : F64}
    (h : resultFr f o S = some v) : ∃ n x y, S.vj = some x ∧ S.vk = some y ∧ v = f n x y := by
  unfold resultFr at h
  split at h
  · next x y i hx hy _ => cases h; exact ⟨_, x, y, hx, hy, rfl⟩
  · cases h

theorem resultIi_eq_some {f : NaN64 → F64 → I32 → F64} {o : OpCode} {S : Station} {v : F64}
    (h : resultIi f o S = some v) : ∃ n x a, S.vj = some x ∧ S.a = some a ∧ v = f n x a := by
  unfold resultIi at h
  split at h
  · next x a i hx ha _ => cases h; exact ⟨_, x, a, hx, ha, rfl⟩
  · cases h

/-- The result of a station is that of its op's operation on what it captured (R155). -/
theorem resultOf_stationResult {o : OpCode} {S : Station} {v : F64} (h : stationResult o S = some v) : ResultOf o S v := by
  refine ⟨fun p hp ho => ?_, fun p hp ho => ?_, fun p hp ho => ?_⟩ <;> subst ho
  · simp only [frOps, List.mem_cons, List.not_mem_nil, or_false] at hp
    obtain rfl | rfl | rfl | rfl | rfl | rfl | rfl | rfl := hp <;> exact resultFr_eq_some h
  · simp only [iiOps, List.mem_cons, List.not_mem_nil, or_false] at hp
    obtain rfl | rfl := hp <;> exact resultIi_eq_some h
  · simp only [brOps, List.mem_cons, List.not_mem_nil, or_false] at hp
    obtain rfl | rfl := hp <;> exact (Option.some.inj h).symm

/-- The requests of the countdowns are those of the completing stations, in pool order (R152). -/
theorem requests_of_answers {C : Nat} {l : List Station} {news : List (List Request)}
    (h : List.Forall₂ (Answers C) l news) : List.Forall₂ (Requests C) (l.filter completing) news.flatten := by
  induction h with
  | nil => exact .nil
  | @cons S new l news hS _ ih =>
    unfold Answers at hS
    rw [finishing_eq_completing] at hS
    split at hS
    · next hc =>
      obtain ⟨o, v, ho, hv, rfl⟩ := hS
      rw [List.filter_cons_of_pos hc]
      exact .cons ⟨rfl, ho, resultOf_stationResult hv, rfl, rfl⟩ ih
    · next hc =>
      rw [List.filter_cons_of_neg hc, hS]
      exact ih

/-- A loop whose stations queue nothing queues nothing. -/
theorem flatten_of_forall₂_nil {l : List Station} {news : List (List Request)}
    (h : List.Forall₂ (fun _ new => new = []) l news) : news.flatten = [] := by
  induction h with
  | nil => rfl
  | cons hS _ ih => rw [List.flatten_cons, hS, ih, List.append_nil]

/-- A start changes its station and stamps `exec_start` (R153). -/
theorem startStation_stamps {s : State} {T : Tag} {S : Station} {o : OpCode} {l i : Nat} (hS : s.station? T = some S)
    (hr : S.startable s.cycle = true) (ho : S.op = some o) (hl : latOf s.cfg o = some l) (hi : S.instruction = some i) :
    ∃ t, startStation T s = .ok t ∧ t.station? T = some { S with execStarted := true, remainingCycles := l } ∧
      t.instances = s.instances.modify i (fun d => { d with execStart := some s.cycle }) ∧
      t.cdbQueue = s.cdbQueue ∧ ∀ U, U ≠ T → t.station? U = s.station? U := by
  have hlat : startLatency s.cfg S = some l := by simp only [startLatency, ho, Option.bind_some, hl]
  refine ⟨_, startStation_starts hS hr hlat, ?_, ?_, ?_, fun U hU => ?_⟩
  · rw [station?_stampBound, station?_updStation_same, hS]
    · rfl
    · exact fun _ h => h
  · simp only [stampBound, hi, stamp_instances, updStation_instances]
  · simp only [stampBound_cdbQueue, updStation_cdbQueue]
  · rw [station?_stampBound, station?_updStation_ne hU]
    exact fun _ h => h

/-- Settles O22: the start step by its guard; the phase as a tour of the countdowns, then of the starts. -/
theorem executePhaseServesEveryStation : Obligations.ExecutePhaseServesEveryStation := by
  refine ⟨fun s T S hS => ?_, fun s h => ?_⟩
  · have hk : S.kind = T.kind := congrArg Tag.kind (station?_name hS)
    constructor
    · intro o l i hm hb he hj hq hc ho hl hi
      obtain ⟨hl', hs'⟩ := kindIsMem_eq_false_iff.1 hm
      exact startStation_stamps hS (startable_iff.2 ⟨hk ▸ hl', hk ▸ hs', hb, he, hj, hq, hc⟩) ho hl hi
    · intro hno
      refine startStation_idle hS (Bool.eq_false_iff.2 fun hr => ?_)
      obtain ⟨hl', hs', hb, he, hj, hq, hc⟩ := startable_iff.1 hr
      have hm : kindIsMem T.kind = false := kindIsMem_eq_false_iff.2 ⟨hk ▸ hl', hk ▸ hs'⟩
      exact not_le.2 hc (by simpa [hm, hb, he, hj, hq] using hno)
  · obtain ⟨u, t, ht, hTu, hTt⟩ := executePhase_toured h
    have hst : u.stations = s.stations.map Station.counted := hTu.stations [] rfl
    obtain ⟨news, hqu, hnews⟩ := hTu.queue
    obtain ⟨noNews, hqt, hnone⟩ := hTt.queue
    have hrest : t = { s with stations := t.stations, instances := t.instances, cdbQueue := t.cdbQueue } := by
      rw [hTt.rest, hTu.rest]
    refine ⟨t, news.flatten, ht, ?_, ?_, requests_of_answers hnews, fun S hS i hi => ?_, fun i hi => ?_,
      by rw [hrest], by rw [hrest], by rw [hrest], reg_congr (by rw [hrest]) (by rw [hrest]),
      coherentByte_congr (by rw [hrest]) (by rw [hrest]) (by rw [hrest])⟩
    · rw [hTt.stations [] rfl, List.nil_append, hst, List.map_map]
      exact List.map_congr_left fun S _ => started_counted s S
    · rw [hqt, hqu, flatten_of_forall₂_nil hnone, List.append_nil]
    · rw [hTt.bound S.counted (hst ▸ List.mem_map_of_mem hS) i ((instruction_counted S).trans hi), hTu.bound S hS i hi,
        Option.map_map]
      exact congrArg (fun f => (s.instances[i]?).map f) (funext (stamps_counted s S))
    · have hiu : ∀ P ∈ u.stations, P.instruction ≠ some i := by
        rw [hst, List.forall_mem_map]
        exact fun S hS => instruction_counted S ▸ hi S hS
      rw [hTt.unbound i hiu, hTu.unbound i hi]

end Sys2Proof.Machine
end

section
/-! ## The memory system (20_memory.md) -/

namespace Sys2Proof.Machine

/-! ### Its well-formedness is kept (R70–R102) -/

theorem memoryPhase_all_shaped {s : State} (hs : Shaped s) : Cyc.All Shaped (memoryPhase s) := by
  obtain ⟨t, ht, hst⟩ := memoryPhase_shaped hs
  rw [ht]
  exact hst

theorem step_shaped {s t : State} (hs : Shaped s) (h : step s = .next t) : Shaped t :=
  step_keeps (P := Shaped) (fun _ => tick_shaped)
    (fun _ hs => earlyPhases_all hs (fun _ => writePhase_shaped) (fun _ => executePhase_shaped)
      (fun _ => memoryPhase_all_shaped) (fun _ => deferredPhase_shaped))
    (fun _ _ => issuePhase_shaped) hs h

/-- Settles O46: each phase of a cycle keeps the memory system well-formed. -/
theorem memorySystemStaysWellFormed : Obligations.MemorySystemStaysWellFormed := fun _ _ => step_shaped

/-! ### One word through the cache (R87–R90) -/

/-- A read that hits leaves every line as it is. -/
theorem Accessed.lines_of_hit {s t : State} {a : Nat} (h : Accessed s t a none) (hhit : s.isHit a = true) :
    t.lines = s.lines := by
  refine List.ext_getElem? fun i => ?_
  by_cases hi : i = indexOf s.cfg a
  · subst hi
    rw [h.line, lineMade, if_pos hhit]
    exact Option.map_id'
  · exact h.others i hi

/-- The line of a written word holds its block and is dirty. -/
theorem Accessed.dirty_line {s t : State} {a : Nat} {bs : List Byte} (h : Accessed s t a (some bs)) :
    ∃ L, t.lines[indexOf s.cfg a]? = some L ∧ L.valid = true ∧ L.dirty = true ∧ L.tag = tagOf s.cfg a := by
  have hhit := h.isHit
  rw [State.isHit, h.cfg] at hhit
  split at hhit
  · next L hL =>
    rw [CacheLine.holds, Bool.and_eq_true, beq_iff_eq] at hhit
    refine ⟨L, hL, hhit.1, ?_, hhit.2⟩
    rw [h.line, Option.map_eq_some_iff] at hL
    obtain ⟨L', -, rfl⟩ := hL
    rfl
  · cases hhit

/-- Settles O40: `Accessed` says what the read did to the line, and a hit made no new one. -/
theorem cacheReadGivesTheCoherentView : Obligations.CacheReadGivesTheCoherentView := by
  intro s a hs h4 ha
  obtain ⟨t, hread, hO, ht, hcoh, hA⟩ := cacheReadWord_spec hs h4 ha
  exact ⟨t, hread, ht, hcoh, hA, hA.isHit, fun hhit => ⟨hA.lines_of_hit hhit, hA.kept (.inl hhit)⟩, hO, hA.hits,
    hA.misses, hO.reg⟩

/-- Settles O41, as O40. -/
theorem cacheWriteChangesOnlyItsWord : Obligations.CacheWriteChangesOnlyItsWord := by
  intro s a bs hs h4 ha hbs
  obtain ⟨t, hwrite, hO, ht, hcoh, hA⟩ := cacheWriteWord_spec hs h4 ha hbs
  exact ⟨t, hwrite, ht, hcoh, hA, hA.isHit, hA.dirty_line, fun hhit => hA.kept (.inl hhit), hO, hA.hits, hA.misses,
    hO.reg⟩

/-! ### Commits (R99, R100) -/

/-- The statements' table of the loads is the model's. -/
theorem loadCodec_of_mem {o : OpCode} {dec : Nat → List Byte → F64}
    (h : (o, dec) ∈ [(OpCode.lw, decodeLw), (.ld, decodeLd), (.ls, decodeLs), (.ldd, decodeLdd)]) :
    loadCodec o = some dec := by
  simp only [List.mem_cons, Prod.mk.injEq, List.not_mem_nil, or_false] at h
  obtain ⟨rfl, rfl⟩ | ⟨rfl, rfl⟩ | ⟨rfl, rfl⟩ | ⟨rfl, rfl⟩ := h <;> rfl

/-- Only a load op has a codec for loads. -/
theorem opKind_of_loadCodec {o : OpCode} {dec : Nat → List Byte → F64} (h : loadCodec o = some dec) :
    opKind o = .load := by
  revert h
  cases o <;> simp [loadCodec, opKind]

theorem LsbEntry.stores_iff {e : LsbEntry} (hl : e.isLoad = false) (x : Nat) :
    e.stores x = true ↔ e.address ≤ x ∧ x < e.address + e.size := by
  simp [LsbEntry.stores, hl]

/-- A load stores no byte. -/
theorem LsbEntry.stores_eq_false {e : LsbEntry} (hl : e.isLoad = true) (x : Nat) : e.stores x = false := by
  simp [LsbEntry.stores, hl]

/-- Settles O42: what a commit does, read off for a load. -/
theorem loadCommitQueuesTheLoadedValue : Obligations.LoadCommitQueuesTheLoadedValue := by
  intro s e dec hs he hl hdec
  obtain ⟨t, ht, hC⟩ := commit_spec hs he
  have hq : commitRequests e s =
      [⟨e.station, dec e.inst (s.memRead e.address e.size), e.dest, e.op, s.cycle + 1⟩] := by
    rw [commitRequests, if_pos hl, loadCodec_of_mem hdec]
  refine ⟨t, ht, hq ▸ hC.queue, ?_, ?_, hC.reg, fun x => ?_, hC.accesses⟩
  · simpa only [hl, if_true] using hC.instances
  · simpa only [hl, if_true] using hC.stations
  · rw [hC.coherent, e.stores_eq_false hl, if_neg Bool.false_ne_true]

/-- Settles O43: what a commit does, read off for a store. -/
theorem storeCommitWritesItsBytes : Obligations.StoreCommitWritesItsBytes := by
  intro s e bs hs he hl hv
  obtain ⟨t, ht, hC⟩ := commit_spec hs he
  have hq : commitRequests e s = [] := if_neg (by simp [hl])
  refine ⟨t, ht, fun x => ?_, ?_, ?_, ?_, hC.reg, hC.accesses⟩
  · simp only [hC.coherent, e.stores_iff hl, hv, Option.getD_some]
  · rw [hC.queue, hq, List.append_nil]
  · simpa only [hl, Bool.false_eq_true, if_false] using hC.instances
  · simpa only [hl, Bool.false_eq_true, if_false, release_stations] using hC.stations

/-! ### A tick of the buffer (R97–R100) -/

/-- What stands before an entry is in the buffer after it was visited. -/
theorem mem_lsbAfter_of_kept {kept es : List LsbEntry} {k : LsbEntry} (h : k ∈ kept) : k ∈ lsbAfter kept es := by
  obtain ⟨l, hl, -⟩ := lsbAfter_eq kept es
  rw [hl]
  exact List.mem_append_left l h

/-- A stalled entry stays in the buffer as it is. -/
theorem mem_lsbAfter_of_stalls {l1 l2 : List LsbEntry} {e : LsbEntry} (h : stalls (lsbAfter [] l1) e = true) :
    e ∈ lsbAfter [] (l1 ++ e :: l2) := by
  rw [lsbAfter_append, lsbAfter_cons, if_pos h]
  exact mem_lsbAfter_of_kept (by simp)

/-- An entry that counts stays in the buffer, counted down by one. -/
theorem decremented_mem_lsbAfter {l1 l2 : List LsbEntry} {e : LsbEntry} (h : stalls (lsbAfter [] l1) e = false)
    (hr : 1 < e.remainingCycles) : e.decremented ∈ lsbAfter [] (l1 ++ e :: l2) := by
  have hz : e.decremented.remainingCycles ≠ 0 := by simp only [LsbEntry.decremented]; omega
  rw [lsbAfter_append, lsbAfter_cons, if_neg (by simp [h]), if_neg hz]
  exact mem_lsbAfter_of_kept (by simp)

theorem decremented_last {e : LsbEntry} : e.decremented.remainingCycles = 0 ↔ e.remainingCycles ≤ 1 := by
  simp only [LsbEntry.decremented]
  omega

/-- What a tick stamps in an entry's log record, in the words of the statement. -/
theorem tickStamp_eq {s t : State} {l1 kept : List LsbEntry} {e : LsbEntry}
    (hleft : e.leftBy t = (!stalls kept e && decide (e.decremented.remainingCycles = 0)))
    (hstall : e.stalledIn l1 t = stalls kept e) (d : DynInst) :
    tickStamp s.cycle kept e d = if e.stalledIn l1 t then d
      else { d with
        execStart := if e.started then d.execStart else some s.cycle
        execEnd := if e.leftBy t then some s.cycle else d.execEnd
        write := if e.leftBy t && !e.isLoad then some s.cycle else d.write } := by
  rw [tickStamp, hstall, hleft]
  cases stalls kept e <;> simp

/-- Settles O44: the entries that leave are those the tick's own recursion lets go (`leaving`), each commit of them is one
of `commit_spec`, and the log is stamped entry by entry. -/
theorem tickStallsCountsAndCommits : Obligations.TickStallsCountsAndCommits := by
  intro s hs
  obtain ⟨t, ht, hT⟩ := lsbTickFrom_ticked [] s.lsb s hs
  obtain ⟨hUntouched, hStamped⟩ := lsbTickFrom_log [] s.lsb s t hs ht
  have hlsb : t.lsb = lsbAfter [] s.lsb := lsbTickFrom_lsb ht
  rw [leaving_eq_filter hs.order hlsb (l2 := []) (by simp)] at hT
  obtain ⟨new, hqueue, hnew, hvalue⟩ := hT.queue
  refine ⟨t, new, ht, ?_, fun l1 l2 e he => ?_, hqueue, ?_, hT.view, ?_, hUntouched, hT.count, hT.accesses, hT.reg⟩
  · obtain ⟨l, hl, hsub⟩ := lsbAfter_eq [] s.lsb
    rwa [hlsb, hl]
  · obtain ⟨hleft, hstall⟩ := leftBy_stalledIn hs.order hlsb he
    refine ⟨fun h => ?_, fun h => ⟨fun hr => ?_, fun hr => ?_⟩, fun h dec hdec => ?_, fun hl => ?_⟩
    · rw [hlsb, he]
      exact mem_lsbAfter_of_stalls (hstall ▸ h)
    · rw [hlsb, he]
      exact decremented_mem_lsbAfter (hstall ▸ h) hr
    · simp [hleft, ← hstall, h, decremented_last, hr]
    · have hcodec := loadCodec_of_mem hdec
      have hload : e.isLoad = true := by
        rw [(hs.entry e (by simp [he])).kind]
        exact beq_iff_eq.2 (opKind_of_loadCodec hcodec)
      refine hvalue (l1.filter fun k => k.leftBy t) e (l2.filter fun k => k.leftBy t) ?_ dec hload hcodec
      rw [he, List.filter_append, List.filter_cons_of_pos (p := fun k : LsbEntry => k.leftBy t) h]
    · rw [hStamped hl.nodup_inst l1 e l2 he]
      exact congrArg (fun f => (s.instances[e.inst]?).map f) (funext (tickStamp_eq hleft hstall))
  · rw [hnew, List.filter_filter]
    simp only [Bool.and_comm]
  · rw [hT.stations]
    simp only [List.any_filter, Bool.and_assoc]

/-! ### The oldest entry (R98) -/

/-- Nothing stalls the oldest entry: before its last cycle it counts down. -/
theorem memoryPhase_oldest_counts {s : State} {e : LsbEntry} {l : List LsbEntry} (he : s.lsb = e :: l)
    (hr : 1 < e.remainingCycles) : memoryPhase s = lsbTickFrom [e.decremented] l (stampStart e s) := by
  have hz : ¬e.decremented.remainingCycles = 0 := by rw [decremented_last]; omega
  simp only [memoryPhase, he, lsbTickFrom, List.any_nil, Bool.false_eq_true, if_false, if_neg hz, List.nil_append]

/-- In its last cycle it commits, and the tick is that of the entries behind it. -/
theorem memoryPhase_oldest_commits {s u : State} {e : LsbEntry} {l : List LsbEntry} (he : s.lsb = e :: l)
    (hr : e.remainingCycles ≤ 1) (hc : commit e.decremented (stampStart e { s with lsb := l }) = .ok u)
    (hu : u.lsb = l) : memoryPhase s = memoryPhase u := by
  rw [← stampStart_withLsb] at hc
  simp only [memoryPhase, he, hu, lsbTickFrom, List.any_nil, Bool.false_eq_true, if_false,
    if_pos (decremented_last.2 hr), List.nil_append, hc]

/-- The log after the first decrement of an entry (40_cycle_engine.md R158). -/
theorem stampStart_log (e : LsbEntry) (s : State) : stampStart e s =
    { s with instances := if e.started then s.instances
                          else s.instances.modify e.inst (fun d => { d with execStart := some s.cycle }) } := by
  unfold stampStart
  cases e.started <;> rfl

theorem execStart_stampStart {e : LsbEntry} {s : State} {d : DynInst} (hst : e.started = false)
    (hd : s.instances[e.inst]? = some d) :
    ((stampStart e s).instances[e.inst]?).map DynInst.execStart = some (some s.cycle) := by
  simp [stampStart_log, hst, hd]

/-- The number of the oldest entry is below that of every other. -/
theorem Shaped.oldest_lt {s : State} (hs : Shaped s) {e : LsbEntry} {l : List LsbEntry} (he : s.lsb = e :: l)
    {k : LsbEntry} (hk : k ∈ l) : e.seq < k.seq :=
  (List.pairwise_cons.1 (he ▸ hs.order)).1 k hk

/-- Settles O45, before and in the entry's last cycle. -/
theorem oldestEntryCountsDown : Obligations.OldestEntryCountsDown := by
  intro s e l hs he
  have hs' : Shaped { s with lsb := [] ++ e :: l } := hs.sameLsb he
  refine ⟨fun hr => ?_, fun hr => ?_⟩
  · have hphase := memoryPhase_oldest_counts he hr
    obtain ⟨t, ht, hT⟩ := lsbTickFrom_ticked [e.decremented] l (stampStart e s) (hs'.counted e)
    have hlog := lsbTickFrom_frame [e.decremented] l (stampStart e s)
    rw [ht] at hlog
    obtain ⟨l', hl', hsub⟩ := lsbAfter_eq [e.decremented] l
    refine ⟨t, l', hphase.trans ht, (lsbTickFrom_lsb ht).trans hl', fun d hst hd => ?_, fun r => ?_, ?_⟩
    · have hstart := execStart_stampStart hst hd
      rw [← stampStart_cycle e s] at hstart ⊢
      exact Frame.log hlog |>.started _ hstart
    · exact (hT.reg r).trans (reg_congr (by simp) (by simp) r)
    · rintro rfl
      obtain rfl : l' = [] := by simpa [lsbAfter] using hl'.symm
      cases ht
      exact ⟨rfl, by rw [stampStart_log], by simp, by simp, coherentByte_congr (by simp) (by simp) (by simp)⟩
  · obtain ⟨hshaped, hentry⟩ := hs'.without e
    obtain ⟨u, hu, hC⟩ := commit_spec hshaped hentry
    have hul : u.lsb = l := hC.lsb.trans (by simp)
    obtain ⟨t, ht, hT⟩ := lsbTickFrom_ticked [] u.lsb u hC.shaped
    have hphase := memoryPhase_oldest_commits he hr.le hu hul
    refine ⟨u, t, ?_, hul, ?_, ht, hphase.trans ht, fun k hk => ?_, fun r => ?_⟩
    · rw [stampStart_log, LsbEntry.decremented, hr] at hu
      exact hu
    · simpa using hC.decremented.count
    · rw [lsbTickFrom_lsb ht, hul] at hk
      obtain ⟨g, hg, hseq, -⟩ := seq_mem_lsbAfter hk
      rw [← hseq]
      exact hs.oldest_lt he hg
    · exact (hT.reg r).trans ((hC.reg r).trans (reg_congr (by simp) (by simp) r))

end Sys2Proof.Machine
end

section
/-! ## Bytes and the value codecs (20_memory.md R73–R81) -/

namespace Sys2Proof.Machine

/-! ### Big-endian bytes (R73, R74) -/

/-- The bytes of a number are those of its high part and then those of its low part. -/
theorem beBytes_add (m n u : Nat) : beBytes (m + n) u = beBytes m (u / 256 ^ n) ++ beBytes n u := by
  induction m with
  | zero => simp [beBytes]
  | succ m ih =>
    rw [Nat.add_right_comm, beBytes, beBytes, ih, List.cons_append, Nat.div_div_eq_div_mul, ← Nat.pow_add,
      Nat.add_comm n m]

/-- A byte of a number is a field of its bits. -/
theorem ofNat_div_eq_extractLsb' {w : Nat} (u : BitVec w) (n : Nat) :
    BitVec.ofNat 8 (u.toNat / 2 ^ n) = u.extractLsb' n 8 := by
  refine BitVec.eq_of_toNat_eq ?_
  rw [BitVec.toNat_ofNat, BitVec.extractLsb'_toNat, Nat.shiftRight_eq_div_pow]

theorem beBytes_word (u : BitVec 32) : beBytes 4 u.toNat =
    [u.extractLsb' 24 8, u.extractLsb' 16 8, u.extractLsb' 8 8, u.extractLsb' 0 8] := by
  simp only [← ofNat_div_eq_extractLsb']
  rfl

theorem beBytes_doubleword (u : BitVec 64) : beBytes 8 u.toNat =
    beBytes 4 (u.extractLsb' 32 32).toNat ++ beBytes 4 (u.extractLsb' 0 32).toNat := by
  rw [beBytes_add 4 4, BitVec.extractLsb'_toNat, BitVec.extractLsb'_toNat, Nat.shiftRight_eq_div_pow,
    Nat.shiftRight_zero]
  exact congrArg₂ (· ++ ·) (beBytes_mod _ _ _ (Nat.mod_mod _ _).symm) (beBytes_mod _ _ _ (Nat.mod_mod _ _).symm)

/-- Settles O35: the bytes are the fields of the bits, most significant first. -/
theorem bytesAreBigEndian : Obligations.BytesAreBigEndian := ⟨beBytes_word, beBytes_doubleword, beBytes_beUint⟩

/-! ### Widening binary32 (R79) -/

theorem F64.sign_ofNaN (n : NaN64) : F64.sign (F64.ofNaN n) = n.sign := F64.sign_ofCode (F64.nan_code_lt n)

theorem F64.sign_widen (p : Fin 4503599627370495) (b : F32) : F64.sign (widen p b) = F32.sign b := by
  unfold widen
  split
  · exact F64.sign_ofNaN _
  · split
    · exact F64.sign_infinity _
    · exact F64.sign_round _ _ _

theorem widen_of_isNaN (p : Fin 4503599627370495) {b : F32} (h : F32.isNaN b = true) :
    F64.isNaN (widen p b) = true := by
  rw [widen, if_pos h]
  exact F64.isNaN_ofNaN _

theorem F32.notNaN_of_isInf {b : F32} (h : F32.isInf b = true) : F32.isNaN b = false := by
  simp only [F32.isInf, Bool.and_eq_true, beq_iff_eq] at h
  simp [F32.isNaN, h]

theorem widen_of_isInf (p : Fin 4503599627370495) {b : F32} (h : F32.isInf b = true) :
    F64.isInf (widen p b) = true := by
  rw [widen, F32.notNaN_of_isInf h, if_neg Bool.false_ne_true, if_pos h]
  exact F64.isInf_infinity _

theorem F32.notNaN_of_finite {b : F32} (h : F32.expo b < 255) : F32.isNaN b = false ∧ F32.isInf b = false := by
  simp [F32.isNaN, F32.isInf, h.ne]

/-- A finite binary32 is widened by one rounding of its exact magnitude. -/
theorem widen_of_finite (p : Fin 4503599627370495) {b : F32} (h : F32.expo b < 255) :
    widen p b = F64.round (F32.sign b) (F32.scaledMag b * 2 ^ 925) 1 := by
  rw [widen, (F32.notNaN_of_finite h).1, (F32.notNaN_of_finite h).2, if_neg Bool.false_ne_true,
    if_neg Bool.false_ne_true, unit32_eq]

/-- A finite binary32 has 24 significant bits. -/
theorem F32.scaledMag_split {b : F32} (h : F32.expo b < 255) :
    ∃ m k, F32.scaledMag b = m * 2 ^ k ∧ m < 2 ^ 24 ∧ k ≤ 253 := by
  obtain ⟨c, hc, hb⟩ := F32.ofCode_code b
  rw [hb, F32.expo_ofCode hc] at h
  rw [hb, F32.scaledMag_ofCode hc]
  exact magOf_split32 c (by omega)

/-- That rounding is exact. -/
theorem widen_exact (p : Fin 4503599627370495) {b : F32} (h : F32.expo b < 255) :
    F64.isFinite (widen p b) = true ∧ F64.scaledMag (widen p b) = F32.scaledMag b * 2 ^ 925 := by
  obtain ⟨m, k, hmag, hm, hk⟩ := F32.scaledMag_split h
  have hfin : F64.isFinite (F64.round (F32.sign b) (m * 2 ^ (k + 925)) 1) = true :=
    F64.isFinite_round_small hm (by omega)
  rw [widen_of_finite p h, hmag, Nat.mul_assoc, ← Nat.pow_add]
  exact ⟨hfin, F64.scaledMag_round_exact (by omega) hfin⟩

/-- Settles O37, by the classes of the loaded word. -/
theorem singleLoadWidensExactly : Obligations.SingleLoadWidensExactly := by
  intro i b
  rw [decodeLs_beBytes]
  exact ⟨F64.sign_widen _ b, widen_of_isNaN _, widen_of_isInf _, widen_exact _⟩

/-! ### Rounding to binary32 (R78) -/

theorem F32.isNaN_ofNaN (n : NaN32) : F32.isNaN (F32.ofNaN n) = true := by
  have h : F32.inf + (n.fracPred.val + 1) < 2 ^ 31 := by rw [F32.inf_val]; omega
  rw [F32.isNaN, F32.ofNaN, F32.expo_ofCode h, F32.frac_ofCode h, F32.inf_val, Bool.and_eq_true, beq_iff_eq, bne_iff_ne]
  omega

/-- The class of a binary32 by its magnitude code. -/
theorem F32.isInf_ofCode {s : Bool} {c : Nat} (h : c ≤ F32.inf) :
    F32.isInf (F32.ofCode s c) = decide (c = F32.inf) ∧ F32.isNaN (F32.ofCode s c) = false ∧
      (c < F32.inf → F32.expo (F32.ofCode s c) < 255) := by
  rw [F32.inf_val] at h ⊢
  have hc : c < 2 ^ 31 := by omega
  rw [F32.isInf, F32.isNaN, F32.expo_ofCode hc, F32.frac_ofCode hc]
  refine ⟨?_, ?_, by omega⟩
  · rw [Bool.eq_iff_iff]
    simp only [Bool.and_eq_true, beq_iff_eq, decide_eq_true_eq]
    omega
  · simp only [Bool.and_eq_false_iff, beq_eq_false_iff_ne, bne_eq_false_iff_eq]
    omega

theorem F32.code_lt {c : Nat} (h : c ≤ F32.inf) : c < 2 ^ 31 := by
  rw [F32.inf_val] at h
  omega

theorem round32_of_isNaN (n : NaN32) {v : F64} (h : F64.isNaN v = true) : round32 n v = F32.ofNaN n := if_pos h

/-- The magnitude code that a value which is no NaN is stored with. -/
theorem round32_of_notNaN (n : NaN32) {v : F64} (h : F64.isNaN v = false) :
    round32 n v = F32.ofCode (F64.sign v)
      (if F64.isInf v then F32.inf else roundMag 23 F32.inf (F64.scaledMag v) unit32) := by
  rw [round32, h, if_neg Bool.false_ne_true]
  split <;> rfl

theorem round32_code_le (v : F64) :
    (if F64.isInf v then F32.inf else roundMag 23 F32.inf (F64.scaledMag v) unit32) ≤ F32.inf := by
  split
  · exact le_refl _
  · exact roundMag_le _ _ _ _

theorem isNaN_round32 (n : NaN32) (v : F64) : F32.isNaN (round32 n v) = F64.isNaN v := by
  cases h : F64.isNaN v with
  | true => rw [round32_of_isNaN n h, F32.isNaN_ofNaN]
  | false => rw [round32_of_notNaN n h]; exact (F32.isInf_ofCode (round32_code_le v)).2.1

theorem round32_of_isInf (n : NaN32) {v : F64} (h : F64.isInf v = true) :
    round32 n v = F32.ofCode (F64.sign v) F32.inf := by
  rw [round32_of_notNaN n (F64.notNaN_of_isInf h).1, if_pos h]

theorem round32_of_isFinite (n : NaN32) {v : F64} (h : F64.isFinite v = true) :
    round32 n v = F32.ofCode (F64.sign v) (roundMag 23 F32.inf (F64.scaledMag v) unit32) := by
  rw [round32_of_notNaN n (F64.notNaN_of_isFinite h).1, (F64.notNaN_of_isFinite h).2, if_neg Bool.false_ne_true]

/-- The overflow bound, 2^128 − 2^103, in units of 2^−1074. -/
theorem roundMag32_finite_iff (m : Nat) :
    roundMag 23 F32.inf m unit32 < F32.inf ↔ m < (2 ^ 128 - 2 ^ 103) * 2 ^ 1074 := by
  have h := roundMag_finite_iff (p := 23) (e := 253) (num := m) unit32_pos
  rw [F32.inf, h, unit32_eq]
  have e1 : 2 ^ 253 * 2 ^ 925 = 2 * 2 ^ 1177 := by rw [← Nat.pow_add, ← Nat.pow_succ']
  have e2 : 2 ^ 23 * 2 ^ (253 + 2) * 2 ^ 925 = 2 ^ 26 * 2 ^ 1177 := by rw [← Nat.pow_add, ← Nat.pow_add, ← Nat.pow_add]
  have e3 : (2 ^ 128 - 2 ^ 103) * 2 ^ 1074 = (2 ^ 25 - 1) * 2 ^ 1177 := by
    rw [show 2 ^ 128 - 2 ^ 103 = (2 ^ 25 - 1) * 2 ^ 103 by decide, Nat.mul_assoc, ← Nat.pow_add]
  rw [e1, e2, e3]
  generalize 2 ^ 1177 = U
  omega

/-- A finite value below the bound is stored as the nearest binary32, of two equally near ones the one with an even last
bit. -/
theorem round32_nearest (n : NaN32) {v : F64} (hv : F64.isFinite v = true)
    (hb : F64.scaledMag v < (2 ^ 128 - 2 ^ 103) * 2 ^ 1074) (w : F32) :
    |(F32.scaledMag (round32 n v) * 2 ^ 925 : Int) - F64.scaledMag v| ≤
      |(F32.scaledMag w * 2 ^ 925 : Int) - F64.scaledMag v| ∧
    (F32.scaledMag w ≠ F32.scaledMag (round32 n v) →
      |(F32.scaledMag (round32 n v) * 2 ^ 925 : Int) - F64.scaledMag v| =
        |(F32.scaledMag w * 2 ^ 925 : Int) - F64.scaledMag v| → F32.frac (round32 n v) % 2 = 0) := by
  obtain ⟨c, hc, hw⟩ := F32.ofCode_code w
  have hcode := F32.code_lt (roundMag_le 23 F32.inf (F64.scaledMag v) unit32)
  have hnear := roundMag_nearest (by omega) unit32_pos ((roundMag32_finite_iff _).2 hb) c
  have hcast : ∀ m : Nat, ((m * unit32 : Nat) : Int) = (m : Int) * 2 ^ 925 := fun m => by
    rw [unit32_eq, Nat.cast_mul, Nat.cast_pow, Nat.cast_ofNat]
  rw [round32_of_isFinite n hv, F32.scaledMag_ofCode hcode, F32.frac_ofCode hcode, hw, F32.scaledMag_ofCode hc,
    Nat.mod_mod_of_dvd _ (by decide : 2 ∣ 2 ^ 23)]
  simpa only [hcast] using hnear

/-- Settles O38, by the classes of the stored value. -/
theorem singleStoreRoundsToNearest : Obligations.SingleStoreRoundsToNearest := by
  intro i v
  refine ⟨round32 (Config.freeNaN32 i v) v, rfl, fun h => (isNaN_round32 _ v).trans h, fun h => ?_, fun h => ?_⟩
  · rw [round32_of_isInf _ h]
    exact ⟨by simp [F32.isInf_ofCode], F32.sign_ofCode (F32.code_lt le_rfl)⟩
  · have hle := roundMag_le 23 F32.inf (F64.scaledMag v) unit32
    have hfin := roundMag32_finite_iff (F64.scaledMag v)
    obtain ⟨hinf, -, hexpo⟩ := F32.isInf_ofCode (s := F64.sign v) hle
    have hr := round32_of_isFinite (Config.freeNaN32 i v) h
    refine ⟨?_, fun hm => ?_, fun hm => ⟨?_, fun w _ => round32_nearest _ h hm w⟩⟩
    · rw [hr, F32.sign_ofCode (F32.code_lt hle)]
    · rw [hr, hinf, decide_eq_true_eq]
      exact le_antisymm hle (not_lt.1 fun hlt => absurd (hfin.1 hlt) (not_lt.2 hm))
    · rw [hr]
      exact hexpo (hfin.2 hm)

/-! ### Round trips (R80, R81) -/

theorem decodeLdd_beBytes (j : Nat) (v : F64) : decodeLdd j (beBytes 8 v.toNat) = v := by
  rw [decodeLdd, beUint_beBytes, show 256 ^ 8 = 2 ^ 64 by decide, Nat.mod_eq_of_lt v.isLt, BitVec.ofNat_toNat,
    BitVec.setWidth_eq]

/-- What widening makes of a word that is no NaN does not depend on the free payload. -/
theorem widen_of_notNaN (p q : Fin 4503599627370495) {b : F32} (h : F32.isNaN b = false) : widen p b = widen q b := by
  simp only [widen, h, Bool.false_eq_true, if_false]

theorem round32_of_notNaN_free (n m : NaN32) {v : F64} (h : F64.isNaN v = false) : round32 n v = round32 m v := by
  rw [round32_of_notNaN n h, round32_of_notNaN m h]

/-- The integer stores take the integers in their range (R80). -/
theorem storeInt_map_isSome {n : Nat} {v : F64} {f : Int → List Byte} : ((storeInt n v).map f).isSome ↔
    ∃ k, F64.toInt? v = some k ∧ -(2 ^ (n - 1) : Nat) ≤ k ∧ k < (2 ^ (n - 1) : Nat) := by
  simp only [Option.isSome_map, Option.isSome_iff_exists, storeInt_eq_some]

/-- They read back as an equal value. -/
theorem eq_ofInt_stored {n : Nat} {v : F64} {bs : List Byte} (hn : 0 < n)
    (h : (storeInt (8 * n) v).map (intBytes n) = some bs) :
    F64.eq (F64.ofInt (signExtend (8 * n) (beUint bs))) v = true := by
  obtain ⟨k, hk, rfl⟩ := Option.map_eq_some_iff.1 h
  obtain ⟨hv, h1, h2⟩ := storeInt_eq_some.1 hk
  rw [signExtend_intBytes hn h1 h2]
  exact F64.ofInt_of_toInt? hv

theorem encodeSw_isSome {i : Nat} {v : F64} :
    (encodeSw i v).isSome ↔ ∃ k, F64.toInt? v = some k ∧ -2 ^ 31 ≤ k ∧ k ≤ 2 ^ 31 - 1 := by
  rw [encodeSw, storeInt_map_isSome]
  exact exists_congr fun k => and_congr_right fun _ => by norm_num; omega

theorem encodeSd_isSome {i : Nat} {v : F64} :
    (encodeSd i v).isSome ↔ ∃ k, F64.toInt? v = some k ∧ -2 ^ 63 ≤ k ∧ k ≤ 2 ^ 63 - 1 := by
  rw [encodeSd, storeInt_map_isSome]
  exact exists_congr fun k => and_congr_right fun _ => by norm_num; omega

theorem encodeSw_of_toInt? {i : Nat} {v : F64} {k : Int} (hv : F64.toInt? v = some k) (h1 : -2 ^ 31 ≤ k)
    (h2 : k ≤ 2 ^ 31 - 1) : encodeSw i v = some (beBytes 4 (k % 2 ^ 32).toNat) := by
  have hk : storeInt 32 v = some k := storeInt_eq_some.2 ⟨hv, by norm_num; omega, by norm_num; omega⟩
  rw [encodeSw, hk]
  rfl

theorem encodeSd_of_toInt? {i : Nat} {v : F64} {k : Int} (hv : F64.toInt? v = some k) (h1 : -2 ^ 63 ≤ k)
    (h2 : k ≤ 2 ^ 63 - 1) : encodeSd i v = some (beBytes 8 (k % 2 ^ 64).toNat) := by
  have hk : storeInt 64 v = some k := storeInt_eq_some.2 ⟨hv, by norm_num; omega, by norm_num; omega⟩
  rw [encodeSd, hk]
  rfl

/-- Settles O39, codec by codec. -/
theorem storedBytesAndRoundTrips : Obligations.StoredBytesAndRoundTrips := by
  intro i j v bs
  refine ⟨fun h => ?_, eq_ofInt_stored (n := 4) (by omega), eq_ofInt_stored (n := 8) (by omega),
    fun h hv => ?_, fun h hv => ?_, encodeSw_isSome, encodeSd_isSome, fun _ => encodeSw_of_toInt?,
    fun _ => encodeSd_of_toInt?, rfl⟩ <;> cases h
  · exact decodeLdd_beBytes j v
  · rw [decodeLs_beBytes, round32_of_notNaN_free _ ⟨false, 0⟩ hv]
    exact widen_of_notNaN _ _ ((isNaN_round32 _ v).trans hv)
  · rw [decodeLs_beBytes]
    exact widen_of_isNaN _ ((isNaN_round32 _ v).trans hv)

end Sys2Proof.Machine
end

section
/-! ## Handover, at issue and in step 4 of the cycle (20_memory.md R102, R103, 40_cycle_engine.md R163, R169) -/

namespace Sys2Proof.Machine

/-! ### The handover of a station whose operands are there -/

/-- Station S holds what its handover reads: op, integer base `b`, offset and log index (R102). -/
structure HandsOver (s : State) (S : Station) (o : OpCode) (b : Int) (off : I32) (i : Nat) : Prop where
  here : s.station? S.name = some S
  op : S.op = some o
  base : ∃ v, S.vj = some v ∧ F64.toInt? v = some b
  offset : S.a = some off
  instruction : S.instruction = some i

section
variable {s : State} {S : Station} {o : OpCode} {b : Int} {off : I32} {i : Nat} {data : Option (List Byte)}

theorem HandsOver.handover_ok (h : HandsOver s S o b off i) (hea : AddressOk (b + off.toInt) (opSize o))
    (hd : storeData S o i s = .ok data) (hn : s.nextSeq + 1 < 2 ^ 32) :
    handover S.name s = .ok (enterLsb (lsbEntry S o (b + off.toInt).toNat i data s) s) := by
  obtain ⟨v, hv, hb⟩ := h.base
  exact Sys2Proof.Machine.handover_ok h.here h.op hv h.offset h.instruction hb hea hd hn

theorem HandsOver.handover_bad (h : HandsOver s S o b off i) (hea : ¬AddressOk (b + off.toInt) (opSize o)) :
    handover S.name s = .error (raise (addressFault (b + off.toInt) (opSize o)) s) := by
  obtain ⟨v, hv, hb⟩ := h.base
  exact Sys2Proof.Machine.handover_bad h.here h.op hv h.offset h.instruction hb hea

theorem HandsOver.handover_unstorable (h : HandsOver s S o b off i) (hea : AddressOk (b + off.toInt) (opSize o))
    {x : Stop} (hd : storeData S o i s = .error x) : handover S.name s = .error x := by
  obtain ⟨v, hv, hb⟩ := h.base
  exact Sys2Proof.Machine.handover_unstorable h.here h.op hv h.offset h.instruction hb hea hd

/-- An address that fails the checks inside memory is misaligned: the value is not asked for. -/
theorem addressFault_of_bad {ea : Int} {n : Nat} (h : ¬AddressOk ea n) (f : Fault) : addressFault ea n =
    if ea < 0 ∨ 2 ^ 20 < ea + n then .badAddress ea else if ea % 4 ≠ 0 then .misaligned ea else f := by
  unfold addressFault
  split
  · rfl
  · rw [if_pos fun h4 => h ⟨by omega, by omega, h4⟩]

theorem storeData_of_load (hk : S.kind = .load) : storeData S o i s = .ok none := by
  simp [storeData, hk]

/-- The data of a store is what its codec makes of the captured value (R78, R80). -/
theorem storeData_of_store {enc : Nat → F64 → Option (List Byte)} {v : F64} {bs : List Byte} (hk : S.kind = .store)
    (hc : storeCodec o = some enc) (hv : S.vk = some v) (henc : enc i v = some bs) : storeData S o i s = .ok (some bs) := by
  simp only [storeData, hk, if_true, hc, hv, henc]

theorem storeData_unstorable {enc : Nat → F64 → Option (List Byte)} {v : F64} (hk : S.kind = .store)
    (hc : storeCodec o = some enc) (hv : S.vk = some v) (henc : enc i v = none) :
    storeData S o i s = .error (raise (.unrepresentable v) s) := by
  simp only [storeData, hk, if_true, hc, hv, henc]

/-- The frozen latency, in the words of the statements (R86, R103). -/
theorem accessLatency_eq (s : State) (isLoad : Bool) (ea n : Nat) : accessLatency s.cfg isLoad (classify ea n s) =
    frozenLatency s (if isLoad then s.cfg.loadBaseLatency else s.cfg.storeBaseLatency) ea n := by
  have hhit : classify ea n s = true ↔ s.isHit ea = true ∧ (n = 8 → s.isHit (ea + 4) = true) := by
    rw [classify, Bool.and_eq_true, Bool.or_eq_true, bne_iff_ne, imp_iff_not_or]
  simp only [accessLatency, frozenLatency, hhit]

theorem frozenLatency_congr {s t : State} (hc : t.cfg = s.cfg) (hl : t.lines = s.lines) (base ea n : Nat) :
    frozenLatency t base ea n = frozenLatency s base ea n := by
  simp only [frozenLatency, isHit_congr hc hl, hc]

theorem lsbEntry_of_load (hk : S.kind = .load) (ea : Nat) : lsbEntry S o ea i data s =
    { seq := s.nextSeq, op := o, address := ea, size := opSize o, value := data
      remainingCycles := frozenLatency s s.cfg.loadBaseLatency ea (opSize o)
      isLoad := true, dest := S.dest, station := S.name, inst := i, started := false } := by
  simp only [lsbEntry, accessLatency_eq, hk, beq_self_eq_true, if_true]

theorem lsbEntry_of_store (hk : S.kind = .store) (ea : Nat) : lsbEntry S o ea i data s =
    { seq := s.nextSeq, op := o, address := ea, size := opSize o, value := data
      remainingCycles := frozenLatency s s.cfg.storeBaseLatency ea (opSize o)
      isLoad := false, dest := S.dest, station := S.name, inst := i, started := false } := by
  simp only [lsbEntry, accessLatency_eq, hk, show (Kind.store == Kind.load) = false from rfl, Bool.false_eq_true,
    if_false]

/-- What a handover leaves (R102). -/
theorem enterLsb_handedOver {e : LsbEntry} (he : e.station = S.name) : HandedOver s (enterLsb e s) S e where
  frame := ⟨rfl, rfl, rfl, rfl, rfl, rfl, rfl, rfl, coherentByte_congr rfl rfl rfl⟩
  lsb := rfl
  nextSeq := rfl
  stations := by rw [enterLsb_stations, he]
  registers := fun r => reg_congr rfl rfl r
  log := rfl
  cursor := rfl
  branchPending := rfl
  fault := rfl

end

/-! ### The loads and the stores (R213–R220) -/

/-- What the statements' table says of a load is what the model does. -/
theorem loadOps_spec {p : OpCode × (Fin 32 → Fin 32 → I32 → Instr) × (Fin 32 → Reg) × Nat} (hp : p ∈ loadOps) :
    opKind p.1 = .load ∧ opSize p.1 = p.2.2.2 ∧ ∀ d rb off s,
      exec (p.2.1 d rb off) s = issueRecord p.1 (some (p.2.2.1 d)) (.r rb) none (some off) s := by
  simp only [loadOps, List.mem_cons, List.not_mem_nil, or_false] at hp
  obtain rfl | rfl | rfl | rfl := hp <;> exact ⟨rfl, rfl, fun _ _ _ _ => rfl⟩

theorem storeOps_spec {p : OpCode × (Fin 32 → Fin 32 → I32 → Instr) × (Fin 32 → Reg) × Nat ×
    (Nat → F64 → Option (List Byte))} (hp : p ∈ storeOps) :
    opKind p.1 = .store ∧ opSize p.1 = p.2.2.2.1 ∧ storeCodec p.1 = some p.2.2.2.2 ∧ ∀ d rb off s,
      exec (p.2.1 d rb off) s = issueRecord p.1 none (.r rb) (some (p.2.2.1 d)) (some off) s := by
  simp only [storeOps, List.mem_cons, List.not_mem_nil, or_false] at hp
  obtain rfl | rfl | rfl | rfl := hp <;> exact ⟨rfl, rfl, rfl, fun _ _ _ _ => rfl⟩

/-! ### Step 4 of the cycle (R163) -/

theorem hasRoom_iff {s : State} : HasRoom s ↔ s.lsbFull = false := by
  simp [HasRoom, State.lsbFull]

theorem handoverIfRoom_of_hasRoom {s : State} (h : HasRoom s) (S : Station) :
    handoverIfRoom S s = handover S.name s := by
  rw [handoverIfRoom, hasRoom_iff.1 h, if_neg Bool.false_ne_true]

theorem handoverIfRoom_of_full {s : State} (h : ¬HasRoom s) (S : Station) : handoverIfRoom S s = .ok s := by
  rw [hasRoom_iff, Bool.not_eq_false] at h
  rw [handoverIfRoom, if_pos h]

theorem kindIsMem_iff {k : Kind} : kindIsMem k = true ↔ k = .load ∨ k = .store := by
  cases k <;> simp [kindIsMem]

theorem Station.ready_iff {S : Station} : S.ready = true ↔
    S.busy = true ∧ S.execStarted = false ∧ S.qj = none ∧ (S.kind = .load ∨ S.qk = none) := by
  simp [Station.ready, and_assoc]

theorem deferred_candidate (S : Station) : (kindIsMem S.kind && S.ready) =
    decide ((S.kind = .load ∨ S.kind = .store) ∧ S.busy = true ∧ S.execStarted = false ∧ S.qj = none ∧
      (S.kind = .load ∨ S.qk = none)) := by
  rw [Bool.eq_iff_iff, Bool.and_eq_true, decide_eq_true_eq, kindIsMem_iff, Station.ready_iff]

/-- Settles O28: a candidate's handover by its checks, and the candidates in the order that `deferred` sorts them in. -/
theorem deferredStationsEnterTheLsbInOrder : Obligations.DeferredStationsEnterTheLsbInOrder := by
  refine ⟨fun p hp s S base off i b hS hk ho hv ha hi hb hroom => ?_,
    fun p hp s S base v off i b hS hk ho hv hvk ha hi hb hroom => ?_, fun s S h => handoverIfRoom_of_full h S,
    fun s => ⟨deferred s, ?_, deferred_sorted s, rfl⟩⟩
  · obtain ⟨-, hsize, -⟩ := loadOps_spec hp
    have h : HandsOver s S p.1 b off i := ⟨hS, ho, ⟨base, hv, hb⟩, ha, hi⟩
    rw [← hsize, handoverIfRoom_of_hasRoom hroom]
    refine ⟨fun hea hn => ⟨_, h.handover_ok hea (storeData_of_load hk) hn, ?_⟩, h.handover_bad⟩
    rw [lsbEntry_of_load hk]
    exact enterLsb_handedOver rfl
  · obtain ⟨-, hsize, hcodec, -⟩ := storeOps_spec hp
    have h : HandsOver s S p.1 b off i := ⟨hS, ho, ⟨base, hv, hb⟩, ha, hi⟩
    rw [← hsize, handoverIfRoom_of_hasRoom hroom]
    refine ⟨fun bs hea henc hn => ⟨_, h.handover_ok hea (storeData_of_store hk hcodec hvk henc) hn, ?_⟩, h.handover_bad,
      fun hea henc => h.handover_unstorable hea (storeData_unstorable hk hcodec hvk henc)⟩
    rw [lsbEntry_of_store hk]
    exact enterLsb_handedOver rfl
  · simp only [← deferred_candidate]
    exact deferred_perm s

/-! ### Issue with a handover in the same cycle (R169) -/

/-- The memory record of op `o` can issue into T, and its handover follows in the same cycle: the LSB has room, and base
and data are ready. -/
structure IssuesReady (s : State) (T : Tag) (o : OpCode) (j : Reg) (k : Option Reg) (b : Int) : Prop where
  can : CanIssue s (opKind o) T
  mem : kindIsMem (opKind o) = true
  room : HasRoom s
  base : (s.reg j).qi = none
  data : opKind o = .load ∨ ∀ r, k = some r → (s.reg r).qi = none
  integer : F64.toInt? (s.reg j).value = some b

theorem capture_eq (r : Reg) (s : State) : capture r s = (slotValue (s.reg r), (s.reg r).qi) := by
  unfold capture slotValue
  cases (s.reg r).qi <;> rfl

theorem captureOpt_eq (r : Option Reg) (s : State) :
    captureOpt r s = ((r.map s.reg).bind slotValue, (r.map s.reg).bind RegCell.qi) := by
  cases r with
  | none => rfl
  | some r => exact capture_eq r s

theorem filledStation_eq (T : Tag) (o : OpCode) (dest : Option Reg) (j : Reg) (k : Option Reg) (a : Option I32) (i : Nat)
    (s : State) : filledStation T o dest j k a i s =
      issuedStation T o dest (s.reg j) (k.map s.reg) a i s.cycle false := by
  simp only [filledStation, issuedStation, capture_eq, captureOpt_eq]

theorem slotValue_ready {c : RegCell} (h : c.qi = none) : slotValue c = some c.value := by
  simp only [slotValue, h]

/-- Capture and rename are an issue, the cursor and the handover apart (R165–R168). -/
theorem captured_issued (T : Tag) (o : OpCode) (dest : Option Reg) (j : Reg) (k : Option Reg) (a : Option I32)
    (s : State) : Issued s (captured T o dest j k a s) T o dest
      (issuedStation T o dest (s.reg j) (k.map s.reg) a s.instances.length s.cycle false) where
  frame := ⟨captured_cfg .., captured_prog .., captured_cycle .., captured_cdbQueue .., captured_mem .., captured_lines ..,
    captured_hits .., captured_misses .., coherentByte_congr (captured_cfg ..) (captured_lines ..) (captured_mem ..)⟩
  station := by rw [captured_stations, filledStation_eq]
  log := captured_instances ..
  renamed := fun d hd => hd ▸ reg_captured_dest s
  others := fun r hr => reg_captured_ne hr s
  fault := captured_fault ..

section
variable {s c : State} {T : Tag} {o : OpCode} {dest : Option Reg} {j : Reg} {k : Option Reg} {b : Int} {off : I32}
  {S : Station} {data : Option (List Byte)}

/-- A handover behind capture and rename completes the issue. -/
theorem Issued.enterLsb (h : Issued s c T o dest S) (hS : S.name = T) {e : LsbEntry} (he : e.station = T) :
    Issued s (advance (enterLsb e c)) T o dest { S with execStarted := true } where
  frame := ⟨h.frame.cfg, h.frame.prog, h.frame.cycle, h.frame.cdbQueue, h.frame.mem, h.frame.lines, h.frame.hits,
    h.frame.misses, fun x => (coherentByte_congr rfl rfl rfl x).trans (h.frame.coherent x)⟩
  station := by
    rw [advance_stations, enterLsb_stations, h.station, he, List.map_map]
    refine List.map_congr_left fun P _ => ?_
    by_cases hP : P.name = T <;> simp [hP, hS]
  log := h.log
  renamed := fun d hd => (reg_congr rfl rfl d).trans (h.renamed d hd)
  others := fun r hr => (reg_congr rfl rfl r).trans (h.others r hr)
  fault := h.fault

theorem IssuesReady.allocate (h : IssuesReady s T o j k b) : allocate (opKind o) s = some T := allocate_eq_some.2 h.can.2

theorem IssuesReady.kind (h : IssuesReady s T o j k b) : T.kind = opKind o := kind_of_allocate h.allocate

/-- The captured station has what its handover reads. -/
theorem IssuesReady.handsOver (h : IssuesReady s T o j k b) : HandsOver (captured T o dest j k (some off) s)
    (issuedStation T o dest (s.reg j) (k.map s.reg) (some off) s.instances.length s.cycle false) o b off
    s.instances.length where
  here := by rw [← filledStation_eq]; exact station?_fill (tags_of_allocate h.allocate)
  op := rfl
  base := ⟨_, slotValue_ready h.base, h.integer⟩
  offset := rfl
  instruction := rfl

theorem IssuesReady.ready (h : IssuesReady s T o j k b) :
    (filledStation T o dest j k (some off) s.instances.length s).ready = true := by
  rw [filledStation_eq, Station.ready_iff]
  refine ⟨rfl, rfl, h.base, h.data.imp (fun hl => h.kind.trans hl) fun hk => ?_⟩
  cases k with
  | none => rfl
  | some r => exact hk r rfl

/-- With its checks passed the record is issued and in the LSB (R102, R169, R171). -/
theorem IssuesReady.enters (h : IssuesReady s T o j k b) (hea : AddressOk (b + off.toInt) (opSize o))
    (hd : storeData (issuedStation T o dest (s.reg j) (k.map s.reg) (some off) s.instances.length s.cycle false) o
      s.instances.length (captured T o dest j k (some off) s) = .ok data) (hn : s.nextSeq + 1 < 2 ^ 32) :
    ∃ t, issueRecord o dest j k (some off) s = .next t ∧
      Issued s t T o dest
        (issuedStation T o dest (s.reg j) (k.map s.reg) (some off) s.instances.length s.cycle true) ∧
      t.cursor = s.cursor + 1 ∧ t.branchPending = false ∧ t.nextSeq = s.nextSeq + 1 ∧
      t.lsb = s.lsb ++
        [lsbEntry (issuedStation T o dest (s.reg j) (k.map s.reg) (some off) s.instances.length s.cycle false) o
          (b + off.toInt).toNat s.instances.length data (captured T o dest j k (some off) s)] := by
  have hH : handover T (captured T o dest j k (some off) s) = .ok _ :=
    h.handsOver.handover_ok hea hd ((captured_nextSeq ..).symm ▸ hn)
  refine ⟨_, (issueRecord_handover h.can.1 h.allocate h.mem h.room h.ready).trans (by rw [hH]),
    (captured_issued ..).enterLsb rfl rfl, ?_⟩
  simp [h.can.1]

/-- With a failing check the fault is recorded, and the issue stands but for the cursor (60_exceptions.md R312). -/
theorem IssuesReady.faults (h : IssuesReady s T o j k b) {f : Fault}
    (hH : handover T (captured T o dest j k (some off) s) = .error (raise f (captured T o dest j k (some off) s))) :
    ∃ t, issueRecord o dest j k (some off) s = .next t ∧ t.fault = some f ∧
      Issued s { t with fault := s.fault } T o dest
        (issuedStation T o dest (s.reg j) (k.map s.reg) (some off) s.instances.length s.cycle false) ∧
      t.cursor = s.cursor ∧ t.branchPending = false ∧ t.lsb = s.lsb ∧ t.nextSeq = s.nextSeq := by
  refine ⟨{ captured T o dest j k (some off) s with fault := some f },
    (issueRecord_handover h.can.1 h.allocate h.mem h.room h.ready).trans (by rw [hH]; rfl), rfl, ?_, ?_⟩
  · rw [← captured_fault T o dest j k (some off) s]
    exact captured_issued ..
  · simp [h.can.1]

end

/-- A load that is ready at issue, in the statements' words. -/
theorem issuesReady_load {p : OpCode × (Fin 32 → Fin 32 → I32 → Instr) × (Fin 32 → Reg) × Nat} (hp : p ∈ loadOps)
    {s : State} {T : Tag} {rb : Fin 32} {b : Int} (hc : CanIssue s .load T) (hroom : HasRoom s)
    (hq : (s.reg (.r rb)).qi = none) (hb : F64.toInt? (s.reg (.r rb)).value = some b) :
    IssuesReady s T p.1 (.r rb) none b ∧ T.kind = .load := by
  obtain ⟨hkind, -⟩ := loadOps_spec hp
  have h : IssuesReady s T p.1 (.r rb) none b := ⟨hkind ▸ hc, by rw [hkind]; rfl, hroom, hq, .inl hkind, hb⟩
  exact ⟨h, h.kind.trans hkind⟩

theorem issuesReady_store {p : OpCode × (Fin 32 → Fin 32 → I32 → Instr) × (Fin 32 → Reg) × Nat ×
    (Nat → F64 → Option (List Byte))} (hp : p ∈ storeOps) {s : State} {T : Tag} {d rb : Fin 32} {b : Int}
    (hc : CanIssue s .store T) (hroom : HasRoom s) (hq : (s.reg (.r rb)).qi = none)
    (hk : (s.reg (p.2.2.1 d)).qi = none) (hb : F64.toInt? (s.reg (.r rb)).value = some b) :
    IssuesReady s T p.1 (.r rb) (some (p.2.2.1 d)) b ∧ T.kind = .store := by
  obtain ⟨hkind, -⟩ := storeOps_spec hp
  have h : IssuesReady s T p.1 (.r rb) (some (p.2.2.1 d)) b :=
    ⟨hkind ▸ hc, by rw [hkind]; rfl, hroom, hq, .inr fun r hr => Option.some.inj hr ▸ hk, hb⟩
  exact ⟨h, h.kind.trans hkind⟩

/-- Settles O13: the captured load passes the checks of its handover. -/
theorem loadIssuesAndEntersTheLsb : Obligations.LoadIssuesAndEntersTheLsb := by
  intro p hp d rb off s T b hc hroom hq hb hea hn
  obtain ⟨-, hsize, hexec⟩ := loadOps_spec hp
  obtain ⟨h, hT⟩ := issuesReady_load hp hc hroom hq hb
  obtain ⟨t, ht, hI, hcur, hbp, hseq, hlsb⟩ :=
    h.enters (dest := some (p.2.2.1 d)) (hsize ▸ hea) (storeData_of_load hT) hn
  refine ⟨t, (hexec ..).trans ht, hI, hcur, hbp, hseq, ?_⟩
  rw [hlsb, lsbEntry_of_load (S := issuedStation ..) hT, hsize, captured_nextSeq, captured_cfg,
    frozenLatency_congr (captured_cfg ..) (captured_lines ..)]
  rfl

/-- Settles O14, as O13; its data passes the codec. -/
theorem storeIssuesAndEntersTheLsb : Obligations.StoreIssuesAndEntersTheLsb := by
  intro p hp d rb off s T b bs hc hroom hq hk hb hea henc hn
  obtain ⟨-, hsize, hcodec, hexec⟩ := storeOps_spec hp
  obtain ⟨h, hT⟩ := issuesReady_store hp hc hroom hq hk hb
  obtain ⟨t, ht, hI, hcur, hbp, hseq, hlsb⟩ :=
    h.enters (dest := none) (hsize ▸ hea) (storeData_of_store hT hcodec (slotValue_ready hk) henc) hn
  refine ⟨t, (hexec ..).trans ht, hI, hcur, hbp, hseq, ?_⟩
  rw [hlsb, lsbEntry_of_store (S := issuedStation ..) hT, hsize, captured_nextSeq, captured_cfg,
    frozenLatency_congr (captured_cfg ..) (captured_lines ..)]
  rfl

/-- Settles O18: the address checks are the handover's first. -/
theorem loadWithBadAddressFaults : Obligations.LoadWithBadAddressFaults := by
  intro p hp d rb off s T b hc hroom hq hb hea
  obtain ⟨-, hsize, hexec⟩ := loadOps_spec hp
  obtain ⟨h, -⟩ := issuesReady_load hp hc hroom hq hb
  rw [← hsize] at hea ⊢
  rw [hexec]
  exact h.faults (h.handsOver.handover_bad hea)

/-- Settles O19: an address that fails is no address for the codec to be asked. -/
theorem storeWithBadAddressOrValueFaults : Obligations.StoreWithBadAddressOrValueFaults := by
  intro p hp d rb off s T b hc hroom hq hk hb hbad
  obtain ⟨-, hsize, hcodec, hexec⟩ := storeOps_spec hp
  obtain ⟨h, hT⟩ := issuesReady_store hp hc hroom hq hk hb
  rw [← hsize] at hbad ⊢
  rw [hexec]
  by_cases hea : AddressOk (b + off.toInt) (opSize p.1)
  · have henc := hbad.resolve_left (not_not.2 hea)
    have hH := (h.handsOver (dest := none)).handover_unstorable hea
      (storeData_unstorable hT hcodec (slotValue_ready hk) henc)
    obtain ⟨h0, h1, h4⟩ := hea
    rw [if_neg (by omega), if_neg (by omega)]
    exact h.faults hH
  · have hH := (h.handsOver (dest := none)).handover_bad hea
    rw [addressFault_of_bad hea (.unrepresentable (s.reg (p.2.2.1 d)).value)] at hH
    exact h.faults hH

end Sys2Proof.Machine
end

section
/-! ## Refusals (20_memory.md R96, log 9, log 10) -/

namespace Sys2Proof.Machine

/-- The operands of an issue are wired as the op's format says (30_encoding.md R122, R124, 40_cycle_engine.md R167). -/
structure Wired (o : OpCode) (d : Option Reg) (j : Reg) (k : Option Reg) (a : Option I32) : Prop where
  slotK : k.isSome = usesK o
  field : a.isSome = usesA o
  dest : d.isSome = o.destClass.isSome
  destClass : ∀ r, d = some r → Reg.cls r = o.dataClass
  slotJ : readsIntJ o = true → ∃ i, j = .r i

/-- Every instruction issues its operands wired. -/
theorem exec_wired (i : Instr) : ∃ o dest j k a, (∀ s, exec i s = issueRecord o dest j k a s) ∧ Wired o dest j k a := by
  cases i <;> exact ⟨_, _, _, _, _, fun _ => rfl, rfl, rfl, rfl, by rintro r ⟨⟩ <;> rfl,
    by simp [readsIntJ, OpCode.format]⟩

/-- Capture and rename of a memory record leave what its handover needs in order not to refuse. -/
theorem captured_sound {s : State} (h : Sound s) {T : Tag} {o : OpCode} {dest : Option Reg} {j : Reg} {k : Option Reg}
    {a : Option I32} (hw : Wired o dest j k a) (hm : kindIsMem (opKind o) = true) (hb : s.branchPending = false)
    (hT : allocate (opKind o) s = some T) : Sound (captured T o dest j k a s) where
  sh := captured_shaped h.sh (kind_of_allocate hT).symm
  li := captured_linked h.li hb hT hw.slotK hw.field hw.dest (fun _ => rfl) rfl rfl (captured_cdbQueue ..)
    (captured_lsb ..) fun hbr => by rw [hbr] at hm; cases hm
  iv := ⟨fun hc => captured_integer h.li (h.iv.1 hc) hT hw.destClass hw.slotJ, False.elim⟩
  pr := by rw [captured_prog]; exact h.pr

/-- An issue refuses only what its handover refuses. -/
theorem issueRecord_refuses {s : State} (h : Sound s) {o : OpCode} {dest : Option Reg} {j : Reg} {k : Option Reg}
    {a : Option I32} (hw : Wired o dest j k a) {r : Refusal} (hr : issueRecord o dest j k a s = .refused r) :
    r = .seqOverflow := by
  obtain h' | ⟨T, hb, hT, ⟨-, h'⟩ | ⟨-, -, -, h'⟩ | ⟨hm, -, hready, h'⟩⟩ := issueRecord_cases o dest j k a s <;>
    rw [h'] at hr
  · cases hr
  · cases hr
  · cases hr
  · have hS := station?_mem (station?_fill (o := o) (dest := dest) (j := j) (k := k) (a := a) (tags_of_allocate hT))
    have hk : kindIsMem T.kind = true := kind_of_allocate hT ▸ hm
    split at hr
    · cases hr
    · cases hr
    · next hH =>
      cases hr
      exact handover_refuses (captured_sound h hw hm hb hT) hS hready hk r hH

/-- A record of a checked program decodes (log 10). -/
theorem recordAtCursor_checked {s : State} (hp : programOk s.prog = true) {c : WfCheck} :
    s.recordAtCursor ≠ some (.error c) := by
  unfold State.recordAtCursor
  split
  · simp
  · next r hr =>
    obtain ⟨ins, hins⟩ := checkRecord_of_firstBadRecord (Option.isNone_iff_eq_none.1 hp) s.cursor r hr
    rw [Nat.zero_add] at hins
    simp [hins]

theorem issuePhase_refuses {s : State} (h : Sound s) {r : Refusal} (hr : issuePhase s = .refused r) :
    r = .seqOverflow := by
  unfold issuePhase at hr
  split at hr
  · cases hr
  · next c hc => exact absurd hc (recordAtCursor_checked h.pr)
  · next i _ =>
    obtain ⟨o, dest, j, k, a, hexec, hw⟩ := exec_wired i
    exact issueRecord_refuses h hw (hexec s ▸ hr)

theorem WellFormed.sound_tick {s : State} (h : WellFormed s) : Sound (tick s) where
  sh := tick_shaped h.shaped
  li := tick_linked h.linked
  iv := Good.congr (s := s) ⟨fun _ => h.integer, False.elim⟩ (fun _ => reg_congr rfl rfl _) rfl rfl rfl
  pr := h.program

/-- A step refuses what one of its phases refuses. -/
theorem step_refused_cases {s : State} {r : Refusal} (h : step s = .refused r) :
    earlyPhases (tick s) = .error (.refuse r) ∨ ∃ u, earlyPhases (tick s) = .ok u ∧ issuePhase u = .refused r := by
  unfold step at h
  split at h
  · cases h
  · split at h
    · cases h
    · split at h
      · cases h
      · next he => cases h; exact .inl he
      · next u he => exact .inr ⟨u, he, h⟩

/-- Settles O52: the phases before Issue refuse only as `Fine` allows, and Issue only as its handover does. -/
theorem wellFormedMachineIsNotRefused : Obligations.WellFormedMachineIsNotRefused := by
  intro s r h hr
  have hE := earlyPhases_fine h.sound_tick
  obtain he | ⟨u, he, hI⟩ := step_refused_cases hr <;> rw [he] at hE
  · exact hE
  · exact issuePhase_refuses hE hI

end Sys2Proof.Machine
end

section
/-! ## The reset values (70_reset_and_hazards.md R334, 20_memory.md R71) -/

namespace Sys2Proof.Machine

/-- With every line invalid the coherent view is ByteMemory. -/
theorem coherentByte_of_invalid {s : State} {n b : Nat} (h : s.lines = List.replicate n (CacheLine.invalid b)) (x : Nat) :
    s.coherentByte x = s.mem.read x := by
  have hmiss : s.isHit x = false := by
    unfold State.isHit
    split
    · next L hL =>
      rw [h] at hL
      rw [List.eq_of_mem_replicate (List.mem_of_getElem? hL)]
      rfl
    · rfl
  rw [State.coherentByte, hmiss, if_neg Bool.false_ne_true]

/-- The registers after a checked preload (R332). -/
theorem preload_registers {l : List (RegText × F64)} {ps : List (Reg × F64)} (h : checkPreload [] l = .ok ps)
    (c : Config) (prog : List Record) :
    (∀ r, ((preloadRegs ps (State.fresh c prog)).reg r).qi = none) ∧
    (∀ r, (∀ p ∈ l, parseReg p.1 ≠ some r) → ((preloadRegs ps (State.fresh c prog)).reg r).value = 0) ∧
    (∀ p ∈ l, ∀ r, parseReg p.1 = some r → ((preloadRegs ps (State.fresh c prog)).reg r).value = p.2) := by
  obtain ⟨hin, hout, hnodup, -⟩ := checkPreload_ok h
  refine ⟨preloadRegs_qi ps _ fun r => by rw [reg_fresh], fun r hr => ?_, fun p hp r hr => ?_⟩
  · have hps : ∀ q ∈ ps, q.1 ≠ r := by
      rintro q hq rfl
      obtain ⟨p, hp, hpr, -⟩ := hout q hq
      exact hr p hp hpr
    rw [preloadRegs_absent ps _ r hps, reg_fresh]
  · obtain ⟨r', hr', hmem, -⟩ := hin p hp
    obtain rfl : r' = r := Option.some.inj (hr'.symm.trans hr)
    exact preloadRegs_given ps _ hnodup (r', p.2) hmem

/-- ByteMemory of an image: zero but for its bytes (R71, R333). -/
def imageMemory (cs : List (Nat × Byte)) : Memory := cs.foldl (fun m c => m.write c.1 c.2) []

/-- ByteMemory after a checked image (R333). -/
theorem image_bytes {l : List (Int × Int)} {cs : List (Nat × Byte)} (h : checkImage l = .ok cs) :
    (∀ a : Nat, (∀ p ∈ l, p.1 ≠ a) → (imageMemory cs).read a = 0) ∧
    ((l.map Prod.fst).Nodup → ∀ p ∈ l,
      (imageMemory cs).read p.1.toNat = BitVec.ofInt 8 p.2) := by
  obtain ⟨rfl, hok⟩ := checkImage_ok h
  refine ⟨fun a ha => image_absent _ [] a ?_, fun hn p hp => ?_⟩
  · rw [List.forall_mem_map]
    intro p hp
    have := ha p hp
    have := hok p hp
    dsimp only
    omega
  · have hnodup : ((l.map fun p => (p.1.toNat, BitVec.ofNat 8 p.2.toNat)).map Prod.fst).Nodup := by
      rw [List.map_map]
      refine (List.Nodup.of_map _ hn).map_on fun p hp q hq hpq => List.inj_on_of_nodup_map hn hp hq ?_
      have := hok p hp
      have := hok q hq
      simp only [Function.comp] at hpq
      omega
    have hin : ∀ c ∈ l.map fun p => (p.1.toNat, BitVec.ofNat 8 p.2.toNat), c.1 < memSize := by
      rw [List.forall_mem_map]
      intro q hq
      have := hok q hq
      dsimp only
      omega
    obtain ⟨-, -, h0, -⟩ := hok p hp
    refine (image_given _ [] Memory.wf_nil hin hnodup _ (List.mem_map_of_mem hp)).trans ?_
    rw [← BitVec.ofInt_natCast, Int.toNat_of_nonneg h0]

/-- Settles O53: the reset state is the fresh one of a checked configuration, with the preload in its registers and the
image in ByteMemory. -/
theorem resetLeavesTheResetValues : Obligations.ResetLeavesTheResetValues := by
  intro inp s h
  obtain ⟨c, ps, cs, hc, hps, hcs, -, -, rfl⟩ := hostReset_ok h
  obtain ⟨hqi, habsent, hgiven⟩ := preload_registers hps c inp.prog
  obtain ⟨hzero, himage⟩ := image_bytes hcs
  have hreg : ∀ r, (loadImage cs (preloadRegs ps (State.fresh c inp.prog))).reg r =
      (preloadRegs ps (State.fresh c inp.prog)).reg r := reg_congr rfl rfl
  simp only [hreg]
  obtain ⟨ir, fr, hs⟩ := preloadRegs_frame ps (State.fresh c inp.prog)
  have hcoh : ∀ x, (loadImage cs (preloadRegs ps (State.fresh c inp.prog))).coherentByte x =
      (imageMemory cs).read x := by
    rw [hs]
    exact coherentByte_of_invalid rfl
  simp only [hcoh]
  rw [hs] at hqi habsent hgiven ⊢
  exact ⟨hc, (checkConfig_ok hc).1, rfl, rfl, rfl, rfl, rfl, rfl, rfl, rfl, rfl, rfl, rfl, rfl, rfl, hqi, habsent, hgiven,
    fun a ha => ⟨hzero a ha, hzero a ha⟩, fun hn p hp => ⟨himage hn p hp, himage hn p hp⟩⟩

end Sys2Proof.Machine
end

section
/-! ## A load or a store alone in the machine (70_reset_and_hazards.md R347) -/

namespace Sys2Proof.Machine

/-! ### Its issue -/

/-- A cycle of an idle machine is the issue of its record. -/
theorem Idle.step_of_exec {s t : State} (h : Idle s) {i : Instr} (hrec : s.recordAtCursor = some (.ok i))
    (hcur : s.cursor < s.prog.length) (hexec : exec i (tick s) = .next t) : step s = .next t := by
  have hterm : s.terminated = false := by
    rw [← Bool.not_eq_true, terminated_iff]
    rintro ⟨hend, -⟩
    omega
  have hwrite : writePhase (tick s) = .ok (tick s) := by simp [writePhase, tick, h.cdbQueue, selectRequest]
  obtain ⟨hexecute, hmemory, hdeferred⟩ := phases_allFree (u := tick s) h.stations h.lsb
  have hrec' : (tick s).recordAtCursor = some (.ok i) := hrec
  simp only [step, h.fault, hterm, earlyPhases, hwrite, hexecute, hmemory, hdeferred, issuePhase,
    hrec', Bool.false_eq_true, if_false, hexec]

/-- The station that issued is then the only busy one. -/
theorem Issued.solo {s t : State} (h : Idle s) {T : Tag} {o : OpCode} {dest : Option Reg} {S : Station}
    (hT : T ∈ s.tags) (hI : Issued (tick s) t T o dest S) (hS : S.name = T) : Solo t T S := by
  obtain ⟨F, hF⟩ := station?_isSome (s := tick s) hT
  have hsolo : Solo (tick s) T F := ⟨h.names, hF, fun P hP _ => h.stations P hP⟩
  exact (hsolo.update (fun _ => S) fun _ _ => hS).congr hI.station

/-- After the last record there is nothing to issue. -/
theorem noIssue_end {w : State} (h : w.cursor = w.prog.length) : NoIssue w := by
  have hnone : w.prog[w.cursor]? = none := List.getElem?_eq_none h.ge
  exact ⟨.inl hnone, fun r hr => by rw [hnone] at hr; cases hr⟩

/-! ### Its commit -/

/-- What every step keeps, a run keeps. -/
theorem run_shaped {n : Nat} {u w : State} (hs : Shaped u) (h : Sys2Proof.core.run n u = .next w) : Shaped w := by
  induction n generalizing u with
  | zero => cases h; exact hs
  | succ n ih =>
    simp only [Host.Core.run] at h
    split at h
    · next v hv => exact ih (step_shaped hs hv) h
    · cases h
    · cases h

/-- A commit that goes through records no fault. -/
theorem commit_fault {s t : State} (hs : Shaped s) {e : LsbEntry} (he : EntryOk e) (h : commit e s = .ok t) :
    t.fault = s.fault := by
  unfold commit at h
  cases hl : e.isLoad with
  | true =>
    obtain ⟨u, hu, hO, -⟩ := readEntry_spec hs he
    obtain ⟨dec, hd⟩ := he.codec hl
    simp only [hl, if_true, commitLoad, hu, hd] at h
    cases h
    exact hO.fault
  | false =>
    obtain ⟨bs, hv, hb⟩ := he.data hl
    obtain ⟨u, hu, hO, -⟩ := writeEntry_spec hs he hb
    simp only [hl, Bool.false_eq_true, if_false, commitStore, hv, hu] at h
    cases h
    exact hO.fault

theorem commitRequests_congr {s t : State} (hc : ∀ x, t.coherentByte x = s.coherentByte x) (hC : t.cycle = s.cycle)
    (e : LsbEntry) : commitRequests e t = commitRequests e s := by
  simp only [commitRequests, memRead_congr hc, hC]

/-- The state `z` after `u` in which the only entry `e`, started in cycle `start`, has committed in cycle `C`. -/
structure Landed (u z : State) (e : LsbEntry) (start C : Nat) : Prop where
  prog : z.prog = u.prog
  cursor : z.cursor = u.cursor
  branchPending : z.branchPending = u.branchPending
  fault : z.fault = u.fault
  cycle : z.cycle = C
  lsb : z.lsb = []
  reg : ∀ r, z.reg r = u.reg r
  queue : z.cdbQueue = commitRequests e { u with cycle := C }
  stations : z.stations = if e.isLoad then u.stations else (release e.station u).stations
  instances : z.instances = u.instances.modify e.inst fun d =>
    { d with execStart := some start, execEnd := some C, write := if e.isLoad then d.write else some C }
  coherent : ∀ x, z.coherentByte x =
    if e.stores x then (e.value.getD []).getD (x - e.address) 0 else u.coherentByte x

/-- The commit of the only entry in its last cycle, with its start stamped there unless it was before. -/
theorem memoryPhase_commits {w : State} (hs : Shaped w) {e : LsbEntry} (hl : w.lsb = [e]) (hr : e.remainingCycles = 1) :
    ∃ z, memoryPhase (tick w) = .ok { z with lsb := [] } ∧
      Frame (tick w) z ∧ z.fault = w.fault ∧ Committed (stampStart e { tick w with lsb := [] }) z e.decremented := by
  have hsw : Shaped { tick w with lsb := [] ++ e :: [] } := (tick_shaped hs).sameLsb hl
  obtain ⟨hsc, hok⟩ := hsw.without e
  obtain ⟨z, hz, hC⟩ := commit_spec hsc hok
  have hframe : Frame _ z := Cyc.all_ok.mp (hz ▸ commit_frame e.decremented _)
  have hpre : Frame (tick w) (stampStart e { tick w with lsb := [] }) :=
    .trans (t := { tick w with lsb := [] }) ⟨rfl, rfl, rfl, rfl, rfl, rfl, rfl, .refl _ _, fun _ h => h⟩
      (stampStart_frame e _)
  have hfault := commit_fault hsc hok hz
  rw [stampStart_fault] at hfault
  rw [List.nil_append, ← stampStart_withLsb] at hz
  exact ⟨z, memoryPhase_last hl hr hz, hpre.trans hframe, hfault, hC⟩

/-- With the only busy station handed over, no station waits for its handover; nor after the release of one. -/
theorem Solo.none_ready {u : State} {T : Tag} {S : Station} (hS : Solo u T S) (he : S.execStarted = true) (U : Tag) :
    (∀ P ∈ u.stations, P.ready = false) ∧ ∀ P ∈ (release U u).stations, P.ready = false := by
  have hfree : ∀ V, (Station.free V).ready = false := fun V => by simp [Station.ready, Station.free]
  have hu : ∀ P ∈ u.stations, P.ready = false := fun P hP => by
    by_cases hn : P.name = T
    · have hP' := station?_of_mem hS.nodup hP
      rw [hn, hS.here] at hP'
      obtain rfl := Option.some.inj hP'
      simp [Station.ready, he]
    · rw [hS.others P hP hn]
      exact hfree _
  refine ⟨hu, fun P hP => ?_⟩
  rw [release_stations] at hP
  obtain ⟨Q, hQ, rfl⟩ := List.mem_map.1 hP
  split
  · exact hfree U
  · exact hu Q hQ

/-- The step in the last cycle of the only entry, its station alone and handed over. -/
theorem Solo.lastStep {w : State} {T : Tag} {S : Station} (hS : Solo w T S) (hb : S.busy = true)
    (hm : kindIsMem T.kind = true) (hx : S.execStarted = true) (hq : w.cdbQueue = []) (hf : w.fault = none)
    (hB : NoIssue w) (hs : Shaped w) {e : LsbEntry} (hl : w.lsb = [e]) (hr : e.remainingCycles = 1) :
    ∃ z, step w = .next { z with lsb := [] } ∧ Frame (tick w) z ∧ z.fault = none ∧
      Committed (stampStart e { tick w with lsb := [] }) z e.decremented := by
  obtain ⟨z, hz, hframe, hfault, hC⟩ := memoryPhase_commits hs hl hr
  have hready : ∀ P ∈ z.stations, P.ready = false := by
    have hst := hC.stations
    obtain ⟨hkept, hreleased⟩ := hS.none_ready hx e.station
    split at hst
    · rw [hst, stampStart_stations]; exact hkept
    · rw [hst, release_stations, stampStart_stations]; exact hreleased
  have hdef : Sys2Proof.Machine.deferredPhase { z with lsb := [] } = .ok { z with lsb := [] } :=
    deferredPhase_none fun P hP => .inr (hready P hP)
  exact ⟨z, step_noIssue hf (hS.not_terminated hb) (hS.earlyPhases_mem hm hq hz hdef)
    (hB.congr hframe.prog hframe.cursor hframe.branchPending), hframe, hfault.trans hf, hC⟩

/-- The only entry of the machine, with n + 1 cycles left and its station alone, has committed after n + 1 steps. -/
theorem Solo.lands {u : State} {T : Tag} {S : Station} (hS : Solo u T S) (hb : S.busy = true)
    (hm : kindIsMem T.kind = true) (hx : S.execStarted = true) (hq : u.cdbQueue = []) (hf : u.fault = none)
    (hB : NoIssue u) (hs : Shaped u) {e : LsbEntry} (hl : u.lsb = [e]) {n : Nat} (hr : e.remainingCycles = n + 1)
    (hst : e.started = false) :
    ∃ z, runs (n + 1) u z ∧ Landed u z e (u.cycle + 1) (u.cycle + (n + 1)) := by
  obtain ⟨w, b, hrun, hframe, hwl, hwc, hwi⟩ := hS.toLastCycle hb hm hx hq hf hB hl hr hst
  obtain ⟨z, hz, hF, hfault, hC⟩ := (hS.congr hframe.stations).lastStep hb hm hx (hframe.cdbQueue.trans hq)
    (hframe.fault.trans hf) (hframe.noIssue hB) (run_shaped hs hrun) hwl rfl
  have hcycle : z.cycle = u.cycle + (n + 1) := by rw [hF.cycle]; simp [tick, hwc]; omega
  have hcoh : ∀ x, (stampStart { e with remainingCycles := 1, started := b } { tick w with lsb := [] }).coherentByte x =
      u.coherentByte x :=
    coherentByte_congr (by rw [stampStart_cfg]; exact hframe.cfg) (by rw [stampStart_lines]; exact hframe.lines)
      (by rw [stampStart_mem]; exact hframe.mem)
  refine ⟨_, run_add hrun (run_cons hz rfl), hF.prog.trans hframe.prog, hF.cursor.trans hframe.cursor,
    hF.branchPending.trans hframe.branchPending, hfault.trans hf.symm, hcycle, rfl,
    fun r => (hF.reg r).trans (hframe.reg r), ?_, ?_, ?_, ?_⟩
  · have hpre : (stampStart { e with remainingCycles := 1, started := b } { tick w with lsb := [] }).cdbQueue = [] := by
      rw [stampStart_cdbQueue]
      exact hframe.cdbQueue.trans hq
    rw [hC.queue, hpre, List.nil_append]
    exact commitRequests_congr (t := stampStart _ _) (s := { u with cycle := u.cycle + (n + 1) }) hcoh
      (hC.cycle.symm.trans hcycle) e
  · rw [hC.stations, release_stations, stampStart_stations, release_stations, ← hframe.stations]
    rfl
  · rw [hC.instances, ← hC.cycle, hcycle, stampStart_log]
    exact (congrArg _ hwi).trans (List.modify_modify_eq ..)
  · intro x
    rw [← hcoh x]
    exact hC.coherent x

/-! ### The broadcast of its value -/

/-- A pool of free stations is its names. -/
theorem stations_of_free {u v : State} (hu : ∀ P ∈ u.stations, P = Station.free P.name)
    (hv : ∀ P ∈ v.stations, P = Station.free P.name) (ht : v.tags = u.tags) : v.stations = u.stations := by
  have hpool : ∀ {w : State}, (∀ P ∈ w.stations, P = Station.free P.name) → w.stations = w.tags.map Station.free :=
    fun {w} hw => by
      rw [State.tags, List.map_map]
      exact (List.map_id' _).symm.trans (List.map_congr_left hw)
  rw [hpool hu, hpool hv, ht]

/-- With the only busy station released, the pool is free. -/
theorem Solo.released {u : State} {T : Tag} {S : Station} (hS : Solo u T S) :
    ∀ P ∈ (release T u).stations, P = Station.free P.name := fun P hP => by
  rw [release_stations] at hP
  obtain ⟨Q, hQ, rfl⟩ := List.mem_map.1 hP
  split
  · rfl
  · next hn => exact hS.others Q hQ hn

/-- A broadcast of the only busy station leaves the pool free: it releases that station and no other waits. -/
theorem Solo.broadcast_free {u : State} {q : Request} {S : Station} (hS : Solo u q.station S) :
    ∀ P ∈ (broadcastCore q u).stations, P = Station.free P.name := fun P hP => by
  obtain rfl | ⟨Q, hQ, hn, rfl⟩ := mem_broadcastCore hP
  · rfl
  · have hfree := hS.others Q hQ hn
    have hidle : Q.busy = false := by rw [hfree]; rfl
    simpa [hidle] using hfree

@[simp] theorem tags_broadcastCore (q : Request) (s : State) : (broadcastCore q s).tags = s.tags := by
  have hstamp : ∀ i t, (stampWrite i t).tags = t.tags := fun i t => by rw [State.tags, stampWrite_stations, State.tags]
  have hreg : ∀ T v d t, (regWrite T v d t).tags = t.tags := fun T v d t => by
    rw [State.tags, regWrite_stations, State.tags]
  rw [broadcastCore, tags_release, hstamp, tags_forward, hreg]

/-- A broadcast stamps the log record its station is bound to. -/
theorem broadcastCore_instances {q : Request} {s : State} {i : Nat} (h : s.instanceAt q.station = some i) :
    (broadcastCore q s).instances = s.instances.modify i fun d => { d with write := some s.cycle } := by
  simp [broadcastCore, h, stampWrite]

/-- The broadcast of a register's own result: it becomes ready with the value. -/
theorem broadcastCore_dest {q : Request} {s : State} {d : Reg} (hd : q.dest = some d)
    (hqi : (s.reg d).qi = some q.station) : (broadcastCore q s).reg d = ⟨q.value, none⟩ := by
  simp [reg_broadcastCore, regWrite, hd, hqi]

/-- The next state `v` of `u`, in which the only request `q` has been broadcast: it was of the only busy station, of log
record `i`, and register `d` waited for it. -/
structure Delivered (u v : State) (q : Request) (d : Reg) (i : Nat) : Prop where
  cursor : v.cursor = u.cursor
  fault : v.fault = u.fault
  lsb : v.lsb = u.lsb
  cdbQueue : v.cdbQueue = []
  dest : v.reg d = ⟨q.value, none⟩
  others : ∀ r, r ≠ d → v.reg r = u.reg r
  tags : v.tags = u.tags
  free : ∀ P ∈ v.stations, P = Station.free P.name
  instances : v.instances = u.instances.modify i fun e => { e with write := some (u.cycle + 1) }
  coherent : ∀ x, v.coherentByte x = u.coherentByte x

/-- What the broadcast of the only request does. -/
theorem Solo.delivered {u : State} {q : Request} {S : Station} (hS : Solo u q.station S) {d : Reg} (hd : q.dest = some d)
    (hqi : (u.reg d).qi = some q.station) {i : Nat} (hi : S.instruction = some i) :
    Delivered u (broadcastCore q { tick u with cdbQueue := [] }) q d i := by
  obtain ⟨w, hw⟩ : ∃ w : State, w = { tick u with cdbQueue := [] } := ⟨_, rfl⟩
  have hbound : w.instanceAt q.station = some i := by
    rw [State.instanceAt, show w.station? q.station = some S from hw ▸ hS.here]
    exact hi
  have hreg : ∀ r, w.reg r = u.reg r := fun r => by rw [hw]; rfl
  rw [← hw]
  constructor
  case dest => exact broadcastCore_dest hd ((hreg d).symm ▸ hqi)
  case others =>
    intro r hr
    rw [reg_broadcastCore, reg_regWrite_ne (by rw [hd]; simpa using hr.symm), hreg]
  case free => exact Solo.broadcast_free (hS.congr (v := w) (by rw [hw]; rfl))
  case instances =>
    rw [broadcastCore_instances hbound, hw]
    rfl
  case coherent => exact coherentByte_congr (by simp [hw, tick]) (by simp [hw, tick]) (by simp [hw, tick])
  case tags => rw [tags_broadcastCore, hw]; rfl
  all_goals simp [hw, tick]

/-- The step that broadcasts the only request, of the only busy station. -/
theorem Solo.broadcastStep {u : State} {q : Request} {S : Station} (hS : Solo u q.station S) (hb : S.busy = true)
    (hk : q.station.kind ≠ .branch) (hq : u.cdbQueue = [q]) (hC : q.readyCycle ≤ u.cycle + 1) (hf : u.fault = none)
    (hl : u.lsb = []) (hB : NoIssue u) : step u = .next (broadcastCore q { tick u with cdbQueue := [] }) := by
  obtain ⟨v, hv⟩ : ∃ v, v = broadcastCore q { tick u with cdbQueue := [] } := ⟨_, rfl⟩
  have hwrite : writePhase (tick u) = .ok v := by
    have hselect : selectRequest (tick u).cycle (tick u).cdbQueue = some (q, []) := by
      simp only [tick, hq, selectRequest, hC, if_true]
    simp only [writePhase, hselect, broadcast, hk, if_false, hv]
  have hfree : ∀ P ∈ v.stations, P = Station.free P.name := by
    rw [hv]
    exact Solo.broadcast_free (hS.congr (v := { tick u with cdbQueue := [] }) rfl)
  obtain ⟨hexecute, hmemory, hdeferred⟩ := phases_allFree hfree (by simp [hv, tick, hl])
  have hearly : Sys2Proof.Machine.earlyPhases (tick u) = .ok v := by
    simp only [Sys2Proof.Machine.earlyPhases, hwrite, hexecute, hmemory, hdeferred]
  rw [← hv]
  exact step_noIssue hf (hS.not_terminated hb) hearly (hB.congr (by simp [hv, tick]) (by simp [hv, tick])
    (by simp [hv, tick]))

/-! ### Their whole life -/

theorem Issued.tags {s t : State} {T : Tag} {o : OpCode} {dest : Option Reg} {S : Station} (hI : Issued s t T o dest S)
    (hS : S.name = T) : t.tags = s.tags := by
  rw [← tags_updStation (f := fun _ => S) (fun _ _ => hS) s, State.tags, hI.station]
  rfl

/-- A memory op that issues in an idle machine, hands over at once and is the last of the program commits M + 1 cycles
after the start, M the frozen latency of its entry. -/
theorem Idle.lands {s t : State} (h : Idle s) (hs : Shaped s) {T : Tag} {o : OpCode} {dest : Option Reg} {j : RegCell}
    {k : Option RegCell} {a : Option I32} {i C : Nat} (hstep : step s = .next t) (hT : T ∈ s.tags)
    (hm : kindIsMem T.kind = true) (hI : Issued (tick s) t T o dest (issuedStation T o dest j k a i C true))
    (hcur : t.cursor = s.cursor + 1) (hend : s.cursor + 1 = s.prog.length) {e : LsbEntry} (hl : t.lsb = [e])
    (hM : 1 ≤ e.remainingCycles) (hst : e.started = false) :
    Solo t T (issuedStation T o dest j k a i C true) ∧ NoIssue t ∧ t.fault = none ∧
      ∃ z, runs (e.remainingCycles + 1) s z ∧ Landed t z e (s.cycle + 2) (s.cycle + 1 + e.remainingCycles) := by
  have hS := hI.solo h hT rfl
  have hB : NoIssue t := noIssue_end (hcur.trans (hend.trans (congrArg List.length hI.frame.prog.symm)))
  have hfault : t.fault = none := hI.fault.trans h.fault
  obtain ⟨n, hn⟩ := Nat.exists_eq_add_of_le' hM
  obtain ⟨z, hrun, hL⟩ :=
    hS.lands rfl hm rfl (hI.frame.cdbQueue.trans h.cdbQueue) hfault hB (step_shaped hs hstep) hl hn hst
  have hcycle : t.cycle = s.cycle + 1 := hI.frame.cycle
  rw [hcycle, ← hn] at hL
  rw [← hn] at hrun
  exact ⟨hS, hB, hfault, z, run_cons hstep hrun, hL⟩

theorem FirstFree.tag_kind {s : State} {k : Kind} {T : Tag} (h : FirstFree s k T) : T ∈ s.tags ∧ T.kind = k := by
  obtain ⟨before, S, after, hpool, rfl, hk, -⟩ := h
  exact ⟨List.mem_map_of_mem (by simp [hpool]), hk⟩

/-- Settles O59: the store issues, counts down alone, and commits in its last cycle, which writes its bytes and releases
its station. -/
theorem isolatedStoreRunsToMemory : Obligations.IsolatedStoreRunsToMemory := by
  intro p hp s d rb off T b bs h hs hrec hend hfirst hroom hseq hbase hdata hb hea hbs hM
  obtain ⟨hT, hkind⟩ := hfirst.tag_kind
  have hlsb : (tick s).lsb = [] := h.lsb
  obtain ⟨t, hexec, hI, hcur, -, -, hl⟩ := storeIssuesAndEntersTheLsb p hp d rb off (tick s) T b bs ⟨h.branch, hfirst⟩
    (by rw [HasRoom, hlsb]; exact hroom) hbase hdata hb hea hbs hseq
  rw [hlsb, List.nil_append] at hl
  obtain ⟨hS, -, hfault, z, hrun, hL⟩ := h.lands hs (h.step_of_exec hrec (by omega) hexec) hT (by rw [hkind]; rfl) hI
    hcur hend hl hM rfl
  refine ⟨z, hrun, fun x => ?_, fun r => ?_, ?_, hL.lsb, hL.queue, ?_, hL.cursor.trans hcur, hL.fault.trans hfault⟩
  · rw [hL.coherent x, hI.frame.coherent x]
    exact if_congr (LsbEntry.stores_iff rfl x) rfl rfl
  · exact (hL.reg r).trans (hI.others r (by simp))
  · refine stations_of_free h.stations ?_ ?_
    · rw [hL.stations]
      exact hS.released
    · rw [State.tags, hL.stations]
      exact (tags_release T t).trans (hI.tags rfl)
  · rw [hL.instances, hI.log]
    exact modify_last _ _ _

/-- Settles O58: the load issues, counts down alone, commits in its last cycle, and its value is broadcast in the next. -/
theorem isolatedLoadRunsToItsValue : Obligations.IsolatedLoadRunsToItsValue := by
  intro p hp s d rb off T b dec hdec h hs hrec hend hfirst hroom hseq hbase hb hea hM
  obtain ⟨hT, hkind⟩ := hfirst.tag_kind
  have hlsb : (tick s).lsb = [] := h.lsb
  obtain ⟨t, hexec, hI, hcur, -, -, hl⟩ := loadIssuesAndEntersTheLsb p hp d rb off (tick s) T b ⟨h.branch, hfirst⟩
    (by rw [HasRoom, hlsb]; exact hroom) hbase hb hea hseq
  rw [hlsb, List.nil_append] at hl
  obtain ⟨hS, hB, hfault, z, hrun, hL⟩ := h.lands hs (h.step_of_exec hrec (by omega) hexec) hT (by rw [hkind]; rfl) hI
    hcur hend hl hM rfl
  obtain ⟨q, hq⟩ : ∃ q : Request, q = ⟨T, dec s.instances.length (s.memRead (b + off.toInt).toNat p.2.2.2),
      some (p.2.2.1 d), p.1, z.cycle + 1⟩ := ⟨_, rfl⟩
  have hqueue : z.cdbQueue = [q] := by
    rw [hL.queue, ← hL.cycle, commitRequests_congr (t := { t with cycle := z.cycle }) (s := { s with cycle := z.cycle })
      hI.frame.coherent rfl]
    simp only [commitRequests, if_true, loadCodec_of_mem hdec, hq]
    rfl
  obtain rfl : T = q.station := by rw [hq]
  have hSz := hS.congr (v := z) hL.stations
  have hstep := hSz.broadcastStep rfl (by rw [hkind]; simp) hqueue (by rw [hq]) (hL.fault.trans hfault) hL.lsb
    (hB.congr hL.prog hL.cursor hL.branchPending)
  have hD := hSz.delivered (d := p.2.2.1 d) (by rw [hq]) (by rw [hL.reg, hI.renamed _ rfl]) rfl
  have hcycle : z.cycle + 1 = s.cycle + 2 + frozenLatency s s.cfg.loadBaseLatency (b + off.toInt).toNat p.2.2.2 := by
    rw [hL.cycle]
    exact Nat.add_right_comm ..
  have hwhole := run_add hrun (run_cons (k := 0) hstep rfl)
  refine ⟨_, hwhole, ?_, fun r hr => ?_, ?_, hD.lsb.trans hL.lsb, hD.cdbQueue, ?_, hD.cursor.trans (hL.cursor.trans hcur),
    hD.fault.trans (hL.fault.trans hfault), fun x => ?_⟩
  · rw [hD.dest, hq]
  · rw [hD.others r hr, hL.reg, hI.others r (by simpa using hr.symm)]
    rfl
  · refine stations_of_free h.stations hD.free ?_
    exact hD.tags.trans ((congrArg _ hL.stations).trans (hI.tags rfl))
  · rw [hD.instances, hL.instances, hI.log, hcycle]
    exact (congrArg _ (modify_last ..)).trans (modify_last ..)
  · rw [hD.coherent, hL.coherent, hI.frame.coherent]
    rfl

end Sys2Proof.Machine
end

section
/-! ## Records and packed words (30_encoding.md) -/

namespace Sys2Proof.Machine

open Sys2Proof.Laws

/-! ### Decoding what was encoded (R122 to R124, log 1) -/

/-- The four bytes put back together: each bit lies in the byte its position falls in. -/
theorem i32OfBytes_bytesOfI32 (v : I32) :
    i32OfBytes (v.setWidth 8) ((v >>> 8).setWidth 8) ((v >>> 16).setWidth 8) ((v >>> 24).setWidth 8) = v := by
  unfold i32OfBytes
  ext i hi
  simp only [BitVec.getElem_append, BitVec.getElem_setWidth, BitVec.getLsbD_ushiftRight]
  grind

/-- A present field is packed as its index and an absent one as zero; the op's format tells them apart. -/
theorem unpackField_packField (want : Option RegClass) (i : Fin 32) :
    unpackField want (packField (RegField.ofIndex want i)) = RegField.ofIndex want i := by
  cases want with
  | none => rfl
  | some c =>
    have hi : i.val % 256 = i.val := Nat.mod_eq_of_lt (by omega)
    simp [unpackField, packField, RegField.ofIndex, hi]

/-- Unpacking a packed record gives the record back. -/
theorem unpackRecord_packRecord_make (id : Nat) (o : OpCode) (d s1 s2 b : Fin 32) (off imm : I32) :
    unpackRecord id (packRecord (Record.make id o d s1 s2 b off imm)) = .ok (Record.make id o d s1 s2 b off imm) := by
  have hop : ((o.code.setWidth 8).setWidth 6 : BitVec 6) = o.code := by simp
  have hpad : (o.code.setWidth 8 : Byte).toNat < 64 := by rw [BitVec.toNat_setWidth]; omega
  simp only [packRecord, Record.make, bytesOfI32, List.cons_append, List.nil_append, unpackRecord, hop, hpad, if_true,
    ofCode_code, Option.bind_some, unpackField_packField, i32OfBytes_bytesOfI32]

/-- Every encoded record is a made one, so what holds of made records holds of it. -/
theorem encodeRecord_eq_make (id : Nat) (i : Instr) :
    ∃ d s1 s2 b off imm, encodeRecord id i = Record.make id i.op d s1 s2 b off imm := by
  cases i <;> exact ⟨_, _, _, _, _, _, rfl⟩

/-- Every instruction's record decodes to it. -/
theorem decodeRecord_encodeRecord (id : Nat) (i : Instr) : decodeRecord (encodeRecord id i) = .ok i :=
  match i with
  | .daddi .. => RecordRoundTrip.daddi _ _ _ id
  | .dsubi .. => RecordRoundTrip.dsubi _ _ _ id
  | .lw .. => RecordRoundTrip.lw _ _ _ id
  | .ld .. => RecordRoundTrip.ld _ _ _ id
  | .ls .. => RecordRoundTrip.ls _ _ _ id
  | .ldd .. => RecordRoundTrip.ldd _ _ _ id
  | .sw .. => RecordRoundTrip.sw _ _ _ id
  | .sd .. => RecordRoundTrip.sd _ _ _ id
  | .ss .. => RecordRoundTrip.ss _ _ _ id
  | .sdd .. => RecordRoundTrip.sdd _ _ _ id
  | .addS .. => RecordRoundTrip.addS _ _ _ id
  | .addD .. => RecordRoundTrip.addD _ _ _ id
  | .subS .. => RecordRoundTrip.subS _ _ _ id
  | .subD .. => RecordRoundTrip.subD _ _ _ id
  | .mulS .. => RecordRoundTrip.mulS _ _ _ id
  | .mulD .. => RecordRoundTrip.mulD _ _ _ id
  | .divS .. => RecordRoundTrip.divS _ _ _ id
  | .divD .. => RecordRoundTrip.divD _ _ _ id
  | .beq .. => RecordRoundTrip.beq _ _ _ id
  | .bne .. => RecordRoundTrip.bne _ _ _ id

theorem unpackRecord_encode (i : Instr) : unpackRecord 0 (encode i) = .ok (encodeRecord 0 i) := by
  obtain ⟨d, s1, s2, b, off, imm, hmake⟩ := encodeRecord_eq_make 0 i
  rw [encode, hmake, unpackRecord_packRecord_make]

/-- Settles O2: unpacking inverts packing, and the record decodes to its instruction. -/
theorem decodeOfEncodeIsTheInstruction : Obligations.DecodeOfEncodeIsTheInstruction := fun i => by
  simp only [decodeBytes, unpackRecord_encode, decodeRecord_encodeRecord]

/-! ### The checks of a record (R127, R128) -/

theorem ofCode_eq_some {c : BitVec 6} {o : OpCode} (h : o.code = c) : OpCode.ofCode c = some o := h ▸ ofCode_code o

theorem code_of_ofCode {c : BitVec 6} {o : OpCode} (h : OpCode.ofCode c = some o) : o.code = c := by
  simpa using List.find?_some h

theorem ofCode_eq_none {c : BitVec 6} (h : ∀ o : OpCode, o.code ≠ c) : OpCode.ofCode c = none :=
  Option.eq_none_iff_forall_ne_some.2 fun o ho => h o (code_of_ofCode ho)

/-- The instruction of a record whose op is `o` has the op `o`. -/
theorem op_build (o : OpCode) (r : Record) : (r.build o).op = o := by cases o <;> rfl

theorem checkRecord_of_illegalOp {n i : Nat} {r : Record} (h : ∀ o : OpCode, o.code ≠ r.op) :
    checkRecord n i r = .error .wfOp := by
  simp only [checkRecord, decodeRecord, ofCode_eq_none h]

/-- Settles O4: case by case down the table, up to the first check that fails. -/
theorem recordChecksRunInOrder : Obligations.RecordChecksRunInOrder := by
  refine ⟨fun _ _ _ => checkRecord_of_illegalOp, fun n i r o ho => ?_⟩
  simp only [checkRecord, decodeRecord, ofCode_eq_some ho]
  cases r.regNamesOk with
  | false => rfl
  | true =>
    cases r.fieldsOk o with
    | false => rfl
    | true =>
      cases r.classesOk o with
      | false => rfl
      | true =>
        simp only [if_true, op_build]
        cases r.targetOk o n with
        | false => rfl
        | true => cases r.idOk i <;> rfl

/-! ### The fields of a record that decodes (R122, R124 to R126) -/

/-- A record that decodes passes the four checks it can fail alone, and decodes to what its op builds from it. -/
theorem decodeRecord_ok_checks {r : Record} {i : Instr} (h : decodeRecord r = .ok i) : ∃ o, o.code = r.op ∧
    r.regNamesOk = true ∧ r.fieldsOk o = true ∧ r.classesOk o = true ∧ i = r.build o := by
  unfold decodeRecord at h
  split at h
  · cases h
  · next o ho =>
    split_ifs at h with hn hf hc
    cases h
    exact ⟨o, code_of_ofCode ho, hn, hf, hc, rfl⟩

/-- A field that passes the checks is the one its index and its op's class make. -/
theorem ofIndex_index {want : Option RegClass} {f : Option RegField} (hn : RegField.named f = true)
    (hp : RegField.placed want f = true) (hc : RegField.classed want f = true) :
    RegField.ofIndex want (RegField.index f) = f := by
  match want, f with
  | none, none => rfl
  | none, some _ => simp [RegField.placed] at hp
  | some _, none => simp [RegField.placed] at hp
  | some c, some ⟨cls, idx⟩ =>
    have hle : idx ≤ 31 := by simpa [RegField.named] using hn
    have hidx : idx % 32 = idx := Nat.mod_eq_of_lt (by omega)
    have hcls : cls = c := by simpa [RegField.classed] using hc
    simp [RegField.ofIndex, RegField.index, Fin.ofNat, hidx, hcls]

/-- The record of a built instruction has the op's register fields at the indexes the instruction was built from. -/
theorem encodeRecord_build (id : Nat) (o : OpCode) (r : Record) :
    (encodeRecord id (r.build o)).dest = RegField.ofIndex o.destClass (RegField.index r.dest) ∧
    (encodeRecord id (r.build o)).src1 = RegField.ofIndex o.src1Class (RegField.index r.src1) ∧
    (encodeRecord id (r.build o)).src2 = RegField.ofIndex o.src2Class (RegField.index r.src2) ∧
    (encodeRecord id (r.build o)).base = RegField.ofIndex o.baseClass (RegField.index r.base) := by
  cases o <;> exact ⟨rfl, rfl, rfl, rfl⟩

theorem offset_encodeRecord_build (id : Nat) {o : OpCode} (r : Record) (h : o.format = .ldf ∨ o.format = .stf) :
    (encodeRecord id (r.build o)).offset = r.offset := by
  cases o <;> simp only [OpCode.format, reduceCtorEq, or_self, or_true, true_or] at h
  all_goals rfl

theorem immediate_encodeRecord_build (id : Nat) {o : OpCode} (r : Record) (h : o.format = .ii ∨ o.format = .br) :
    (encodeRecord id (r.build o)).immediate = r.immediate := by
  cases o <;> simp only [OpCode.format, reduceCtorEq, or_self, or_true, true_or] at h
  all_goals rfl

/-- Settles O3: the checks make each register field the one its index and class make, and `build` and `encodeRecord`
carry index, offset and immediate. -/
theorem decodedRecordHasTheInstructionsFields : Obligations.DecodedRecordHasTheInstructionsFields := by
  intro r i h
  obtain ⟨o, hop, hn, hf, hc, rfl⟩ := decodeRecord_ok_checks h
  simp only [Record.regNamesOk, Record.fieldsOk, Record.classesOk, Bool.and_eq_true] at hn hf hc
  obtain ⟨⟨⟨hnd, hn1⟩, hn2⟩, hnb⟩ := hn
  obtain ⟨⟨⟨hfd, hf1⟩, hf2⟩, hfb⟩ := hf
  obtain ⟨⟨⟨hcd, hc1⟩, hc2⟩, hcb⟩ := hc
  obtain ⟨hd, h1, h2, hb⟩ := encodeRecord_build 0 o r
  rw [op_build, hd, h1, h2, hb, ofIndex_index hnd hfd hcd, ofIndex_index hn1 hf1 hc1, ofIndex_index hn2 hf2 hc2,
    ofIndex_index hnb hfb hcb]
  exact ⟨hop.symm, rfl, rfl, rfl, rfl, fun h => (offset_encodeRecord_build 0 r h).symm,
    fun h => (immediate_encodeRecord_build 0 r h).symm⟩

/-! ### Words written out by hand (R123) -/

/-- Settles O1: the decoder runs on each of the five words. -/
theorem handWrittenWordsDecode : Obligations.HandWrittenWordsDecode := by
  unfold Obligations.HandWrittenWordsDecode
  decide

end Sys2Proof.Machine
end

section
/-! ## Issue of FP, integer, deferred memory and branch records (40_cycle_engine.md R164 to R171) -/

namespace Sys2Proof.Machine

/-! ### The tables of the statements -/

/-- What the statements' table says of an FP op is what the model does (R246–R257). -/
theorem frOps_spec {p : OpCode × Kind × (Fin 32 → Fin 32 → Fin 32 → Instr) × (NaN64 → F64 → F64 → F64)}
    (hp : p ∈ frOps) : opKind p.1 = p.2.1 ∧ kindIsMem p.2.1 = false ∧ p.2.1 ≠ .branch ∧
      (∀ fd fs ft s, exec (p.2.2.1 fd fs ft) s = issueRecord p.1 (some (.f fd)) (.f fs) (some (.f ft)) none s) ∧
      ∀ S x y i, S.vj = some x → S.vk = some y → S.instruction = some i →
        stationResult p.1 S = some (p.2.2.2 (resultNaN p.1 i x y) x y) := by
  have hresult : ∀ f o S x y i, S.vj = some x → S.vk = some y → S.instruction = some i →
      resultFr f o S = some (f (resultNaN o i x y) x y) := fun f o S x y i hx hy hi => by simp only [resultFr, hx, hy, hi]
  simp only [frOps, List.mem_cons, List.not_mem_nil, or_false] at hp
  obtain rfl | rfl | rfl | rfl | rfl | rfl | rfl | rfl := hp <;>
    exact ⟨rfl, rfl, nofun, fun _ _ _ _ => rfl, hresult _ _⟩

theorem iiOps_spec {p : OpCode × (Fin 32 → Fin 32 → I32 → Instr) × (NaN64 → F64 → F64 → F64)} (hp : p ∈ iiOps) :
    opKind p.1 = .intAdd ∧
      (∀ rt rs imm s, exec (p.2.1 rt rs imm) s = issueRecord p.1 (some (.r rt)) (.r rs) none (some imm) s) ∧
      ∀ S x a i, S.vj = some x → S.a = some a → S.instruction = some i →
        stationResult p.1 S =
          some (p.2.2 (resultNaN p.1 i x (F64.ofInt a.toInt)) x (F64.ofInt a.toInt)) := by
  have hresult : ∀ f o S x a i, S.vj = some x → S.a = some a → S.instruction = some i →
      resultIi f o S = some (f (resultNaN o i x (F64.ofInt a.toInt)) x a) :=
    fun f o S x a i hx ha hi => by simp only [resultIi, hx, ha, hi]
  simp only [iiOps, List.mem_cons, List.not_mem_nil, or_false] at hp
  obtain rfl | rfl := hp <;> exact ⟨rfl, fun _ _ _ _ => rfl, hresult _ _⟩

theorem brOps_spec {p : OpCode × (Fin 32 → Fin 32 → I32 → Instr) × (F64 → F64 → Bool)} (hp : p ∈ brOps) :
    opKind p.1 = .branch ∧
      (∀ rs rt target s, exec (p.2.1 rs rt target) s = issueRecord p.1 none (.r rs) (some (.r rt)) (some target) s) ∧
      ∀ S, stationResult p.1 S = some branchToken := by
  simp only [brOps, List.mem_cons, List.not_mem_nil, or_false] at hp
  obtain rfl | rfl := hp <;> exact ⟨rfl, fun _ _ _ _ => rfl, fun _ => rfl⟩

/-! ### An issue without a handover -/

/-- The cursor and the branch block are no part of what `Issued` says. -/
theorem Issued.moved {s c : State} {T : Tag} {o : OpCode} {dest : Option Reg} {S : Station} (h : Issued s c T o dest S)
    (n : Nat) (b : Bool) : Issued s { c with cursor := n, branchPending := b } T o dest S where
  frame := ⟨h.frame.cfg, h.frame.prog, h.frame.cycle, h.frame.cdbQueue, h.frame.mem, h.frame.lines, h.frame.hits,
    h.frame.misses, fun x => (coherentByte_congr rfl rfl rfl x).trans (h.frame.coherent x)⟩
  station := h.station
  log := h.log
  renamed := fun d hd => (reg_congr rfl rfl d).trans (h.renamed d hd)
  others := fun r hr => (reg_congr rfl rfl r).trans (h.others r hr)
  fault := h.fault

/-- The record issues into T: after capture and rename the cursor moves, `b` says whether issue is blocked, and nothing is
handed over. -/
def IssuesInto (s : State) (T : Tag) (o : OpCode) (dest : Option Reg) (j : Reg) (k : Option Reg) (a : Option I32)
    (b : Bool) : Prop :=
  ∃ t, issueRecord o dest j k a s = .next t ∧
    Issued s t T o dest (issuedStation T o dest (s.reg j) (k.map s.reg) a s.instances.length s.cycle false) ∧
    t.cursor = s.cursor + 1 ∧ t.branchPending = b ∧ t.lsb = s.lsb ∧ t.nextSeq = s.nextSeq

section
variable {s : State} {T : Tag} {o : OpCode} {dest : Option Reg} {j : Reg} {k : Option Reg} {a : Option I32}
  {b : Bool}

/-- An issue that ends with its capture, the cursor moved and a branch blocking the next one. -/
theorem issuesInto_of_captured (hb : s.branchPending = false) (hbr : decide (opKind o = .branch) = b)
    (h : issueRecord o dest j k a s = .next (advance
      (if opKind o = .branch then blockIssue (captured T o dest j k a s) else captured T o dest j k a s))) :
    IssuesInto s T o dest j k a b := by
  subst hbr
  refine ⟨_, h, ?_⟩
  split
  · next hk => exact ⟨(captured_issued ..).moved _ _, by simp [hk]⟩
  · next hk => exact ⟨(captured_issued ..).moved _ _, by simp [hk, hb]⟩

/-- A compute record that can issue does (R164–R171). -/
theorem CanIssue.compute (h : CanIssue s (opKind o) T) (hk : kindIsMem (opKind o) = false)
    (hbr : decide (opKind o = .branch) = b) : IssuesInto s T o dest j k a b :=
  issuesInto_of_captured h.1 hbr (issueRecord_compute h.1 (allocate_eq_some.2 h.2) hk)

/-- A memory record that misses an operand of its handover issues and waits (R163, R169). -/
theorem CanIssue.wait (h : CanIssue s (opKind o) T) (hk : kindIsMem (opKind o) = true) (hl : HasRoom s)
    (hp : (s.reg j).qi ≠ none ∨ (opKind o ≠ .load ∧ (k.map s.reg).bind RegCell.qi ≠ none)) :
    IssuesInto s T o dest j k a false := by
  have hT := allocate_eq_some.2 h.2
  have hr : (filledStation T o dest j k a s.instances.length s).ready = false := by
    rw [filledStation_eq, Bool.eq_false_iff, Ne, Station.ready_iff]
    rintro ⟨-, -, hj, hk'⟩
    obtain hp | ⟨hload, hp⟩ := hp
    · exact hp hj
    · exact hk'.elim (fun e => hload ((kind_of_allocate hT).symm.trans e)) hp
  have hne : opKind o ≠ .branch := fun e => by rw [e] at hk; cases hk
  have hi := issueRecord_wait h.1 hT hk hl hr
  exact issuesInto_of_captured h.1 (decide_eq_false hne) (by rwa [if_neg hne])

end

/-- Settles O11: no FP op is a memory op or a branch. -/
theorem fpArithmeticIssues : Obligations.FpArithmeticIssues := by
  intro p hp fd fs ft s T h
  obtain ⟨hkind, hmem, hbr, hexec, -⟩ := frOps_spec hp
  rw [← hkind] at h hmem hbr
  rw [hexec]
  exact h.compute hmem (decide_eq_false hbr)

/-- Settles O12: DADDI and DSUBI issue as compute ops that use slot j alone. -/
theorem integerImmediateIssues : Obligations.IntegerImmediateIssues := by
  intro p hp rt rs imm s T h
  obtain ⟨hkind, hexec, -⟩ := iiOps_spec hp
  rw [← hkind] at h
  rw [hexec]
  exact h.compute (by rw [hkind]; rfl) (by rw [hkind]; rfl)

/-- Settles O15: a load waits for its base alone, a store for its data too. -/
theorem memoryOpWithPendingOperandIsDeferred : Obligations.MemoryOpWithPendingOperandIsDeferred := by
  constructor
  · intro p hp d rb off s T h hroom hq
    obtain ⟨hkind, -, hexec⟩ := loadOps_spec hp
    rw [← hkind] at h
    rw [hexec]
    exact h.wait (by rw [hkind]; rfl) hroom (.inl hq)
  · intro p hp d rb off s T h hroom hq
    obtain ⟨hkind, -, -, hexec⟩ := storeOps_spec hp
    rw [← hkind] at h
    rw [hexec]
    exact h.wait (by rw [hkind]; rfl) hroom (hq.imp_right fun hk => ⟨by simp [hkind], hk⟩)

/-- Settles O16: a branch is the compute op whose issue blocks the next one. -/
theorem branchIssuesAndBlocksIssue : Obligations.BranchIssuesAndBlocksIssue := by
  intro p hp rs rt target s T h
  obtain ⟨hkind, hexec, -⟩ := brOps_spec hp
  rw [← hkind] at h
  rw [hexec]
  exact h.compute (by rw [hkind]; rfl) (by rw [hkind]; rfl)

/-! ### Stalls (R164, 60_exceptions.md R303) -/

/-- An instruction issues as a record of its own op. -/
theorem exec_op (i : Instr) : ∃ d j k a, ∀ s, exec i s = issueRecord i.op d j k a s := by
  cases i <;> exact ⟨_, _, _, _, fun _ => rfl⟩

/-- Settles O17: the three guards of an issue come before its first effect. -/
theorem stalledIssueChangesNothing : Obligations.StalledIssueChangesNothing := by
  intro i s h
  obtain ⟨d, j, k, a, hexec⟩ := exec_op i
  rw [hexec]
  exact issueRecord_stall (h.imp_right (.imp allocate_eq_none.2 (.imp_left kindIsMem_iff.2)))

end Sys2Proof.Machine
end

section
/-! ## Completion, broadcast and branch resolution (40_cycle_engine.md R143 to R152, 44_branch.md R272 to R279) -/

namespace Sys2Proof.Machine

/-! ### The last cycle of a countdown (R152) -/

/-- The last countdown cycle of a compute station queues its result and stamps `exec_end`. -/
theorem countDown_queues {s : State} {T : Tag} {S : Station} {o : OpCode} {v : F64} {i : Nat} (hS : s.station? T = some S)
    (hb : S.busy = true) (he : S.execStarted = true) (hr : S.remainingCycles = 1) (hk : kindIsMem T.kind = false)
    (ho : S.op = some o) (hv : stationResult o S = some v) (hi : S.instruction = some i) :
    ∃ t, countDown T s = .ok t ∧ t.cdbQueue = s.cdbQueue ++ [⟨T, v, S.dest, o, s.cycle + 1⟩] ∧
      t.instances = s.instances.modify i (fun d => { d with execEnd := some s.cycle }) ∧
      t.station? T = some { S with remainingCycles := 0 } ∧ (∀ U, U ≠ T → t.station? U = s.station? U) ∧
      (∀ r, t.reg r = s.reg r) ∧ ∀ a, t.coherentByte a = s.coherentByte a := by
  have hname := station?_name hS
  have hrun : S.running = true := by simp [Station.running, Station.kind, hname, hk, hb, he, hr]
  refine ⟨_, countDown_completes hS hrun hr ho hv, ?_, ?_, ?_, fun U hU => ?_, fun r => ?_, ?_⟩
  · simp [hname]
  · simp [stampBound, hi]
  · rw [station?_stampBound, station?_enqueue, station?_updStation_same, hS, Option.map_some, hr]
    exact fun _ h => h
  · rw [station?_stampBound, station?_enqueue, station?_updStation_ne hU]
    exact fun _ h => h
  · exact reg_congr (by simp) (by simp) r
  · exact coherentByte_congr (by simp) (by simp) (by simp)

/-- A branch has no destination (R124). -/
theorem destClass_of_branch {o : OpCode} (h : opKind o = .branch) : o.destClass = none := by
  cases o <;> cases h <;> rfl

/-- So its station has none where the tags are linked. -/
theorem Linked.branch_dest {s : State} (h : Linked s) {S : Station} (hS : S ∈ s.stations) (hb : S.busy = true)
    (hk : S.kind = .branch) : S.dest = none := by
  obtain ⟨o, -, -, -, hko, -, -, -, -, hslots⟩ := h.bound S hS hb
  have hd := hslots.dest
  rw [destClass_of_branch (hko.trans hk)] at hd
  simpa using hd

/-- Settles O20: the result of an FP station is the IEEE operation on its two captured values. -/
theorem fpResultIsQueuedAtCompletion : Obligations.FpResultIsQueuedAtCompletion := by
  intro p hp s T S x y i hS hb he hr hk ho hx hy hi
  obtain ⟨-, hmem, -, -, hresult⟩ := frOps_spec hp
  exact ⟨_, countDown_queues hS hb he hr (hk ▸ hmem) ho (hresult S x y i hx hy hi) hi⟩

/-- Settles O21: an integer station computes with its immediate, a branch station nothing but its token. -/
theorem integerAndBranchResultsAreQueuedAtCompletion : Obligations.IntegerAndBranchResultsAreQueuedAtCompletion := by
  constructor
  · intro p hp s T S x a i hS hb he hr hk ho hx ha hi
    obtain ⟨-, -, hresult⟩ := iiOps_spec hp
    exact ⟨_, countDown_queues hS hb he hr (by rw [hk]; rfl) ho (hresult S x a i hx ha hi) hi⟩
  · intro p hp s T S i hS hb he hr hk ho hi
    obtain ⟨-, -, hresult⟩ := brOps_spec hp
    have hkind : S.kind = .branch := (congrArg Tag.kind (station?_name hS)).trans hk
    exact ⟨fun h => h.branch_dest (station?_mem hS) hb hkind,
      countDown_queues hS hb he hr (by rw [hk]; rfl) ho (hresult S) hi⟩

/-! ### Selection (R144) -/

/-- The selected request is the first ready one, and the others keep their places. -/
theorem selectRequest_split {C : Nat} {l rest : List Request} {q : Request} (h : selectRequest C l = some (q, rest)) :
    ∃ before after, l = before ++ q :: after ∧ rest = before ++ after ∧ q.readyCycle ≤ C ∧
      ∀ p ∈ before, C < p.readyCycle := by
  induction l generalizing rest with
  | nil => cases h
  | cons a l ih =>
    simp only [selectRequest] at h
    split at h
    · next hready => cases h; exact ⟨[], l, rfl, rfl, hready, nofun⟩
    · next hlate =>
      split at h
      · next p r hr =>
        cases h
        obtain ⟨before, after, rfl, rfl, hready, hbefore⟩ := ih hr
        exact ⟨a :: before, after, rfl, rfl, hready, List.forall_mem_cons.2 ⟨not_le.1 hlate, hbefore⟩⟩
      · cases h

theorem selectRequest_eq_none {C : Nat} {l : List Request} :
    selectRequest C l = none ↔ ∀ p ∈ l, C < p.readyCycle := by
  induction l with
  | nil => simp [selectRequest]
  | cons a l ih =>
    rw [List.forall_mem_cons, ← ih, ← not_le]
    simp only [selectRequest]
    split
    · next hready => simp [hready]
    · next hlate => cases selectRequest C l <;> simp [hlate]

/-- Settles O29: `selectRequest` searches from the front. -/
theorem selectTakesTheFirstReadyRequest : Obligations.SelectTakesTheFirstReadyRequest :=
  fun _ _ => ⟨fun _ _ => selectRequest_split, selectRequest_eq_none⟩

/-! ### The broadcast (R146–R148) -/

/-- The registers after the register write of a broadcast: its destination alone takes the value, unless it waits for
another tag. -/
theorem reg_regWrite (T : Tag) (v : F64) (dest : Option Reg) (s : State) (r : Reg) : (regWrite T v dest s).reg r =
    if dest = some r ∧ ((s.reg r).qi = none ∨ (s.reg r).qi = some T) then ⟨v, none⟩ else s.reg r := by
  by_cases hd : dest = some r
  · subst hd
    cases hq : (s.reg r).qi with
    | none => simp [regWrite, hq]
    | some U => by_cases hU : U = T <;> simp [regWrite, hq, hU]
  · rw [reg_regWrite_ne hd, if_neg fun h => hd h.1]

/-- Settles O30: the three cases of the register write. -/
theorem broadcastWritesItsDestination : Obligations.BroadcastWritesItsDestination := by
  intro T v dest s
  refine ⟨fun d hd hq => ?_, fun d hd hq => ?_, fun d U hd hq hU => ?_, fun r hr => reg_regWrite_ne hr s,
    regWrite_stations .., regWrite_cursor .., coherentByte_congr (by simp) (by simp) (by simp)⟩
  · rw [reg_regWrite, if_pos ⟨hd, .inr hq⟩]
  · rw [reg_regWrite, if_pos ⟨hd, .inl hq⟩]
  · rw [reg_regWrite, if_neg (by simp [hq, hU])]

/-- A broadcast frees its own station. -/
theorem station?_broadcastCore_same {q : Request} {s : State} {S : Station} (hS : s.station? q.station = some S) :
    (broadcastCore q s).station? q.station = some (Station.free q.station) := by
  rw [broadcastCore, release, station?_updStation_same, station?_stampWrite, station?_forward, station?_regWrite, hS]
  · rfl
  · exact fun _ _ => rfl

/-- It forwards its value to the others. -/
theorem station?_broadcastCore_ne {q : Request} {s : State} {U : Tag} {P : Station} (hU : U ≠ q.station)
    (hP : s.station? U = some P) : (broadcastCore q s).station? U = some
      (if P.busy then forwardK q.station q.value s.cycle (forwardJ q.station q.value s.cycle P) else P) := by
  rw [broadcastCore, release, station?_updStation_ne hU, station?_stampWrite, station?_forward, station?_regWrite, hP,
    regWrite_cycle]
  · rfl
  · exact fun _ _ => rfl

/-- Settles O31: the Write phase of such a request is the broadcast, with no resolution behind it. -/
theorem broadcastForwardsAndReleases : Obligations.BroadcastForwardsAndReleases := by
  intro s q rest S i hs hS hi hk
  obtain ⟨u, hu⟩ : ∃ u : State, u = { s with cdbQueue := rest } := ⟨_, rfl⟩
  have hstation : ∀ U, u.station? U = s.station? U := fun U => by rw [hu]; rfl
  have hcycle : u.cycle = s.cycle := by rw [hu]
  have hbound : u.instanceAt q.station = some i := by rw [State.instanceAt, hstation, hS]; exact hi
  refine ⟨broadcastCore q u, by simp only [writePhase, hs, broadcast, hk, if_false, hu], by simp [hu],
    station?_broadcastCore_same ((hstation _).trans hS), ?_, fun U P hU hP => ?_, fun r => ?_, by simp [hu], by simp [hu],
    coherentByte_congr (by simp [hu]) (by simp [hu]) (by simp [hu])⟩
  · rw [broadcastCore_instances hbound, hcycle, hu]
  · refine ⟨_, station?_broadcastCore_ne hU ((hstation U).trans hP), fun hb => by simp [hb], fun hb => ?_⟩
    rw [if_pos hb, forwardJK_eq, hcycle]
    simp [hb]
  · rw [reg_broadcastCore, reg_regWrite, reg_regWrite, hu]
    rfl

/-! ### Branch resolution (44_branch.md R272) -/

/-- Log record `i` is of the branch `p` on registers `rs` and `rt`, and both are ready. -/
structure BranchReady (s : State) (i : Nat) (p : OpCode × (Fin 32 → Fin 32 → I32 → Instr) × (F64 → F64 → Bool))
    (rs rt : Fin 32) (target : I32) : Prop where
  isBranch : p ∈ brOps
  record : ∃ d r, s.instances[i]? = some d ∧ s.prog[d.pc]? = some r ∧
    checkRecord s.prog.length d.pc r = .ok (p.2.1 rs rt target)
  first : (s.reg (.r rs)).qi = none
  second : (s.reg (.r rt)).qi = none

/-- It then settles on the values of its registers. -/
theorem BranchReady.resolve {s : State} {i : Nat} {p : OpCode × (Fin 32 → Fin 32 → I32 → Instr) × (F64 → F64 → Bool)}
    {rs rt : Fin 32} {target : I32} (h : BranchReady s i p rs rt target) : resolve i s =
      .ok (settle i (p.2.2 (s.reg (.r rs)).value (s.reg (.r rt)).value) target s) := by
  obtain ⟨d, r, hd, hr, hc⟩ := h.record
  rw [resolve_branch h.isBranch (recordOf_checked hd hr hc)]
  simp only [resolveWith, readValue_ready h.first, readValue_ready h.second]

/-- The outcome stands in the log: a flush drops only later records. -/
theorem settle_taken (i : Nat) (b : Bool) (target : I32) (s : State) :
    (settle i b target s).instances[i]? = (s.instances[i]?).map fun d => { d with taken := some b } := by
  cases b <;> simp [settle, flush]

/-- Settles O32: the first half reads the settled state, the second is `writePhase_branch`. -/
theorem branchResolvesOnRegisterValues : Obligations.BranchResolvesOnRegisterValues := by
  constructor
  · intro p hp s i d r rs rt target hd hr hc h1 h2
    refine ⟨_, BranchReady.resolve ⟨hp, ⟨d, r, hd, hr, hc⟩, h1, h2⟩, settle_branchPending .., settle_cursor .., ?_,
      reg_congr (by simp) (by simp), coherentByte_congr (by simp) (by simp) (by simp), by simp⟩
    rw [settle_taken, hd]
    rfl
  · intro s q rest h hs hk
    obtain ⟨S, i, d, r, ins, rs, rt, target, b, hS, hi, hd, hr, hc, ho, hw⟩ := writePhase_branch h hs hk
    obtain ⟨rfl, rfl⟩ | ⟨rfl, rfl⟩ := ho
    · exact ⟨_, .head _, S, i, d, r, rs, rt, target, _, hS, hi, hd, hr, hc, hw, rfl⟩
    · exact ⟨_, .tail _ (.head _), S, i, d, r, rs, rt, target, _, hS, hi, hd, hr, hc, hw, rfl⟩

end Sys2Proof.Machine
end

section
/-! ## The cycle, termination and the run (40_cycle_engine.md R140 to R142, R172 to R175) -/

namespace Sys2Proof.Machine

/-! ### The phases of a step (R141, R312) -/

/-- A fatal error in the early phases of a running machine ends its step there. -/
theorem step_of_fatal {s t : State} (hf : s.fault = none) (ht : s.terminated = false)
    (h : earlyPhases (tick s) = .error (.fatal t)) : step s = .next t := by
  simp only [step, hf, ht, h, Bool.false_eq_true, if_false]

/-- Where they go through, the step is the Issue phase. -/
theorem step_of_ok {s t : State} (hf : s.fault = none) (ht : s.terminated = false) (h : earlyPhases (tick s) = .ok t) :
    step s = issuePhase t := by
  simp only [step, hf, ht, h, Bool.false_eq_true, if_false]

theorem issuePhase_of_checked {s : State} {r : Record} {i : Instr} (hr : s.prog[s.cursor]? = some r)
    (hc : checkRecord s.prog.length s.cursor r = .ok i) : issuePhase s = exec i s := by
  simp only [issuePhase, State.recordAtCursor, hr, hc]

theorem issuePhase_of_end {s : State} (h : s.prog.length ≤ s.cursor) : issuePhase s = .next s := by
  simp only [issuePhase, State.recordAtCursor, List.getElem?_eq_none h]

/-- Settles O5: `earlyPhases` stops at the first phase that raises. -/
theorem stepIssuesTheRecordAtTheCursor : Obligations.StepIssuesTheRecordAtTheCursor := by
  intro s hf ht
  refine ⟨fun t hw => step_of_fatal hf ht ?_, fun s1 hw => ⟨executePhase_ne_fatal s1, fun s2 he =>
    ⟨fun t hm => step_of_fatal hf ht ?_, fun s3 hm => ⟨fun t hd => step_of_fatal hf ht ?_, fun s4 hd => ?_⟩⟩⟩⟩
  · simp only [earlyPhases, tick, hw]
  · simp only [earlyPhases, tick, hw, he, hm]
  · simp only [earlyPhases, tick, hw, he, hm, hd]
  · have hstep : step s = issuePhase s4 := step_of_ok hf ht (by simp only [earlyPhases, tick, hw, he, hm, hd])
    exact ⟨fun r i hr hc => hstep.trans (issuePhase_of_checked hr hc), fun hend => hstep.trans (issuePhase_of_end hend)⟩

/-! ### A terminated machine (R174) -/

/-- With every station free no tag can wait and no request can stand: each names a busy station. -/
theorem Linked.quiet {s : State} (h : Linked s) (hB : BranchInFlight s) (hfree : ∀ S ∈ s.stations, S.busy = false) :
    s.cdbQueue = [] ∧ s.branchPending = false ∧ (∀ r, (s.reg r).qi = none) ∧
      ∀ S ∈ s.stations, S = Station.free S.name := by
  have hno : ∀ S ∈ s.stations, S.busy ≠ true := fun S hS hb => by rw [hfree S hS] at hb; cases hb
  refine ⟨List.eq_nil_iff_forall_not_mem.2 fun q hq => ?_, Bool.eq_false_iff.2 fun hb => ?_, fun r => ?_,
    fun S hS => h.free S hS (hfree S hS)⟩
  · obtain ⟨S, hS, -, hb, -⟩ := h.queued q hq
    exact hno S hS hb
  · obtain ⟨S, hS, -, hb⟩ := hB hb
    exact hno S hS hb
  · refine Option.eq_none_iff_forall_ne_some.2 fun T hT => ?_
    obtain ⟨S, hS, -, hb, -⟩ := h.regTag r T hT
    exact hno S hS hb

/-- Settles O51: a terminated machine has every station free. -/
theorem terminatedMachineIsQuiet : Obligations.TerminatedMachineIsQuiet := by
  intro s h hB
  refine ⟨fun q hq => ?_, fun ht => ?_⟩
  · obtain ⟨S, hS, hn, hb, -⟩ := h.queued q hq
    exact ⟨S, hS, hn, hb⟩
  · obtain ⟨-, -, hfree, -⟩ := terminated_iff.1 ht
    exact h.quiet hB hfree

/-! ### The cycle bound (R175) -/

/-- Settles O55: a run asks for termination and for the bound before it asks for fuel. -/
theorem cycleBoundEndsTheRun : Obligations.CycleBoundEndsTheRun := by
  intro s m fuel hm hc hf
  have hbound : s.atBound = true := by simp [State.atBound, hm, hc]
  unfold run
  simp only [hf, hbound, hm, if_true, Option.getD_some]

end Sys2Proof.Machine
end

section
/-! ## A compute op alone in the machine (40_cycle_engine.md R152 to R156, 44_branch.md R270 to R280) -/

namespace Sys2Proof.Machine

/-! ### From its issue to its request -/

/-- Station S of compute op `o` and latency L, the only busy one, is about to start; nothing else is in flight, and nothing
can issue. -/
structure StartsAlone (u : State) (T : Tag) (S : Station) (o : OpCode) (L : Nat) : Prop where
  solo : Solo u T S
  busy : S.busy = true
  compute : kindIsMem T.kind = false
  ready : S.ready = true
  early : S.effCycle < u.cycle + 1
  op : S.op = some o
  latency : latOf u.cfg o = some L
  queue : u.cdbQueue = []
  lsb : u.lsb = []
  fault : u.fault = none
  noIssue : NoIssue u

/-- The step that starts it (R153). -/
theorem StartsAlone.step {u : State} {T : Tag} {S : Station} {o : OpCode} {L : Nat} (h : StartsAlone u T S o L) :
    ∃ w, step u = .next w ∧ FlightFrame u w ∧ Solo w T { S with execStarted := true, remainingCycles := L } ∧
      w.tags = u.tags ∧ w.cycle = u.cycle + 1 ∧ w.cdbQueue = [] ∧ ∀ i, S.instruction = some i →
        w.instances = u.instances.modify i fun d => { d with execStart := some (u.cycle + 1) } := by
  have hkind : S.kind = T.kind := congrArg Tag.kind (station?_name h.solo.here)
  have hSt : Solo (tick u) T S := h.solo.congr rfl
  have hidle := countDown_idle hSt.here (by
    obtain ⟨-, he, -⟩ := Station.ready_iff.1 h.ready
    simp [Station.running, he])
  have hstart := startStation_starts (l := L) hSt.here
    (by simpa [Station.startable, hkind, h.compute, h.ready, tick] using h.early)
    (by simp only [startLatency, h.op, Option.bind_some]; exact h.latency)
  obtain ⟨w, hw⟩ : ∃ w, w = stampBound S (fun d => { d with execStart := some (tick u).cycle })
      (updStation T (fun S => { S with execStarted := true, remainingCycles := L }) (tick u)) := ⟨_, rfl⟩
  rw [← hw] at hstart
  have hSw : Solo w T { S with execStarted := true, remainingCycles := L } :=
    (hSt.update (fun S => { S with execStarted := true, remainingCycles := L }) fun _ h => h).congr (by simp [hw])
  have htags : w.tags = u.tags := by
    rw [State.tags, hw, stampBound_stations]
    exact tags_updStation (f := fun S => { S with execStarted := true, remainingCycles := L }) (fun _ h => h) (tick u)
  have hframe : FlightFrame u w := by constructor <;> simp [hw, tick]
  have hearly : earlyPhases (tick u) = .ok w :=
    Solo.earlyPhases (by simp [writePhase, tick, h.queue, selectRequest]) hSt hSt hSw rfl htags hidle hstart
      (hframe.lsb.trans h.lsb) (.inl (hkind ▸ h.compute))
  exact ⟨w, step_noIssue h.fault (h.solo.not_terminated h.busy) hearly (hframe.noIssue h.noIssue), hframe, hSw, htags,
    by simp [hw, tick], by simp [hw, tick, h.queue], fun i hi => by simp [hw, stampBound, hi, tick]⟩

/-- The state `w` after `u` in which the only busy station S of op `o`, started in cycle `start`, has ended its countdown in
cycle `C` and queued `v`. -/
structure Computed (u w : State) (T : Tag) (S : Station) (o : OpCode) (v : F64) (start C : Nat) : Prop where
  flight : FlightFrame u w
  solo : Solo w T { S with execStarted := true, remainingCycles := 0 }
  tags : w.tags = u.tags
  cycle : w.cycle = C
  queue : w.cdbQueue = [⟨T, v, S.dest, o, C + 1⟩]
  instances : ∀ i, S.instruction = some i →
    w.instances = u.instances.modify i fun d => { d with execStart := some start, execEnd := some C }

/-- It starts in the next cycle and ends L cycles later (R151–R153). -/
theorem StartsAlone.computes {u : State} {T : Tag} {S : Station} {o : OpCode} {L i : Nat} {v : F64}
    (h : StartsAlone u T S o L) (hpos : 1 ≤ L) (hi : S.instruction = some i)
    (hv : ∀ m, stationResult o { S with execStarted := true, remainingCycles := m } = some v) :
    ∃ w, runs (L + 1) u w ∧ Computed u w T S o v (u.cycle + 1) (u.cycle + 1 + L) := by
  obtain ⟨x, hstep, hframe, hSx, htags, hcycle, hqx, hinst⟩ := h.step
  obtain ⟨n, rfl⟩ := Nat.exists_eq_add_of_le' hpos
  obtain ⟨w, hrun, hflight, hstations, hcw, hqw, hiw⟩ := hSx.countdown h.compute n x _ h.busy rfl rfl h.op hv hi hqx
    (hframe.lsb.trans h.lsb) (hframe.fault.trans h.fault) (hframe.noIssue h.noIssue)
  have hname : S.name = T := station?_name h.solo.here
  rw [hcycle] at hcw hqw hiw
  refine ⟨w, run_cons hstep hrun, hframe.trans hflight, ?_, ?_, hcw, hqw, fun j hj => ?_⟩
  · exact (hSx.update (fun _ => { S with execStarted := true, remainingCycles := 0 }) fun _ _ => hname).congr hstations
  · exact (congrArg (List.map Station.name) hstations).trans
      ((tags_updStation (f := fun _ => { S with execStarted := true, remainingCycles := 0 }) (fun _ _ => hname) x).trans
        htags)
  · obtain rfl : i = j := Option.some.inj (hi.symm.trans hj)
    rw [hiw, hinst i hi, List.modify_modify_eq]
    rfl

/-- In an idle machine a step to `t` issues compute op `o` of latency L into T, its operands ready and its result `v`. -/
structure IssuedAlone (s t : State) (T : Tag) (o : OpCode) (dest : Option Reg) (j : RegCell) (k : Option RegCell)
    (a : Option I32) (L : Nat) (v : F64) : Prop where
  idle : Idle s
  step : step s = .next t
  tag : T ∈ s.tags
  compute : kindIsMem T.kind = false
  issued : Issued (tick s) t T o dest (issuedStation T o dest j k a s.instances.length (tick s).cycle false)
  cursor : t.cursor = s.cursor + 1
  lsb : t.lsb = (tick s).lsb
  latency : latOf s.cfg o = some L
  positive : 1 ≤ L
  readyJ : j.qi = none
  readyK : k.bind RegCell.qi = none
  result : ∀ S : Station, S.vj = some j.value → S.vk = k.bind slotValue → S.a = a →
    S.instruction = some s.instances.length → stationResult o S = some v

section
variable {s t : State} {T : Tag} {o : OpCode} {dest : Option Reg} {j : RegCell} {k : Option RegCell} {a : Option I32}
  {L : Nat} {v : F64}

theorem IssuedAlone.empty (h : IssuedAlone s t T o dest j k a L v) : t.lsb = [] := h.lsb.trans h.idle.lsb

theorem IssuedAlone.noFault (h : IssuedAlone s t T o dest j k a L v) : t.fault = none :=
  h.issued.fault.trans h.idle.fault

/-- With nothing to issue after it, its result is queued L + 2 cycles after the start. -/
theorem IssuedAlone.computes (h : IssuedAlone s t T o dest j k a L v) (hB : NoIssue t) :
    ∃ w, runs (L + 2) s w ∧
      Computed t w T (issuedStation T o dest j k a s.instances.length (tick s).cycle false) o v (s.cycle + 2)
        (s.cycle + 2 + L) := by
  have hcycle : t.cycle = s.cycle + 1 := h.issued.frame.cycle
  have hstarts : StartsAlone t T (issuedStation T o dest j k a s.instances.length (tick s).cycle false) o L :=
    { solo := h.issued.solo h.idle h.tag rfl
      busy := rfl
      compute := h.compute
      ready := Station.ready_iff.2 ⟨rfl, rfl, h.readyJ, .inr h.readyK⟩
      early := by rw [hcycle]; simp [issuedStation]
      op := rfl
      latency := by rw [h.issued.frame.cfg]; exact h.latency
      queue := h.issued.frame.cdbQueue.trans h.idle.cdbQueue
      lsb := h.empty
      fault := h.noFault
      noIssue := hB }
  obtain ⟨w, hrun, hC⟩ := hstarts.computes h.positive rfl fun _ => h.result _ (slotValue_ready h.readyJ) rfl rfl rfl
  rw [hcycle] at hC
  exact ⟨w, run_cons h.step hrun, hC⟩

/-- The log after an issue and the stamps of its countdown. -/
theorem Computed.log {w : State} {start C : Nat}
    (hC : Computed t w T (issuedStation T o dest j k a s.instances.length (tick s).cycle false) o v start C)
    (hI : Issued (tick s) t T o dest (issuedStation T o dest j k a s.instances.length (tick s).cycle false)) :
    w.instances = s.instances ++ [⟨s.cursor, o, T, some (s.cycle + 1), some start, some C, none, none⟩] := by
  rw [hC.instances _ rfl, hI.log]
  exact modify_last ..

/-! ### An op with a destination writes it (R146–R148, R156) -/

/-- The last op of the program, with destination `d`, broadcasts its result in the cycle after. -/
theorem IssuedAlone.writes {d : Reg} (h : IssuedAlone s t T o (some d) j k a L v) (hbr : T.kind ≠ .branch)
    (hend : s.cursor + 1 = s.prog.length) :
    ∃ z, runs (L + 3) s z ∧ z.reg d = ⟨v, none⟩ ∧ (∀ r, r ≠ d → z.reg r = s.reg r) ∧ z.stations = s.stations ∧
      z.cdbQueue = [] ∧ z.lsb = [] ∧
      z.instances = s.instances ++ [⟨s.cursor, o, T, some (s.cycle + 1), some (s.cycle + 2), some (s.cycle + 2 + L),
        some (s.cycle + 3 + L), none⟩] ∧
      z.cursor = s.cursor + 1 ∧ z.cycle = s.cycle + 3 + L ∧ z.fault = none ∧
      ∀ x, z.coherentByte x = s.coherentByte x := by
  have hI := h.issued
  have hB : NoIssue t := noIssue_end (h.cursor.trans (hend.trans (congrArg List.length hI.frame.prog.symm)))
  obtain ⟨w, hrun, hC⟩ := h.computes hB
  obtain ⟨q, hq⟩ : ∃ q : Request, q = ⟨T, v, some d, o, s.cycle + 2 + L + 1⟩ := ⟨_, rfl⟩
  have hqueue : w.cdbQueue = [q] := hC.queue.trans (by rw [hq]; rfl)
  have hreg : ∀ r, w.reg r = t.reg r := reg_congr hC.flight.intRegs hC.flight.fpRegs
  obtain rfl : T = q.station := by rw [hq]
  have hfault : w.fault = none := hC.flight.fault.trans h.noFault
  have hwl : w.lsb = [] := hC.flight.lsb.trans h.empty
  have hlast := hC.solo.broadcastStep rfl hbr hqueue (by rw [hq, hC.cycle]) hfault hwl (hC.flight.noIssue hB)
  have hD := hC.solo.delivered (d := d) (by rw [hq]) (by rw [hreg, hI.renamed _ rfl]) rfl
  have hcycle : s.cycle + 2 + L + 1 = s.cycle + 3 + L := Nat.add_right_comm ..
  have hwhole := run_add hrun (run_cons (k := 0) hlast rfl)
  refine ⟨_, hwhole, by rw [hD.dest, hq], fun r hr => ?_, ?_, hD.cdbQueue,
    hD.lsb.trans hwl, ?_, hD.cursor.trans (hC.flight.cursor.trans h.cursor), ?_, hD.fault.trans hfault, fun x => ?_⟩
  · rw [hD.others r hr, hreg, hI.others r (by simpa using hr.symm)]
    rfl
  · exact stations_of_free h.idle.stations hD.free (hD.tags.trans (hC.tags.trans (hI.tags rfl)))
  · rw [hD.instances, hC.log hI, hC.cycle, hcycle]
    exact modify_last ..
  · rw [broadcastCore_cycle, ← hcycle, ← hC.cycle]
    rfl
  · rw [hD.coherent, coherentByte_congr hC.flight.cfg hC.flight.lines hC.flight.mem, hI.frame.coherent]
    rfl

end

/-- Settles O56: the FP op issues, counts down alone, and its result is broadcast in the cycle after. -/
theorem isolatedFpOpRunsToItsResult : Obligations.IsolatedFpOpRunsToItsResult := by
  intro p hp s fd fs ft T L h hrec hend hfirst hL hpos hs ht
  obtain ⟨-, hmem, hbr, -, hresult⟩ := frOps_spec hp
  obtain ⟨hT, hkind⟩ := hfirst.tag_kind
  rw [← hkind] at hmem hbr
  obtain ⟨t, hexec, hI, hcur, -, hlsb, -⟩ := fpArithmeticIssues p hp fd fs ft (tick s) T ⟨h.branch, hfirst⟩
  have hA : IssuedAlone s t T p.1 (some (.f fd)) (s.reg (.f fs)) (some (s.reg (.f ft))) none L _ :=
    ⟨h, h.step_of_exec hrec (by omega) hexec, hT, hmem, hI, hcur, hlsb, hL, hpos, hs, ht,
      fun S hx hy _ hi => hresult S _ _ _ hx (hy.trans (slotValue_ready ht)) hi⟩
  exact ⟨_, hA.writes hbr hend⟩

/-- Settles O57, as O56; its second operand is the immediate. -/
theorem isolatedIntegerOpRunsToItsResult : Obligations.IsolatedIntegerOpRunsToItsResult := by
  intro p hp s rt rs imm T L h hrec hend hfirst hL hpos hs
  obtain ⟨-, -, hresult⟩ := iiOps_spec hp
  obtain ⟨hT, hkind⟩ := hfirst.tag_kind
  obtain ⟨t, hexec, hI, hcur, -, hlsb, -⟩ := integerImmediateIssues p hp rt rs imm (tick s) T ⟨h.branch, hfirst⟩
  have hA : IssuedAlone s t T p.1 (some (.r rt)) (s.reg (.r rs)) none (some imm) L _ :=
    ⟨h, h.step_of_exec hrec (by omega) hexec, hT, by rw [hkind]; rfl, hI, hcur, hlsb, hL, hpos, hs, rfl,
      fun S hx _ ha hi => hresult S _ _ _ hx ha hi⟩
  exact ⟨_, hA.writes (by rw [hkind]; nofun) hend⟩

/-! ### A branch resolves (R149, 44_branch.md R272) -/

/-- Settling the last record of the log with nothing later in flight flushes nothing (R274). -/
theorem settle_eq_settledBranch {i : Nat} {b : Bool} {target : I32} {s : State} (hlog : s.instances.length ≤ i + 1)
    (hstations : ∀ S ∈ s.stations, ∀ j, S.instruction = some j → j ≤ i) (hlsb : ∀ e ∈ s.lsb, e.inst ≤ i) :
    settle i b target s = settledBranch i b target s := by
  cases b with
  | false => rfl
  | true =>
    have hflush : flush i (stamp i (fun d => { d with taken := some true }) s) =
        stamp i (fun d => { d with taken := some true }) s := flush_eq_self (by simpa using hlog) hstations hlsb
    simp only [settle, if_true, hflush]
    rfl

/-- A stamp leaves a branch ready to settle. -/
theorem BranchReady.stamped {u w : State} {i : Nat} {p : OpCode × (Fin 32 → Fin 32 → I32 → Instr) × (F64 → F64 → Bool)}
    {rs rt : Fin 32} {target : I32} (h : BranchReady u i p rs rt target) {f : DynInst → DynInst}
    (hinst : w.instances = u.instances.modify i f) (hf : ∀ d, (f d).pc = d.pc) (hprog : w.prog = u.prog)
    (hreg : ∀ r, w.reg r = u.reg r) : BranchReady w i p rs rt target := by
  obtain ⟨d, r, hd, hr, hc⟩ := h.record
  refine ⟨h.isBranch, ⟨f d, r, by rw [hinst, List.getElem?_modify_eq, hd]; rfl, ?_, ?_⟩, hreg (.r rs) ▸ h.first,
    hreg (.r rt) ▸ h.second⟩
  · rw [hprog, hf]
    exact hr
  · rw [hprog, hf]
    exact hc

/-- The state `v` after the Write phase that follows `u`, in which the branch of log record `i`, the only busy station's,
has resolved with outcome `b`. -/
structure Resolved (u v : State) (i : Nat) (b : Bool) (target : I32) : Prop where
  branchPending : v.branchPending = false
  cursor : v.cursor = if b then target.toInt.toNat else u.cursor
  instances : v.instances = u.instances.modify i fun d => { d with write := some (u.cycle + 1), taken := some b }
  cycle : v.cycle = u.cycle + 1
  tags : v.tags = u.tags
  free : ∀ P ∈ v.stations, P = Station.free P.name
  cdbQueue : v.cdbQueue = []
  reg : ∀ r, v.reg r = u.reg r
  coherent : ∀ x, v.coherentByte x = u.coherentByte x

/-- The Write phase of the only request, of the only busy station: a branch's, bound to the last record of the log. -/
theorem Solo.resolves {u : State} {q : Request} {S : Station} (hS : Solo u q.station S)
    (hk : q.station.kind = .branch) (hdest : q.dest = none) (hq : u.cdbQueue = [q]) (hC : q.readyCycle ≤ u.cycle + 1)
    (hl : u.lsb = []) {i : Nat} (hi : S.instruction = some i) (hlog : u.instances.length ≤ i + 1)
    {p : OpCode × (Fin 32 → Fin 32 → I32 → Instr) × (F64 → F64 → Bool)} {rs rt : Fin 32} {target : I32}
    (hready : BranchReady u i p rs rt target) : ∃ v, writePhase (tick u) = .ok v ∧
      Resolved u v i (p.2.2 (u.reg (.r rs)).value (u.reg (.r rt)).value) target := by
  obtain ⟨x, hx⟩ : ∃ x : State, x = { tick u with cdbQueue := [] } := ⟨_, rfl⟩
  obtain ⟨w, hw⟩ : ∃ w, w = broadcastCore q x := ⟨_, rfl⟩
  have hbound : x.instanceAt q.station = some i := by
    rw [State.instanceAt, show x.station? q.station = some S from hx ▸ hS.here]
    exact hi
  have hreg : ∀ y, w.reg y = u.reg y := fun y => by
    rw [hw, reg_broadcastCore, hdest, hx]
    rfl
  have hinst : w.instances = u.instances.modify i fun d => { d with write := some (u.cycle + 1) } := by
    rw [hw, broadcastCore_instances hbound, hx]
    rfl
  have hprog : w.prog = u.prog := by simp [hw, hx, tick]
  have hwrite : writePhase (tick u) = resolve i w := by
    have hselect : selectRequest (tick u).cycle (tick u).cdbQueue = some (q, []) := by
      simp only [tick, hq, selectRequest, hC, if_true]
    simp only [writePhase, hselect, broadcast, hk, if_true]
    rw [← hx, hbound, hw]
  have hfree : ∀ P ∈ w.stations, P = Station.free P.name := by
    rw [hw]
    exact Solo.broadcast_free (hS.congr (v := x) (by rw [hx]; rfl))
  have hresolve := (hready.stamped hinst (fun _ => rfl) hprog hreg).resolve
  rw [settle_eq_settledBranch (by rw [hinst, List.length_modify]; exact hlog)
    (fun P hP j hj => by rw [hfree P hP] at hj; cases hj) (by simp [hw, hx, tick, hl]), hreg, hreg] at hresolve
  refine ⟨_, hwrite.trans hresolve, rfl, ?_, ?_, ?_, ?_, hfree, ?_, fun y => (reg_congr rfl rfl y).trans (hreg y), ?_⟩
  · simp [settledBranch, hw, hx, tick]
  · simp only [settledBranch, hinst, List.modify_modify_eq]
    rfl
  · simp [settledBranch, hw, hx, tick]
  · exact (congrArg State.tags hw).trans ((tags_broadcastCore q x).trans (by rw [hx]; rfl))
  · simp [settledBranch, hw, hx]
  · exact coherentByte_congr (by simp [settledBranch, hw, hx, tick]) (by simp [settledBranch, hw, hx, tick])
      (by simp [settledBranch, hw, hx, tick])

theorem recordAtCursor_ok {s : State} {i : Instr} (h : s.recordAtCursor = some (.ok i)) :
    ∃ r, s.prog[s.cursor]? = some r ∧ checkRecord s.prog.length s.cursor r = .ok i := by
  unfold State.recordAtCursor at h
  split at h
  · cases h
  · next r hr => exact ⟨r, hr, Option.some.inj h⟩

/-- While a branch is pending a checked program issues nothing (R271). -/
theorem noIssue_blocked {w : State} (hb : w.branchPending = true) (hp : programOk w.prog = true) : NoIssue w := by
  refine ⟨.inr hb, fun r hr => ?_⟩
  obtain ⟨i, hi⟩ := checkRecord_of_firstBadRecord (Option.isNone_iff_eq_none.1 hp) w.cursor r hr
  exact ⟨i, by rwa [Nat.zero_add] at hi⟩

/-- Settles O60: the branch counts down alone with issue blocked, and its token's Write phase resolves it. -/
theorem isolatedBranchResolves : Obligations.IsolatedBranchResolves := by
  intro p hp s rs rt target T L h hprog hrec hfirst hL hpos h1 h2
  obtain ⟨-, -, hresult⟩ := brOps_spec hp
  obtain ⟨hT, hkind⟩ := hfirst.tag_kind
  obtain ⟨r, hr, hc⟩ := recordAtCursor_ok hrec
  obtain ⟨t, hexec, hI, hcur, hbp, hlsb, -⟩ := branchIssuesAndBlocksIssue p hp rs rt target (tick s) T ⟨h.branch, hfirst⟩
  have hB : NoIssue t := noIssue_blocked hbp (by rw [hI.frame.prog]; exact hprog)
  have hA : IssuedAlone s t T p.1 none (s.reg (.r rs)) (some (s.reg (.r rt))) (some target) L branchToken :=
    ⟨h, h.step_of_exec hrec (List.getElem?_eq_some_iff.1 hr).1 hexec, hT, by rw [hkind]; rfl, hI, hcur, hlsb, hL, hpos,
      h1, h2, fun S _ _ _ _ => hresult S⟩
  obtain ⟨u, hrun, hU⟩ := hA.computes hB
  have hlog := hU.log hI
  have hprog' : u.prog = s.prog := hU.flight.prog.trans hI.frame.prog
  have hreg : ∀ y, u.reg y = s.reg y := fun y =>
    (reg_congr hU.flight.intRegs hU.flight.fpRegs y).trans (hI.others y (by simp))
  have hcycle : s.cycle + 2 + L + 1 = s.cycle + 3 + L := Nat.add_right_comm ..
  have hready : BranchReady u s.instances.length p rs rt target :=
    ⟨hp, ⟨_, r, by rw [hlog, List.getElem?_concat_length], by rw [hprog']; exact hr, by rw [hprog']; exact hc⟩,
      hreg (.r rs) ▸ h1, hreg (.r rt) ▸ h2⟩
  obtain ⟨v, hv, hR⟩ := hU.solo.resolves (q := ⟨T, branchToken, none, p.1, s.cycle + 2 + L + 1⟩) hkind rfl hU.queue
    (by rw [hU.cycle]) (hU.flight.lsb.trans hA.empty) rfl (by rw [hlog]; simp) hready
  rw [hreg, hreg] at hR
  have hucur : u.cursor = s.cursor + 1 := hU.flight.cursor.trans hcur
  refine ⟨u, v, hrun, hucur, by rw [hlog]; simp, hv, hR.branchPending, hR.cursor.trans (by rw [hucur]), ?_, ?_,
    stations_of_free h.stations hR.free (hR.tags.trans (hU.tags.trans (hI.tags rfl))), hR.cdbQueue,
    fun y => (hR.reg y).trans (hreg y), fun x => ?_⟩
  · rw [hR.instances, hlog, hU.cycle, hcycle]
    exact modify_last ..
  · rw [hR.cycle, hU.cycle, hcycle]
  · rw [hR.coherent, coherentByte_congr hU.flight.cfg hU.flight.lines hU.flight.mem, hI.frame.coherent]
    rfl

end Sys2Proof.Machine
end

section
/-! ## Integer arithmetic (41_int_imm.md R200 to R202) -/

namespace Sys2Proof.Machine

/-- The bound on an immediate that `F64.add_integral` asks of its small operand. -/
theorem natAbs_immediate_le (a : I32) : a.toInt.natAbs ≤ 2 ^ 32 :=
  (I32.natAbs_le a).trans (by decide)

theorem resultDaddi_integral (n : NaN64) {v : F64} {i : Int} (a : I32) (hv : F64.toInt? v = some i) :
    Integral (resultDaddi n v a) ∧
      ((i + a.toInt).natAbs ≤ 2 ^ 53 → F64.toInt? (resultDaddi n v a) = some (i + a.toInt)) :=
  F64.add_integral hv (toInt?_immediate a) (natAbs_immediate_le a)

/-- DSUBI adds the immediate's negation, which is as small. -/
theorem resultDsubi_integral (n : NaN64) {v : F64} {i : Int} (a : I32) (hv : F64.toInt? v = some i) :
    Integral (resultDsubi n v a) ∧
      ((i - a.toInt).natAbs ≤ 2 ^ 53 → F64.toInt? (resultDsubi n v a) = some (i - a.toInt)) :=
  F64.add_integral hv (F64.toInt?_neg (toInt?_immediate a)) ((Int.natAbs_neg _).trans_le (natAbs_immediate_le a))

/-- Settles O27: both results are sums of an integer-valued operand and a small integer (`F64.add_integral`). -/
theorem integerArithmeticIsExactAndIntegerValued : Obligations.IntegerArithmeticIsExactAndIntegerValued := by
  have habs : ∀ {z : Int}, |z| ≤ 2 ^ 53 → z.natAbs ≤ 2 ^ 53 := fun h => by
    rw [Int.abs_eq_natAbs] at h
    omega
  refine ⟨fun n v i a hv => ⟨fun h => ?_, fun h => ?_⟩, fun n v a hv => ?_⟩
  · exact (resultDaddi_integral n a hv).2 (habs h)
  · exact (resultDsubi_integral n a hv).2 (habs h)
  · obtain ⟨i, hi⟩ := Option.isSome_iff_exists.1 hv
    exact ⟨(resultDaddi_integral n a hi).1, (resultDsubi_integral n a hi).1⟩

end Sys2Proof.Machine
end

section
/-! ## Special values (43_fp_arith.md R242, R243, R245): one lemma per operation and class of operands -/

namespace Sys2Proof.Machine

/-! ### NaN operands -/

theorem F64.add_of_isNaN (n : NaN64) {x y : F64} (h : F64.isNaN x = true ∨ F64.isNaN y = true) :
    F64.add n x y = F64.ofNaN n := if_pos (Bool.or_eq_true_iff.2 h)

theorem F64.mul_of_isNaN (n : NaN64) {x y : F64} (h : F64.isNaN x = true ∨ F64.isNaN y = true) :
    F64.mul n x y = F64.ofNaN n := if_pos (Bool.or_eq_true_iff.2 h)

theorem F64.div_of_isNaN (n : NaN64) {x y : F64} (h : F64.isNaN x = true ∨ F64.isNaN y = true) :
    F64.div n x y = F64.ofNaN n := if_pos (Bool.or_eq_true_iff.2 h)

theorem F64.sub_of_isNaN (n : NaN64) {x y : F64} (h : F64.isNaN x = true ∨ F64.isNaN y = true) :
    F64.sub n x y = F64.ofNaN n := F64.add_of_isNaN n (by rwa [F64.isNaN_neg])

/-! ### Infinities in sums and differences -/

theorem F64.add_of_isInf (n : NaN64) {x y : F64} (hx : F64.isInf x = true) (hy : F64.isInf y = true) :
    F64.add n x y = if F64.sign x = F64.sign y then x else F64.ofNaN n := by
  by_cases hs : F64.sign x = F64.sign y <;> simp [F64.add, F64.notNaN_of_isInf, hx, hy, hs]

theorem F64.sub_of_isInf (n : NaN64) {x y : F64} (hx : F64.isInf x = true) (hy : F64.isInf y = true) :
    F64.sub n x y = if F64.sign x = F64.sign y then F64.ofNaN n else x := by
  rw [F64.sub, F64.add_of_isInf n hx ((F64.isInf_neg y).trans hy), F64.sign_neg]
  cases F64.sign x <;> cases F64.sign y <;> rfl

theorem F64.add_inf_finite (n : NaN64) {x y : F64} (hx : F64.isInf x = true) (hy : F64.isFinite y = true) :
    F64.add n x y = x := by
  simp [F64.add, F64.notNaN_of_isInf hx, F64.notNaN_of_isFinite hy, hx]

theorem F64.add_finite_inf (n : NaN64) {x y : F64} (hx : F64.isInf x = true) (hy : F64.isFinite y = true) :
    F64.add n y x = x := by
  simp [F64.add, F64.notNaN_of_isInf hx, F64.notNaN_of_isFinite hy, hx]

theorem F64.sub_inf_finite (n : NaN64) {x y : F64} (hx : F64.isInf x = true) (hy : F64.isFinite y = true) :
    F64.sub n x y = x := F64.add_inf_finite n hx ((F64.isFinite_neg y).trans hy)

theorem F64.sub_finite_inf (n : NaN64) {x y : F64} (hx : F64.isInf x = true) (hy : F64.isFinite y = true) :
    F64.sub n y x = F64.infinity (!F64.sign x) := by
  have hneg : F64.isInf (F64.neg x) = true := (F64.isInf_neg x).trans hx
  rw [F64.sub, F64.add_finite_inf n hneg hy, F64.eq_infinity hneg, F64.sign_neg]

/-! ### Infinities in products and quotients -/

theorem F64.mul_comm (n : NaN64) (x y : F64) : F64.mul n x y = F64.mul n y x := by
  unfold F64.mul
  rw [Bool.or_comm (F64.isNaN x), Bool.or_comm (F64.isInf x), Bool.or_comm (F64.isZero x), bne_comm,
    Nat.mul_comm (F64.scaledMag x)]

/-- An infinity times what is neither a NaN nor a zero. -/
theorem F64.mul_of_isInf (n : NaN64) {x y : F64} (hx : F64.isInf x = true) (hy : F64.isNaN y = false)
    (h0 : F64.isZero y = false) : F64.mul n x y = F64.infinity (F64.sign x != F64.sign y) := by
  simp [F64.mul, F64.notNaN_of_isInf hx, hx, hy, h0]

theorem F64.mul_zero_inf (n : NaN64) {x y : F64} (hx : F64.isZero x = true) (hy : F64.isInf y = true) :
    F64.mul n x y = F64.ofNaN n := by
  simp [F64.mul, hx, hy]

theorem F64.div_inf_inf (n : NaN64) {x y : F64} (hx : F64.isInf x = true) (hy : F64.isInf y = true) :
    F64.div n x y = F64.ofNaN n := by
  simp [F64.div, hx, hy]

theorem F64.div_finite_inf (n : NaN64) {x y : F64} (hx : F64.isFinite x = true) (hy : F64.isInf y = true) :
    F64.div n x y = F64.zero (F64.sign x != F64.sign y) := by
  simp [F64.div, F64.notNaN_of_isFinite hx, F64.notNaN_of_isInf hy, hy]

theorem F64.div_inf_finite (n : NaN64) {x y : F64} (hx : F64.isInf x = true) (hy : F64.isFinite y = true) :
    F64.div n x y = F64.infinity (F64.sign x != F64.sign y) := by
  simp [F64.div, F64.notNaN_of_isInf hx, F64.notNaN_of_isFinite hy, hx]

/-! ### Sums and differences that are exactly 0 -/

theorem F64.isFinite_zero (s : Bool) : F64.isFinite (F64.zero s) = true :=
  (F64.isFinite_of_isZero (F64.isZero_zero s)).1

theorem F64.add_of_cancel (n : NaN64) {x y : F64} (hx : F64.isFinite x = true) (hy : F64.isFinite y = true)
    (h : F64.scaled x + F64.scaled y = 0) : F64.add n x y = F64.zero (F64.sign x && F64.sign y) :=
  (F64.add_of_finite n hx hy).trans (if_pos h)

theorem F64.sub_of_cancel (n : NaN64) {x y : F64} (hx : F64.isFinite x = true) (hy : F64.isFinite y = true)
    (h : F64.scaled x - F64.scaled y = 0) : F64.sub n x y = F64.zero (F64.sign x && !F64.sign y) := by
  rw [F64.sub, F64.add_of_cancel n hx ((F64.isFinite_neg y).trans hy) (by rwa [F64.scaled_neg]), F64.sign_neg]

/-- A sum of two zeros is −0 only if both are. -/
theorem F64.add_zero_zero (n : NaN64) (s t : Bool) : F64.add n (F64.zero s) (F64.zero t) = F64.zero (s && t) := by
  rw [F64.add_of_cancel n (F64.isFinite_zero s) (F64.isFinite_zero t) (by simp), F64.sign_zero, F64.sign_zero]

/-- A difference of two zeros is −0 only as (−0) − (+0). -/
theorem F64.sub_zero_zero (n : NaN64) (s t : Bool) : F64.sub n (F64.zero s) (F64.zero t) = F64.zero (s && !t) := by
  rw [F64.sub_of_cancel n (F64.isFinite_zero s) (F64.isFinite_zero t) (by simp), F64.sign_zero, F64.sign_zero]

theorem F64.sub_self (n : NaN64) {x : F64} (hx : F64.isFinite x = true) : F64.sub n x x = F64.zero false := by
  rw [F64.sub_of_cancel n hx hx (Int.sub_self _), Bool.and_not_self]

/-- Values that cancel and are no zeros have opposite signs. -/
theorem F64.signs_of_cancel {x y : F64} (h0 : F64.isZero x = false) (h : F64.scaled x + F64.scaled y = 0) :
    (F64.sign x && F64.sign y) = false := by
  have hpos : F64.scaledMag x ≠ 0 := fun h => by simp [F64.isZero_iff.2 h] at h0
  rw [scaled_eq_signed, scaled_eq_signed] at h
  cases hx : F64.sign x with
  | false => rfl
  | true =>
    cases hy : F64.sign y with
    | false => rfl
    | true =>
      simp only [hx, hy, signed, if_true] at h
      omega

theorem F64.add_of_cancel_nonzero (n : NaN64) {x y : F64} (hx : F64.isFinite x = true) (hy : F64.isFinite y = true)
    (h0 : F64.isZero x = false) (h : F64.scaled x + F64.scaled y = 0) : F64.add n x y = F64.zero false := by
  rw [F64.add_of_cancel n hx hy h, F64.signs_of_cancel h0 h]

theorem F64.sub_of_cancel_nonzero (n : NaN64) {x y : F64} (hx : F64.isFinite x = true) (hy : F64.isFinite y = true)
    (h0 : F64.isZero x = false) (h : F64.scaled x - F64.scaled y = 0) : F64.sub n x y = F64.zero false :=
  F64.add_of_cancel_nonzero n hx ((F64.isFinite_neg y).trans hy) h0 (by rwa [F64.scaled_neg])

/-! ### Zero products and quotients, and their signs -/

theorem F64.isZero_mul (n : NaN64) {x y : F64} (hx : F64.isFinite x = true) (hy : F64.isZero y = true) :
    F64.isZero (F64.mul n x y) = true := by
  obtain ⟨fy, my⟩ := F64.isFinite_of_isZero hy
  rw [F64.mul_of_finite n hx fy, my, Nat.mul_zero, F64.round_nothing]
  exact F64.isZero_zero _

theorem F64.isZero_div (n : NaN64) {x y : F64} (hx : F64.isZero x = true) (hy : F64.isFinite y = true)
    (h0 : F64.isZero y = false) : F64.isZero (F64.div n x y) = true := by
  obtain ⟨fx, mx⟩ := F64.isFinite_of_isZero hx
  rw [F64.div_of_finite n fx hy h0, mx, Nat.zero_mul, F64.round_nothing]
  exact F64.isZero_zero _

theorem F64.notNaN_of_isZero {x : F64} (h : F64.isZero x = true) : F64.isNaN x = false :=
  (F64.notNaN_of_isFinite (F64.isFinite_of_isZero h).1).1

/-- A product that is no NaN has the exclusive or of the signs. -/
theorem F64.sign_mul (n : NaN64) {x y : F64} (h : F64.isNaN (F64.mul n x y) = false) :
    F64.sign (F64.mul n x y) = (F64.sign x != F64.sign y) := by
  unfold F64.mul at h ⊢
  split_ifs at h ⊢
  · simp at h
  · simp at h
  · exact F64.sign_infinity _
  · exact F64.sign_round _ _ _

/-- A quotient that is no NaN has the exclusive or of the signs. -/
theorem F64.sign_div (n : NaN64) {x y : F64} (h : F64.isNaN (F64.div n x y) = false) :
    F64.sign (F64.div n x y) = (F64.sign x != F64.sign y) := by
  unfold F64.div at h ⊢
  split_ifs at h ⊢
  · simp at h
  · simp at h
  · exact F64.sign_infinity _
  · exact F64.sign_zero _
  · simp at h
  · exact F64.sign_infinity _
  · exact F64.sign_round _ _ _

/-! ### Finite operands give no NaN -/

theorem F64.notNaN_add (n : NaN64) {x y : F64} (hx : F64.isFinite x = true) (hy : F64.isFinite y = true) :
    F64.isNaN (F64.add n x y) = false := by
  rw [F64.add_of_finite n hx hy]
  split
  · exact F64.notNaN_of_isZero (F64.isZero_zero _)
  · exact F64.isNaN_round _ _ _

theorem F64.notNaN_sub (n : NaN64) {x y : F64} (hx : F64.isFinite x = true) (hy : F64.isFinite y = true) :
    F64.isNaN (F64.sub n x y) = false := F64.notNaN_add n hx ((F64.isFinite_neg y).trans hy)

theorem F64.notNaN_mul (n : NaN64) {x y : F64} (hx : F64.isFinite x = true) (hy : F64.isFinite y = true) :
    F64.isNaN (F64.mul n x y) = false := by
  rw [F64.mul_of_finite n hx hy]
  exact F64.isNaN_round _ _ _

theorem F64.notNaN_div (n : NaN64) {x y : F64} (hx : F64.isFinite x = true) (hy : F64.isFinite y = true)
    (h0 : F64.isZero y = false) : F64.isNaN (F64.div n x y) = false := by
  rw [F64.div_of_finite n hx hy h0]
  exact F64.isNaN_round _ _ _

/-- Settles O25, by the classes of the two operands. -/
theorem specialValuesFollowIeee : Obligations.SpecialValuesFollowIeee := by
  intro n x y
  have hnan : F64.isNaN (F64.ofNaN n) = true := F64.isNaN_ofNaN n
  refine ⟨fun h => ?nan, fun ⟨hx, hy⟩ => ?infInf, fun ⟨hx, hy⟩ => ?infFinite,
    fun ⟨hx, hy, h0⟩ => ?infTimes, fun ⟨hx, hy⟩ => ?zeroTimesInf, fun ⟨hx, hy⟩ => ?overInf, fun ⟨hx, hy, _⟩ => ?infOver,
    F64.add_zero_zero n false false, F64.add_zero_zero n false true, F64.add_zero_zero n true false,
    F64.add_zero_zero n true true, F64.sub_zero_zero n false false, F64.sub_zero_zero n false true,
    F64.sub_zero_zero n true false, F64.sub_zero_zero n true true, F64.sub_self n,
    fun ⟨hx, hy, h0, h⟩ => F64.add_of_cancel_nonzero n hx hy h0 h,
    fun ⟨hx, hy, h0, h⟩ => F64.sub_of_cancel_nonzero n hx hy h0 h,
    fun ⟨hx, hy⟩ => ⟨F64.isZero_mul n hx hy, F64.mul_comm n x y ▸ F64.isZero_mul n hx hy⟩,
    fun ⟨hx, hy, h0⟩ => F64.isZero_div n hx hy h0,
    fun h => F64.sign_mul n (F64.notNaN_of_isZero h), fun h => F64.sign_div n (F64.notNaN_of_isZero h),
    fun ⟨hx, hy⟩ => ⟨F64.notNaN_add n hx hy, F64.notNaN_sub n hx hy, F64.notNaN_mul n hx hy,
      F64.notNaN_div n hx hy⟩⟩
  case nan =>
    rw [F64.add_of_isNaN n h, F64.sub_of_isNaN n h, F64.mul_of_isNaN n h, F64.div_of_isNaN n h]
    exact ⟨hnan, hnan, hnan, hnan⟩
  case infInf =>
    obtain ⟨ny, -, zy⟩ := F64.notNaN_of_isInf hy
    rw [F64.div_inf_inf n hx hy, F64.add_of_isInf n hx hy, F64.sub_of_isInf n hx hy]
    refine ⟨hnan, F64.mul_of_isInf n hx ny zy, fun hs => ?_, fun hs => ?_⟩
    · rw [if_pos hs, if_pos hs]; exact ⟨rfl, hnan⟩
    · rw [if_neg hs, if_neg hs]; exact ⟨hnan, rfl⟩
  case infFinite =>
    exact ⟨F64.add_inf_finite n hx hy, F64.add_finite_inf n hx hy, F64.sub_inf_finite n hx hy,
      F64.sub_finite_inf n hx hy⟩
  case infTimes =>
    have h := F64.mul_of_isInf n hx (F64.notNaN_of_isFinite hy).1 h0
    exact ⟨h, F64.mul_comm n x y ▸ h⟩
  case zeroTimesInf =>
    rw [F64.mul_comm n y x, F64.mul_zero_inf n hx hy]
    exact ⟨hnan, hnan⟩
  case overInf =>
    rw [F64.div_finite_inf n hx hy]
    exact ⟨F64.isZero_zero _, F64.sign_zero _⟩
  case infOver =>
    rw [F64.div_inf_finite n hx hy]
    exact ⟨F64.isInf_infinity _, F64.sign_infinity _⟩

/-! ### The zero divisor (43_fp_arith.md R243) -/

theorem divOrZero_of_isZero (n : NaN64) (x : F64) {y : F64} (h : F64.isZero y = true) :
    divOrZero n x y = F64.zero false := if_pos h

/-- Settles O26: both divisors are zeros, and DIV.S and DIV.D compute the same quotient. -/
theorem divisionByZeroGivesPlusZero : Obligations.DivisionByZeroGivesPlusZero := by
  intro n x y hy
  have h0 : F64.isZero y = true := by
    obtain rfl | rfl := hy
    · exact F64.isZero_zero false
    · exact F64.isZero_zero true
  have h : divOrZero n x y = 0x0000000000000000#64 := divOrZero_of_isZero n x h0
  exact ⟨h, h⟩

end Sys2Proof.Machine
end

section
/-! ## No register is busy at branch resolution (44_branch.md R277, 60_exceptions.md R301) -/

namespace Sys2Proof.Machine

/-- The state does not record `RegisterBusy`, for any register. -/
def NeverBusy (s : State) : Prop := ∀ r, s.fault ≠ some (.registerBusy r)

theorem NeverBusy.congr {s t : State} (h : NeverBusy s) (hf : t.fault = s.fault) : NeverBusy t := fun r => hf ▸ h r

theorem Frame.neverBusy {s t : State} (hf : Frame s t) (h : NeverBusy s) : NeverBusy t :=
  fun r ht => h r (hf.notBusy r ht)

/-- On linked states the Write phase raises nothing: a branch that broadcasts has started, so neither of its slots waits,
and its slots wait for what its source registers wait for (44_branch.md R277). -/
theorem writePhase_fault {s : State} (hl : Linked s) : Cyc.All (fun t => t.fault = s.fault) (writePhase s) := by
  obtain ⟨-, h⟩ | ⟨q, rest, hs, ⟨-, h⟩ | ⟨hk, ⟨i, hi, h⟩ | ⟨-, h⟩⟩⟩ := writePhase_cases (s := s) rfl <;> rw [h]
  · exact rfl
  · exact broadcastCore_fault q { s with cdbQueue := rest }
  · obtain ⟨_, _, _, _, _, target, -, -, -, -, b, hb, -⟩ := resolve_linked hl (selectRequest_perm hs) hk hi
    rw [hb, Cyc.all_ok, settle_fault, broadcastCore_fault]
  · trivial

/-- An issue raises only what its handover raises, which is never `RegisterBusy` (20_memory.md R102). -/
theorem issuePhase_neverBusy {s t : State} (h : NeverBusy s) (hi : issuePhase s = .next t) : NeverBusy t := by
  obtain rfl | ⟨-, o, d, j, k, a, hi⟩ := issuePhase_next_cases hi
  · exact h
  · obtain rfl | ⟨T, u, hu, ht⟩ := issueRecord_next_cases hi
    · exact h
    · have hub : NeverBusy u := hu.neverBusy (h.congr (captured_fault T o d j k a s))
      obtain rfl | rfl | rfl := ht
      · exact hub
      · exact hub.congr (advance_fault u)
      · exact hub.congr rfl

/-- Settles O50: only the Write phase could raise it, at branch resolution, and on linked states it does not. -/
theorem registerBusyIsNeverRaised : Obligations.RegisterBusyIsNeverRaised := by
  intro s t r hl h
  have hs : NeverBusy s := fun r => by simp [(step_next_cases h).1]
  exact step_keeps_linked (P := NeverBusy)
    (hTick := fun _ h => h)
    (hWrite := fun _ hl h => (writePhase_fault hl).mono fun _ hf => h.congr hf)
    (hExecute := fun s _ h => (executePhase_frame s).mono fun _ hf => hf.neverBusy h)
    (hMemory := fun s _ h => (memoryPhase_frame s).mono fun _ hf => hf.neverBusy h)
    (hDeferred := fun s _ h => (deferredPhase_frame s).mono fun _ hf => hf.neverBusy h)
    (hIssue := fun _ _ _ h hi => issuePhase_neverBusy h hi) hl hs h r

end Sys2Proof.Machine
end

section
/-! ## At most one record issues per cycle (70_reset_and_hazards.md R348) -/

namespace Sys2Proof.Machine

/-! ### What the issues fixed in the log, phase by phase -/

/-- What the issues of a run fixed (`DynInst.issued`), oldest first. -/
abbrev IssueLog := List (Nat × OpCode × Tag × Option Nat)

/-- What the issues fixed in the instances of the log. -/
def State.issueLog (s : State) : IssueLog := s.instances.map DynInst.issued

theorem issueLog_of_modify {s t : State} {i : Nat} {f : DynInst → DynInst}
    (ht : t.instances = s.instances.modify i f) (hf : Stamps s.cycle f) : t.issueLog = s.issueLog := by
  rw [State.issueLog, ht]
  exact (hf.logKept i s.instances).issued

theorem Frame.issueLog {s t : State} (h : Frame s t) : t.issueLog = s.issueLog := h.log.issued

theorem broadcastCore_issueLog (q : Request) (s : State) : (broadcastCore q s).issueLog = s.issueLog := by
  cases hi : s.instanceAt q.station with
  | some i => exact issueLog_of_modify (broadcastCore_instances hi) fun _ => ⟨rfl, id⟩
  | none => simp [State.issueLog, broadcastCore, hi, stampWrite]

/-- The flush of a taken branch only drops instances (44_branch.md R274). -/
theorem settle_issueLog_length (i : Nat) (b : Bool) (target : I32) (s : State) :
    (settle i b target s).issueLog.length ≤ s.issueLog.length := by
  cases b <;> simp [State.issueLog, settle, flush]

theorem writePhase_issueLog_length (s : State) :
    Cyc.All (fun u => u.issueLog.length ≤ s.issueLog.length) (writePhase s) := by
  have hcore : ∀ q rest, (broadcastCore q { s with cdbQueue := rest }).issueLog = s.issueLog :=
    fun q rest => broadcastCore_issueLog q { s with cdbQueue := rest }
  obtain ⟨-, h⟩ | ⟨q, rest, -, ⟨-, h⟩ | ⟨-, ⟨i, -, h⟩ | ⟨-, h⟩⟩⟩ := writePhase_cases (s := s) rfl <;> rw [h]
  · exact le_rfl
  · exact (congrArg List.length (hcore q rest)).le
  · rw [← hcore q rest]
    obtain ⟨_, h⟩ | ⟨_, _, _, _, _, target, -, -, -, -, ⟨x, -, -, h⟩ | ⟨-, -, b, h⟩⟩ := resolve_cases (i := i) rfl <;>
      rw [h]
    · trivial
    · exact le_rfl
    · exact settle_issueLog_length i b target _
  · trivial

/-- On linked states there is nothing to flush (`writePhase_branch`), so the Write phase only stamps the log. -/
theorem writePhase_issueLog {s : State} (hl : Linked s) :
    Cyc.All (fun u => u.issueLog = s.issueLog) (writePhase s) := by
  obtain ⟨-, h⟩ | ⟨q, rest, hs, ⟨-, h⟩ | ⟨hk, -⟩⟩ := writePhase_cases (s := s) rfl
  · rw [h]
    exact rfl
  · rw [h]
    exact broadcastCore_issueLog q { s with cdbQueue := rest }
  · obtain ⟨_, i, _, _, _, _, _, _, _, -, -, -, -, -, -, h⟩ := writePhase_branch hl hs hk
    rw [h]
    exact issueLog_of_modify rfl fun _ => ⟨rfl, id⟩

/-- The second log is the first and at most one instance more, which was issued in cycle `C`. -/
def AtMostOneIssued (C : Nat) (l l' : IssueLog) : Prop :=
  ∃ new : List DynInst, new.length ≤ 1 ∧ (∀ d ∈ new, d.issue = some C) ∧ l' = l ++ new.map DynInst.issued

theorem AtMostOneIssued.refl (C : Nat) (l : IssueLog) : AtMostOneIssued C l l :=
  ⟨[], Nat.zero_le 1, nofun, (List.append_nil l).symm⟩

theorem AtMostOneIssued.length_le {C : Nat} {l l' : IssueLog}
    (h : AtMostOneIssued C l l') : l'.length ≤ l.length + 1 := by
  obtain ⟨new, hnew, -, rfl⟩ := h
  simpa using hnew

/-- An issue appends the record's instance to the log (40_cycle_engine.md R165), and its handover only stamps it. -/
theorem issuePhase_issueLog {s t : State} (h : issuePhase s = .next t) :
    AtMostOneIssued s.cycle s.issueLog t.issueLog := by
  obtain rfl | ⟨-, o, d, j, k, a, h⟩ := issuePhase_next_cases h
  · exact .refl _ _
  · obtain rfl | ⟨T, u, hu, ht⟩ := issueRecord_next_cases h
    · exact .refl _ _
    · have htu : t.issueLog = u.issueLog := by obtain rfl | rfl | rfl := ht <;> rfl
      refine ⟨[newInstance o T s], le_rfl, fun x hx => List.mem_singleton.1 hx ▸ rfl, ?_⟩
      rw [htu, hu.issueLog]
      simp [State.issueLog]

/-- What the Write phase leaves true of the log is true of the log that the cycle's one issue is appended to: the phases
between them only stamp it. -/
theorem step_issueLog {Q : IssueLog → Prop} {s t : State} (hs : Q s.issueLog)
    (hw : Cyc.All (fun u => Q u.issueLog) (writePhase (tick s))) (h : step s = .next t) :
    ∃ l, Q l ∧ AtMostOneIssued (s.cycle + 1) l t.issueLog := by
  have hE : Cyc.All (fun u => SameRun (tick s) u ∧ Q u.issueLog) (earlyPhases (tick s)) :=
    (earlyPhases_sameRun (tick s)).and (earlyPhases_frame hw fun _ _ hQ hf => hf.issueLog ▸ hQ)
  obtain ⟨-, ⟨-, rfl⟩ | ⟨-, h | ⟨u, hu, hI⟩⟩⟩ := step_next_cases h
  · exact ⟨_, hs, .refl _ _⟩
  · rw [h] at hE
    exact ⟨_, hE.2, .refl _ _⟩
  · rw [hu] at hE
    obtain ⟨hrun, hQ⟩ := hE
    have hcycle : u.cycle = s.cycle + 1 := hrun.cycle
    exact ⟨_, hQ, hcycle ▸ issuePhase_issueLog hI⟩

/-- Settles O8: only the Issue phase appends to the log, and before it the log grows in no machine and is only stamped in a
linked one. -/
theorem atMostOneIssuePerCycle : Obligations.AtMostOneIssuePerCycle := by
  intro s t h
  constructor
  · obtain ⟨l, hl, hnew⟩ := step_issueLog (Q := fun l => l.length ≤ s.issueLog.length) le_rfl
      (writePhase_issueLog_length (tick s)) h
    have hlen : t.issueLog.length ≤ s.issueLog.length + 1 := hnew.length_le.trans (Nat.add_le_add_right hl 1)
    simpa [State.issueLog] using hlen
  · intro hl
    obtain ⟨_, rfl, new, hnew, hissue, ht⟩ := step_issueLog (Q := fun l => l = s.issueLog) rfl
      (writePhase_issueLog (tick_linked hl)) h
    exact ⟨new, hnew, hissue, ht.trans List.map_append.symm⟩

end Sys2Proof.Machine
end
